-- ==== Sys2Proof/Params.lean ====
section
/-! DEFINITION. The numeric parameters of 00_scope.md rule R7 with the defaults it states. Types and operations are
written in these names; the free values and the parameters that have a type of their own are in Config.lean. -/

namespace Sys2Proof.Config

/-- `N_OBJ`: message objects in the pool (rule R7). -/
@[simp] abbrev nObj : Nat := 32
/-- `RX_FIRST` (rule R7). -/
def rxFirst : Nat := 1
/-- `RX_LAST` (rule R7). -/
def rxLast : Nat := 15
/-- `RX_SPLIT` (rule R7). -/
def rxSplit : Nat := 9
/-- `RX_LOW_LAST = RX_SPLIT - 1` (rule R7). -/
def rxLowLast : Nat := rxSplit - 1
/-- `TX_FIRST` (rule R7). -/
def txFirst : Nat := 16
/-- `TX_NUM` (rule R7). -/
def txNum : Nat := 16
/-- `TX_LAST = TX_FIRST + TX_NUM - 1` (rule R7). -/
def txLast : Nat := txFirst + txNum - 1
/-- `BUSY_RETRIES` (rule R7). -/
def busyRetries : Nat := 6
/-- `BUSY_SPACING_US` (rule R7). -/
def busySpacingUs : Nat := 1
/-- `N_PORTS`: the two constructors of `PortId` (rules R7, R14). -/
def nPorts : Nat := 2
/-- `N_REGS` (rule R7). -/
def nRegs : Nat := 37
/-- `W_REG`: the width of a register access (rule R7). -/
@[simp] abbrev wReg : Nat := 16
/-- `W_CNT`: the width of `tx_next` and `tx_echo` (rule R7). -/
@[simp] abbrev wCnt : Nat := 32

end Sys2Proof.Config
end

