-- ==== Sys2Proof/Word.lean ====
section
/-! DEFINITION. The word types of the rtcan-bb CAN core and their plainest arithmetic. -/

namespace Sys2Proof

/-- One payload byte (rule R97). -/
abbrev Byte := BitVec 8

/-- A register value: `W_REG = 16` bits (rules R7, R9). -/
abbrev Word := BitVec Config.wReg

/-- A transmit counter: `W_CNT = 32` bits, unsigned, wrapping (rules R7, R13). -/
abbrev Counter := BitVec Config.wCnt

/-- A 32-bit quantity: arbitration word, mask word, bitmask composite (rules R25, R90, R93). -/
abbrev Word32 := BitVec 32

/-- A command word `W` of rule R118. -/
abbrev CmdWord := BitVec 128

/-- The two kinds of word the machine decodes: a 128-bit command word (rule R118) and a 16-bit
interrupt-status value (rule R105). -/
inductive Code where
  | cmd (w : CmdWord)
  | int (v : Word)
deriving DecidableEq, Repr

/-- The low half, bits 15:0, of a 32-bit quantity (rule R63). -/
def Word32.lo (w : Word32) : Word := w.extractLsb' 0 16

/-- The high half, bits 31:16, of a 32-bit quantity (rule R63). -/
def Word32.hi (w : Word32) : Word := w.extractLsb' 16 16

/-- `hi :: lo` (rules R9, R63). -/
def joinHalves (hi lo : Word) : Word32 := hi ++ lo

end Sys2Proof
end

