-- ==== Sys2Proof/Records.lean ====
section
/-! DEFINITION. The names and records the spec speaks of: ports, logical registers, frames, events, effects,
message objects, the device's registers, and the moves of the agents. -/

namespace Sys2Proof

/-- An interface port, 0 or 1 (rules R14, R22). -/
inductive PortId where
  | if0
  | if1
deriving DecidableEq, Repr, Inhabited

/-- A message-object slot: the element `i` stands for slot `i + 1` of `1..N_OBJ` (rules R7, R24). -/
abbrev Slot := Fin Config.nObj

/-- The slot index `1..N_OBJ` of the spec (rule R14). -/
def Slot.num (s : Slot) : Nat := s.val + 1

/-- The eleven shadow registers of a port (rule R22), in the order of rule R117. -/
inductive PortReg where
  | comreq | commsk | mask1 | mask2 | arb1 | arb2 | mctrl | data1 | data2 | data3 | data4
deriving DecidableEq, Repr, Inhabited

/-- The four 32-bit bitmask quantities (rule R23). -/
inductive Bitmap where
  | txrqst | newdat | intpnd | msgval
deriving DecidableEq, Repr, Inhabited

/-- The 37 logical registers of the register window (rules R21 to R23, R117).
`half b hi`: `hi = false` is the `...1` half, bits 15:0. -/
inductive Reg where
  | ctrl | sts | errcnt | btr | int | test | brpext
  | port (p : PortId) (r : PortReg)
  | half (b : Bitmap) (hi : Bool)
deriving DecidableEq, Repr, Inhabited

/-- A frame of the host interface (rule R97). -/
structure Frame where
  id   : BitVec 29
  ext  : Bool
  rtr  : Bool
  dlc  : BitVec 4
  data : Vector Byte 8
deriving DecidableEq, Repr, Inhabited

/-- What `ENCODE` returns: `(arbitration_hi, arbitration_lo, control, data_words)` (rule R150). -/
structure EncodedFrame where
  hi      : Word
  lo      : Word
  control : Word
  data    : Vector Word 4
deriving DecidableEq, Repr, Inhabited

/-- A bit-timing parameter record, each field as wide as format `B` gives it (rules R31, R119). -/
structure BitTiming where
  sjw : BitVec 3
  ts1 : BitVec 5
  ps2 : BitVec 4
  brp : BitVec 11
deriving DecidableEq, Repr, Inhabited

/-- The error states `STENTER` enters (rule R192). -/
inductive ErrState where
  | warning | passive | busOff
deriving DecidableEq, Repr, Inhabited

/-- The kinds of a protocol bus error (rule R99). -/
inductive ErrKind where
  | stuff | form | ack | bitDominant | bitRecessive | crc
deriving DecidableEq, Repr, Inhabited

/-- Which side's error counter dominates (rules R99, R192). -/
inductive Side where
  | tx | rx
deriving DecidableEq, Repr, Inhabited

/-- What `Deliver` carries (rule R99). The location flag of a bus error is `Config.locationFlag` of its
kind: the source gives it no value (93_implementation_defined.md U16). -/
inductive BusEvent where
  | data (f : Frame)
  | rxOverflow
  | stateWarning (tec : BitVec 8) (rec : BitVec 7) (side : Side)
  | statePassive (tec : BitVec 8) (rec : BitVec 7) (side : Side)
  | busOff
  | busError (kind : ErrKind)
deriving DecidableEq, Repr, Inhabited

/-- The effects of rule R11 and rule R238. -/
inductive Effect where
  | deliver (ev : BusEvent)
  | loopbackDeliver
  | logTimeout (p : PortId) (s : Slot) (cm : Word)
  | tacRelease
  | tacAbandonAll
  | irqRegister (line : Nat)
  | irqDeregister (line : Nat)
  | ramInit
  | delay (us : Nat)
deriving DecidableEq, Repr, Inhabited

/-- The three locks of rule R33. -/
inductive LockName where
  | controller | dispatch | socket
deriving DecidableEq, Repr, Inhabited

/-- A lock is free, held by this instance's pass, or held by another context (rules R33, R245). -/
inductive Lock where
  | free | pass | other
deriving DecidableEq, Repr, Inhabited

/-- One entry of the ordered record of what the block does: its register accesses, which are
device-visible events (rule R10), its effects (rule R11) and its lock operations (rule R246). -/
inductive Event where
  | read (r : Reg) (v : Word)
  | write (r : Reg) (v : Word)
  | effect (e : Effect)
  | acquire (l : LockName)
  | release (l : LockName)
deriving DecidableEq, Repr, Inhabited

/-- The outcome of a transfer (rule R140). -/
inductive XferOutcome where
  | done | timeout
deriving DecidableEq, Repr, Inhabited

/-- The result an operation reports to its caller. `none` is before any operation, `unit` the result of
an operation whose rule names none. -/
inductive Result where
  | none
  | unit
  | ok
  | resourceUnavailable
  | handled
  | notHandled
  | acquired
  | blocked
  | abandoned
  | word (v : Word)
  | word32 (v : Word32)
  | xfer (o : XferOutcome)
  | encoded (e : EncodedFrame)
  | frame (f : Frame)
  | timingWords (btr brpext : Word)
  | timing (b : BitTiming)
deriving DecidableEq, Repr, Inhabited

/-- A message object `ram[s]` (rule R24). -/
structure MsgObj where
  mask  : Word32
  arb   : Word32
  mctrl : Word
  data  : Vector Byte 8
deriving DecidableEq, Repr, Inhabited

/-- A transfer in flight, the hidden state of rule R37 (a): the slot and the command mask the device took
when `COMREQ` was written, and whether the block has written a shadow register since (rule R144). The slot is `none`
only where a raw write of `COMREQ` named no slot and the device takes none (log 21). -/
structure Xfer where
  slot      : Option Slot
  cm        : Word
  disturbed : Bool
deriving DecidableEq, Repr, Inhabited

/-- The registers of one interface port (rule R22) and its hidden transfer state (rule R37 (a)): the transfer in flight,
and, after a `Timeout` and while BUSY still reads 1, the command mask of the transfer the block has stopped waiting for
(rule R145, log 5). -/
structure PortRegs where
  comreq   : Word
  commsk   : Word
  mask1    : Word
  mask2    : Word
  arb1     : Word
  arb2     : Word
  mctrl    : Word
  data1    : Word
  data2    : Word
  data3    : Word
  data4    : Word
  inflight : Option Xfer
  timedOut : Option Word
deriving DecidableEq, Repr, Inhabited

/-- The CAN controller device: the register window of rules R21 to R23 and the message-object memory of
rule R24. `INT` and the bitmask halves are views (rules R25, R79), so they have no field here;
`statusCause` is the pending status-change cause of rule R37 (b). -/
structure Device where
  ctrl        : Word
  sts         : Word
  errcnt      : Word
  btr         : Word
  test        : Word
  brpext      : Word
  statusCause : Bool
  if0         : PortRegs
  if1         : PortRegs
  ram         : Vector MsgObj Config.nObj
deriving DecidableEq, Repr, Inhabited

/-- A step of the agent `DEV` (rules R12, R75 to R80). `cause` is the device's choice whether the change of
`STS` raises its status-change cause. Of a reception `fdir` is the direction the filter compares when MDIR makes it take
part (rule R93, log 17), and `dir` is the device's choice of the direction bit it leaves in the slot (93 U14). -/
inductive DevStep where
  | setInit
  | setTxok (cause : Bool)
  | setRxok (cause : Bool)
  | setLec (code : BitVec 3) (cause : Bool)
  | setFlags (ewarn epass boff cause : Bool)
  | setErrcnt (v : Word)
  | receive (id : BitVec 29) (xtd fdir dir : Bool) (dlc : BitVec 4) (data : Vector Byte 8)
  | transmitted (s : Slot)
  | finish (p : PortId)
deriving DecidableEq, Repr, Inhabited

/-- The global locks, shared with the host's upper layer and other instances (rules R33, R245). -/
inductive GlobalLock where
  | dispatch | socket
deriving DecidableEq, Repr, Inhabited

/-- One entry of the schedule among the agents (rules R12, R39).
`host w`: a command word at the host's command port. `ifAcquired w`: the second half of `SEND`, a command
word that is given only if the operation before it returned `Acquired` (rule R122). `block w`: an operation
invoked inside the block, internal ones included (rule R113). `line`: the interrupt line starts a pass.
`lineInt v`: a pass in which the read of `INT` returns `v` (rule R121). `dev d`: a step of the device.
`take`, `give`: another context takes or gives back a global lock (rule R245). -/
inductive AgentStep where
  | host (w : CmdWord)
  | ifAcquired (w : CmdWord)
  | block (w : CmdWord)
  | line
  | lineInt (v : Word)
  | dev (d : DevStep)
  | take (l : GlobalLock)
  | give (l : GlobalLock)
deriving DecidableEq, Repr, Inhabited

end Sys2Proof
end

