-- ==== Sys2Proof/Config.lean ====
section
/-! DEFINITION. The parameters of 00_scope.md rule R7 that have a type of their own (the numbers are in Params.lean),
and the free values: constants with no body, one for each thing the spec leaves open while the machine goes on
(93_implementation_defined.md part 1). -/

namespace Sys2Proof.Config

/-- `STATUS_SENTINEL` (rule R7). -/
def statusSentinel : Word := 0x8000#16
/-- `LEC_UNUSED` (rule R7). -/
def lecUnused : BitVec 3 := 7#3
/-- `DEFAULT_PORT` (rules R7, R146). -/
def defaultPort : PortId := .if0
/-- `RX_FILTER_ID` (rule R7). -/
def rxFilterId : Word32 := 0#32
/-- `RX_FILTER_MASK` (rule R7). -/
def rxFilterMask : Word32 := 0#32

/-- A free 16-bit value: what a shadow register reads while BUSY is set (93 U3), which parts of a
timed-out transfer were moved (93 U4), which value a timing register keeps (93 U6), and what `INT` reads in
an unconstrained environment (rule R79). -/
opaque freeWord : Nat → Word

/-- A free message object: slot contents after `RamInit` (93 U2), and what a disturbed *get* brings (R144). -/
opaque freeSlot : Nat → MsgObj

/-- A free message object of a transfer whose command-request word names no slot, or none at all (rules R66, R95,
log 21). -/
opaque freeTarget : Nat → Option Slot

/-- A free bit timing: what a `CHIPCFG` invoked alone with none cached writes (rule R213, log 37). -/
opaque freeTiming : Nat → BitTiming

/-- Free shadow registers: what a disturbed *put* writes (rule R144). -/
opaque freePort : Nat → PortRegs

/-- A free run of device steps between two accesses (rule R69 (d)). -/
opaque freeBurst : Nat → List DevStep

/-- A free number of polls that read BUSY set before the first that reads it clear (rule R143, 93 U18). -/
opaque freePolls : Nat → Nat

/-- A free reply to `IrqRegister` (rule R211, 93 U19) or sample of `loopback_pending` (rule R183). -/
opaque freeBool : Nat → Bool

/-- A free choice of the next agent and its move (rules R12, R39). -/
opaque freeAgent : Nat → AgentStep

/-- The protocol-error-location flag of a bus error, whose value per kind is not given (rule R99, 93 U16). U16 leaves its
type abstract too: that it is a byte is the model's choice (log 27). -/
opaque locationFlag : ErrKind → Byte

end Sys2Proof.Config
end

