-- ==== Sys2Proof/Syntax.lean ====
section
/-! DEFINITION. The operations of the block as syntax: one constructor per row of spec/opcode_table.json
(30_encoding.md rules R105, R113, R119, R120). Operands are the fields of the format, as wide as it gives them. -/

namespace Sys2Proof

/-- The operation set of rule R120 and the five interrupt-status classes of rule R105. Slots `s` are the
6-bit slot indices and register operands `r` the 6-bit register indices of the command word. -/
inductive Instr where
  /-- `REGRD r` (rule R131) -/
  | regrd (r : BitVec 6)
  /-- `REGWR r, v` (rule R132) -/
  | regwr (r : BitVec 6) (v : Word)
  /-- `REGRD32 r` (rule R133) -/
  | regrd32 (r : BitVec 6)
  /-- `GET p, s, m` (rule R141) -/
  | get (p : PortId) (s : BitVec 6) (m : BitVec 8)
  /-- `PUT p, s, m` (rule R142) -/
  | put (p : PortId) (s : BitVec 6) (m : BitVec 8)
  /-- `ENCODE f` (rule R150) -/
  | encode (f : Frame)
  /-- `DECODE p` (rule R151) -/
  | decode (p : PortId)
  /-- `INVAL p, s` (rule R160) -/
  | inval (p : PortId) (s : BitVec 6)
  /-- `RXCFG p, s, mask, idw, mcont` (rule R162) -/
  | rxcfg (p : PortId) (s : BitVec 6) (mask idw : Word32) (mcont : Word)
  /-- `TXSUBMIT f` (rule R164) -/
  | txsubmit (f : Frame)
  /-- `TXDRAIN` (rule R166) -/
  | txdrain
  /-- `RXDRAIN` (rule R171) -/
  | rxdrain
  /-- `RXLOST p, s, c` (rule R167) -/
  | rxlost (p : PortId) (s : BitVec 6) (c : Word)
  /-- `RXMARK p, s, c` (rule R168) -/
  | rxmark (p : PortId) (s : BitVec 6) (c : Word)
  /-- `RXACT p, s, c` (rule R169) -/
  | rxact (p : PortId) (s : BitVec 6) (c : Word)
  /-- `RXACTLOW p, c` (rule R170) -/
  | rxactlow (p : PortId) (c : Word)
  /-- `IRQ` (rule R180) -/
  | irq
  /-- `IEALL e` (rule R224) -/
  | ieall (e : Bool)
  /-- `STCHG` (rule R190) -/
  | stchg
  /-- `STENTER target` (rule R192) -/
  | stenter (target : BitVec 2)
  /-- `LECDEC lec` (rule R197) -/
  | lecdec (lec : BitVec 3)
  /-- `BTCALC` (rule R200) -/
  | btcalc (b : BitTiming)
  /-- `BTAPPLY` (rule R202) -/
  | btapply (b : BitTiming)
  /-- `CFGBT` (rule R203) -/
  | cfgbt (b : BitTiming)
  /-- `BTDECODE btr, brpext` (rule R201) -/
  | btdecode (btr brpext : Word)
  /-- `START` (rule R211) -/
  | start
  /-- `STOP` (rule R215) -/
  | stop
  /-- `CHIPCFG` (rule R213) -/
  | chipcfg
  /-- `TACACQ` (rule R241) -/
  | tacacq
  /-- `TACREL` (rule R242) -/
  | tacrel
  /-- `TACABANDON` (rule R243) -/
  | tacabandon
  /-- a pass in which the read of `INT` returns 0 (rules R105, R121, R181) -/
  | intNone
  /-- a pass in which the read of `INT` returns `STATUS_SENTINEL` (rules R105, R121) -/
  | intStatus
  /-- a pass in which the read of `INT` returns the index of a receive slot (rules R105, R121) -/
  | intRxobj (slot : BitVec 6)
  /-- a pass in which the read of `INT` returns the index of a transmit slot (rules R105, R121) -/
  | intTxobj (slot : BitVec 6)
  /-- a pass in which the read of `INT` returns a value of no branch (rules R105, R184) -/
  | intOther (value : Word)
deriving DecidableEq, Repr

end Sys2Proof
end

