-- ==== Sys2Proof/Machine/State.lean ====
section
/-! DEFINITION. The state of the machine: the controller handle (10_state.md rules R20, R26 to R34), the global
locks (R33), the device (R21 to R25, R37), the host's ghost count (70_reset_and_hazards.md R274), and the model's
own fields for the inputs and outputs that rule R39 leaves outside the state. -/

namespace Sys2Proof.Machine

/-- The register-map variant (rules R7, R8). -/
inductive Variant where
  | mapA | mapB
deriving DecidableEq, Repr, Inhabited

/-- The register access strategy (rules R7, R8, R61). -/
inductive Align where
  | align16 | align32
deriving DecidableEq, Repr, Inhabited

/-- The test mode (rules R7, R214). -/
inductive TestMode where
  | none | loopback | silent | loopbackSilent
deriving DecidableEq, Repr, Inhabited

/-- The operating state (rule R26). -/
inductive OpState where
  | stopped | errorActive | errorWarning | errorPassive | busOff | sleeping
deriving DecidableEq, Repr, Inhabited

/-- The position of the interrupt pass (rule R30). -/
inductive Phase where
  | idle | masked | locked | exiting
deriving DecidableEq, Repr, Inhabited

/-- The controller handle `h` (rule R20). -/
structure Handle where
  base          : Nat
  variant       : Variant
  align         : Align
  irqLine       : Nat
  testMode      : TestMode
  state         : OpState
  lastStatus    : Word
  txNext        : Counter
  txEcho        : Counter
  btCache       : Option BitTiming
  tac           : Option Nat
  irqRegistered : Bool
  phase         : Phase
  lock          : Lock
deriving DecidableEq, Repr

/-- The global locks `G.dispatch` and `G.socket` (rule R33). -/
structure Globals where
  dispatch : Lock
  socket   : Lock
deriving DecidableEq, Repr

/-- The model's own fields for the parameters of the step relation (rule R39). Each list is taken from its
head; what a list does not give is a free value of `Config` when `free` is set, and otherwise the convention
of 95_test_vectors.md (the device idle between accesses, every transfer done at its first poll, registration
successful, no loopback pending, `INT` as the device contract has it). -/
structure Env where
  agenda   : List AgentStep
  bursts   : List (List DevStep)
  polls    : List Nat
  replies  : List Bool
  loopback : List Bool
  intNext  : Option Word
  free     : Bool
  draws    : Nat
deriving DecidableEq, Repr

/-- The state of the whole system: the block, its device, and what its host holds. -/
structure State where
  h      : Handle
  g      : Globals
  dev    : Device
  held   : Nat
  env    : Env
  result : Result
  trace  : List Event
deriving DecidableEq, Repr

/-- The block has no fault outcome (60_exceptions.md rule R235), so there is nothing here to raise. -/
inductive Fault where
deriving DecidableEq, Repr

/-- Why a call is given no meaning (60_exceptions.md rule R232). A refused call changes nothing; every one of
these is safe: a run that contains one proves nothing. -/
inductive Refusal where
  /-- Raised by `exec` for an operation that has no meaning yet. Safe. -/
  | notModelled (mnemonic : String)
  /-- Raised by `START` with no cached bit timing (rule R212 (b)). Safe. -/
  | noBitTiming
  /-- Raised by every operation while `h.state = Sleeping` (rule R27). Safe. -/
  | sleeping
  /-- Raised for an operand outside its range or a reserved command bit (rules R111, R232). Safe. -/
  | operandRange
  /-- Raised by `TXSUBMIT` when the caller holds no admission unit (rule R274). Safe. -/
  | noAdmission
  /-- Raised by the command port for an internal operation (rule R118). Safe. -/
  | internalAtPort
  /-- Raised by a `GET` whose mask has `CM_TXRQST` (rule R141). Safe. -/
  | getWithTxrqst
  /-- Raised by `REGWR` to `ERRCNT`, `INT` or a bitmask register (rule R132). Safe. -/
  | readOnlyWrite
  /-- Raised for a command word whose operation code is not assigned. Rule R111 (g) says such a word is refused; the
name is the model's own, since the list of rule R232 has none for it (log 33). Safe. -/
  | illegalCode
  /-- Raised by a pass while no handler is registered: it cannot begin (rule R180). Safe. -/
  | handlerAbsent
  /-- Raised by a pass while another is in progress: it cannot begin (rule R180). Safe. -/
  | passInProgress
  /-- Raised by every operation when `h.base` is not 4-byte aligned (20_memory.md rule R64). Safe. -/
  | misalignedBase
deriving DecidableEq, Repr

/-- The outcome of an operation or a step. -/
abbrev Outcome := Host.Outcome State Fault Refusal

/-- The handle right after attach (rule R38). -/
def Handle.attach : Handle where
  base := 0
  variant := .mapA
  align := .align16
  irqLine := 0
  testMode := .none
  state := .stopped
  lastStatus := 0
  txNext := 0
  txEcho := 0
  btCache := none
  tac := none
  irqRegistered := false
  phase := .idle
  lock := .free

/-- A slot whose every field is 0: the model's power-on contents (log 1). -/
def MsgObj.zero : MsgObj := ⟨0, 0, 0, Vector.replicate 8 0⟩

/-- A port whose every register is 0, with no transfer in flight and none timed out (log 1). -/
def PortRegs.zero : PortRegs := ⟨0, 0, 0, 0, 0, 0, 0, 0, 0, 0, 0, none, none⟩

/-- The device at power-on: the spec gives no value (rule R38), the model names 0 (log 1). -/
def Device.powerOn : Device where
  ctrl := 0
  sts := 0
  errcnt := 0
  btr := 0
  test := 0
  brpext := 0
  statusCause := false
  if0 := PortRegs.zero
  if1 := PortRegs.zero
  ram := Vector.replicate Config.nObj MsgObj.zero

/-- The environment the model starts with (logs 2, 15). -/
def Env.initial : Env := ⟨[], [], [], [], [], none, false, 0⟩

/-- The machine right after attach (rules R38, R260). -/
def State.reset : State where
  h := Handle.attach
  g := ⟨.free, .free⟩
  dev := Device.powerOn
  held := 0
  env := Env.initial
  result := .none
  trace := []

end Sys2Proof.Machine
end

