-- ==== Sys2Proof/Machine/Flags.lean ====
section
/-! DEFINITION. Bit positions and flag computations: the constants of 30_encoding.md rules R90 to R107, the
bitmask composites (10_state.md rule R25), the device's interrupt value (20_memory.md rule R79). -/

namespace Sys2Proof.Machine

/-! Arbitration word (rule R90). -/
def arbMsgval : Word32 := 0x80000000#32
def arbXtd : Word32 := 0x40000000#32
def arbDir : Word32 := 0x20000000#32
def arbId : Word32 := 0x1FFFFFFF#32

/-! Message-control word (rule R92). -/
def mcDlc : Word := 0x000F#16
def mcEob : Word := 0x0080#16
def mcTxrqst : Word := 0x0100#16
def mcRmten : Word := 0x0200#16
def mcRxie : Word := 0x0400#16
def mcTxie : Word := 0x0800#16
def mcUmask : Word := 0x1000#16
def mcIntpnd : Word := 0x2000#16
def mcMsglst : Word := 0x4000#16
def mcNewdat : Word := 0x8000#16
def mcTx : Word := mcTxie ||| mcTxrqst ||| mcEob
def mcRx : Word := mcRxie ||| mcUmask
def mcRxLast : Word := mcRx ||| mcEob

/-! Mask word (rule R93). -/
def maskMsk : Word32 := 0x1FFFFFFF#32
def maskMdir : Word32 := 0x40000000#32
def maskMxtd : Word32 := 0x80000000#32

/-! Command-mask word (rule R94). -/
def cmDatab : Word := 0x01#16
def cmDataa : Word := 0x02#16
def cmTxrqst : Word := 0x04#16
def cmControl : Word := 0x10#16
def cmArb : Word := 0x20#16
def cmMask : Word := 0x40#16
def cmWr : Word := 0x80#16
def cmAll : Word := 0x77#16
def cmRx : Word := cmAll &&& ~~~cmTxrqst
def cmInval : Word := cmArb ||| cmControl
def cmCtl : Word := cmControl
def cmTx : Word := cmArb ||| cmControl ||| cmTxrqst ||| cmDataa ||| cmDatab

/-! Command-request word (rule R95). -/
def crBusy : Word := 0x8000#16

/-! `CTRL` (rule R100). -/
def ctInit : Word := 0x01#16
def ctIe : Word := 0x02#16
def ctSie : Word := 0x04#16
def ctEie : Word := 0x08#16
def ctDar : Word := 0x20#16
def ctCce : Word := 0x40#16
def ctTest : Word := 0x80#16
def ctAllie : Word := ctIe ||| ctSie ||| ctEie

/-! `STS` (rule R101). -/
def stLec : Word := 0x07#16
def stTxok : Word := 0x08#16
def stRxok : Word := 0x10#16
def stEpass : Word := 0x20#16
def stEwarn : Word := 0x40#16
def stBoff : Word := 0x80#16

/-! `TEST` (rule R106). -/
def tsSilent : Word := 0x08#16
def tsLback : Word := 0x10#16

/-- Some bit of `m` is set in `v`. -/
def hasAny {n : Nat} (v m : BitVec n) : Bool := v &&& m != 0

/-- `v` with the bits of `m` cleared. -/
def clearBits {n : Nat} (v m : BitVec n) : BitVec n := v &&& ~~~m

/-- `v` with the bits of `m` set when `b` holds, cleared otherwise. -/
def putBits {n : Nat} (v m : BitVec n) (b : Bool) : BitVec n := if b then v ||| m else v &&& ~~~m

/-- The bits `STS` accepts from a write: TXOK, RXOK and LEC (rules R66, R76). -/
def stWritable : Word := stTxok ||| stRxok ||| stLec

/-- The flag of a slot that a bitmask register shows (rule R25). -/
def bitmapFlag (b : Bitmap) (o : MsgObj) : Bool :=
  match b with
  | .txrqst => hasAny o.mctrl mcTxrqst
  | .newdat => hasAny o.mctrl mcNewdat
  | .intpnd => hasAny o.mctrl mcIntpnd
  | .msgval => hasAny o.arb arbMsgval

/-- The 32-bit composite of a bitmask register: bit `s - 1` is the flag of slot `s` (rule R25). -/
def bitmapWord (b : Bitmap) (ram : Vector MsgObj Config.nObj) : Word32 :=
  (BitVec.ofFnLE fun i : Slot => bitmapFlag b ram[i]).setWidth 32

/-- The lowest slot whose interrupt is pending (rule R79). -/
def lowestPending (ram : Vector MsgObj Config.nObj) : Option Slot :=
  (List.finRange Config.nObj).find? fun i => bitmapFlag .intpnd ram[i]

/-- What `INT` shows by the device contract: the status-change cause outranks the slots, and of the slots the
lowest pending index is shown (rules R79, R225). -/
def intView (d : Device) : Word :=
  if d.statusCause then Config.statusSentinel
  else match lowestPending d.ram with
    | some s => BitVec.ofNat 16 s.num
    | none => 0#16

/-- The level of the interrupt line (rule R222, hidden state of rule R37 (c)). -/
def lineAsserted (d : Device) : Bool := hasAny d.ctrl ctIe && intView d != 0#16

/-- The test-mode bits (rule R214). -/
def testBits : TestMode → Word
  | .none => 0#16
  | .loopback => tsLback
  | .silent => tsSilent
  | .loopbackSilent => tsLback ||| tsSilent

/-- The error kind of a last-error code; `none` for the codes that report nothing (rule R107). -/
def lecKind (lec : BitVec 3) : Option ErrKind :=
  match lec.toNat with
  | 1 => some .stuff
  | 2 => some .form
  | 3 => some .ack
  | 4 => some .bitDominant
  | 5 => some .bitRecessive
  | 6 => some .crc
  | _ => none

/-- Bit `m` is 1 in `cur` and 0 in `old` (rule R191). -/
def rising (cur old m : Word) : Bool := hasAny cur m && !hasAny old m

/-- Bit `m` is 0 in `cur` and 1 in `old` (rule R193). -/
def falling (cur old m : Word) : Bool := !hasAny cur m && hasAny old m

/-- The side whose counter dominates: the receive side when `rec > tec`, ties to transmit (rule R192). -/
def dominantSide (tec : BitVec 8) (rec : BitVec 7) : Side := if tec.toNat < rec.toNat then .rx else .tx

end Sys2Proof.Machine
end

