-- ==== Sys2Proof/WellFormed.lean ====
section
/-! DEFINITION. The operand ranges of the operations (00_scope.md rule R6, 30_encoding.md rule R111). An
operation with an operand outside them is refused with `OperandRange` (60_exceptions.md rule R232). -/

namespace Sys2Proof

/-- A slot index of `1..N_OBJ` (rule R111 (b)). -/
def slotOk (s : BitVec 6) : Bool := decide (1 ≤ s.toNat ∧ s.toNat ≤ Config.nObj)

/-- A slot index between two bounds, both included. -/
def slotIn (lo hi : Nat) (s : BitVec 6) : Bool := decide (lo ≤ s.toNat ∧ s.toNat ≤ hi)

/-- A register index of `0..36` (rule R117). -/
def regOk (r : BitVec 6) : Bool := decide (r.toNat < Config.nRegs)

/-- The index of the first half of a bitmask register: 29, 31, 33 or 35 (rule R133). -/
def firstHalfOk (r : BitVec 6) : Bool := r == 29#6 || r == 31#6 || r == 33#6 || r == 35#6

/-- A transfer mask: bits 7 and 3 zero, that is a subset of `CM_ALL` (rules R119, R141). -/
def maskOk (m : BitVec 8) : Bool := m &&& 0x88#8 == 0#8

/-- The ranges of rule R200. -/
def BitTiming.inRange (b : BitTiming) : Bool :=
  decide (1 ≤ b.sjw.toNat ∧ b.sjw.toNat ≤ 4 ∧ 2 ≤ b.ts1.toNat ∧ b.ts1.toNat ≤ 16 ∧
    1 ≤ b.ps2.toNat ∧ b.ps2.toNat ≤ 8 ∧ 1 ≤ b.brp.toNat ∧ b.brp.toNat ≤ 1024)

/-- A value of `INT` in a range of slot indices (rule R105). -/
def intIn (lo hi : Nat) (v : Word) : Bool := decide (lo ≤ v.toNat ∧ v.toNat ≤ hi)

/-- A value of `INT` of class `OTHER` (rule R105). -/
def intOtherOk (v : Word) : Bool :=
  v != 0#16 && v != Config.statusSentinel &&
    !intIn Config.rxFirst Config.rxLast v && !intIn Config.txFirst Config.txLast v

/-- Every operand is inside the range its rule states. -/
def Instr.WellFormed : Instr → Bool
  | .regrd r => regOk r
  | .regwr r _ => regOk r
  | .regrd32 r => firstHalfOk r
  | .get _ s m => slotOk s && maskOk m
  | .put _ s m => slotOk s && maskOk m
  | .encode _ => true
  | .decode _ => true
  | .inval _ s => slotOk s
  | .rxcfg _ s _ _ _ => slotIn Config.rxFirst Config.rxLast s
  | .txsubmit _ => true
  | .txdrain => true
  | .rxdrain => true
  | .rxlost _ s _ => slotIn Config.rxFirst Config.rxLast s
  | .rxmark _ s _ => slotIn Config.rxFirst Config.rxLowLast s
  | .rxact _ s _ => slotIn (Config.rxSplit + 1) Config.rxLast s
  | .rxactlow _ _ => true
  | .irq => true
  | .ieall _ => true
  | .stchg => true
  | .stenter t => t != 3#2
  | .lecdec _ => true
  | .btcalc b => b.inRange
  | .btapply b => b.inRange
  | .cfgbt b => b.inRange
  | .btdecode _ _ => true
  | .start => true
  | .stop => true
  | .chipcfg => true
  | .tacacq => true
  | .tacrel => true
  | .tacabandon => true
  | .intNone => true
  | .intStatus => true
  | .intRxobj s => intIn Config.rxFirst Config.rxLast (s.setWidth 16)
  | .intTxobj s => intIn Config.txFirst Config.txLast (s.setWidth 16)
  | .intOther v => intOtherOk v

end Sys2Proof
end

