-- ==== Sys2Proof/Machine/Operands.lean ====
section
/-! DEFINITION. Operand assembly (30_encoding.md rules R108, R109, R117), the bus addresses (20_memory.md rules
R61, R62, R67), and what a transfer moves (41_interface_transactor.md rules R141, R142). -/

namespace Sys2Proof.Machine

/-! Registers. -/

/-- The position of a shadow register in the list of rule R117. -/
def portRegPos : PortReg → Nat
  | .comreq => 0
  | .commsk => 1
  | .mask1 => 2
  | .mask2 => 3
  | .arb1 => 4
  | .arb2 => 5
  | .mctrl => 6
  | .data1 => 7
  | .data2 => 8
  | .data3 => 9
  | .data4 => 10

/-- The position of a bitmask register's first half after index 29 (rule R117). -/
def bitmapPos : Bitmap → Nat
  | .txrqst => 0
  | .newdat => 2
  | .intpnd => 4
  | .msgval => 6

/-- The index of a logical register (rule R117). -/
def regIndex : Reg → Nat
  | .ctrl => 0
  | .sts => 1
  | .errcnt => 2
  | .btr => 3
  | .int => 4
  | .test => 5
  | .brpext => 6
  | .port .if0 r => 7 + portRegPos r
  | .port .if1 r => 18 + portRegPos r
  | .half b hi => 29 + bitmapPos b + hi.toNat

/-- The shadow register at a position (rule R117). -/
def portRegAt : Nat → PortReg
  | 0 => .comreq
  | 1 => .commsk
  | 2 => .mask1
  | 3 => .mask2
  | 4 => .arb1
  | 5 => .arb2
  | 6 => .mctrl
  | 7 => .data1
  | 8 => .data2
  | 9 => .data3
  | _ => .data4

/-- The bitmask half at a position after index 29 (rule R117). -/
def halfAt : Nat → Reg
  | 0 => .half .txrqst false
  | 1 => .half .txrqst true
  | 2 => .half .newdat false
  | 3 => .half .newdat true
  | 4 => .half .intpnd false
  | 5 => .half .intpnd true
  | 6 => .half .msgval false
  | _ => .half .msgval true

/-- The logical register of an index; meaningful for `0..36`, the range `regOk` checks (rule R117). -/
def regOf (r : BitVec 6) : Reg :=
  match r.toNat with
  | 0 => .ctrl
  | 1 => .sts
  | 2 => .errcnt
  | 3 => .btr
  | 4 => .int
  | 5 => .test
  | 6 => .brpext
  | n =>
    if n < 18 then .port .if0 (portRegAt (n - 7))
    else if n < 29 then .port .if1 (portRegAt (n - 18))
    else halfAt (n - 29)

/-- The bitmask register of a first-half index (rule R133). -/
def bitmapOf (r : BitVec 6) : Bitmap :=
  if r == 29#6 then .txrqst else if r == 31#6 then .newdat else if r == 33#6 then .intpnd else .msgval

/-- The registers the block may only read (rules R66, R132). -/
def readOnly : Reg → Bool
  | .errcnt => true
  | .int => true
  | .half _ _ => true
  | _ => false

/-- The address multiplier (rule R61). -/
def alignMult : Align → Nat
  | .align16 => 1
  | .align32 => 2

/-- `REG_OFFSET` is an argument, from variant and register index to a byte offset (rule R61). These are the
constraints of rule R67: injective and even for each variant, and a `...2` half right after its `...1` half. -/
structure LegalOffsets (off : Variant → Nat → Nat) : Prop where
  injective : ∀ v i j, i < Config.nRegs → j < Config.nRegs → off v i = off v j → i = j
  even : ∀ v i, i < Config.nRegs → off v i % 2 = 0
  halves : ∀ v b, off v (regIndex (.half b true)) = off v (regIndex (.half b false)) + 2

/-- `addr(r) = h.base + mult(h.align) * REG_OFFSET(h.variant, r)` (rule R61). -/
def regAddr (off : Variant → Nat → Nat) (h : Handle) (r : Reg) : Nat :=
  h.base + alignMult h.align * off h.variant (regIndex r)

/-- A bus access of rule R62: `MemRead(addr, 2)` that returned `value`, or `MemWrite(addr, 2, value)`. -/
structure BusAccess where
  isWrite : Bool
  addr    : Nat
  value   : Word
deriving DecidableEq, Repr

/-- The bus access of an event, if it is one (rules R10, R62). -/
def busAccessOf (off : Variant → Nat → Nat) (h : Handle) : Event → Option BusAccess
  | .read r v => some ⟨false, regAddr off h r, v⟩
  | .write r v => some ⟨true, regAddr off h r, v⟩
  | .effect _ => none
  | .acquire _ => none
  | .release _ => none

/-- The bus trace of a run (rule R134). -/
def busTrace (off : Variant → Nat → Nat) (h : Handle) (tr : List Event) : List BusAccess :=
  tr.filterMap (busAccessOf off h)

/-! Slots. -/

/-- The slot of a 6-bit index; meaningful for `1..N_OBJ`, the range `slotOk` checks (rule R95). -/
def slotOf (s : BitVec 6) : Slot := Fin.ofNat Config.nObj (s.toNat + (Config.nObj - 1))

/-- `zext_16(s)`: the slot index as a command-request word (rules R95, R109). -/
def slotWord (s : Slot) : Word := BitVec.ofNat 16 s.num

/-- The ring slot `TXSLOT(c) = (c mod 16) + TX_FIRST` of a counter value (rules R13, R109). -/
def txSlot (c : Counter) : Slot := Fin.ofNat Config.nObj (c.toNat % Config.txNum + Config.txFirst - 1)

/-- A counter value is slot-aligned to zero (rule R13 (d)). -/
def slotAligned (c : Counter) : Bool := c.toNat % Config.txNum == 0

/-- The slots from index `lo` to index `hi`, rising. -/
def slotsFrom (lo hi : Nat) : List Slot :=
  (List.finRange Config.nObj).filter fun i => decide (lo ≤ i.num ∧ i.num ≤ hi)

/-! Frames and words. -/

/-- `min(dlc, 8)` (rule R109). -/
def capDlc (d : BitVec 4) : BitVec 4 := if 8 < d.toNat then 8#4 else d

/-- `len(f)`: how many payload bytes count (rule R97). -/
def frameLen (f : Frame) : Nat := if f.rtr then 0 else min f.dlc.toNat 8

/-- The standard identifier `id & 0x7FF` (rule R108). -/
def stdId (id : BitVec 29) : BitVec 29 := id &&& 0x7FF#29

/-- `canon(f)` (rule R98). -/
def canon (f : Frame) : Frame where
  id := if f.ext then f.id else stdId f.id
  ext := f.ext
  rtr := f.rtr
  dlc := capDlc f.dlc
  data := Vector.ofFn fun i : Fin 8 => if i.val < frameLen f then f.data[i] else 0#8

/-- The identifier of a frame placed in the arbitration word, with XTD (rule R108). -/
def idField (f : Frame) : Word32 :=
  if f.ext then arbXtd ||| f.id.setWidth 32 else (stdId f.id).setWidth 32 <<< 18

/-- The arbitration word of a frame (rules R108, R150). -/
def arbOf (f : Frame) : Word32 := arbMsgval ||| idField f ||| (if f.rtr then 0#32 else arbDir)

/-- The message-control word of a frame (rule R150). -/
def controlOf (f : Frame) : Word := mcTx ||| (capDlc f.dlc).setWidth 16

/-- Two payload bytes as a data word, the first in the low byte (rules R63, R96). -/
def pairWord (b0 b1 : Byte) : Word := b1 ++ b0

/-- The four data words of eight payload bytes (rule R96). -/
def dataWords (d : Vector Byte 8) : Vector Word 4 :=
  #v[pairWord d[0] d[1], pairWord d[2] d[3], pairWord d[4] d[5], pairWord d[6] d[7]]

/-- The eight payload bytes of four data words (rule R109). -/
def dataBytes (w : Vector Word 4) : Vector Byte 8 :=
  #v[w[0].extractLsb' 0 8, w[0].extractLsb' 8 8, w[1].extractLsb' 0 8, w[1].extractLsb' 8 8,
     w[2].extractLsb' 0 8, w[2].extractLsb' 8 8, w[3].extractLsb' 0 8, w[3].extractLsb' 8 8]

/-! What a transfer moves. `choice` says, bit by bit, which of the selected targets take the new value: all of
them after a transfer that is done, any of them after a soft failure (rule R145). -/

/-- Every selected target takes its new value. -/
def wholeChoice : Word := 0xFFFF#16

/-- The shadow registers after a *get* with command mask `cm` from slot contents `o` (rule R141). -/
def getRegs (choice cm : Word) (o : MsgObj) (p : PortRegs) : PortRegs :=
  let w := dataWords o.data
  { p with
    mask1 := if hasAny cm cmMask && choice.getLsbD 0 then o.mask.lo else p.mask1
    mask2 := if hasAny cm cmMask && choice.getLsbD 1 then o.mask.hi else p.mask2
    arb1 := if hasAny cm cmArb && choice.getLsbD 2 then o.arb.lo else p.arb1
    arb2 := if hasAny cm cmArb && choice.getLsbD 3 then o.arb.hi else p.arb2
    mctrl := if hasAny cm cmControl && choice.getLsbD 4 then o.mctrl else p.mctrl
    data1 := if hasAny cm cmDataa && choice.getLsbD 5 then w[0] else p.data1
    data2 := if hasAny cm cmDataa && choice.getLsbD 6 then w[1] else p.data2
    data3 := if hasAny cm cmDatab && choice.getLsbD 7 then w[2] else p.data3
    data4 := if hasAny cm cmDatab && choice.getLsbD 8 then w[3] else p.data4 }

/-- The slot after a *get*: with `CM_TXRQST` its NEWDAT is cleared (rule R141). -/
def getSlot (choice cm : Word) (o : MsgObj) : MsgObj :=
  if hasAny cm cmTxrqst && choice.getLsbD 9 then { o with mctrl := clearBits o.mctrl mcNewdat } else o

/-- The control word a *put* leaves: the shadow word when selected, then TXRQST set by `CM_TXRQST` (rule R142). -/
def putControl (cm shadow old : Word) : Word :=
  let c := if hasAny cm cmControl then shadow else old
  if hasAny cm cmTxrqst then c ||| mcTxrqst else c

/-- The slot after a *put* with command mask `cm` from shadow registers `p` (rule R142). -/
def putSlot (choice cm : Word) (p : PortRegs) (o : MsgObj) : MsgObj :=
  let d := dataBytes #v[p.data1, p.data2, p.data3, p.data4]
  let a := hasAny cm cmDataa
  let b := hasAny cm cmDatab
  { mask := if hasAny cm cmMask && choice.getLsbD 0 then joinHalves p.mask2 p.mask1 else o.mask
    arb := if hasAny cm cmArb && choice.getLsbD 1 then joinHalves p.arb2 p.arb1 else o.arb
    mctrl := if choice.getLsbD 2 then putControl cm p.mctrl o.mctrl else o.mctrl
    data := #v[
      if a && choice.getLsbD 3 then d[0] else o.data[0], if a && choice.getLsbD 3 then d[1] else o.data[1],
      if a && choice.getLsbD 4 then d[2] else o.data[2], if a && choice.getLsbD 4 then d[3] else o.data[3],
      if b && choice.getLsbD 5 then d[4] else o.data[4], if b && choice.getLsbD 5 then d[5] else o.data[5],
      if b && choice.getLsbD 6 then d[6] else o.data[6], if b && choice.getLsbD 6 then d[7] else o.data[7]] }

end Sys2Proof.Machine
end

