-- ==== Sys2Proof/Machine/Ops.lean ====
section
/-! DEFINITION. The named operations over the device, the environment and the handle: the device's steps and its
side of a transfer (20_memory.md rules R66, R75 to R80), the register access every operation is written in
(R10, R69), effects, locks, and the entry and the exit of an interrupt pass (60_exceptions.md rules R226, R227). -/

namespace Sys2Proof.Machine

/-! The device's registers. -/

/-- The registers of a port. -/
def portOf (d : Device) (p : PortId) : PortRegs :=
  match p with
  | .if0 => d.if0
  | .if1 => d.if1

/-- The device with the registers of a port replaced. -/
def withPort (d : Device) (p : PortId) (r : PortRegs) : Device :=
  match p with
  | .if0 => { d with if0 := r }
  | .if1 => { d with if1 := r }

/-- A message object. -/
def slotAt (d : Device) (s : Slot) : MsgObj := d.ram[s]

/-- The device with a message object replaced. -/
def withSlot (d : Device) (s : Slot) (o : MsgObj) : Device := { d with ram := d.ram.set s o }

/-- A shadow register of a port (rule R22). -/
def shadowGet (p : PortRegs) : PortReg → Word
  | .comreq => p.comreq
  | .commsk => p.commsk
  | .mask1 => p.mask1
  | .mask2 => p.mask2
  | .arb1 => p.arb1
  | .arb2 => p.arb2
  | .mctrl => p.mctrl
  | .data1 => p.data1
  | .data2 => p.data2
  | .data3 => p.data3
  | .data4 => p.data4

/-- A port with one shadow register replaced (rule R22). -/
def shadowSet (p : PortRegs) (r : PortReg) (v : Word) : PortRegs :=
  match r with
  | .comreq => { p with comreq := v }
  | .commsk => { p with commsk := v }
  | .mask1 => { p with mask1 := v }
  | .mask2 => { p with mask2 := v }
  | .arb1 => { p with arb1 := v }
  | .arb2 => { p with arb2 := v }
  | .mctrl => { p with mctrl := v }
  | .data1 => { p with data1 := v }
  | .data2 => { p with data2 := v }
  | .data3 => { p with data3 := v }
  | .data4 => { p with data4 := v }

/-- The shadow registers a transfer moves, `MASK1` to `DATA4`: a write of one while BUSY is set disturbs the transfer
(rule R144). -/
def ownedByTransfer : PortReg → Bool
  | .comreq => false
  | .commsk => false
  | _ => true

/-- The group of a command mask that a shadow register belongs to (rules R94, R141); none for the two command
registers. -/
def groupOf : PortReg → Word
  | .comreq => 0#16
  | .commsk => 0#16
  | .mask1 => cmMask
  | .mask2 => cmMask
  | .arb1 => cmArb
  | .arb2 => cmArb
  | .mctrl => cmControl
  | .data1 => cmDataa
  | .data2 => cmDataa
  | .data3 => cmDatab
  | .data4 => cmDatab

/-- The register was a target of a *get* that has timed out on the port (rule R145). -/
def timedOutTarget (q : PortRegs) (r : PortReg) : Bool :=
  match q.timedOut with
  | some cm => q.inflight.isNone && !hasAny cm cmWr && hasAny cm (groupOf r)
  | none => false

/-- A read of a shadow register returns what it holds, since BUSY is clear (rule R131, 93 U3), or since it is a target of
a *get* that has timed out, which holds its old value or the new one (rule R145, log 35). -/
def readsHeld (q : PortRegs) (r : PortReg) : Bool :=
  !hasAny q.comreq crBusy || timedOutTarget q r

/-- What a read of a shadow register returns while BUSY is set: any value (rule R131, 93 U3), but that BUSY itself reads 1
in `COMREQ`, where the block polls it (rules R80, R140, log 35). -/
def busyRead (r : PortReg) (w : Word) : Word :=
  match r with
  | .comreq => w ||| crBusy
  | _ => w

/-- The value a logical register holds (rules R21 to R23, R25, R79). -/
def regValue (d : Device) : Reg → Word
  | .ctrl => d.ctrl
  | .sts => d.sts
  | .errcnt => d.errcnt
  | .btr => d.btr
  | .int => intView d
  | .test => d.test
  | .brpext => d.brpext
  | .port p r => shadowGet (portOf d p) r
  | .half b hi => if hi then (bitmapWord b d.ram).hi else (bitmapWord b d.ram).lo

/-! Transfers, the device's side (rules R80, R140 to R145). -/

/-- The message object a transfer reads: free when it has no slot (log 21). -/
def targetAt (seed : Nat) (d : Device) : Option Slot → MsgObj
  | some s => slotAt d s
  | none => Config.freeSlot seed

/-- The device with the message object of a transfer replaced; with no slot there is none to replace (log 21). -/
def withTarget (d : Device) (t : Option Slot) (o : MsgObj) : Device :=
  match t with
  | some s => withSlot d s o
  | none => d

/-- What a transfer moves, in the direction of its command mask. A disturbed transfer moves free values
(rule R144, log 7). -/
def moveTransfer (seed : Nat) (choice : Word) (x : Xfer) (p : PortId) (d : Device) : Device :=
  let r := portOf d p
  let o := targetAt seed d x.slot
  if hasAny x.cm cmWr then
    withTarget d x.slot (putSlot choice x.cm (if x.disturbed then Config.freePort seed else r) o)
  else
    withTarget (withPort d p (getRegs choice x.cm (if x.disturbed then Config.freeSlot seed else o) r)) x.slot
      (getSlot choice x.cm o)

/-- No transfer is in flight on the port any more; BUSY stays as it is. -/
def clearInflight (p : PortId) (d : Device) : Device := withPort d p { portOf d p with inflight := none }

/-- BUSY of the port reads 0, and nothing is left of a transfer that has timed out. -/
def clearBusy (p : PortId) (d : Device) : Device :=
  withPort d p { portOf d p with comreq := clearBits (portOf d p).comreq crBusy, timedOut := none }

/-- The device performs the transfer in flight as one step and clears BUSY (rule R80). With no transfer in flight, as
after a `Timeout`, the step moves nothing and clears BUSY: the spec says nothing of such a step, and that BUSY may clear
then is the model's choice (logs 5 and 16). -/
def finishTransfer (seed : Nat) (p : PortId) (d : Device) : Device :=
  clearBusy p (match (portOf d p).inflight with
    | none => d
    | some x =>
      clearInflight p (moveTransfer seed (if x.disturbed then Config.freeWord seed else wholeChoice) x p d))

/-- A transfer the block has stopped waiting for: each target old or new, by a free choice (rule R145). BUSY stays set,
and the port remembers the command mask (log 5). -/
def abandonTransfer (seed : Nat) (p : PortId) (d : Device) : Device :=
  match (portOf d p).inflight with
  | none => d
  | some x =>
    let e := moveTransfer seed (Config.freeWord seed) x p d
    withPort e p { portOf e p with inflight := none, timedOut := some x.cm }

/-- The slot of a request: the one that bits 5:0 of the command-request word name. Where they name none, rule R132 still
writes the word and rule R66 still starts a transfer, and no rule says with which slot: it is free (log 21). -/
def requestedSlot (seed : Nat) (v : Word) : Option Slot :=
  if slotOk (v.extractLsb' 0 6) then some (slotOf (v.extractLsb' 0 6)) else Config.freeTarget seed

/-- A write of `COMREQ` starts a transfer with the command mask the port holds, and sets BUSY (rules R66,
R140). A transfer still in flight is abandoned (log 6). The reserved bits 14:6 are kept as written (log 21). -/
def startTransfer (seed : Nat) (p : PortId) (v : Word) (d : Device) : Device :=
  let d := abandonTransfer seed p d
  withPort d p { portOf d p with
    comreq := v ||| crBusy
    inflight := some ⟨requestedSlot seed v, (portOf d p).commsk, false⟩
    timedOut := none }

/-- The effect of a write of a shadow register that a transfer moves: while one is in flight it is disturbed
(rule R144, log 7). -/
def writeShadow (p : PortId) (r : PortReg) (v : Word) (d : Device) : Device :=
  let q := shadowSet (portOf d p) r v
  withPort d p (if ownedByTransfer r then
    { q with inflight := q.inflight.map fun x => { x with disturbed := true } } else q)

/-- The bit-timing registers take a write while INIT and CCE are both set (rule R66). -/
def timingOpen (d : Device) : Bool := hasAny d.ctrl ctInit && hasAny d.ctrl ctCce

/-- The value a timing register holds after a write: outside the open window old or written, by a free choice
(93_implementation_defined.md U6). -/
def timingWrite (seed : Nat) (d : Device) (old v : Word) : Word :=
  if timingOpen d then v else if Config.freeBool seed then v else old

/-- The effect of a write of a logical register, side effects included (rule R66). A read-only register is never
written (rules R66, R132). What the reserved bits of a register read as after a write no rule says (93 U8): that those of
`CTRL`, `TEST`, `BTR`, `BRPEXT`, `COMMSK` and the other shadow registers hold what is written is the model's choice
(log 36), as are those of `STS` (log 8) and `COMREQ` (log 21). -/
def writeEffect (seed : Nat) (r : Reg) (v : Word) (d : Device) : Device :=
  match r with
  | .ctrl => { d with ctrl := v }
  | .sts => { d with sts := clearBits d.sts stWritable ||| (v &&& stWritable) }
  | .errcnt => d
  | .btr => { d with btr := timingWrite seed d d.btr v }
  | .int => d
  | .test => { d with test := v }
  | .brpext => { d with brpext := timingWrite seed d d.brpext v }
  | .port p .comreq => startTransfer seed p v d
  | .port p q => writeShadow p q v d
  | .half _ _ => d

/-! The device's steps. -/

/-- A change of `STS` raises the status-change cause when the device chooses so and the enable of its class is set:
`SIE` for TXOK, RXOK and LEC, `EIE` for the error flags (rules R76, R221, R222, log 18). A step that leaves `STS` as it was
may raise it too, which is the model's looser choice (log 18). -/
def raiseCause (enable : Word) (cause : Bool) (d : Device) : Device :=
  { d with statusCause := d.statusCause || (cause && hasAny d.ctrl enable) }

/-- A received frame passes the filter of a slot whose direction bit is clear: identifier under MSK, XTD under MXTD and
direction under MDIR when UMASK is set, every one of them in full otherwise (rules R77, R93, log 17). -/
def rxMatches (id : BitVec 29) (xtd fdir : Bool) (o : MsgObj) : Bool :=
  let counts := fun m : Word32 => !hasAny o.mctrl mcUmask || hasAny o.mask m
  let idBits := if hasAny o.mctrl mcUmask then o.mask &&& maskMsk else maskMsk
  hasAny o.arb arbMsgval && ((o.arb ^^^ id.setWidth 32) &&& idBits == 0#32) &&
    (!counts maskMxtd || hasAny o.arb arbXtd == xtd) && (!counts maskMdir || !fdir)

/-- A slot takes a frame that passes its filter: one without new data if its direction bit is clear, one with new data
if it is the end-of-block slot, whatever direction bit the device has left in it (rules R77, R275, log 17). -/
def rxTakes (id : BitVec 29) (xtd fdir : Bool) (o : MsgObj) : Bool :=
  rxMatches id xtd fdir o &&
    (if hasAny o.mctrl mcNewdat then hasAny o.mctrl mcEob else !hasAny o.arb arbDir)

/-- The slot a received frame goes to: the lowest slot that takes it (rule R77). -/
def rxTarget (id : BitVec 29) (xtd fdir : Bool) (ram : Vector MsgObj Config.nObj) : Option Slot :=
  (List.finRange Config.nObj).find? fun s => rxTakes id xtd fdir ram[s]

/-- A slot after the device has stored a frame in it (rule R77). -/
def rxStore (id : BitVec 29) (xtd dir : Bool) (dlc : BitVec 4) (data : Vector Byte 8) (o : MsgObj) : MsgObj where
  mask := o.mask
  arb := putBits (putBits (clearBits o.arb arbId ||| id.setWidth 32) arbXtd xtd) arbDir dir
  mctrl :=
    let c := clearBits o.mctrl mcDlc ||| dlc.setWidth 16
    let c := if hasAny o.mctrl mcRxie then c ||| mcIntpnd else c
    let c := if hasAny o.mctrl mcNewdat then c ||| mcMsglst else c
    c ||| mcNewdat
  data := data

/-- A slot after the device has sent its frame (rule R78). -/
def txDone (o : MsgObj) : MsgObj :=
  let c := clearBits o.mctrl mcTxrqst
  { o with mctrl := if hasAny o.mctrl mcTxie then c ||| mcIntpnd else c }

/-- One step of the agent `DEV` (rules R75 to R80); a step whose condition does not hold does not happen
(log 16). A step on `STS` may raise the status-change cause even where it leaves `STS` as it was (log 18). -/
def deviceStep (seed : Nat) (a : DevStep) (d : Device) : Device :=
  match a with
  | .setInit => if hasAny d.sts stBoff then { d with ctrl := d.ctrl ||| ctInit } else d
  | .setTxok c => raiseCause ctSie c { d with sts := d.sts ||| stTxok }
  | .setRxok c => raiseCause ctSie c { d with sts := d.sts ||| stRxok }
  | .setLec code c =>
    if code == Config.lecUnused then d
    else raiseCause ctSie c { d with sts := clearBits d.sts stLec ||| code.setWidth 16 }
  | .setFlags w e b c =>
    raiseCause ctEie c { d with sts := putBits (putBits (putBits d.sts stEwarn w) stEpass e) stBoff b }
  | .setErrcnt v => { d with errcnt := v }
  | .receive id xtd fdir dir dlc data =>
    match rxTarget id xtd fdir d.ram with
    | some s => withSlot d s (rxStore id xtd dir dlc data (slotAt d s))
    | none => d
  | .transmitted s =>
    if hasAny (slotAt d s).arb arbMsgval && hasAny (slotAt d s).mctrl mcTxrqst then
      withSlot d s (txDone (slotAt d s)) else d
  | .finish p => finishTransfer seed p d

/-! The environment: each draw takes the head of its list, or what the environment's mode gives. -/

/-- The next value of the counter the free values are applied to (log 4). -/
def countDraw (s : State) : State := { s with env := { s.env with draws := s.env.draws + 1 } }

/-- One device step on the state. -/
def takeDevStep (a : DevStep) (s : State) : State :=
  countDraw { s with dev := deviceStep s.env.draws a s.dev }

/-- Device steps in order. -/
def takeDevSteps : List DevStep → State → State
  | [], s => s
  | a :: rest, s => takeDevSteps rest (takeDevStep a s)

/-- Before an access the device takes any number of its steps (rule R69 (d)). -/
def interleave (s : State) : State :=
  match s.env.bursts with
  | b :: rest => takeDevSteps b { s with env := { s.env with bursts := rest } }
  | [] => if s.env.free then takeDevSteps (Config.freeBurst s.env.draws) (countDraw s) else s

/-- How many polls of a transfer read BUSY set (rule R143). -/
def drawPolls (s : State) : Nat × State :=
  match s.env.polls with
  | n :: rest => (n, { s with env := { s.env with polls := rest } })
  | [] => if s.env.free then (Config.freePolls s.env.draws, countDraw s) else (0, s)

/-- The host's reply to `IrqRegister` (rule R211). -/
def drawReply (s : State) : Bool × State :=
  match s.env.replies with
  | b :: rest => (b, { s with env := { s.env with replies := rest } })
  | [] => if s.env.free then (Config.freeBool s.env.draws, countDraw s) else (true, s)

/-- One sample of `loopback_pending` (rules R34, R183). -/
def drawLoopback (s : State) : Bool × State :=
  match s.env.loopback with
  | b :: rest => (b, { s with env := { s.env with loopback := rest } })
  | [] => if s.env.free then (Config.freeBool s.env.draws, countDraw s) else (false, s)

/-! The record of what the block does. -/

/-- Appends an event to the ordered record. -/
def logEvent (e : Event) (s : State) : State := { s with trace := s.trace ++ [e] }

/-- `emit E` (rule R11). -/
def emit (e : Effect) (s : State) : State := logEvent (.effect e) s

/-- The result an operation reports. -/
def withResult (r : Result) (s : State) : State := { s with result := r }

/-- The state with another handle. -/
def withHandle (h : Handle) (s : State) : State := { s with h := h }

/-- `h.state <- st`. -/
def setOpState (st : OpState) (s : State) : State := withHandle { s.h with state := st } s

/-- `pc <- phase` (rules R11, R30). -/
def setPhase (ph : Phase) (s : State) : State := withHandle { s.h with phase := ph } s

/-! Register accesses: the only way to the register window (rules R10, R60, R131, R132). -/

/-- What a read of `INT` returns: the value the environment names (rule R121), a free value in an unconstrained
environment, else what the device contract shows (rule R79, log 9). -/
def sampleInt (s : State) : Word × State :=
  match s.env.intNext with
  | some v => (v, { s with env := { s.env with intNext := none } })
  | none => if s.env.free then (Config.freeWord s.env.draws, countDraw s) else (intView s.dev, s)

/-- What a read of a shadow register returns: while BUSY is set the device owns the port, and the value is free (rules
R131, R144, 93 U3), but for BUSY itself and for the targets of a *get* that has timed out (rule R145, log 35). -/
def sampleShadow (p : PortId) (r : PortReg) (s : State) : Word × State :=
  if readsHeld (portOf s.dev p) r then (shadowGet (portOf s.dev p) r, s)
  else (busyRead r (Config.freeWord s.env.draws), countDraw s)

/-- The value a read returns and its side effect: a read of `STS` takes away the status-change cause (rule R66). -/
def sampleReg (r : Reg) (s : State) : Word × State :=
  match r with
  | .sts => (s.dev.sts, { s with dev := { s.dev with statusCause := false } })
  | .int => sampleInt s
  | .port p q => sampleShadow p q s
  | r => (regValue s.dev r, s)

/-- `x[r]` (rules R10, R131). -/
def readReg (r : Reg) (s : State) : Word × State :=
  let x := sampleReg r (interleave s)
  (x.1, logEvent (.read r x.1) x.2)

/-- `x[r] <- v` (rules R10, R132). -/
def writeReg (r : Reg) (v : Word) (s : State) : State :=
  let s := interleave s
  logEvent (.write r v) (countDraw { s with dev := writeEffect s.env.draws r v s.dev })

/-- `x32[r]`: the low half first, then the high half (rule R133). -/
def readComposite (b : Bitmap) (s : State) : Word32 × State :=
  let lo := readReg (.half b false) s
  let hi := readReg (.half b true) lo.2
  (joinHalves hi.1 lo.1, hi.2)

/-! Interrupt enables, admission and locks. -/

/-- `IEALL e` (rule R224). -/
def ieAll (e : Bool) (s : State) : State :=
  let c := readReg .ctrl s
  writeReg .ctrl (if e then c.1 ||| ctAllie else clearBits c.1 ctAllie) c.2

/-- `TACREL` (rule R242). -/
def tacRel (s : State) : State :=
  match s.h.tac with
  | none => s
  | some n => emit .tacRelease (withHandle { s.h with tac := some (n + 1) } s)

/-- `TACABANDON` (rule R243); units acquired before it are void (rule R274). -/
def tacAbandon (s : State) : State :=
  emit .tacAbandonAll { withHandle { s.h with tac := none } s with held := 0 }

/-- Who holds a lock. -/
def lockOf (s : State) : LockName → Lock
  | .controller => s.h.lock
  | .dispatch => s.g.dispatch
  | .socket => s.g.socket

/-- The state with a lock held or freed. -/
def withLock (l : LockName) (k : Lock) (s : State) : State :=
  match l with
  | .controller => withHandle { s.h with lock := k } s
  | .dispatch => { s with g := { s.g with dispatch := k } }
  | .socket => { s with g := { s.g with socket := k } }

/-- `acquire`: waits while another context holds the lock and then marks it held (rules R244, R245, log 11). -/
def acquire (l : LockName) (s : State) : State := logEvent (.acquire l) (withLock l .pass s)

/-- `release` (rule R244). -/
def release (l : LockName) (s : State) : State := logEvent (.release l) (withLock l .free s)

/-- The two delivery locks are taken before the first delivery of a pass (rule R186). Outside a pass no rule takes
them (log 22). -/
def takeDeliveryLocks (s : State) : State :=
  if s.h.phase == .locked && s.g.dispatch != .pass then acquire .socket (acquire .dispatch s) else s

/-- `emit Deliver(ev)` (rules R99, R186, R236). -/
def deliver (ev : BusEvent) (s : State) : State := emit (.deliver ev) (takeDeliveryLocks s)

/-- The delivery locks are released if this pass took them (rule R180 step 5). -/
def releaseDeliveryLocks (s : State) : State :=
  if s.g.dispatch == .pass then release .dispatch (release .socket s) else s

/-! Entry and exit of a pass, what takes the place of exception entry and return. -/

/-- Entry of a pass: enables off, `h.lock` taken, phase `Masked` then `Locked` (rules R180, R182, R226). -/
def enterPass (s : State) : State :=
  setPhase .locked (acquire .controller (setPhase .masked (ieAll false s)))

/-- Exit of a pass: delivery locks and `h.lock` released, enables on unless the state is `BusOff`, phase `Idle`
(rules R180, R185, R227). -/
def exitPass (s : State) : State :=
  let s := release .controller (releaseDeliveryLocks (setPhase .exiting s))
  setPhase .idle (if s.h.state == .busOff then s else ieAll true s)

/-! Admission of a call. -/

/-- The block is in an operating state (rule R26). -/
def operating (h : Handle) : Bool :=
  h.state == .errorActive || h.state == .errorWarning || h.state == .errorPassive

/-- The refusal when a condition holds. -/
def refuseIf (b : Bool) (r : Refusal) : Option Refusal := if b then some r else none

/-- An operation is refused in `Sleeping` (rule R27), with a misaligned base (rule R64), or for the reason given;
otherwise it answers the next state (rules R6, R232, R235; log 13 for the order of the checks). -/
def answer (s : State) (reason : Option Refusal) (t : State) : Outcome :=
  if s.h.state == .sleeping then .refused .sleeping
  else if s.h.base % 4 != 0 then .refused .misalignedBase
  else match reason with
    | some r => .refused r
    | none => .next t

end Sys2Proof.Machine
end

