-- ==== Sys2Proof/Machine/Admission.lean ====
section
/-! DEFINITION. The transmit admission counter (60_exceptions.md rules R240 to R243). -/

namespace Sys2Proof.Machine

/-- `TACACQ`: `Acquired` takes a unit and the caller holds it, `Blocked` and `Abandoned` change nothing else
(rules R241, R274). -/
def tacAcqOp (s : State) : State :=
  match s.h.tac with
  | none => withResult .abandoned s
  | some 0 => withResult .blocked s
  | some (n + 1) => withResult .acquired { withHandle { s.h with tac := some n } s with held := s.held + 1 }

/-- `TACACQ`. -/
def execTacacq (s : State) : Outcome := answer s none (tacAcqOp s)

/-- `TACREL` (rule R242). -/
def execTacrel (s : State) : Outcome := answer s none (withResult .unit (tacRel s))

/-- `TACABANDON` (rule R243). -/
def execTacabandon (s : State) : Outcome := answer s none (withResult .unit (tacAbandon s))

end Sys2Proof.Machine
end

