-- ==== Sys2Proof/Machine/Codec.lean ====
section
/-! DEFINITION. Family 4.3, the frame codec (42_frame_codec.md). -/

namespace Sys2Proof.Machine

/-- `ENCODE f` as a pure function (rule R150). -/
def encodeFrame (f : Frame) : EncodedFrame where
  hi := (arbOf f).hi
  lo := (arbOf f).lo
  control := controlOf f
  data := dataWords f.data

/-- `DECODE` as a pure function of arbitration word, control word and data words (rule R151). -/
def decodeFrame (arb : Word32) (control : Word) (d : Vector Word 4) : Frame :=
  let ext := hasAny arb arbXtd
  let rtr := !hasAny arb arbDir
  let dlc := capDlc (control.extractLsb' 0 4)
  { id := if ext then arb.extractLsb' 0 29 else (arb.extractLsb' 18 11).setWidth 29
    ext := ext
    rtr := rtr
    dlc := dlc
    data := Vector.ofFn fun i : Fin 8 => if !rtr && decide (i.val < dlc.toNat) then (dataBytes d)[i] else 0#8 }

/-- How many data words `DECODE` reads: `ceil(dlc / 2)` of a data frame, none of a remote request (rule R151). -/
def dataWordsRead (arb : Word32) (control : Word) : Nat :=
  if hasAny arb arbDir then ((capDlc (control.extractLsb' 0 4)).toNat + 1) / 2 else 0

/-- Reads a data register if it is among the first `n`; one that is not read counts as 0, and no byte of it is
delivered (rule R151). -/
def readDataWord (p : PortId) (r : PortReg) (k n : Nat) (s : State) : Word × State :=
  if k < n then readReg (.port p r) s else (0#16, s)

/-- `DECODE` on port `p` with control word `c`: `ARB1`, `ARB2`, then the data registers it needs in rising order
(rule R151). -/
def decodePort (p : PortId) (c : Word) (s : State) : Frame × State :=
  let a1 := readReg (.port p .arb1) s
  let a2 := readReg (.port p .arb2) a1.2
  let arb := joinHalves a2.1 a1.1
  let n := dataWordsRead arb c
  let d1 := readDataWord p .data1 0 n a2.2
  let d2 := readDataWord p .data2 1 n d1.2
  let d3 := readDataWord p .data3 2 n d2.2
  let d4 := readDataWord p .data4 3 n d3.2
  (decodeFrame arb c #v[d1.1, d2.1, d3.1, d4.1], d4.2)

/-- `ENCODE f` (rule R150). -/
def execEncode (f : Frame) (s : State) : Outcome := answer s none (withResult (.encoded (encodeFrame f)) s)

/-- `DECODE p` (rule R151). The control word is the one `IFp.MCTRL` holds, which the caller has already read
(log 12). -/
def execDecode (p : PortId) (s : State) : Outcome :=
  let x := decodePort p (portOf s.dev p).mctrl s
  answer s none (withResult (.frame x.1) x.2)

end Sys2Proof.Machine
end

