-- ==== Sys2Proof/Machine/Transactor.lean ====
section
/-! DEFINITION. Family 4.2, the interface transactor (41_interface_transactor.md). -/

namespace Sys2Proof.Machine

/-- The device performs the transfer of a port, as a step on the state (rule R80). -/
def deviceFinish (p : PortId) (s : State) : State :=
  countDraw { s with dev := finishTransfer s.env.draws p s.dev }

/-- The poll of rule R140, `n` reads left, `k` of them reading BUSY set before the device's transfer step
(rule R143). BUSY of the word read is BUSY as the port holds it (the law `pollBusy_succ` says so); the branch looks there,
since the word's other bits are a free value, and a run with busy polls could not be evaluated through them. -/
def pollBusy (p : PortId) : Nat → Nat → State → XferOutcome × State
  | 0, _, s => (.timeout, s)
  | n + 1, k, s =>
    let x := readReg (.port p .comreq) (if k = 0 then deviceFinish p s else s)
    if hasAny (portOf x.2.dev p).comreq crBusy then pollBusy p n (k - 1) (emit (.delay Config.busySpacingUs) x.2)
    else (.done, x.2)

/-- What a soft failure does: each target old or new, and the log entry (rule R145). -/
def softFailure (p : PortId) (sl : Slot) (cm : Word) (s : State) : State :=
  emit (.logTimeout p sl cm) (countDraw { s with dev := abandonTransfer s.env.draws p s.dev })

/-- `XFER(p, s, cm)` (rule R140). -/
def xfer (p : PortId) (sl : Slot) (cm : Word) (s : State) : XferOutcome × State :=
  let s := writeReg (.port p .commsk) cm s
  let k := drawPolls (writeReg (.port p .comreq) (slotWord sl) s)
  let o := pollBusy p Config.busyRetries k.1 k.2
  match o.1 with
  | .done => o
  | .timeout => (.timeout, softFailure p sl cm o.2)

/-- `GET(p, s, m)` as an operation calls it (rule R141). -/
def getXfer (p : PortId) (sl : Slot) (m : Word) (s : State) : XferOutcome × State := xfer p sl m s

/-- `PUT(p, s, m)` as an operation calls it: the write-direction flag is set (rule R142). -/
def putXfer (p : PortId) (sl : Slot) (m : Word) (s : State) : XferOutcome × State := xfer p sl (m ||| cmWr) s

/-- Why a transfer with these operands is refused (rules R111, R141). -/
def xferRefusal (s : BitVec 6) (m : BitVec 8) : Option Refusal :=
  refuseIf (!(slotOk s && maskOk m)) .operandRange

/-- `GET p, s, m` (rule R141); a mask with `CM_TXRQST` is refused. -/
def execGet (p : PortId) (s : BitVec 6) (m : BitVec 8) (st : State) : Outcome :=
  let x := getXfer p (slotOf s) (m.setWidth 16) st
  answer st ((xferRefusal s m).or (refuseIf (hasAny (m.setWidth 16) cmTxrqst) .getWithTxrqst))
    (withResult (.xfer x.1) x.2)

/-- `PUT p, s, m` (rule R142). -/
def execPut (p : PortId) (s : BitVec 6) (m : BitVec 8) (st : State) : Outcome :=
  let x := putXfer p (slotOf s) (m.setWidth 16) st
  answer st (xferRefusal s m) (withResult (.xfer x.1) x.2)

end Sys2Proof.Machine
end

