-- ==== Sys2Proof/Machine/Pool.lean ====
section
/-! DEFINITION. Family 4.4, the message-object pool manager (43_pool_manager.md). -/

namespace Sys2Proof.Machine

/-! Invalidate and configure. -/

/-- `INVAL(p, s)` (rule R160). -/
def invalOp (p : PortId) (sl : Slot) (s : State) : State :=
  let s := writeReg (.port p .arb1) 0#16 s
  let s := writeReg (.port p .arb2) 0#16 s
  let s := writeReg (.port p .mctrl) 0#16 s
  (putXfer p sl cmInval s).2

/-- `RXCFG(p, s, mask, idw, mcont)` (rule R162). -/
def rxcfgOp (p : PortId) (sl : Slot) (mask idw : Word32) (mcont : Word) (s : State) : State :=
  let s := writeReg (.port p .mask1) mask.lo s
  let s := writeReg (.port p .mask2) mask.hi s
  let s := writeReg (.port p .arb1) idw.lo s
  let s := writeReg (.port p .arb2) (idw.hi ||| 0x8000#16) s
  let s := writeReg (.port p .mctrl) mcont s
  (putXfer p sl cmRx s).2

/-- `INVAL p, s`. -/
def execInval (p : PortId) (s : BitVec 6) (st : State) : Outcome :=
  answer st (refuseIf (!slotOk s) .operandRange) (withResult .unit (invalOp p (slotOf s) st))

/-- `RXCFG p, s, mask, idw, mcont`. -/
def execRxcfg (p : PortId) (s : BitVec 6) (mask idw : Word32) (mcont : Word) (st : State) : Outcome :=
  answer st (refuseIf (!slotIn Config.rxFirst Config.rxLast s) .operandRange)
    (withResult .unit (rxcfgOp p (slotOf s) mask idw mcont st))

/-! Transmit ring. -/

/-- `h.tx_next <- v`. -/
def setTxNext (v : Counter) (s : State) : State := withHandle { s.h with txNext := v } s

/-- `h.tx_echo <- v`. -/
def setTxEcho (v : Counter) (s : State) : State := withHandle { s.h with txEcho := v } s

/-- The register writes and the *put* of `TXSUBMIT` (rule R164). -/
def loadFrame (p : PortId) (sl : Slot) (e : EncodedFrame) (s : State) : State :=
  let s := writeReg (.port p .arb1) e.lo s
  let s := writeReg (.port p .arb2) e.hi s
  let s := writeReg (.port p .mctrl) e.control s
  let s := writeReg (.port p .data1) e.data[0] s
  let s := writeReg (.port p .data2) e.data[1] s
  let s := writeReg (.port p .data3) e.data[2] s
  let s := writeReg (.port p .data4) e.data[3] s
  (putXfer p sl cmTx s).2

/-- `TXSUBMIT f` past its admission: the caller's unit is used up (rules R164, R274). -/
def txSubmitOp (f : Frame) (s : State) : State :=
  let s := loadFrame Config.defaultPort (txSlot s.h.txNext) (encodeFrame f) s
  setTxNext (s.h.txNext + 1) { s with held := s.held - 1 }

/-- The caller holds an admission unit, and the counter exists (rules R232, R274). -/
def holdsUnit (s : State) : Bool := decide (0 < s.held) && s.h.tac.isSome

/-- `TXSUBMIT f` (rule R164). -/
def execTxsubmit (f : Frame) (s : State) : Outcome :=
  answer s (refuseIf (!holdsUnit s) .noAdmission) (withResult .ok (txSubmitOp f s))

/-- The loop of `TXDRAIN`, `n` frames in flight: release points A and B (rule R166). -/
def txDrainLoop (p : PortId) : Nat → State → State
  | 0, s => s
  | n + 1, s =>
    let sl := txSlot s.h.txEcho
    let v := readComposite .txrqst s
    if v.1.getLsbD sl.val then tacRel v.2
    else
      let t := invalOp p sl v.2
      txDrainLoop p n (tacRel (setTxEcho (t.h.txEcho + 1) t))

/-- The bonus release, point C (rule R166). -/
def txBonus (s : State) : State :=
  if slotAligned s.h.txNext || slotAligned s.h.txEcho then tacRel s else s

/-- `TXDRAIN` (rule R166). The loop runs while `tx_next != tx_echo`, so at most `tx_next - tx_echo` times. -/
def txDrainOp (s : State) : State :=
  txBonus (txDrainLoop Config.defaultPort (s.h.txNext - s.h.txEcho).toNat s)

/-- `TXDRAIN`. -/
def execTxdrain (s : State) : Outcome := answer s none (withResult .unit (txDrainOp s))

/-! Receive FIFO. -/

/-- A control word written back to a slot through `CM_CTL` (rules R167 to R170). -/
def rewriteControl (p : PortId) (sl : Slot) (c : Word) (s : State) : State :=
  (putXfer p sl cmCtl (writeReg (.port p .mctrl) c s)).2

/-- `RXLOST(p, s, c)` (rule R167). -/
def rxLostOp (p : PortId) (sl : Slot) (c : Word) (s : State) : State :=
  deliver .rxOverflow (rewriteControl p sl (clearBits c mcMsglst) s)

/-- `RXMARK(p, s, c)` (rule R168). -/
def rxMarkOp (p : PortId) (sl : Slot) (c : Word) (s : State) : State :=
  rewriteControl p sl (clearBits c (mcIntpnd ||| mcMsglst)) s

/-- The control word of a freed slot (rules R169, R170). -/
def freedControl (c : Word) : Word := clearBits c (mcIntpnd ||| mcMsglst ||| mcNewdat)

/-- `RXACT(p, s, c)` (rule R169). -/
def rxActOp (p : PortId) (sl : Slot) (c : Word) (s : State) : State :=
  rewriteControl p sl (freedControl c) s

/-- One control word written to each of a list of slots, in order. -/
def rewriteControls (p : PortId) (c : Word) : List Slot → State → State
  | [], s => s
  | sl :: rest, s => rewriteControls p c rest (rewriteControl p sl c s)

/-- `RXACTLOW(p, c)`: slots `RX_FIRST..RX_SPLIT`, the boundary slot included (rule R170). -/
def rxActLowOp (p : PortId) (c : Word) (s : State) : State :=
  rewriteControls p (freedControl c) (slotsFrom Config.rxFirst Config.rxSplit) s

/-- The reactivation of a delivered slot, by its place against the boundary (rule R171). -/
def reactivate (p : PortId) (sl : Slot) (c : Word) (s : State) : State :=
  if sl.num < Config.rxSplit then rxMarkOp p sl c s
  else if sl.num = Config.rxSplit then rxActLowOp p c s
  else rxActOp p sl c s

/-- A pending slot with new data: decoded, delivered, reactivated (rule R171). -/
def deliverSlot (p : PortId) (sl : Slot) (c : Word) (s : State) : State :=
  let f := decodePort p c s
  reactivate p sl c (deliver (.data f.1) f.2)

/-- The scan of `RXDRAIN` over a list of slots: the tests in the order EOB, MSGLST, NEWDAT (rules R171, R173). -/
def rxScan (p : PortId) : List Slot → State → State
  | [], s => s
  | sl :: rest, s =>
    let pend := readComposite .intpnd s
    if !pend.1.getLsbD sl.val then rxScan p rest pend.2
    else
      let c := readReg (.port p .mctrl) (getXfer p sl cmRx pend.2).2
      if hasAny c.1 mcEob then c.2
      else if hasAny c.1 mcMsglst then rxScan p rest (rxLostOp p sl c.1 c.2)
      else if !hasAny c.1 mcNewdat then rxScan p rest c.2
      else rxScan p rest (deliverSlot p sl c.1 c.2)

/-- `RXDRAIN` (rule R171). -/
def rxDrainOp (s : State) : State := rxScan Config.defaultPort (slotsFrom Config.rxFirst Config.rxLast) s

/-- `RXDRAIN`. -/
def execRxdrain (s : State) : Outcome := answer s none (withResult .unit (rxDrainOp s))

/-- `RXLOST p, s, c`. -/
def execRxlost (p : PortId) (s : BitVec 6) (c : Word) (st : State) : Outcome :=
  answer st (refuseIf (!slotIn Config.rxFirst Config.rxLast s) .operandRange)
    (withResult .unit (rxLostOp p (slotOf s) c st))

/-- `RXMARK p, s, c`. -/
def execRxmark (p : PortId) (s : BitVec 6) (c : Word) (st : State) : Outcome :=
  answer st (refuseIf (!slotIn Config.rxFirst Config.rxLowLast s) .operandRange)
    (withResult .unit (rxMarkOp p (slotOf s) c st))

/-- `RXACT p, s, c`. -/
def execRxact (p : PortId) (s : BitVec 6) (c : Word) (st : State) : Outcome :=
  answer st (refuseIf (!slotIn (Config.rxSplit + 1) Config.rxLast s) .operandRange)
    (withResult .unit (rxActOp p (slotOf s) c st))

/-- `RXACTLOW p, c`. -/
def execRxactlow (p : PortId) (c : Word) (s : State) : Outcome :=
  answer s none (withResult .unit (rxActLowOp p c s))

end Sys2Proof.Machine
end

