-- ==== Sys2Proof/Machine/Timing.lean ====
section
/-! DEFINITION. Family 4.7, the bit-timing configurator (46_bit_timing.md). -/

namespace Sys2Proof.Machine

/-- `BTR` of a parameter record: `BRP | SJW << 6 | TSEG1 << 8 | TSEG2 << 12` (rules R109, R200). -/
def btrOf (b : BitTiming) : Word :=
  ((b.brp - 1#11).setWidth 16 &&& 0x3F#16) ||| (b.sjw - 1#3).setWidth 16 <<< 6 |||
    (b.ts1 - 1#5).setWidth 16 <<< 8 ||| (b.ps2 - 1#4).setWidth 16 <<< 12

/-- `BRPEXT` of a parameter record: `(brp - 1) >> 6` (rules R109, R200). -/
def brpextOf (b : BitTiming) : Word := ((b.brp - 1#11) >>> 6).setWidth 16

/-- `BTDECODE` as a pure function (rule R201). -/
def timingOf (btr brpext : Word) : BitTiming where
  brp := (brpext.extractLsb' 0 4 ++ btr.extractLsb' 0 6 : BitVec 10).setWidth 11 + 1#11
  sjw := (btr.extractLsb' 6 2).setWidth 3 + 1#3
  ts1 := (btr.extractLsb' 8 4).setWidth 5 + 1#5
  ps2 := (btr.extractLsb' 12 3).setWidth 4 + 1#4

/-- Time quanta in one bit time (rule R205); no rule uses it. -/
def quantaPerBit (b : BitTiming) : Nat := 1 + b.ts1.toNat + b.ps2.toNat

/-- Controller clock periods in one bit time (rule R205); no rule uses it. -/
def clocksPerBit (b : BitTiming) : Nat := b.brp.toNat * quantaPerBit b

/-- `BTAPPLY p` (rule R202). -/
def btApplyOp (b : BitTiming) (s : State) : State :=
  let c := readReg .ctrl s
  let t := writeReg .ctrl (c.1 ||| ctCce) c.2
  let t := writeReg .btr (btrOf b) t
  let t := writeReg .brpext (brpextOf b) t
  writeReg .ctrl c.1 t

/-- `BTCALC` (rule R200). -/
def execBtcalc (b : BitTiming) (s : State) : Outcome :=
  answer s (refuseIf (!b.inRange) .operandRange) (withResult (.timingWords (btrOf b) (brpextOf b)) s)

/-- `BTDECODE btr, brpext` (rule R201). -/
def execBtdecode (btr brpext : Word) (s : State) : Outcome :=
  answer s none (withResult (.timing (timingOf btr brpext)) s)

/-- `BTAPPLY`. -/
def execBtapply (b : BitTiming) (s : State) : Outcome :=
  answer s (refuseIf (!b.inRange) .operandRange) (withResult .unit (btApplyOp b s))

/-- `CFGBT` (rule R203). -/
def execCfgbt (b : BitTiming) (s : State) : Outcome :=
  answer s (refuseIf (!b.inRange) .operandRange)
    (withResult .unit (withHandle { s.h with btCache := some b } s))

end Sys2Proof.Machine
end

