-- ==== Sys2Proof/Machine/ModeControl.lean ====
section
/-! DEFINITION. Family 4.8, the mode controller (47_mode_controller.md). -/

namespace Sys2Proof.Machine

/-- `INVAL` of each of a list of slots, in order (rule R213). -/
def invalAll (p : PortId) : List Slot → State → State
  | [], s => s
  | sl :: rest, s => invalAll p rest (invalOp p sl s)

/-- `RXCFG` of each of a list of slots with the block's own filter, in order (rules R163, R213). -/
def rxcfgAll (p : PortId) (mcont : Word) : List Slot → State → State
  | [], s => s
  | sl :: rest, s => rxcfgAll p mcont rest (rxcfgOp p sl Config.rxFilterMask Config.rxFilterId mcont s)

/-- Entry to initialization mode, the test mode with it (rules R213, R214). -/
def enterInit (s : State) : State :=
  if s.h.testMode == .none then writeReg .ctrl ctInit s
  else writeReg .test (testBits s.h.testMode) (writeReg .ctrl (ctInit ||| ctTest) s)

/-- The receive pool as the block configures it (rule R163). -/
def configurePool (p : PortId) (s : State) : State :=
  let s := invalAll p (slotsFrom 1 Config.nObj) s
  let s := rxcfgAll p mcRx (slotsFrom Config.rxFirst (Config.rxLast - 1)) s
  rxcfgAll p mcRxLast (slotsFrom Config.rxLast Config.rxLast) s

/-- Exit from initialization mode (rule R213). -/
def leaveInit (s : State) : State :=
  let c := readReg .ctrl s
  writeReg .ctrl (clearBits c.1 ctInit) c.2

/-- `CHIPCFG` with the cached bit timing (rule R213). -/
def chipCfgOp (b : BitTiming) (s : State) : State :=
  let s := configurePool Config.defaultPort (enterInit s)
  let s := writeReg .sts (Config.lecUnused.setWidth 16) s
  leaveInit (btApplyOp b s)

/-- `RamInit`: the platform initialises the message memory and leaves every slot unspecified (rule R238,
93_implementation_defined.md U2). -/
def ramInit (s : State) : State :=
  let ram := Vector.ofFn fun i : Slot => Config.freeSlot (s.env.draws + i.val)
  emit .ramInit { s with
    dev := { s.dev with ram := ram }
    env := { s.env with draws := s.env.draws + Config.nObj } }

/-- The handler is registered if it is not already; the host's reply says whether it is (rules R211, R212). -/
def registerHandler (s : State) : Bool × State :=
  if s.h.irqRegistered then (true, s)
  else
    let r := drawReply (emit (.irqRegister s.h.irqLine) s)
    (r.1, if r.1 then withHandle { r.2.h with irqRegistered := true } r.2 else r.2)

/-- The handle a successful `START` leaves, before the interrupt sources are enabled (rule R211). -/
def startHandle (h : Handle) : Handle :=
  { h with state := .errorActive, txNext := 0, txEcho := 0, tac := some Config.txNum }

/-- `START` with a cached bit timing while not operating (rule R211). -/
def startWith (b : BitTiming) (s : State) : State :=
  let r := registerHandler s
  if r.1 then
    let t := chipCfgOp b (ramInit r.2)
    withResult .ok (ieAll true { withHandle (startHandle t.h) t with held := 0 })
  else withResult .resourceUnavailable r.2

/-- `START` (rule R211): a no-op while operating; with no cached timing it is refused before this. -/
def startOp (s : State) : State :=
  if operating s.h then withResult .ok s
  else match s.h.btCache with
    | some b => startWith b s
    | none => s

/-- `START`. -/
def execStart (s : State) : Outcome :=
  answer s (refuseIf (!operating s.h && s.h.btCache.isNone) .noBitTiming) (startOp s)

/-- `STOP` (rule R215): a no-op while not operating. -/
def stopOp (s : State) : State :=
  if operating s.h then
    let t := emit (.irqDeregister s.h.irqLine) (tacAbandon (setOpState .stopped (ieAll false s)))
    withHandle { t.h with irqRegistered := false } t
  else s

/-- `STOP`. -/
def execStop (s : State) : Outcome := answer s none (withResult .unit (stopOp s))

/-- The bit timing `CHIPCFG` applies: the cached one, which rule R213 presumes is there. With none the rules state no
value and no exception, and it is a free value (log 37). -/
def timingToApply (s : State) : BitTiming × State :=
  match s.h.btCache with
  | some b => (b, s)
  | none => (Config.freeTiming s.env.draws, countDraw s)

/-- `CHIPCFG` (rule R213). -/
def execChipcfg (s : State) : Outcome :=
  let x := timingToApply s
  answer s none (withResult .unit (chipCfgOp x.1 x.2))

end Sys2Proof.Machine
end

