-- ==== Sys2Proof/Machine/BusState.lean ====
section
/-! DEFINITION. Family 4.6, the bus state machine (45_bus_state_machine.md). -/

namespace Sys2Proof.Machine

/-- The event of entering the warning or the passive state, with the counters `ERRCNT` shows (rule R192). -/
def stateEvent (passive : Bool) (e : Word) : BusEvent :=
  let tec := e.extractLsb' 0 8
  let rec' := e.extractLsb' 8 7
  if passive then .statePassive tec rec' (dominantSide tec rec')
  else .stateWarning tec rec' (dominantSide tec rec')

/-- `STENTER target` (rule R192). -/
def stEnterOp (t : ErrState) (s : State) : State :=
  match t with
  | .warning =>
    let e := readReg .errcnt s
    deliver (stateEvent false e.1) (setOpState .errorWarning e.2)
  | .passive =>
    let e := readReg .errcnt s
    deliver (stateEvent true e.1) (setOpState .errorPassive e.2)
  | .busOff => tacAbandon (ieAll false (deliver .busOff (setOpState .busOff s)))

/-- An operation made only when a condition holds. -/
def runIf (b : Bool) (f : State → State) (s : State) : State := if b then f s else s

/-- `LECDEC lec` (rule R197). -/
def lecDecOp (lec : BitVec 3) (s : State) : State :=
  match lecKind lec with
  | some k => writeReg .sts (Config.lecUnused.setWidth 16) (deliver (.busError k) s)
  | none => s

/-- The rising edges in the order warning, passive, bus-off, then the recovery edges in the order bus-off,
passive (rules R190, R194). -/
def statusEdges (cur old : Word) (s : State) : State :=
  let s := runIf (rising cur old stEwarn) (stEnterOp .warning) s
  let s := runIf (rising cur old stEpass) (stEnterOp .passive) s
  let s := runIf (rising cur old stBoff) (stEnterOp .busOff) s
  let s := runIf (falling cur old stBoff) (setOpState .errorActive) s
  runIf (falling cur old stEpass) (setOpState .errorActive) s

/-- The clearing write of TXOK and RXOK, made only if one of them was set (rule R190). -/
def clearOkFlags (cur : Word) (s : State) : State :=
  runIf (hasAny cur (stTxok ||| stRxok)) (writeReg .sts (clearBits cur (stTxok ||| stRxok))) s

/-- `h.last_status <- v` (rule R196). -/
def setLastStatus (v : Word) (s : State) : State := withHandle { s.h with lastStatus := v } s

/-- `STCHG` (rule R190). -/
def stChgOp (s : State) : State :=
  let cur := readReg .sts s
  let t := clearOkFlags cur.1 cur.2
  lecDecOp (cur.1.extractLsb' 0 3) (setLastStatus cur.1 (statusEdges cur.1 t.h.lastStatus t))

/-- The target of format `N` (rule R119); 3 is refused before it is looked at. -/
def targetOf (t : BitVec 2) : ErrState :=
  match t.toNat with
  | 0 => .warning
  | 1 => .passive
  | _ => .busOff

/-- `STCHG`. -/
def execStchg (s : State) : Outcome := answer s none (withResult .unit (stChgOp s))

/-- `STENTER target`. -/
def execStenter (t : BitVec 2) (s : State) : Outcome :=
  answer s (refuseIf (t == 3#2) .operandRange) (withResult .unit (stEnterOp (targetOf t) s))

/-- `LECDEC lec`. -/
def execLecdec (lec : BitVec 3) (s : State) : Outcome := answer s none (withResult .unit (lecDecOp lec s))

end Sys2Proof.Machine
end

