-- ==== Sys2Proof/Machine/Pipeline.lean ====
section
/-! DEFINITION. Family 4.5, the interrupt pipeline (44_interrupt_pipeline.md), and `IEALL` (60_exceptions.md R224). -/

namespace Sys2Proof.Machine

/-- The loopback sample after the transmit drain, still under `h.lock` (rule R183). -/
def loopbackOp (s : State) : State :=
  let b := drawLoopback s
  if b.1 then emit .loopbackDeliver (takeDeliveryLocks b.2) else b.2

/-- The branch of a pass by the class of the interrupt-status value (rules R105, R180, R184). -/
def passBranch (v : Word) (s : State) : State :=
  if v == Config.statusSentinel then stChgOp s
  else if intIn Config.rxFirst Config.rxLast v then rxDrainOp s
  else if intIn Config.txFirst Config.txLast v then loopbackOp (txDrainOp s)
  else s

/-- One pass of the pipeline (rules R180, R181). -/
def passOp (s : State) : State :=
  let v := readReg .int s
  if v.1 == 0#16 then withResult .notHandled v.2
  else withResult .handled (exitPass (passBranch v.1 (enterPass v.2)))

/-- A pass in which the read of `INT` returns `v` (rule R121). -/
def passWith (v : Word) (s : State) : State := passOp { s with env := { s.env with intNext := some v } }

/-- Why a pass cannot begin: no handler registered, or a pass in progress (rule R180, log 10). -/
def passRefusal (s : State) : Option Refusal :=
  if !s.h.irqRegistered then some .handlerAbsent
  else refuseIf (s.h.phase != .idle) .passInProgress

/-- `IRQ` (rule R180). -/
def execIrq (s : State) : Outcome := answer s (passRefusal s) (passOp s)

/-- `IEALL e` (rule R224). -/
def execIeall (e : Bool) (s : State) : Outcome := answer s none (withResult .unit (ieAll e s))

/-- A pass in which `INT` reads 0 (rules R105, R181). -/
def execIntNone (s : State) : Outcome := answer s (passRefusal s) (passWith 0#16 s)

/-- A pass in which `INT` reads `STATUS_SENTINEL` (rule R105). -/
def execIntStatus (s : State) : Outcome := answer s (passRefusal s) (passWith Config.statusSentinel s)

/-- A pass in which `INT` reads the index of a receive slot (rule R105). -/
def execIntRxobj (slot : BitVec 6) (s : State) : Outcome :=
  let v : Word := slot.setWidth 16
  answer s ((refuseIf (!intIn Config.rxFirst Config.rxLast v) .operandRange).or (passRefusal s)) (passWith v s)

/-- A pass in which `INT` reads the index of a transmit slot (rule R105). -/
def execIntTxobj (slot : BitVec 6) (s : State) : Outcome :=
  let v : Word := slot.setWidth 16
  answer s ((refuseIf (!intIn Config.txFirst Config.txLast v) .operandRange).or (passRefusal s)) (passWith v s)

/-- A pass in which `INT` reads a value of class `OTHER` (rules R105, R184). -/
def execIntOther (v : Word) (s : State) : Outcome :=
  answer s ((refuseIf (!intOtherOk v) .operandRange).or (passRefusal s)) (passWith v s)

end Sys2Proof.Machine
end

