-- ==== Sys2Proof/Machine/RegAccess.lean ====
section
/-! DEFINITION. Family 4.1, the register access abstraction (40_register_access.md). -/

namespace Sys2Proof.Machine

/-- `REGRD r` (rule R131). -/
def execRegrd (r : BitVec 6) (s : State) : Outcome :=
  let x := readReg (regOf r) s
  answer s (refuseIf (!regOk r) .operandRange) (withResult (.word x.1) x.2)

/-- Why a `REGWR` is refused: a register index out of range, or a register the block may only read (rules R111,
R132). -/
def regwrRefusal (r : BitVec 6) : Option Refusal :=
  if !regOk r then some .operandRange else refuseIf (readOnly (regOf r)) .readOnlyWrite

/-- `REGWR r, v` (rule R132). -/
def execRegwr (r : BitVec 6) (v : Word) (s : State) : Outcome :=
  answer s (regwrRefusal r) (withResult .unit (writeReg (regOf r) v s))

/-- `REGRD32 r` (rule R133). -/
def execRegrd32 (r : BitVec 6) (s : State) : Outcome :=
  let x := readComposite (bitmapOf r) s
  answer s (refuseIf (!firstHalfOk r) .operandRange) (withResult (.word32 x.1) x.2)

end Sys2Proof.Machine
end

