-- ==== Sys2Proof/Machine/Dispatch.lean ====
section
/-! DEFINITION. What each operation does: one arm per constructor of `Instr`. -/

namespace Sys2Proof.Machine

def exec (i : Instr) (s : State) : Host.Outcome State Fault Refusal :=
  match i with
  | .regrd r => Sys2Proof.Machine.execRegrd r s
  | .regwr r v => Sys2Proof.Machine.execRegwr r v s
  | .regrd32 r => Sys2Proof.Machine.execRegrd32 r s
  | .get p sl m => Sys2Proof.Machine.execGet p sl m s
  | .put p sl m => Sys2Proof.Machine.execPut p sl m s
  | .encode f => Sys2Proof.Machine.execEncode f s
  | .decode p => Sys2Proof.Machine.execDecode p s
  | .inval p sl => Sys2Proof.Machine.execInval p sl s
  | .rxcfg p sl mask idw mcont => Sys2Proof.Machine.execRxcfg p sl mask idw mcont s
  | .txsubmit f => Sys2Proof.Machine.execTxsubmit f s
  | .txdrain => Sys2Proof.Machine.execTxdrain s
  | .rxdrain => Sys2Proof.Machine.execRxdrain s
  | .rxlost p sl c => Sys2Proof.Machine.execRxlost p sl c s
  | .rxmark p sl c => Sys2Proof.Machine.execRxmark p sl c s
  | .rxact p sl c => Sys2Proof.Machine.execRxact p sl c s
  | .rxactlow p c => Sys2Proof.Machine.execRxactlow p c s
  | .irq => Sys2Proof.Machine.execIrq s
  | .ieall e => Sys2Proof.Machine.execIeall e s
  | .stchg => Sys2Proof.Machine.execStchg s
  | .stenter t => Sys2Proof.Machine.execStenter t s
  | .lecdec lec => Sys2Proof.Machine.execLecdec lec s
  | .btcalc b => Sys2Proof.Machine.execBtcalc b s
  | .btapply b => Sys2Proof.Machine.execBtapply b s
  | .cfgbt b => Sys2Proof.Machine.execCfgbt b s
  | .btdecode btr brpext => Sys2Proof.Machine.execBtdecode btr brpext s
  | .start => Sys2Proof.Machine.execStart s
  | .stop => Sys2Proof.Machine.execStop s
  | .chipcfg => Sys2Proof.Machine.execChipcfg s
  | .tacacq => Sys2Proof.Machine.execTacacq s
  | .tacrel => Sys2Proof.Machine.execTacrel s
  | .tacabandon => Sys2Proof.Machine.execTacabandon s
  | .intNone => Sys2Proof.Machine.execIntNone s
  | .intStatus => Sys2Proof.Machine.execIntStatus s
  | .intRxobj slot => Sys2Proof.Machine.execIntRxobj slot s
  | .intTxobj slot => Sys2Proof.Machine.execIntTxobj slot s
  | .intOther v => Sys2Proof.Machine.execIntOther v s

end Sys2Proof.Machine
end

