-- ==== Sys2Proof/Decode.lean ====
section
/-! DEFINITION. Decoding of command words (30_encoding.md rules R118 to R120) and of interrupt-status values
(rule R105), and after it the encoder. -/

namespace Sys2Proof

/-- Why a command word names no operation (rule R111 (g)): an operation code that rule R120 does not
assign, or a reserved bit that is not 0. -/
inductive DecodeError where
  | illegalCode (code : BitVec 8)
  | reservedBit
deriving DecidableEq, Repr

/-- The formats of rule R119; `rd` is format `R` with `v = 0`, as the reads have it (rules R131, R133). -/
inductive Format where
  | z | b | f | t | s | sc | p | pc | rd | r | c | e | n | l | v
deriving DecidableEq, Repr

/-- The operand bits a format uses; every other bit below the operation code is reserved (rule R119). In format `C` all of
`W[63:32]` counts as the arbitration word, bit 63 with it: the rule calls that word one without MSGVAL and does not say
what a set bit 63 does; the model accepts it, and `RXCFG` sets MSGVAL either way (log 34). -/
def Format.used : Format → CmdWord
  | .z  => 0
  | .b  => 0x7FFFFF
  | .f  => 0x7FFFFFFFFFFFFFFFFFFFFFFFF
  | .t  => 0x7F77
  | .s  => 0x7F00
  | .sc => 0xFFFF7F00
  | .p  => 0x4000
  | .pc => 0xFFFF4000
  | .rd => 0x3F0000
  | .r  => 0x3FFFFF
  | .c  => 0x7FFFFFFFFFFFFFFFFFFFFF
  | .e  => 0x1
  | .n  => 0x3
  | .l  => 0x7
  | .v  => 0xFFFFFFFF

/-- The operation code `W[127:120]` (rule R118). -/
def opcodeOf (w : CmdWord) : BitVec 8 := w.extractLsb' 120 8

/-- The reserved bits of a format are all 0 in the word. -/
def reservedClear (fmt : Format) (w : CmdWord) : Bool :=
  w.extractLsb' 0 120 &&& ~~~(fmt.used.extractLsb' 0 120) == 0#120

/-- A port bit as a port (rule R22). -/
def portOfBit (b : Bool) : PortId := if b then .if1 else .if0

/-- The eight payload bytes of `W[63:0]`, byte `i` in `W[8i+7:8i]` (rule R119). -/
def unpackBytes (w : BitVec 64) : Vector Byte 8 :=
  #v[w.extractLsb' 0 8, w.extractLsb' 8 8, w.extractLsb' 16 8, w.extractLsb' 24 8,
     w.extractLsb' 32 8, w.extractLsb' 40 8, w.extractLsb' 48 8, w.extractLsb' 56 8]

/-- The operands of format `F` (rule R119). -/
def frameOfWord (w : CmdWord) : Frame where
  id := w.extractLsb' 64 29
  ext := w.getLsbD 93
  rtr := w.getLsbD 94
  dlc := w.extractLsb' 95 4
  data := unpackBytes (w.extractLsb' 0 64)

/-- The operands of format `B` (rule R119). -/
def timingOfWord (w : CmdWord) : BitTiming where
  brp := w.extractLsb' 0 11
  sjw := w.extractLsb' 11 3
  ts1 := w.extractLsb' 14 5
  ps2 := w.extractLsb' 19 4

/-- The slot field `W[13:8]` of formats `T`, `S` and `SC`. -/
def slotField (w : CmdWord) : BitVec 6 := w.extractLsb' 8 6

/-- The port field `W[14]` of formats `T`, `S`, `SC`, `P` and `PC`. -/
def portField (w : CmdWord) : PortId := portOfBit (w.getLsbD 14)

/-- The field `W[31:16]`: a saved control word. -/
def savedField (w : CmdWord) : Word := w.extractLsb' 16 16

/-- The register field `W[21:16]` of format `R`. -/
def regField (w : CmdWord) : BitVec 6 := w.extractLsb' 16 6

/-- The format and the operation of a word by its operation code (rule R120); `none` for a code that is not
assigned. -/
def operationOf (w : CmdWord) : Option (Format × Instr) :=
  match (opcodeOf w).toNat with
  | 0x10 => some (.rd, .regrd (regField w))
  | 0x11 => some (.r, .regwr (regField w) (w.extractLsb' 0 16))
  | 0x12 => some (.rd, .regrd32 (regField w))
  | 0x20 => some (.t, .get (portField w) (slotField w) (w.extractLsb' 0 8))
  | 0x21 => some (.t, .put (portField w) (slotField w) (w.extractLsb' 0 8))
  | 0x30 => some (.f, .encode (frameOfWord w))
  | 0x31 => some (.p, .decode (portField w))
  | 0x40 => some (.s, .inval (portField w) (slotField w))
  | 0x41 => some (.c, .rxcfg (portOfBit (w.getLsbD 86)) (w.extractLsb' 80 6) (w.extractLsb' 0 32)
      (w.extractLsb' 32 32) (w.extractLsb' 64 16))
  | 0x42 => some (.f, .txsubmit (frameOfWord w))
  | 0x43 => some (.z, .txdrain)
  | 0x44 => some (.z, .rxdrain)
  | 0x45 => some (.sc, .rxlost (portField w) (slotField w) (savedField w))
  | 0x46 => some (.sc, .rxmark (portField w) (slotField w) (savedField w))
  | 0x47 => some (.sc, .rxact (portField w) (slotField w) (savedField w))
  | 0x48 => some (.pc, .rxactlow (portField w) (savedField w))
  | 0x50 => some (.z, .irq)
  | 0x51 => some (.e, .ieall (w.getLsbD 0))
  | 0x60 => some (.z, .stchg)
  | 0x61 => some (.n, .stenter (w.extractLsb' 0 2))
  | 0x62 => some (.l, .lecdec (w.extractLsb' 0 3))
  | 0x70 => some (.b, .btcalc (timingOfWord w))
  | 0x71 => some (.b, .btapply (timingOfWord w))
  | 0x72 => some (.b, .cfgbt (timingOfWord w))
  | 0x73 => some (.v, .btdecode (w.extractLsb' 0 16) (w.extractLsb' 16 16))
  | 0x80 => some (.z, .start)
  | 0x81 => some (.z, .stop)
  | 0x82 => some (.z, .chipcfg)
  | 0x90 => some (.z, .tacacq)
  | 0x91 => some (.z, .tacrel)
  | 0x92 => some (.z, .tacabandon)
  | _ => none

/-- A command word to an operation, or why there is none (rules R111 (g), R120). Operands outside their
ranges are decoded and refused when the operation is invoked (`Instr.WellFormed`). -/
def decodeCmd (w : CmdWord) : Except DecodeError Instr :=
  match operationOf w with
  | none => .error (.illegalCode (opcodeOf w))
  | some (fmt, i) => if reservedClear fmt w then .ok i else .error .reservedBit

/-- The class of an interrupt-status value, first match wins (rule R105). -/
def decodeInt (v : Word) : Instr :=
  if v == 0#16 then .intNone
  else if v == Config.statusSentinel then .intStatus
  else if intIn Config.rxFirst Config.rxLast v then .intRxobj (v.setWidth 6)
  else if intIn Config.txFirst Config.txLast v then .intTxobj (v.setWidth 6)
  else .intOther v

/-- Decoding of either kind of word. -/
def decode : Code → Except DecodeError Instr
  | .cmd w => decodeCmd w
  | .int v => .ok (decodeInt v)

/-- The instruction read from the bits `w`, numbered as spec/opcode_table.json numbers them. A row of at most
16 bits is an interrupt-status value; every other row is one 128-bit command word. -/
def decodeTableWord (nbits w : Nat) : Option Instr :=
  if nbits ≤ 16 then some (decodeInt (BitVec.ofNat 16 w))
  else match decodeCmd (BitVec.ofNat 128 w) with
    | .ok i => some i
    | .error _ => none

/-! The encoder, from the same tables. -/

/-- A value placed with its bit 0 at bit `at` of a command word. -/
def place {n : Nat} (v : BitVec n) (lsb : Nat) : CmdWord := v.setWidth 128 <<< lsb

/-- A port as its bit. -/
def PortId.bit : PortId → BitVec 1
  | .if0 => 0
  | .if1 => 1

/-- Byte `i` in bits `8i+7:8i` (rule R119). -/
def packBytes (d : Vector Byte 8) : BitVec 64 :=
  d[7] ++ d[6] ++ d[5] ++ d[4] ++ d[3] ++ d[2] ++ d[1] ++ d[0]

/-- Format `F` (rule R119). -/
def Frame.fields (f : Frame) : CmdWord :=
  place (packBytes f.data) 0 ||| place f.id 64 ||| place (BitVec.ofBool f.ext) 93 |||
    place (BitVec.ofBool f.rtr) 94 ||| place f.dlc 95

/-- Format `B` (rule R119). -/
def BitTiming.fields (b : BitTiming) : CmdWord :=
  place b.brp 0 ||| place b.sjw 11 ||| place b.ts1 14 ||| place b.ps2 19

/-- Formats `S` and, with a saved control word, `SC` (rule R119). -/
def slotFields (p : PortId) (s : BitVec 6) : CmdWord := place s 8 ||| place p.bit 14

/-- The operation code in `W[127:120]` over the operand fields (rule R118). -/
def withCode (code : BitVec 8) (fields : CmdWord) : CmdWord := place code 120 ||| fields

/-- The word of an operation: the command word of rules R119 and R120, or the interrupt-status value of
rule R105. -/
def encode : Instr → Code
  | .regrd r => .cmd (withCode 0x10 (place r 16))
  | .regwr r v => .cmd (withCode 0x11 (place v 0 ||| place r 16))
  | .regrd32 r => .cmd (withCode 0x12 (place r 16))
  | .get p s m => .cmd (withCode 0x20 (place m 0 ||| slotFields p s))
  | .put p s m => .cmd (withCode 0x21 (place m 0 ||| slotFields p s))
  | .encode f => .cmd (withCode 0x30 f.fields)
  | .decode p => .cmd (withCode 0x31 (place p.bit 14))
  | .inval p s => .cmd (withCode 0x40 (slotFields p s))
  | .rxcfg p s mask idw mcont => .cmd (withCode 0x41
      (place mask 0 ||| place idw 32 ||| place mcont 64 ||| place s 80 ||| place p.bit 86))
  | .txsubmit f => .cmd (withCode 0x42 f.fields)
  | .txdrain => .cmd (withCode 0x43 0)
  | .rxdrain => .cmd (withCode 0x44 0)
  | .rxlost p s c => .cmd (withCode 0x45 (slotFields p s ||| place c 16))
  | .rxmark p s c => .cmd (withCode 0x46 (slotFields p s ||| place c 16))
  | .rxact p s c => .cmd (withCode 0x47 (slotFields p s ||| place c 16))
  | .rxactlow p c => .cmd (withCode 0x48 (place p.bit 14 ||| place c 16))
  | .irq => .cmd (withCode 0x50 0)
  | .ieall e => .cmd (withCode 0x51 (place (BitVec.ofBool e) 0))
  | .stchg => .cmd (withCode 0x60 0)
  | .stenter t => .cmd (withCode 0x61 (place t 0))
  | .lecdec l => .cmd (withCode 0x62 (place l 0))
  | .btcalc b => .cmd (withCode 0x70 b.fields)
  | .btapply b => .cmd (withCode 0x71 b.fields)
  | .cfgbt b => .cmd (withCode 0x72 b.fields)
  | .btdecode btr brpext => .cmd (withCode 0x73 (place btr 0 ||| place brpext 16))
  | .start => .cmd (withCode 0x80 0)
  | .stop => .cmd (withCode 0x81 0)
  | .chipcfg => .cmd (withCode 0x82 0)
  | .tacacq => .cmd (withCode 0x90 0)
  | .tacrel => .cmd (withCode 0x91 0)
  | .tacabandon => .cmd (withCode 0x92 0)
  | .intNone => .int 0
  | .intStatus => .int Config.statusSentinel
  | .intRxobj s => .int (s.setWidth 16)
  | .intTxobj s => .int (s.setWidth 16)
  | .intOther v => .int v

end Sys2Proof
end

