-- ==== Sys2Proof/Machine/Fetch.lean ====
section
/-! DEFINITION. The next move of the schedule (00_scope.md rule R12): which agent moves, and what the word it gives
decodes to. -/

namespace Sys2Proof.Machine

/-- What the schedule gives: an operation to run, a move that needs no operation, or a refusal. -/
inductive Fetched where
  | run (i : Instr) (s : State)
  | moved (s : State)
  | stop (r : Refusal)

/-- The operations the host's command port accepts (rules R113, R118). -/
def external : Instr → Bool
  | .txsubmit _ => true
  | .cfgbt _ => true
  | .start => true
  | .stop => true
  | .tacacq => true
  | _ => false

/-- Why a word that names no operation is refused (rules R111 (g), R232). The list of rule R232 has no name for an
operation code that is not assigned: `illegalCode` is the model's own (log 33). -/
def decodeRefusal : DecodeError → Refusal
  | .illegalCode _ => .illegalCode
  | .reservedBit => .operandRange

/-- A command word at the host's command port: external operations only (rule R118). What is wrong with the word itself
is named before the state is looked at, `Sleeping` and a misaligned base included; rule R232 gives the reasons no order,
and this one is the model's (log 13). -/
def fromPort (w : CmdWord) (s : State) : Fetched :=
  match decodeCmd w with
  | .error e => .stop (decodeRefusal e)
  | .ok i => if external i then .run i s else .stop .internalAtPort

/-- An operation invoked inside the block, any of them (rule R113, log 29). -/
def fromBlock (w : CmdWord) (s : State) : Fetched :=
  match decodeCmd w with
  | .error e => .stop (decodeRefusal e)
  | .ok i => .run i s

/-- Another context takes a global lock if it is free (rule R245). -/
def takeGlobal (l : GlobalLock) (g : Globals) : Globals :=
  match l with
  | .dispatch => if g.dispatch == .free then { g with dispatch := .other } else g
  | .socket => if g.socket == .free then { g with socket := .other } else g

/-- Another context gives a global lock back if it holds it (rule R245). -/
def giveGlobal (l : GlobalLock) (g : Globals) : Globals :=
  match l with
  | .dispatch => if g.dispatch == .other then { g with dispatch := .free } else g
  | .socket => if g.socket == .other then { g with socket := .free } else g

/-- One move of one agent (rules R12, R122, R223, R245). -/
def moveOf (a : AgentStep) (s : State) : Fetched :=
  match a with
  | .host w => fromPort w s
  | .ifAcquired w => if s.result == .acquired then fromPort w s else .moved s
  | .block w => fromBlock w s
  | .line => .run .irq s
  | .lineInt v => .run (decodeInt v) s
  | .dev d => .moved (takeDevStep d s)
  | .take l => .moved { s with g := takeGlobal l s.g }
  | .give l => .moved { s with g := giveGlobal l s.g }

/-- The head of the schedule moves. With the schedule exhausted the run is at its end and nothing moves (rule R253),
or, in an unconstrained environment, any agent may move (log 15). -/
def fetch (s : State) : Fetched :=
  match s.env.agenda with
  | a :: rest => moveOf a { s with env := { s.env with agenda := rest } }
  | [] => if s.env.free then moveOf (Config.freeAgent s.env.draws) (countDraw s) else .moved s

/-- `SEND f`: `TACACQ`, then `TXSUBMIT f` if it returned `Acquired` (rule R122). -/
def sendMoves (w : CmdWord) : List AgentStep := [.host (withCode 0x90 0), .ifAcquired w]

/-- `RESTART`: `STOP`, then `START` (rule R122). -/
def restartMoves : List AgentStep := [.host (withCode 0x81 0), .host (withCode 0x80 0)]

/-- The move that runs a word as the next operation: the host's for an external operation, the block's own for
every other. -/
def moveFor (w : CmdWord) : AgentStep :=
  match decodeCmd w with
  | .ok i => if external i then .host w else .block w
  | .error _ => .host w

/-- The word is a pass: `IRQ`, or an interrupt-status value. -/
def isPass : Except DecodeError Instr → Bool
  | .ok .irq => true
  | _ => false

/-- The schedule with a move put at its head. -/
def pushMove (a : AgentStep) (s : State) : State := { s with env := { s.env with agenda := a :: s.env.agenda } }

/-- A handler is registered, which a pass needs in order to begin (rule R223). -/
def withHandler (s : State) : State := withHandle { s.h with irqRegistered := true } s

/-- The state with a word as the next thing the schedule runs; for a pass the handler is registered too. -/
def placeWord (nbits w : Nat) (s : State) : State :=
  if nbits ≤ 16 then withHandler (pushMove (.lineInt (BitVec.ofNat 16 w)) s)
  else
    let t := pushMove (moveFor (BitVec.ofNat 128 w)) s
    if isPass (decodeCmd (BitVec.ofNat 128 w)) then withHandler t else t

end Sys2Proof.Machine
end

