-- ==== Sys2Proof/Machine/Step.lean ====
section
/-! DEFINITION. One step of the whole system: one move of the schedule (00_scope.md rule R12). -/

namespace Sys2Proof.Machine

/-- A step of exactly one agent. -/
def step (s : State) : Host.Outcome State Fault Refusal :=
  match fetch s with
  | .run i t => exec i t
  | .moved t => .next t
  | .stop r => .refused r

/-- The state with an instruction of the opcode table placed where `step` takes its next move. -/
def State.withFetchWord (s : State) (nbits w : Nat) : State := placeWord nbits w s

end Sys2Proof.Machine
end

