-- ==== Sys2Proof/Safety.lean ====
section
/-! DEFINITION. What a safe run is, in the terms claims use: the premises on the environment (60_exceptions.md rule
R235), the frames, and the invariants that hold between operations. -/

namespace Sys2Proof.Machine

/-! Premises. -/

/-- No operation is refused for the state alone: not `Sleeping` (rule R27), base aligned (rule R64). -/
def Ready (s : State) : Prop := s.h.state ≠ .sleeping ∧ s.h.base % 4 = 0

/-- The device takes no step of its own between the register accesses of an operation (the premise "before the
device takes any further step" of rule R261). -/
def Still (e : Env) : Prop := e.free = false ∧ e.bursts = []

/-- Besides, no transfer times out: each one reads BUSY clear within `BUSY_RETRIES` polls (rule R143). -/
def Prompt (e : Env) : Prop := Still e ∧ ∀ n ∈ e.polls, n < Config.busyRetries

/-- No transfer is in flight on the port (rules R36, R144). -/
def PortIdle (d : Device) (p : PortId) : Prop := (portOf d p).inflight = none

/-- BUSY of the port reads 0, so the block may read and write its shadow registers (rule R144). -/
def BusyClear (d : Device) (p : PortId) : Prop := (portOf d p).comreq.getLsbD 15 = false

/-- A pass can begin: the handler is registered and no pass is in progress (rule R180). -/
def PassReady (s : State) : Prop := s.h.irqRegistered = true ∧ s.h.phase = .idle

/-! Outputs. -/

/-- The effects of an ordered record, in order (rule R11). -/
def effectsOf (tr : List Event) : List Effect :=
  tr.filterMap fun e => match e with
    | .effect x => some x
    | .read _ _ => none
    | .write _ _ => none
    | .acquire _ => none
    | .release _ => none

/-- The register writes of an ordered record, in order (rules R10, R70). -/
def writesOf (tr : List Event) : List (Reg × Word) :=
  tr.filterMap fun e => match e with
    | .write r v => some (r, v)
    | .read _ _ => none
    | .effect _ => none
    | .acquire _ => none
    | .release _ => none

/-- An ordered record brings these register writes, in this order, and no effect but the delays of polls. -/
def OnlyWrites (ev : List Event) (w : List (Reg × Word)) : Prop :=
  writesOf ev = w ∧ ∀ e ∈ effectsOf ev, e = .delay Config.busySpacingUs

/-- The effects of an ordered record but for the delays of polls, in order. -/
def effectsBarDelays (tr : List Event) : List Effect :=
  (effectsOf tr).filter fun e => e != .delay Config.busySpacingUs

/-- The two register writes that start a transfer (rule R140). -/
def startWrites (p : PortId) (sl : Slot) (cm : Word) : List (Reg × Word) :=
  [(.port p .commsk, cm), (.port p .comreq, slotWord sl)]

/-- How many admission units an ordered record released (rule R174). -/
def releases (tr : List Event) : Nat := (effectsOf tr).count .tacRelease

/-- The event is the log entry of a soft failure (rule R145). -/
def isTimeout : Event → Bool
  | .effect (.logTimeout _ _ _) => true
  | _ => false

/-- The premise that takes the place of "no fault recorded": no `Log(TransferTimeout)` was emitted (rule R235). -/
def NoTimeout (tr : List Event) : Prop := ∀ e ∈ tr, isTimeout e = false

/-! What the spec excludes. -/

/-- The calls with operands in their ranges that are refused all the same (rules R132, R141, R180, R212, R274; log 10 for
a pass that cannot begin). -/
def Excluded (s : State) : Instr → Prop
  | .regwr r _ => r = 2#6 ∨ r = 4#6 ∨ 29 ≤ r.toNat
  | .get _ _ m => m.getLsbD 2 = true
  | .txsubmit _ => s.held = 0 ∨ s.h.tac = none
  | .start => operating s.h = false ∧ s.h.btCache = none
  | .irq => ¬PassReady s
  | .intNone => ¬PassReady s
  | .intStatus => ¬PassReady s
  | .intRxobj _ => ¬PassReady s
  | .intTxobj _ => ¬PassReady s
  | .intOther _ => ¬PassReady s
  | .regrd _ | .regrd32 _ | .put _ _ _ | .encode _ | .decode _ | .inval _ _ | .rxcfg _ _ _ _ _ | .txdrain
  | .rxdrain | .rxlost _ _ _ | .rxmark _ _ _ | .rxact _ _ _ | .rxactlow _ _ | .ieall _ | .stchg | .stenter _
  | .lecdec _ | .btcalc _ | .btapply _ | .cfgbt _ | .btdecode _ _ | .chipcfg | .stop | .tacacq | .tacrel
  | .tacabandon => False

/-- The operation codes of rule R120, each with the operand bits its format names (rule R119). -/
def codeTable : List (BitVec 8 × CmdWord) :=
  [(0x10, 0x3F0000), (0x11, 0x3FFFFF), (0x12, 0x3F0000), (0x20, 0x7F77), (0x21, 0x7F77),
   (0x30, 0x7FFFFFFFFFFFFFFFFFFFFFFFF), (0x31, 0x4000), (0x40, 0x7F00), (0x41, 0x7FFFFFFFFFFFFFFFFFFFFF),
   (0x42, 0x7FFFFFFFFFFFFFFFFFFFFFFFF), (0x43, 0), (0x44, 0), (0x45, 0xFFFF7F00), (0x46, 0xFFFF7F00),
   (0x47, 0xFFFF7F00), (0x48, 0xFFFF4000)] ++
  [(0x50, 0), (0x51, 1), (0x60, 0), (0x61, 3), (0x62, 7), (0x70, 0x7FFFFF), (0x71, 0x7FFFFF), (0x72, 0x7FFFFF),
   (0x73, 0xFFFFFFFF), (0x80, 0), (0x81, 0), (0x82, 0), (0x90, 0), (0x91, 0), (0x92, 0)]

/-! Frames. -/

/-- The block's own state is unchanged: handle, global locks, the host's count. -/
def SameBlock (s t : State) : Prop := t.h = s.h ∧ t.g = s.g ∧ t.held = s.held

/-- The global registers of the device and its pending status cause are unchanged. -/
def SameGlobals (d e : Device) : Prop :=
  e.ctrl = d.ctrl ∧ e.sts = d.sts ∧ e.errcnt = d.errcnt ∧ e.btr = d.btr ∧ e.test = d.test ∧
    e.brpext = d.brpext ∧ e.statusCause = d.statusCause

/-- Every register of the port other than `p` is unchanged. -/
def SameOtherPort (p : PortId) (d e : Device) : Prop := ∀ q, q ≠ p → portOf e q = portOf d q

/-- Every message object other than slot `sl` is unchanged, in all its fields. -/
def SameOtherSlots (sl : Slot) (d e : Device) : Prop := ∀ k, k ≠ sl → slotAt e k = slotAt d k

/-- Every message object is unchanged. -/
def SameSlots (d e : Device) : Prop := ∀ k, slotAt e k = slotAt d k

/-! Invariants that hold between operations. -/

/-- No pass is in progress and none of the locks is held by one (rules R30, R186, R227). -/
def BetweenPasses (s : State) : Prop :=
  s.h.phase = .idle ∧ s.h.lock = .free ∧ s.g.dispatch ≠ .pass ∧ s.g.socket ≠ .pass

/-- The admission counter exists only in an operating state, and nobody holds a unit of a counter that does not
exist (rules R32, R240, R241 (d), R274). -/
def AdmissionLifetime (s : State) : Prop :=
  (operating s.h = false → s.h.tac = none) ∧ (0 < s.held → s.h.tac ≠ none)

/-- The cached bit timing is a valid parameter record (rules R31, R203). -/
def CacheInRange (s : State) : Prop := ∀ b, s.h.btCache = some b → b.inRange = true

/-- The configuration is the same (rule R8). -/
def SameConfig (s t : State) : Prop :=
  t.h.base = s.h.base ∧ t.h.variant = s.h.variant ∧ t.h.align = s.h.align ∧ t.h.irqLine = s.h.irqLine ∧
    t.h.testMode = s.h.testMode

end Sys2Proof.Machine
end

