-- ==== Sys2Proof/Certificates/Slice0/Obligations.lean ====
section
/-! DEFINITION. The statements about the model, each named after what it states. -/

open Sys2Proof Sys2Proof.Machine

/-! Encoding. -/

/-- Rule R123: the worked encodings of the command word. -/
def Obligations.WorkedEncodings : Prop :=
  decode (.cmd 0x80000000000000000000000000000000#128) = .ok .start ∧
  decode (.cmd 0x81000000000000000000000000000000#128) = .ok .stop ∧
  decode (.cmd 0x7200000000000000000000000022100A#128) = .ok (.cfgbt ⟨2#3, 8#5, 4#4, 10#11⟩) ∧
  decode (.cmd 0x4200000100000123000000000000BBAA#128) =
    .ok (.txsubmit ⟨0x123#29, false, false, 2#4, #v[0xAA#8, 0xBB#8, 0, 0, 0, 0, 0, 0]⟩) ∧
  encode .start = .cmd 0x80000000000000000000000000000000#128 ∧
  encode .stop = .cmd 0x81000000000000000000000000000000#128 ∧
  encode (.cfgbt ⟨2#3, 8#5, 4#4, 10#11⟩) = .cmd 0x7200000000000000000000000022100A#128 ∧
  encode (.txsubmit ⟨0x123#29, false, false, 2#4, #v[0xAA#8, 0xBB#8, 0, 0, 0, 0, 0, 0]⟩) =
    .cmd 0x4200000100000123000000000000BBAA#128

/-- Rules R105, R118 to R120: decoding an encoded well-formed operation gives it back. -/
def Obligations.DecodeOfEncode : Prop :=
  ∀ i : Instr, i.WellFormed = true → decode (encode i) = .ok i

/-- Rules R105, R118 to R120: a word has one meaning, whose encoding is that word. -/
def Obligations.EncodeOfDecode : Prop :=
  ∀ (c : Code) (i : Instr), decode c = .ok i → encode i = c

/-- Rules R111 (g), R119, R120: a code that is not assigned and a reserved bit that is set are told apart by name,
and every other word names an operation. The name of an unassigned code (log 33), and that a word of format C with bit 63
set is among the others (log 34), are the model's: the rules say neither. -/
def Obligations.IllegalWords : Prop :=
  ∀ w : CmdWord,
    (opcodeOf w ∉ codeTable.map Prod.fst → decodeCmd w = .error (.illegalCode (opcodeOf w))) ∧
    ∀ x ∈ codeTable, opcodeOf w = x.1 →
      (w &&& ~~~(x.2 ||| 0xFF000000000000000000000000000000#128) ≠ 0 → decodeCmd w = .error .reservedBit) ∧
      (w &&& ~~~(x.2 ||| 0xFF000000000000000000000000000000#128) = 0 → ∃ i, decodeCmd w = .ok i)

/-- Rule R105: the classes of an `INT` value, first match wins, by value and by match and mask, and the branch of each
class; for `NONE` it is "not ours". -/
def Obligations.InterruptClasses : Prop :=
  ∀ v : Word,
    decodeInt v =
      (if v.toNat = 0 then .intNone
       else if v.toNat = 0x8000 then .intStatus
       else if 1 ≤ v.toNat ∧ v.toNat ≤ 15 then .intRxobj (BitVec.ofNat 6 v.toNat)
       else if 16 ≤ v.toNat ∧ v.toNat ≤ 31 then .intTxobj (BitVec.ofNat 6 v.toNat)
       else .intOther v) ∧
    decodeInt v =
      (if v &&& 0xFFFF#16 = 0x0000#16 then .intNone
       else if v &&& 0xFFFF#16 = 0x8000#16 then .intStatus
       else if v &&& 0xFFF0#16 = 0x0000#16 then .intRxobj (BitVec.ofNat 6 v.toNat)
       else if v &&& 0xFFF0#16 = 0x0010#16 then .intTxobj (BitVec.ofNat 6 v.toNat)
       else .intOther v) ∧
    (∀ s : State, v ≠ 0 → passBranch v s =
      match decodeInt v with
      | .intStatus => stChgOp s
      | .intRxobj _ => rxDrainOp s
      | .intTxobj _ => loopbackOp (txDrainOp s)
      | _ => s) ∧
    ∀ s : State, Ready s → PassReady s → ∃ t, exec (decodeInt 0#16) s = .next t ∧ t.result = .notHandled

/-! A step, reset, and what every step keeps. -/

/-- Rules R12, R118, R121 to R123, R245, R253 and logs 13, 15, 29, 33: a step takes the head of the schedule and runs what
it decodes to; the command port, at either half of `SEND`, runs external operations only; another context takes a global
lock that is free and gives back one that it holds. The order of the reasons (log 13) and the name of an unassigned code
(log 33) are the model's. -/
def Obligations.StepRunsTheMove : Prop :=
  ∀ (s : State) (rest : List AgentStep),
    let t := { s with env := { s.env with agenda := rest } }
    (∀ w i, s.env.agenda = .block w :: rest → decodeCmd w = .ok i → step s = exec i t) ∧
    (∀ w i, s.env.agenda = .host w :: rest → decodeCmd w = .ok i → external i = true → step s = exec i t) ∧
    (∀ w i, s.env.agenda = .host w :: rest → decodeCmd w = .ok i → external i = false →
      step s = .refused .internalAtPort) ∧
    (∀ w i, s.env.agenda = .ifAcquired w :: rest → s.result = .acquired → decodeCmd w = .ok i →
      step s = if external i then exec i t else .refused .internalAtPort) ∧
    (∀ w, s.env.agenda = .host w :: rest ∨ s.env.agenda = .block w :: rest ∨
        s.env.agenda = .ifAcquired w :: rest ∧ s.result = .acquired →
      (∀ c, decodeCmd w = .error (.illegalCode c) → step s = .refused .illegalCode) ∧
      (decodeCmd w = .error .reservedBit → step s = .refused .operandRange)) ∧
    (∀ w, s.env.agenda = .ifAcquired w :: rest → s.result ≠ .acquired → step s = .next t) ∧
    (s.env.agenda = .line :: rest → step s = exec .irq t) ∧
    (∀ v, s.env.agenda = .lineInt v :: rest → step s = exec (decodeInt v) t) ∧
    (∀ d, s.env.agenda = .dev d :: rest →
      step s = .next { t with dev := deviceStep s.env.draws d s.dev
                              env := { t.env with draws := s.env.draws + 1 } }) ∧
    (∀ l, s.env.agenda = .take l :: rest → step s = .next { t with g := match l with
      | .dispatch => { s.g with dispatch := if s.g.dispatch = .free then .other else s.g.dispatch }
      | .socket => { s.g with socket := if s.g.socket = .free then .other else s.g.socket } }) ∧
    (∀ l, s.env.agenda = .give l :: rest → step s = .next { t with g := match l with
      | .dispatch => { s.g with dispatch := if s.g.dispatch = .other then .free else s.g.dispatch }
      | .socket => { s.g with socket := if s.g.socket = .other then .free else s.g.socket } }) ∧
    (s.env.agenda = [] → s.env.free = false → step s = .next s)

/-- Rule R38, the handle and the locks after attach; and the state right after reset meets the invariants below. The
values of the device's registers there are the model's (log 1), and nothing is said of them. -/
def Obligations.ResetAtAttach : Prop :=
  State.reset.h.state = .stopped ∧ State.reset.h.lastStatus = 0x0000#16 ∧ State.reset.h.txNext = 0 ∧
  State.reset.h.txEcho = 0 ∧ State.reset.h.btCache = none ∧ State.reset.h.tac = none ∧
  State.reset.h.irqRegistered = false ∧ State.reset.h.phase = .idle ∧ State.reset.h.lock = .free ∧
  State.reset.g.dispatch = .free ∧ State.reset.g.socket = .free ∧
  Ready State.reset ∧ BetweenPasses State.reset ∧ AdmissionLifetime State.reset ∧ CacheInRange State.reset

/-- Rules R30, R186, R227: between operations no pass is in progress and no lock is held by one. -/
def Obligations.StepKeepsBetweenPasses : Prop :=
  ∀ s t : State, BetweenPasses s → step s = .next t → BetweenPasses t

/-- Rules R32, R240, R241 (d), R274: the admission counter exists only in an operating state, and no unit of a counter
that does not exist is held. -/
def Obligations.StepKeepsAdmissionLifetime : Prop :=
  ∀ s t : State, AdmissionLifetime s → step s = .next t → AdmissionLifetime t

/-- Rules R31, R203: what is cached is a parameter record inside the ranges. -/
def Obligations.StepKeepsCacheInRange : Prop :=
  ∀ s t : State, CacheInRange s → step s = .next t → CacheInRange t

/-- Rule R8: the per-instance configuration is never changed. -/
def Obligations.ConfigurationIsFixed : Prop :=
  ∀ s t : State, step s = .next t → SameConfig s t

/-- Rule R27: no step enters `Sleeping`, none leaves it, and in it every operation is refused. -/
def Obligations.SleepingIsClosed : Prop :=
  (∀ (i : Instr) (s : State), s.h.state = .sleeping → exec i s = .refused .sleeping) ∧
  ∀ s t : State, step s = .next t → (t.h.state = .sleeping ↔ s.h.state = .sleeping)

/-- Rules R8, R20, R26, R28 to R34, R187, R195, R196, R244: the only operations that can change each field of the handle;
the five fields of the configuration are changed by none, and the phase is as it was once an operation is over. -/
def Obligations.HandleFieldWriters : Prop :=
  ∀ (i : Instr) (s t : State), exec i s = .next t →
    (t.h.state ≠ s.h.state →
      i = .start ∨ i = .stop ∨ i = .stchg ∨ i = .irq ∨ i = .intStatus ∨ ∃ x, i = .stenter x) ∧
    (t.h.lastStatus ≠ s.h.lastStatus → i = .stchg ∨ i = .irq ∨ i = .intStatus) ∧
    (t.h.txNext ≠ s.h.txNext → i = .start ∨ ∃ f, i = .txsubmit f) ∧
    (t.h.txEcho ≠ s.h.txEcho → i = .start ∨ i = .txdrain ∨ i = .irq ∨ ∃ x, i = .intTxobj x) ∧
    (t.h.btCache ≠ s.h.btCache → ∃ b, i = .cfgbt b) ∧
    (t.h.irqRegistered ≠ s.h.irqRegistered → i = .start ∨ i = .stop) ∧
    (t.h.tac ≠ s.h.tac →
      i = .start ∨ i = .stop ∨ i = .tacacq ∨ i = .tacrel ∨ i = .tacabandon ∨ i = .txdrain ∨ i = .stchg ∨
        i = .irq ∨ i = .intStatus ∨ (∃ x, i = .stenter x) ∨ ∃ x, i = .intTxobj x) ∧
    (t.h.lock ≠ s.h.lock →
      i = .irq ∨ i = .intStatus ∨ (∃ x, i = .intRxobj x) ∨ (∃ x, i = .intTxobj x) ∨ ∃ v, i = .intOther v) ∧
    t.h.phase = s.h.phase ∧ SameConfig s t

/-- Rules R6, R111, R232: in a ready state an operation is refused exactly when an operand is outside its range, which
is named so, or the call is excluded, which is named by its reason. That a pass that cannot begin (log 10) is
excluded, and that `CHIPCFG` with no cached bit timing (log 37) is not, is the model's. -/
def Obligations.RefusedCalls : Prop :=
  ∀ (i : Instr) (s : State), Ready s →
    (i.WellFormed = false → exec i s = .refused .operandRange) ∧
    ((∃ t, exec i s = .next t) ↔ i.WellFormed = true ∧ ¬Excluded s i) ∧
    (∀ f, i = .txsubmit f → Excluded s i → exec i s = .refused .noAdmission) ∧
    (i = .start → Excluded s i → exec i s = .refused .noBitTiming) ∧
    (∀ p x m, i = .get p x m → i.WellFormed = true → Excluded s i → exec i s = .refused .getWithTxrqst) ∧
    (∀ r v, i = .regwr r v → i.WellFormed = true → Excluded s i → exec i s = .refused .readOnlyWrite)

/-! Register access. -/

/-- Rules R117, R131, R66, R80, R144: a read returns what the register holds, as one access; a read of `STS` takes away the
status-change cause and no other read has a side effect. While BUSY of a port is set a read of one of its registers completes
too, and nothing is said of the value (93 U3), but that `COMREQ` then shows BUSY, and that a target of a *get* that has timed
out reads as it is held (rule R145): both are the model's reading of U3 (log 35). -/
def Obligations.ReadRegister : Prop :=
  ∀ (r : BitVec 6) (s : State), regOk r = true → Ready s → Still s.env → s.env.intNext = none →
    regIndex (regOf r) = r.toNat ∧
    ∃ t v, exec (.regrd r) s = .next t ∧ t.result = .word v ∧ t.trace = s.trace ++ [.read (regOf r) v] ∧
      SameBlock s t ∧ t.dev = (if r = 1#6 then { s.dev with statusCause := false } else s.dev) ∧
      (∀ p, regOf r = .port p .comreq → v.getLsbD 15 = (portOf s.dev p).comreq.getLsbD 15) ∧
      ((∀ p q, regOf r = .port p q → BusyClear s.dev p ∨ PortIdle s.dev p ∧
          ∃ cm, (portOf s.dev p).timedOut = some cm ∧ cm.getLsbD 7 = false ∧ cm &&& groupOf q ≠ 0) →
        v = regValue s.dev (regOf r) ∧ t.env = s.env)

/-- Rules R132, R66 and 93 U6: a write of a global register. `STS` takes TXOK, RXOK and LEC only; the timing registers
take the value with INIT and CCE set, and otherwise hold the old value or the written one. That a write of `STS` leaves the
reserved bits 15:8 as they were (log 8), and that the reserved bits of the other registers hold what is written (log 36), is
the model's: the rules name TXOK, RXOK, LEC and the three flags only, and 93 U8 lets reserved bits read as any value. -/
def Obligations.WriteGlobalRegister : Prop :=
  ∀ (r : BitVec 6) (v : Word) (s : State), Ready s → Still s.env →
    r = 0#6 ∨ r = 1#6 ∨ r = 3#6 ∨ r = 5#6 ∨ r = 6#6 →
    ∃ t, exec (.regwr r v) s = .next t ∧ t.result = .unit ∧ t.trace = s.trace ++ [.write (regOf r) v] ∧
      SameBlock s t ∧
      t.dev.ctrl = (if r = 0#6 then v else s.dev.ctrl) ∧
      t.dev.sts = (if r = 1#6 then (s.dev.sts &&& 0xFFE0#16) ||| (v &&& 0x001F#16) else s.dev.sts) ∧
      t.dev.test = (if r = 5#6 then v else s.dev.test) ∧
      (t.dev.btr = s.dev.btr ∨ r = 3#6 ∧ t.dev.btr = v) ∧
      (t.dev.brpext = s.dev.brpext ∨ r = 6#6 ∧ t.dev.brpext = v) ∧
      (s.dev.ctrl.getLsbD 0 = true → s.dev.ctrl.getLsbD 6 = true →
        t.dev.btr = (if r = 3#6 then v else s.dev.btr) ∧
        t.dev.brpext = if r = 6#6 then v else s.dev.brpext) ∧
      t.dev.errcnt = s.dev.errcnt ∧ t.dev.statusCause = s.dev.statusCause ∧ SameSlots s.dev t.dev ∧
      portOf t.dev .if0 = portOf s.dev .if0 ∧ portOf t.dev .if1 = portOf s.dev .if1

/-- Rules R132, R66, R140: a write of a shadow register of an idle port changes that register alone; a write of
`COMREQ` sets BUSY and starts a transfer with the command mask the port holds and the slot that bits 5:0 name; of the slot
where they name none nothing is said (log 21). That bits 14:6 of `COMREQ` (log 21) and the reserved bits of the other
registers (log 36) hold what is written is the model's. -/
def Obligations.WriteShadowRegister : Prop :=
  ∀ (r : BitVec 6) (v : Word) (p : PortId) (q : PortReg) (s : State), Ready s → Still s.env → regOk r = true →
    regOf r = .port p q → PortIdle s.dev p →
    ∃ t, exec (.regwr r v) s = .next t ∧ t.result = .unit ∧ t.trace = s.trace ++ [.write (.port p q) v] ∧
      SameBlock s t ∧ SameGlobals s.dev t.dev ∧ SameOtherPort p s.dev t.dev ∧ SameSlots s.dev t.dev ∧
      (∀ k, k ≠ q → shadowGet (portOf t.dev p) k = shadowGet (portOf s.dev p) k) ∧
      (q ≠ .comreq → shadowGet (portOf t.dev p) q = v ∧ PortIdle t.dev p ∧
        (portOf t.dev p).timedOut = (portOf s.dev p).timedOut) ∧
      (q = .comreq → (portOf t.dev p).comreq = v ||| 0x8000#16 ∧ (portOf t.dev p).timedOut = none ∧
        ∃ x, (portOf t.dev p).inflight = some x ∧ x.cm = (portOf s.dev p).commsk ∧ x.disturbed = false ∧
          (1 ≤ v.toNat % 64 → v.toNat % 64 ≤ 32 →
            ∃ k, x.slot = some k ∧ k.num = v.toNat % 64))

/-- Rules R25, R133: the composite read makes two accesses, low half first, and bit `s - 1` of its result is the flag
of slot `s`. -/
def Obligations.CompositeRead : Prop :=
  ∀ (b : Bitmap) (r : BitVec 6) (s : State), Ready s → Still s.env →
    r.toNat = regIndex (.half b false) →
    ∃ t v, exec (.regrd32 r) s = .next t ∧ t.result = .word32 v ∧
      (∀ k : Slot, v.getLsbD (k.num - 1) =
        match b with
        | .txrqst => (slotAt s.dev k).mctrl.getLsbD 8
        | .newdat => (slotAt s.dev k).mctrl.getLsbD 15
        | .intpnd => (slotAt s.dev k).mctrl.getLsbD 13
        | .msgval => (slotAt s.dev k).arb.getLsbD 31) ∧
      t.trace = s.trace ++ [.read (.half b false) (v.extractLsb' 0 16), .read (.half b true) (v.extractLsb' 16 16)] ∧
      SameBlock s t ∧ t.dev = s.dev ∧ t.env = s.env

/-! Transfers. -/

/-- Rule R141: a *get* brings the selected groups of the slot into the port's shadow registers and changes nothing
else. -/
def Obligations.GetTransfer : Prop :=
  ∀ (p : PortId) (x : BitVec 6) (m : BitVec 8) (s : State), Ready s → Prompt s.env → PortIdle s.dev p →
    1 ≤ x.toNat → x.toNat ≤ 32 → m &&& 0x88#8 = 0#8 → m.getLsbD 2 = false →
    let o := slotAt s.dev (slotOf x)
    let q := portOf s.dev p
    (slotOf x).num = x.toNat ∧
    ∃ t ev, exec (.get p x m) s = .next t ∧ t.result = .xfer .done ∧ t.trace = s.trace ++ ev ∧
      OnlyWrites ev [(.port p .commsk, m.setWidth 16), (.port p .comreq, x.setWidth 16)] ∧
      portOf t.dev p =
        { q with
          comreq := x.setWidth 16
          commsk := m.setWidth 16
          mask1 := if m.getLsbD 6 then o.mask.extractLsb' 0 16 else q.mask1
          mask2 := if m.getLsbD 6 then o.mask.extractLsb' 16 16 else q.mask2
          arb1 := if m.getLsbD 5 then o.arb.extractLsb' 0 16 else q.arb1
          arb2 := if m.getLsbD 5 then o.arb.extractLsb' 16 16 else q.arb2
          mctrl := if m.getLsbD 4 then o.mctrl else q.mctrl
          data1 := if m.getLsbD 1 then o.data[1] ++ o.data[0] else q.data1
          data2 := if m.getLsbD 1 then o.data[3] ++ o.data[2] else q.data2
          data3 := if m.getLsbD 0 then o.data[5] ++ o.data[4] else q.data3
          data4 := if m.getLsbD 0 then o.data[7] ++ o.data[6] else q.data4
          timedOut := none } ∧
      SameBlock s t ∧ SameGlobals s.dev t.dev ∧ SameOtherPort p s.dev t.dev ∧ SameSlots s.dev t.dev

/-- Rule R142: a *put* replaces the selected fields of the slot by the port's shadow registers, sets TXRQST if asked,
and changes neither the shadow registers nor anything else. -/
def Obligations.PutTransfer : Prop :=
  ∀ (p : PortId) (x : BitVec 6) (m : BitVec 8) (s : State), Ready s → Prompt s.env → PortIdle s.dev p →
    1 ≤ x.toNat → x.toNat ≤ 32 → m &&& 0x88#8 = 0#8 →
    let o := slotAt s.dev (slotOf x)
    let q := portOf s.dev p
    let c := if m.getLsbD 4 then q.mctrl else o.mctrl
    ∃ t ev, exec (.put p x m) s = .next t ∧ t.result = .xfer .done ∧ t.trace = s.trace ++ ev ∧
      OnlyWrites ev [(.port p .commsk, m.setWidth 16 ||| 0x80#16), (.port p .comreq, x.setWidth 16)] ∧
      portOf t.dev p = { q with
        comreq := x.setWidth 16, commsk := m.setWidth 16 ||| 0x80#16, timedOut := none } ∧
      slotAt t.dev (slotOf x) =
        { mask := if m.getLsbD 6 then q.mask2 ++ q.mask1 else o.mask
          arb := if m.getLsbD 5 then q.arb2 ++ q.arb1 else o.arb
          mctrl := if m.getLsbD 2 then c ||| 0x0100#16 else c
          data := #v[
            if m.getLsbD 1 then q.data1.extractLsb' 0 8 else o.data[0],
            if m.getLsbD 1 then q.data1.extractLsb' 8 8 else o.data[1],
            if m.getLsbD 1 then q.data2.extractLsb' 0 8 else o.data[2],
            if m.getLsbD 1 then q.data2.extractLsb' 8 8 else o.data[3],
            if m.getLsbD 0 then q.data3.extractLsb' 0 8 else o.data[4],
            if m.getLsbD 0 then q.data3.extractLsb' 8 8 else o.data[5],
            if m.getLsbD 0 then q.data4.extractLsb' 0 8 else o.data[6],
            if m.getLsbD 0 then q.data4.extractLsb' 8 8 else o.data[7]] } ∧
      SameBlock s t ∧ SameGlobals s.dev t.dev ∧ SameOtherPort p s.dev t.dev ∧
      SameOtherSlots (slotOf x) s.dev t.dev

/-- Rules R140, R143, R145: the number of polls that read BUSY set decides between `Done` and `Timeout`; a time-out is
logged, leaves every target old or new, and touches neither the block nor another slot. That BUSY still reads 1 after it is
the model's (log 5). -/
def Obligations.PollsAndTimeout : Prop :=
  ∀ (put : Bool) (p : PortId) (x : BitVec 6) (m : BitVec 8) (s : State) (k : Nat) (rest : List Nat),
    Ready s → Still s.env → s.env.polls = k :: rest → PortIdle s.dev p → 1 ≤ x.toNat → x.toNat ≤ 32 →
    m &&& 0x88#8 = 0#8 → (put = false → m.getLsbD 2 = false) →
    let i := if put then Instr.put p x m else .get p x m
    let cm : Word := if put then m.setWidth 16 ||| 0x80#16 else m.setWidth 16
    let o := slotAt s.dev (slotOf x)
    let q := portOf s.dev p
    ∃ t ev, exec i s = .next t ∧ t.trace = s.trace ++ ev ∧ t.env.polls = rest ∧ SameBlock s t ∧
      writesOf ev = startWrites p (slotOf x) cm ∧
      (k < 6 → t.result = .xfer .done ∧ effectsOf ev = List.replicate k (.delay 1) ∧
        (portOf t.dev p).comreq = x.setWidth 16) ∧
      (6 ≤ k → t.result = .xfer .timeout ∧
        effectsOf ev = List.replicate 6 (.delay 1) ++ [.logTimeout p (slotOf x) cm] ∧
        (portOf t.dev p).comreq = x.setWidth 16 ||| 0x8000#16 ∧ (portOf t.dev p).commsk = cm ∧
        PortIdle t.dev p ∧ (portOf t.dev p).timedOut = some cm ∧
        SameGlobals s.dev t.dev ∧ SameOtherPort p s.dev t.dev ∧ SameOtherSlots (slotOf x) s.dev t.dev ∧
        (put = false → SameSlots s.dev t.dev ∧ ∀ r, ownedByTransfer r = true →
          shadowGet (portOf t.dev p) r = shadowGet q r ∨
          shadowGet (portOf t.dev p) r = shadowGet (getRegs wholeChoice cm o q) r) ∧
        (put = true → (∀ r, ownedByTransfer r = true → shadowGet (portOf t.dev p) r = shadowGet q r) ∧
          let n := putSlot wholeChoice cm q o
          let u := slotAt t.dev (slotOf x)
          (u.mask = o.mask ∨ u.mask = n.mask) ∧ (u.arb = o.arb ∨ u.arb = n.arb) ∧
          (u.mctrl = o.mctrl ∨ u.mctrl = n.mctrl) ∧
          ∀ j : Fin 8, u.data[j] = o.data[j] ∨ u.data[j] = n.data[j]))

/-! Frame codec. -/

/-- Rule R150: the words of a frame; the operation is pure. -/
def Obligations.EncodeWords : Prop :=
  ∀ (f : Frame) (s : State), Ready s →
    let idf : Word32 := if f.ext then 0x40000000#32 ||| f.id.setWidth 32
      else (f.id &&& 0x7FF#29).setWidth 32 <<< 18
    let arb : Word32 := 0x80000000#32 ||| idf ||| (if f.rtr then 0#32 else 0x20000000#32)
    ∃ e : EncodedFrame,
      exec (.encode f) s = .next { s with result := .encoded e } ∧
      e.hi = arb.extractLsb' 16 16 ∧ e.lo = arb.extractLsb' 0 16 ∧
      e.control = 0x0980#16 ||| BitVec.ofNat 16 (min f.dlc.toNat 8) ∧
      ∀ k : Fin 4, e.data[k] = f.data[2 * k.val + 1] ++ f.data[2 * k.val]

/-- Rules R151, R98, with the control word of log 12: `DECODE` reads `ARB1`, `ARB2` and, of a data frame, the data registers
it needs in rising order, and reports the frame in them, which is canonical. -/
def Obligations.DecodePort : Prop :=
  ∀ (p : PortId) (s : State), Ready s → Still s.env → BusyClear s.dev p →
    let q := portOf s.dev p
    let arb : Word32 := q.arb2 ++ q.arb1
    let w : Vector Word 4 := #v[q.data1, q.data2, q.data3, q.data4]
    let dlc := min (q.mctrl.toNat % 16) 8
    let words := [(PortReg.data1, q.data1), (.data2, q.data2), (.data3, q.data3), (.data4, q.data4)]
    ∃ t f, exec (.decode p) s = .next t ∧ t.result = .frame f ∧
      canon f = f ∧ f.dlc.toNat = dlc ∧ f.ext = arb.getLsbD 30 ∧ f.rtr = !arb.getLsbD 29 ∧
      f.id = (if f.ext then arb.extractLsb' 0 29 else (arb.extractLsb' 18 11).setWidth 29) ∧
      (∀ i : Fin 8, f.data[i] =
        if f.rtr = false ∧ i.val < dlc then w[i.val / 2].extractLsb' (8 * (i.val % 2)) 8 else 0#8) ∧
      t.trace = s.trace ++ [.read (.port p .arb1) q.arb1, .read (.port p .arb2) q.arb2] ++
        (words.take (if f.rtr then 0 else (dlc + 1) / 2)).map (fun y => .read (.port p y.1) y.2) ∧
      SameBlock s t ∧ t.dev = s.dev ∧ t.env = s.env

/-- Rule R153: the round-trip law, on `canon` and on the frames with DLC in 0..8. -/
def Obligations.CodecRoundTrip : Prop :=
  ∀ f : Frame,
    let e := encodeFrame f
    let g := decodeFrame (e.hi ++ e.lo) e.control e.data
    g = canon f ∧
    (f.dlc.toNat ≤ 8 → (f.ext = false → f.id.toNat < 2048) →
      g.id = f.id ∧ g.ext = f.ext ∧ g.rtr = f.rtr ∧ g.dlc = f.dlc ∧
      (f.rtr = false → ∀ i : Fin 8, i.val < f.dlc.toNat → g.data[i] = f.data[i]) ∧
      (f.rtr = true → ∀ i : Fin 8, g.data[i] = 0#8))

/-! Message-object pool. -/

/-- Rules R160, R25: `INVAL` clears the slot's arbitration and control words, keeps its mask and payload, and makes its
bit of all four bitmasks 0. -/
def Obligations.InvalidateSlot : Prop :=
  ∀ (p : PortId) (x : BitVec 6) (s : State), Ready s → Prompt s.env → PortIdle s.dev p →
    1 ≤ x.toNat → x.toNat ≤ 32 →
    ∃ t ev, exec (.inval p x) s = .next t ∧ t.result = .unit ∧ t.trace = s.trace ++ ev ∧
      OnlyWrites ev [(.port p .arb1, 0#16), (.port p .arb2, 0#16), (.port p .mctrl, 0#16),
        (.port p .commsk, 0x00B0#16), (.port p .comreq, x.setWidth 16)] ∧
      slotAt t.dev (slotOf x) = { slotAt s.dev (slotOf x) with arb := 0, mctrl := 0 } ∧
      (∀ b, (bitmapWord b t.dev.ram).getLsbD (x.toNat - 1) = false) ∧
      portOf t.dev p = { portOf s.dev p with
        arb1 := 0, arb2 := 0, mctrl := 0, commsk := 0x00B0#16, comreq := x.setWidth 16, timedOut := none } ∧
      SameBlock s t ∧ SameGlobals s.dev t.dev ∧ SameOtherPort p s.dev t.dev ∧
      SameOtherSlots (slotOf x) s.dev t.dev

/-- Rule R162: `RXCFG` replaces the slot's mask, arbitration word (with MSGVAL set) and control word; its payload is
what the port's data registers hold. -/
def Obligations.ConfigureSlot : Prop :=
  ∀ (p : PortId) (x : BitVec 6) (mask idw : Word32) (mcont : Word) (s : State), Ready s → Prompt s.env →
    PortIdle s.dev p → 1 ≤ x.toNat → x.toNat ≤ 15 →
    let q := portOf s.dev p
    ∃ t ev, exec (.rxcfg p x mask idw mcont) s = .next t ∧ t.result = .unit ∧ t.trace = s.trace ++ ev ∧
      OnlyWrites ev [(.port p .mask1, mask.extractLsb' 0 16), (.port p .mask2, mask.extractLsb' 16 16),
        (.port p .arb1, idw.extractLsb' 0 16), (.port p .arb2, idw.extractLsb' 16 16 ||| 0x8000#16),
        (.port p .mctrl, mcont), (.port p .commsk, 0x00F3#16), (.port p .comreq, x.setWidth 16)] ∧
      (slotAt t.dev (slotOf x)).mask = mask ∧ (slotAt t.dev (slotOf x)).arb = idw ||| 0x80000000#32 ∧
      (slotAt t.dev (slotOf x)).mctrl = mcont ∧
      (∀ i : Fin 8, (slotAt t.dev (slotOf x)).data[i] =
        (#v[q.data1, q.data2, q.data3, q.data4][i.val / 2]).extractLsb' (8 * (i.val % 2)) 8) ∧
      portOf t.dev p = { q with
        mask1 := mask.extractLsb' 0 16, mask2 := mask.extractLsb' 16 16, arb1 := idw.extractLsb' 0 16,
        arb2 := idw.extractLsb' 16 16 ||| 0x8000#16, mctrl := mcont, commsk := 0x00F3#16,
        comreq := x.setWidth 16, timedOut := none } ∧
      SameBlock s t ∧ SameGlobals s.dev t.dev ∧ SameOtherPort p s.dev t.dev ∧
      SameOtherSlots (slotOf x) s.dev t.dev

/-- Rules R164, R274, R13: `TXSUBMIT` puts the encoded frame into the slot of `tx_next`, advances `tx_next` and uses up
the caller's unit. -/
def Obligations.SubmitFrame : Prop :=
  ∀ (f : Frame) (s : State), Ready s → Prompt s.env → PortIdle s.dev .if0 → 0 < s.held → s.h.tac ≠ none →
    let e := encodeFrame f
    let k := txSlot s.h.txNext
    k.num = s.h.txNext.toNat % 16 + 16 ∧
    ∃ t ev, exec (.txsubmit f) s = .next t ∧ t.result = .ok ∧ t.trace = s.trace ++ ev ∧
      OnlyWrites ev ([(.port .if0 .arb1, e.lo), (.port .if0 .arb2, e.hi), (.port .if0 .mctrl, e.control),
        (.port .if0 .data1, e.data[0]), (.port .if0 .data2, e.data[1]), (.port .if0 .data3, e.data[2]),
        (.port .if0 .data4, e.data[3])] ++ startWrites .if0 k 0x00B7#16) ∧
      slotAt t.dev k = ⟨(slotAt s.dev k).mask, e.hi ++ e.lo, e.control, f.data⟩ ∧
      (bitmapWord .txrqst t.dev.ram).getLsbD (k.num - 1) = true ∧
      portOf t.dev .if0 = { portOf s.dev .if0 with
        arb1 := e.lo, arb2 := e.hi, mctrl := e.control, data1 := e.data[0], data2 := e.data[1],
        data3 := e.data[2], data4 := e.data[3], commsk := 0x00B7#16, comreq := slotWord k, timedOut := none } ∧
      t.h = { s.h with txNext := s.h.txNext + 1 } ∧ t.g = s.g ∧ t.held = s.held - 1 ∧
      SameGlobals s.dev t.dev ∧ SameOtherPort .if0 s.dev t.dev ∧ SameOtherSlots k s.dev t.dev

/-- Rule R174, in any environment: one `TXDRAIN` releases `d + stall + bonus` units, `d` the advance of `tx_echo`. -/
def Obligations.DrainReleaseAccounting : Prop :=
  ∀ s : State, Ready s →
    ∃ t ev, exec .txdrain s = .next t ∧ t.result = .unit ∧ t.trace = s.trace ++ ev ∧ t.g = s.g ∧ t.held = s.held ∧
      t.h = { s.h with txEcho := t.h.txEcho, tac := t.h.tac } ∧
      (t.h.txEcho - s.h.txEcho).toNat ≤ (s.h.txNext - s.h.txEcho).toNat ∧
      t.h.tac = s.h.tac.map (· + releases ev) ∧
      (s.h.tac = none → releases ev = 0) ∧
      (s.h.tac ≠ none → releases ev = (t.h.txEcho - s.h.txEcho).toNat +
        (if t.h.txNext ≠ t.h.txEcho then 1 else 0) +
        (if t.h.txNext.toNat % 16 = 0 ∨ t.h.txEcho.toNat % 16 = 0 then 1 else 0))

/-- Rule R166: with the first `j` of the frames in flight sent and the next one, if there is one, still requesting,
`TXDRAIN` invalidates exactly those `j` slots and advances `tx_echo` by `j`. -/
def Obligations.DrainSentFrames : Prop :=
  ∀ (s : State) (j : Nat), Ready s → Prompt s.env → PortIdle s.dev .if0 →
    (s.h.txNext - s.h.txEcho).toNat ≤ 16 → j ≤ (s.h.txNext - s.h.txEcho).toNat →
    (∀ i, i < j → (slotAt s.dev (txSlot (s.h.txEcho + BitVec.ofNat 32 i))).mctrl.getLsbD 8 = false) →
    (j < (s.h.txNext - s.h.txEcho).toNat →
      (slotAt s.dev (txSlot (s.h.txEcho + BitVec.ofNat 32 j))).mctrl.getLsbD 8 = true) →
    ∃ t, exec .txdrain s = .next t ∧ t.result = .unit ∧
      t.h = { s.h with txEcho := s.h.txEcho + BitVec.ofNat 32 j, tac := t.h.tac } ∧
      (∀ k : Slot, slotAt t.dev k =
        if ∃ i, i < j ∧ k = txSlot (s.h.txEcho + BitVec.ofNat 32 i) then
          { slotAt s.dev k with arb := 0, mctrl := 0 } else slotAt s.dev k) ∧
      t.g = s.g ∧ t.held = s.held ∧ SameGlobals s.dev t.dev ∧ SameOtherPort .if0 s.dev t.dev

/-- Rules R171, R173: with no receive slot pending, or with the lowest pending one marked end-of-block, `RXDRAIN`
delivers nothing and changes no slot. -/
def Obligations.ReceiveDrainStops : Prop :=
  ∀ s : State, Ready s → Prompt s.env → PortIdle s.dev .if0 →
    ((∀ k : Slot, k.num ≤ 15 → (slotAt s.dev k).mctrl.getLsbD 13 = false) →
      ∃ t ev, exec .rxdrain s = .next t ∧ t.result = .unit ∧ t.trace = s.trace ++ ev ∧ SameBlock s t ∧
        t.dev = s.dev ∧ writesOf ev = [] ∧ effectsOf ev = []) ∧
    ∀ k : Slot, k.num ≤ 15 → (∀ l : Slot, l.num < k.num → (slotAt s.dev l).mctrl.getLsbD 13 = false) →
      (slotAt s.dev k).mctrl.getLsbD 13 = true → (slotAt s.dev k).mctrl.getLsbD 7 = true →
      ∃ t ev, exec .rxdrain s = .next t ∧ t.result = .unit ∧ t.trace = s.trace ++ ev ∧ SameBlock s t ∧
        OnlyWrites ev (startWrites .if0 k 0x0073#16) ∧ SameSlots s.dev t.dev ∧ SameGlobals s.dev t.dev ∧
        SameOtherPort .if0 s.dev t.dev

/-- Rules R167 to R171: `RXDRAIN` with one receive slot pending that is not marked end-of-block. With MSGLST the one effect
is the overflow event, and the slot keeps everything but MSGLST; with neither MSGLST nor NEWDAT nothing happens to it; a
slot that holds a frame is decoded, delivered and reactivated, by its place against the boundary slot 9. -/
def Obligations.ReceiveDrainDelivers : Prop :=
  ∀ (s : State) (k : Slot), Ready s → Prompt s.env → PortIdle s.dev .if0 → s.h.phase = .idle → k.num ≤ 15 →
    (∀ l : Slot, l.num ≤ 15 → ((slotAt s.dev l).mctrl.getLsbD 13 = true ↔ l = k)) →
    (slotAt s.dev k).mctrl.getLsbD 7 = false →
    let o := slotAt s.dev k
    let lost := o.mctrl.getLsbD 14
    let fresh := o.mctrl.getLsbD 15
    ∃ t ev, exec .rxdrain s = .next t ∧ t.result = .unit ∧ t.trace = s.trace ++ ev ∧ SameBlock s t ∧
      effectsBarDelays ev =
        (if lost then [.deliver .rxOverflow]
         else if fresh then [.deliver (.data (decodeFrame o.arb o.mctrl (dataWords o.data)))]
         else []) ∧
      (∀ l : Slot, slotAt t.dev l =
        if lost then (if l = k then { o with mctrl := o.mctrl &&& 0xBFFF#16 } else slotAt s.dev l)
        else if fresh = false then slotAt s.dev l
        else if k.num < 9 then (if l = k then { o with mctrl := o.mctrl &&& 0x9FFF#16 } else slotAt s.dev l)
        else if k.num = 9 then
          (if l.num ≤ 9 then { slotAt s.dev l with mctrl := o.mctrl &&& 0x1FFF#16 } else slotAt s.dev l)
        else (if l = k then { o with mctrl := o.mctrl &&& 0x1FFF#16 } else slotAt s.dev l)) ∧
      SameGlobals s.dev t.dev ∧ SameOtherPort .if0 s.dev t.dev

/-- Rule R172, the testable property: a drain that finds the boundary slot 9 pending with new data leaves NEWDAT clear
in slots 1..9 and leaves alone every slot of 10..15 that was not itself pending. -/
def Obligations.BoundaryReactivation : Prop :=
  ∀ s : State, Ready s → Prompt s.env → PortIdle s.dev .if0 →
    (∀ l : Slot, l.num ≤ 9 → (slotAt s.dev l).mctrl.getLsbD 13 = true → (slotAt s.dev l).mctrl.getLsbD 7 = false) →
    (∀ l : Slot, l.num = 9 → (slotAt s.dev l).mctrl.getLsbD 13 = true ∧
      (slotAt s.dev l).mctrl.getLsbD 14 = false ∧ (slotAt s.dev l).mctrl.getLsbD 15 = true) →
    ∃ t, exec .rxdrain s = .next t ∧ t.result = .unit ∧
      (∀ l : Slot, l.num ≤ 9 → (slotAt t.dev l).mctrl.getLsbD 15 = false ∧ (slotAt t.dev l).mctrl.getLsbD 13 = false) ∧
      (∀ l : Slot, 10 ≤ l.num → l.num ≤ 15 → (slotAt s.dev l).mctrl.getLsbD 13 = false →
        slotAt t.dev l = slotAt s.dev l) ∧
      (∀ l : Slot, 16 ≤ l.num → slotAt t.dev l = slotAt s.dev l) ∧
      t.h = s.h ∧ t.held = s.held ∧ SameGlobals s.dev t.dev ∧ SameOtherPort .if0 s.dev t.dev

/-- Rules R167 to R169: the control word each of `RXLOST`, `RXMARK`, `RXACT` writes back to its slot, and the overflow
event of the first. Outside a pass a delivery takes no lock (log 22). -/
def Obligations.ControlRewrites : Prop :=
  ∀ (i : Instr) (p : PortId) (x : BitVec 6) (c n : Word) (eff : List Effect) (s : State), Ready s → Prompt s.env →
    PortIdle s.dev p → s.h.phase = .idle →
    (i = .rxlost p x c ∧ 1 ≤ x.toNat ∧ x.toNat ≤ 15 ∧ n = c &&& 0xBFFF#16 ∧ eff = [.deliver .rxOverflow] ∨
      i = .rxmark p x c ∧ 1 ≤ x.toNat ∧ x.toNat ≤ 8 ∧ n = c &&& 0x9FFF#16 ∧ eff = [] ∨
      i = .rxact p x c ∧ 10 ≤ x.toNat ∧ x.toNat ≤ 15 ∧ n = c &&& 0x1FFF#16 ∧ eff = []) →
    ∃ t ev, exec i s = .next t ∧ t.result = .unit ∧ t.trace = s.trace ++ ev ∧
      writesOf ev = [(.port p .mctrl, n), (.port p .commsk, 0x0090#16), (.port p .comreq, x.setWidth 16)] ∧
      effectsBarDelays ev = eff ∧ slotAt t.dev (slotOf x) = { slotAt s.dev (slotOf x) with mctrl := n } ∧
      portOf t.dev p = { portOf s.dev p with
        mctrl := n, commsk := 0x0090#16, comreq := x.setWidth 16, timedOut := none } ∧
      SameBlock s t ∧ SameGlobals s.dev t.dev ∧ SameOtherPort p s.dev t.dev ∧
      SameOtherSlots (slotOf x) s.dev t.dev

/-- Rule R170: `RXACTLOW` writes the boundary slot's word, freed, to slots 1..9 and to no other. -/
def Obligations.BoundaryRewrite : Prop :=
  ∀ (p : PortId) (c : Word) (s : State), Ready s → Prompt s.env → PortIdle s.dev p →
    ∃ t ev, exec (.rxactlow p c) s = .next t ∧ t.result = .unit ∧ t.trace = s.trace ++ ev ∧
      OnlyWrites ev (((List.range 9).map fun k =>
        [(Reg.port p .mctrl, c &&& 0x1FFF#16), (.port p .commsk, 0x0090#16),
          (.port p .comreq, BitVec.ofNat 16 (k + 1))]).flatten) ∧
      (∀ l : Slot, slotAt t.dev l =
        if l.num ≤ 9 then { slotAt s.dev l with mctrl := c &&& 0x1FFF#16 } else slotAt s.dev l) ∧
      portOf t.dev p = { portOf s.dev p with
        mctrl := c &&& 0x1FFF#16, commsk := 0x0090#16, comreq := 0x0009#16, timedOut := none } ∧
      SameBlock s t ∧ SameGlobals s.dev t.dev ∧ SameOtherPort p s.dev t.dev

/-! Interrupt pipeline. -/

/-- Rule R181: a pass that reads 0 from `INT` makes that one access and changes nothing; of an `IRQ` with the value the
device shows, and in any environment of a pass whose value is given. -/
def Obligations.PassNotOurs : Prop :=
  ∀ s : State, Ready s → PassReady s →
    (Still s.env → s.env.intNext = none → intView s.dev = 0#16 →
      exec .irq s = .next { s with result := .notHandled, trace := s.trace ++ [.read .int 0#16] }) ∧
    ∃ t, exec .intNone s = .next t ∧ t.result = .notHandled ∧ t.trace = s.trace ++ [.read .int 0#16] ∧
      SameBlock s t ∧ (Still s.env → t.dev = s.dev)

/-- Rules R121, R180, R79: with nothing interleaved an `IRQ` is the pass of the value the device shows, whose class
selects the branch; it ends with every lock free and the phase `Idle`. -/
def Obligations.IrqServesTheDevice : Prop :=
  ∀ s : State, Ready s → PassReady s → BetweenPasses s → Still s.env → s.env.intNext = none →
    ∃ t, exec .irq s = .next t ∧ exec (decodeInt (intView s.dev)) s = .next t ∧
      t.result = (if intView s.dev = 0#16 then .notHandled else .handled) ∧ BetweenPasses t

/-- Rule R185, in any environment: after a pass that was handled the three enables are all set, or, with the block left
in `BusOff`, all clear. -/
def Obligations.PassLeavesEnables : Prop :=
  ∀ (i : Instr) (s t : State), (i = .irq ∨ ∃ v, encode i = .int v) → exec i s = .next t → t.result = .handled →
    (t.h.state = .busOff → t.dev.ctrl &&& 0x000E#16 = 0#16) ∧
    (t.h.state ≠ .busOff → t.dev.ctrl &&& 0x000E#16 = 0x000E#16)

/-- Rules R180, R184, R185: a pass whose value is of class `OTHER` disables, locks, unlocks, enables, and does nothing
else. That the reserved bits of a written register hold what was written is the model's (log 36). -/
def Obligations.PassOfNoBranch : Prop :=
  ∀ (v : Word) (s : State), Ready s → PassReady s → BetweenPasses s → Still s.env →
    32 ≤ v.toNat → v.toNat ≠ 0x8000 →
    let off := s.dev.ctrl &&& 0xFFF1#16
    ∃ t, exec (.intOther v) s = .next t ∧ t.result = .handled ∧ SameBlock s t ∧
      t.trace = s.trace ++
        [.read .int v, .read .ctrl s.dev.ctrl, .write .ctrl off, .acquire .controller, .release .controller] ++
        (if s.h.state = .busOff then [] else [.read .ctrl off, .write .ctrl (off ||| 0x000E#16)]) ∧
      t.dev = { s.dev with ctrl := if s.h.state = .busOff then off else off ||| 0x000E#16 }

/-- Rules R180, R190, R192 to R194, R196, R197: a pass on a status change leaves the state the edges lead to, the
snapshot and the enables. That the writes of `STS` leave its bits 15:8 as they were is the model's (log 8). That the
reserved bits of a written register hold what was written is the model's (log 36). -/
def Obligations.PassOnStatusChange : Prop :=
  ∀ s : State, Ready s → PassReady s → BetweenPasses s → Still s.env →
    let cur := s.dev.sts
    let old := s.h.lastStatus
    let lec := cur.toNat % 8
    let rises := fun n : Nat => cur.getLsbD n && !old.getLsbD n
    let falls := fun n : Nat => !cur.getLsbD n && old.getLsbD n
    let st := if falls 5 then OpState.errorActive else if falls 7 then .errorActive else if rises 7 then .busOff
      else if rises 5 then .errorPassive else if rises 6 then .errorWarning else s.h.state
    ∃ t, exec .intStatus s = .next t ∧ t.result = .handled ∧ BetweenPasses t ∧
      t.h = { s.h with state := st, lastStatus := cur, tac := if rises 7 then none else s.h.tac } ∧
      t.held = (if rises 7 then 0 else s.held) ∧
      t.dev.sts = (if 1 ≤ lec ∧ lec ≤ 6 then (cur &&& 0xFFE0#16) ||| 0x0007#16 else cur &&& 0xFFE7#16) ∧
      SameGlobals { s.dev with
        ctrl := if st = .busOff then s.dev.ctrl &&& 0xFFF1#16 else s.dev.ctrl ||| 0x000E#16
        sts := t.dev.sts
        statusCause := false } t.dev ∧
      SameSlots s.dev t.dev ∧
      portOf t.dev .if0 = portOf s.dev .if0 ∧ portOf t.dev .if1 = portOf s.dev .if1

/-- Rules R166, R180, R183: a pass on a transmit value drains once from `tx_echo`, whatever slot the value named, then
samples `loopback_pending`; that a sample the environment does not give counts as not pending is the model's (log 2).
That the reserved bits of a written register hold what was written is the model's (log 36). -/
def Obligations.PassOnTransmit : Prop :=
  ∀ (x : BitVec 6) (s : State) (j : Nat), Ready s → PassReady s → BetweenPasses s → Prompt s.env →
    PortIdle s.dev .if0 → 16 ≤ x.toNat → x.toNat ≤ 31 → (s.h.txNext - s.h.txEcho).toNat ≤ 16 →
    j ≤ (s.h.txNext - s.h.txEcho).toNat →
    (∀ i, i < j → (slotAt s.dev (txSlot (s.h.txEcho + BitVec.ofNat 32 i))).mctrl.getLsbD 8 = false) →
    (j < (s.h.txNext - s.h.txEcho).toNat →
      (slotAt s.dev (txSlot (s.h.txEcho + BitVec.ofNat 32 j))).mctrl.getLsbD 8 = true) →
    ∃ t ev, exec (.intTxobj x) s = .next t ∧ t.result = .handled ∧ BetweenPasses t ∧ t.trace = s.trace ++ ev ∧
      t.h = { s.h with txEcho := s.h.txEcho + BitVec.ofNat 32 j, tac := t.h.tac } ∧
      (∀ k : Slot, slotAt t.dev k =
        if ∃ i, i < j ∧ k = txSlot (s.h.txEcho + BitVec.ofNat 32 i) then
          { slotAt s.dev k with arb := 0, mctrl := 0 } else slotAt s.dev k) ∧
      (effectsOf ev).count .loopbackDeliver = (if s.env.loopback.headD false then 1 else 0) ∧
      t.held = s.held ∧ SameOtherPort .if0 s.dev t.dev ∧
      SameGlobals { s.dev with
        ctrl := if s.h.state = .busOff then s.dev.ctrl &&& 0xFFF1#16 else s.dev.ctrl ||| 0x000E#16 } t.dev

/-- Rules R171, R180, R186: a pass on a receive value that finds one slot pending with a frame delivers it under the
two delivery locks, taken after the controller lock and released before it, and reactivates the slot. That the reserved
bits of a written register hold what was written is the model's (log 36). -/
def Obligations.PassOnReceive : Prop :=
  ∀ (x : BitVec 6) (s : State) (k : Slot), Ready s → PassReady s → BetweenPasses s → Prompt s.env →
    PortIdle s.dev .if0 → 1 ≤ x.toNat → x.toNat ≤ 15 → k.num ≤ 15 → k.num ≠ 9 →
    (∀ l : Slot, l.num ≤ 15 → ((slotAt s.dev l).mctrl.getLsbD 13 = true ↔ l = k)) →
    (slotAt s.dev k).mctrl.getLsbD 7 = false → (slotAt s.dev k).mctrl.getLsbD 14 = false →
    (slotAt s.dev k).mctrl.getLsbD 15 = true →
    let o := slotAt s.dev k
    ∃ t ev, exec (.intRxobj x) s = .next t ∧ t.result = .handled ∧ BetweenPasses t ∧ t.trace = s.trace ++ ev ∧
      t.h = s.h ∧ t.held = s.held ∧
      effectsBarDelays ev = [.deliver (.data (decodeFrame o.arb o.mctrl (dataWords o.data)))] ∧
      (ev.filter fun e => match e with
        | .acquire _ => true
        | .release _ => true
        | _ => false) =
        [.acquire .controller, .acquire .dispatch, .acquire .socket, .release .socket, .release .dispatch,
          .release .controller] ∧
      slotAt t.dev k = { o with mctrl := o.mctrl &&& (if k.num < 9 then 0x9FFF#16 else 0x1FFF#16) } ∧
      SameOtherSlots k s.dev t.dev ∧ SameOtherPort .if0 s.dev t.dev ∧
      SameGlobals { s.dev with
        ctrl := if s.h.state = .busOff then s.dev.ctrl &&& 0xFFF1#16 else s.dev.ctrl ||| 0x000E#16 } t.dev

/-- Rule R224: `IEALL` is a read and a write of `CTRL` that sets or clears the three enables and keeps every other bit.
That the reserved bits of a written register hold what was written is the model's (log 36). -/
def Obligations.InterruptEnables : Prop :=
  ∀ (e : Bool) (s : State), Ready s → Still s.env →
    let c := if e then s.dev.ctrl ||| 0x000E#16 else s.dev.ctrl &&& 0xFFF1#16
    ∃ t, exec (.ieall e) s = .next t ∧ t.result = .unit ∧
      t.trace = s.trace ++ [.read .ctrl s.dev.ctrl, .write .ctrl c] ∧ t.dev = { s.dev with ctrl := c } ∧
      SameBlock s t

/-! Bus state machine. -/

/-- Rules R107, R190 to R194, R196, R197: the state the edges lead to, the events in their order with the counters and
the dominant side, the snapshot, the clearing of TXOK and RXOK, the bus error and its acknowledgment. Outside a pass a
delivery takes no lock (log 22). That the writes of `STS` leave its bits 15:8 as they were is the model's (log 8). That
the reserved bits of a written register hold what was written is the model's (log 36). -/
def Obligations.StatusChange : Prop :=
  ∀ s : State, Ready s → Still s.env → s.h.phase = .idle →
    let cur := s.dev.sts
    let old := s.h.lastStatus
    let tec := s.dev.errcnt.extractLsb' 0 8
    let rec' := s.dev.errcnt.extractLsb' 8 7
    let side := if tec.toNat < rec'.toNat then Side.rx else .tx
    let rises := fun n : Nat => cur.getLsbD n && !old.getLsbD n
    let falls := fun n : Nat => !cur.getLsbD n && old.getLsbD n
    let lec := cur.toNat % 8
    ∃ t ev, exec .stchg s = .next t ∧ t.result = .unit ∧ t.trace = s.trace ++ ev ∧
      t.h = { s.h with
        lastStatus := cur
        tac := if rises 7 then none else s.h.tac
        state := if falls 5 then .errorActive else if falls 7 then .errorActive else if rises 7 then .busOff
          else if rises 5 then .errorPassive else if rises 6 then .errorWarning else s.h.state } ∧
      effectsOf ev =
        (if rises 6 then [.deliver (.stateWarning tec rec' side)] else []) ++
        (if rises 5 then [.deliver (.statePassive tec rec' side)] else []) ++
        (if rises 7 then [.deliver .busOff, .tacAbandonAll] else []) ++
        (match lecKind (cur.extractLsb' 0 3) with | some k => [.deliver (.busError k)] | none => []) ∧
      t.dev.sts = (if 1 ≤ lec ∧ lec ≤ 6 then (cur &&& 0xFFE0#16) ||| 0x0007#16 else cur &&& 0xFFE7#16) ∧
      t.dev.ctrl = (if rises 7 then s.dev.ctrl &&& 0xFFF1#16 else s.dev.ctrl) ∧
      t.g = s.g ∧ t.held = (if rises 7 then 0 else s.held) ∧ t.dev.statusCause = false ∧
      t.dev.errcnt = s.dev.errcnt ∧ t.dev.btr = s.dev.btr ∧ t.dev.brpext = s.dev.brpext ∧
      t.dev.test = s.dev.test ∧ SameSlots s.dev t.dev ∧ portOf t.dev .if0 = portOf s.dev .if0 ∧
      portOf t.dev .if1 = portOf s.dev .if1

/-- Rule R192: entering each error state. Outside a pass a delivery takes no lock (log 22). That the reserved bits of a
written register hold what was written is the model's (log 36). -/
def Obligations.EnterErrorState : Prop :=
  ∀ (x : BitVec 2) (s : State), Ready s → Still s.env → s.h.phase = .idle → x ≠ 3#2 →
    let e := s.dev.errcnt
    let tec := e.extractLsb' 0 8
    let rec' := e.extractLsb' 8 7
    let side := if tec.toNat < rec'.toNat then Side.rx else .tx
    let off := s.dev.ctrl &&& 0xFFF1#16
    ∃ t, exec (.stenter x) s = .next t ∧ t.result = .unit ∧ t.g = s.g ∧
      (x = 0#2 → t.h = { s.h with state := .errorWarning } ∧ t.held = s.held ∧ t.dev = s.dev ∧
        t.trace = s.trace ++ [.read .errcnt e, .effect (.deliver (.stateWarning tec rec' side))]) ∧
      (x = 1#2 → t.h = { s.h with state := .errorPassive } ∧ t.held = s.held ∧ t.dev = s.dev ∧
        t.trace = s.trace ++ [.read .errcnt e, .effect (.deliver (.statePassive tec rec' side))]) ∧
      (x = 2#2 → t.h = { s.h with state := .busOff, tac := none } ∧ t.held = 0 ∧
        t.dev = { s.dev with ctrl := off } ∧
        t.trace = s.trace ++ [.effect (.deliver .busOff), .read .ctrl s.dev.ctrl, .write .ctrl off,
          .effect .tacAbandonAll])

/-- Rules R107, R197: codes 1 to 6 report their kind and are acknowledged by one write of `STS`; codes 0 and 7 do
nothing. Outside a pass a delivery takes no lock (log 22). That the write leaves the bits 15:8 of `STS` as they were is the
model's (log 8). -/
def Obligations.LastErrorCode : Prop :=
  ∀ (lec : BitVec 3) (s : State), Ready s → Still s.env → s.h.phase = .idle →
    let kinds := [ErrKind.stuff, .form, .ack, .bitDominant, .bitRecessive, .crc]
    ∃ t, exec (.lecdec lec) s = .next t ∧ t.result = .unit ∧ SameBlock s t ∧
      (lec = 0#3 ∨ lec = 7#3 → t.dev = s.dev ∧ t.trace = s.trace) ∧
      ∀ k, 1 ≤ lec.toNat → lec.toNat ≤ 6 → kinds[lec.toNat - 1]? = some k →
        t.trace = s.trace ++ [.effect (.deliver (.busError k)), .write .sts 0x0007#16] ∧
        t.dev = { s.dev with sts := (s.dev.sts &&& 0xFFE0#16) ||| 0x0007#16 }

/-- Rule R195, the testable property of a rising edge to `BusOff`, in any environment: (a) the waiters are abandoned and
the counter is gone, (b) the enables are off, (c) `START` is not refused for want of a state to start from. -/
def Obligations.BusOffTearsDown : Prop :=
  ∀ s t : State, Ready s → exec .stchg s = .next t → rising t.h.lastStatus s.h.lastStatus stBoff = true →
    t.h.tac = none ∧ t.held = 0 ∧ Event.effect .tacAbandonAll ∈ t.trace ∧ Event.effect (.deliver .busOff) ∈ t.trace ∧
    t.dev.ctrl &&& 0x000E#16 = 0#16 ∧
    (t.h.state = .busOff → s.h.btCache ≠ none → ∃ u, exec .start t = .next u)

/-! Bit timing. -/

/-- Rule R200: the register values of a parameter record; the operation is pure, and refused outside the ranges. -/
def Obligations.TimingWords : Prop :=
  ∀ (b : BitTiming) (s : State), Ready s →
    (b.inRange = true ↔ 1 ≤ b.sjw.toNat ∧ b.sjw.toNat ≤ 4 ∧ 2 ≤ b.ts1.toNat ∧ b.ts1.toNat ≤ 16 ∧
      1 ≤ b.ps2.toNat ∧ b.ps2.toNat ≤ 8 ∧ 1 ≤ b.brp.toNat ∧ b.brp.toNat ≤ 1024) ∧
    (b.inRange = false → exec (.btcalc b) s = .refused .operandRange) ∧
    (b.inRange = true →
      let n := b.brp.toNat - 1
      ∃ btr brpext : Word, exec (.btcalc b) s = .next { s with result := .timingWords btr brpext } ∧
        btr.toNat = n % 64 + 64 * (b.sjw.toNat - 1) + 256 * (b.ts1.toNat - 1) + 4096 * (b.ps2.toNat - 1) ∧
        brpext.toNat = n / 64 ∧ brpext.toNat ≤ 15 ∧ btr.getLsbD 15 = false)

/-- Rule R204: the round-trip law. -/
def Obligations.TimingRoundTrip : Prop :=
  ∀ b : BitTiming, b.inRange = true → timingOf (btrOf b) (brpextOf b) = b

/-- Rule R201: register values back to parameters; total, and the bits it names are ignored. -/
def Obligations.TimingParameters : Prop :=
  ∀ (btr brpext : Word) (s : State), Ready s →
    ∃ b : BitTiming, exec (.btdecode btr brpext) s = .next { s with result := .timing b } ∧
      b.brp.toNat = (brpext.toNat % 16) * 64 + btr.toNat % 64 + 1 ∧
      b.sjw.toNat = btr.toNat / 64 % 4 + 1 ∧ b.ts1.toNat = btr.toNat / 256 % 16 + 1 ∧
      b.ps2.toNat = btr.toNat / 4096 % 8 + 1

/-- Rule R202 and 93 U6: the four writes of `BTAPPLY`; in initialization mode the timing registers take the values and
`CTRL` is what it was, outside it each timing register holds the old value or the new one. That the reserved bits of a
written register hold what was written is the model's (log 36). -/
def Obligations.ApplyTiming : Prop :=
  ∀ (b : BitTiming) (s : State), Ready s → Still s.env → b.inRange = true →
    let c := s.dev.ctrl
    ∃ t, exec (.btapply b) s = .next t ∧ t.result = .unit ∧ SameBlock s t ∧
      t.trace = s.trace ++ [.read .ctrl c, .write .ctrl (c ||| 0x0040#16), .write .btr (btrOf b),
        .write .brpext (brpextOf b), .write .ctrl c] ∧
      (c.getLsbD 0 = true → t.dev = { s.dev with btr := btrOf b, brpext := brpextOf b }) ∧
      (c.getLsbD 0 = false → (t.dev.btr = s.dev.btr ∨ t.dev.btr = btrOf b) ∧
        (t.dev.brpext = s.dev.brpext ∨ t.dev.brpext = brpextOf b) ∧
        t.dev = { s.dev with btr := t.dev.btr, brpext := t.dev.brpext })

/-- Rule R203: `CFGBT` caches the record, in any state that is not refused, and touches no register; no other operation
changes what is cached. -/
def Obligations.CacheTiming : Prop :=
  ∀ (b : BitTiming) (s : State), Ready s →
    (b.inRange = true → exec (.cfgbt b) s =
      .next { s with h := { s.h with btCache := some b }, result := .unit }) ∧
    (b.inRange = false → exec (.cfgbt b) s = .refused .operandRange) ∧
    ∀ (i : Instr) (t : State), exec i s = .next t → t.h.btCache = s.h.btCache ∨ ∃ c, i = .cfgbt c

/-! Mode controller. -/

/-- Rule R261: what a successful `START` establishes, with no transfer timed out and before the device takes any
further step. That the bits 15:8 of `STS` stay as they were (log 8), and that a reply to the registration which the
environment does not give counts as success (log 2), are the model's. That the reserved bits of a written register hold
what was written is the model's (log 36). -/
def Obligations.StartEstablishes : Prop :=
  ∀ (s : State) (b : BitTiming), Ready s → Prompt s.env → PortIdle s.dev .if0 → BetweenPasses s →
    operating s.h = false → s.h.btCache = some b →
    (s.h.irqRegistered = false → s.env.replies.headD true = true) →
    let tm : Word := if s.h.testMode = .none then 0 else 0x0080#16
    ∃ t, exec .start s = .next t ∧ t.result = .ok ∧
      t.h = { s.h with state := .errorActive, txNext := 0, txEcho := 0, tac := some 16, irqRegistered := true } ∧
      BetweenPasses t ∧ t.held = 0 ∧ t.g = s.g ∧
      t.dev.ctrl = 0x000E#16 ||| tm ∧
      t.dev.test = (match s.h.testMode with
        | .none => s.dev.test
        | .loopback => 0x0010#16
        | .silent => 0x0008#16
        | .loopbackSilent => 0x0018#16) ∧
      t.dev.btr = btrOf b ∧ t.dev.brpext = brpextOf b ∧
      t.dev.sts = (s.dev.sts &&& 0xFFE0#16) ||| 0x0007#16 ∧
      t.dev.errcnt = s.dev.errcnt ∧ t.dev.statusCause = s.dev.statusCause ∧
      (∀ k : Slot, k.num ≤ 14 → (slotAt t.dev k).arb = 0x80000000#32 ∧ (slotAt t.dev k).mctrl = 0x1400#16 ∧
        (slotAt t.dev k).mask = 0) ∧
      (∀ k : Slot, k.num = 15 → (slotAt t.dev k).arb = 0x80000000#32 ∧ (slotAt t.dev k).mctrl = 0x1480#16 ∧
        (slotAt t.dev k).mask = 0) ∧
      (∀ k : Slot, 16 ≤ k.num → (slotAt t.dev k).arb = 0 ∧ (slotAt t.dev k).mctrl = 0) ∧
      bitmapWord .txrqst t.dev.ram = 0 ∧ bitmapWord .newdat t.dev.ram = 0 ∧ bitmapWord .intpnd t.dev.ram = 0 ∧
      bitmapWord .msgval t.dev.ram = 0x00007FFF#32 ∧
      portOf t.dev .if0 = { portOf s.dev .if0 with
        commsk := 0x00F3#16, comreq := 0x000F#16, mask1 := 0, mask2 := 0, arb1 := 0, arb2 := 0x8000#16,
        mctrl := 0x1480#16, timedOut := none } ∧
      portOf t.dev .if1 = portOf s.dev .if1

/-- Rules R210, R211, R212: `START` while operating does nothing; when the registration fails it reports
`ResourceUnavailable` and changes neither the block nor the device, in any environment; `STOP` while not operating does
nothing. -/
def Obligations.ModeCallsWithoutEffect : Prop :=
  ∀ s : State, Ready s →
    (operating s.h = true → exec .start s = .next { s with result := .ok }) ∧
    (operating s.h = false → s.h.btCache ≠ none → s.h.irqRegistered = false → s.env.replies.head? = some false →
      ∃ t, exec .start s = .next t ∧ t.result = .resourceUnavailable ∧ SameBlock s t ∧ t.dev = s.dev ∧
        t.trace = s.trace ++ [.effect (.irqRegister s.h.irqLine)]) ∧
    (operating s.h = false → exec .stop s = .next { s with result := .unit })

/-- Rule R215: `STOP` while operating. That the reserved bits of a written register hold what was written is the
model's (log 36). -/
def Obligations.StopEndsOperation : Prop :=
  ∀ s : State, Ready s → Still s.env → operating s.h = true →
    let off := s.dev.ctrl &&& 0xFFF1#16
    ∃ t, exec .stop s = .next t ∧ t.result = .unit ∧
      t.h = { s.h with state := .stopped, tac := none, irqRegistered := false } ∧ t.held = 0 ∧ t.g = s.g ∧
      t.dev = { s.dev with ctrl := off } ∧
      t.trace = s.trace ++ [.read .ctrl s.dev.ctrl, .write .ctrl off, .effect .tacAbandonAll,
        .effect (.irqDeregister s.h.irqLine)]

/-- Rules R213, R214, R163: what `CHIPCFG` leaves in the device, and its register writes but for those of the 47
transfers, the bit timing applied being the cached one; that it runs with none cached, and applies some timing, is the
model's (log 37). That the bits 15:8 of `STS` stay as they were is the model's (log 8). That the reserved bits of a written
register hold what was written is the model's (log 36). -/
def Obligations.ChipConfiguration : Prop :=
  ∀ s : State, Ready s → Prompt s.env → PortIdle s.dev .if0 →
    let tm : Word := if s.h.testMode = .none then 0 else 0x0080#16
    let bits : Word := match s.h.testMode with
      | .none => 0
      | .loopback => 0x0010#16
      | .silent => 0x0008#16
      | .loopbackSilent => 0x0018#16
    ∃ b : BitTiming, (∀ c, s.h.btCache = some c → b = c) ∧
    ∃ t ev, exec .chipcfg s = .next t ∧ t.result = .unit ∧ t.trace = s.trace ++ ev ∧ SameBlock s t ∧
      ((writesOf ev).filter fun x => match x.1 with
        | .port _ _ => false
        | _ => true) =
        (if s.h.testMode = .none then [(.ctrl, 0x0001#16)] else [(.ctrl, 0x0081#16), (.test, bits)]) ++
          [(.sts, 0x0007#16), (.ctrl, 0x0041#16 ||| tm), (.btr, btrOf b), (.brpext, brpextOf b),
            (.ctrl, 0x0001#16 ||| tm), (.ctrl, tm)] ∧
      ((writesOf ev).filter fun x => x.1 == .port .if0 .comreq).length = 47 ∧
      (∀ e ∈ effectsOf ev, e = .delay 1) ∧
      t.dev.ctrl = tm ∧ t.dev.test = (if s.h.testMode = .none then s.dev.test else bits) ∧
      t.dev.sts = (s.dev.sts &&& 0xFFE0#16) ||| 0x0007#16 ∧ t.dev.btr = btrOf b ∧ t.dev.brpext = brpextOf b ∧
      t.dev.errcnt = s.dev.errcnt ∧ t.dev.statusCause = s.dev.statusCause ∧
      (∀ k : Slot, k.num ≤ 15 → (slotAt t.dev k).arb = 0x80000000#32 ∧ (slotAt t.dev k).mask = 0 ∧
        (slotAt t.dev k).mctrl = if k.num = 15 then 0x1480#16 else 0x1400#16) ∧
      (∀ k : Slot, 16 ≤ k.num → slotAt t.dev k = { slotAt s.dev k with arb := 0, mctrl := 0 }) ∧
      portOf t.dev .if1 = portOf s.dev .if1

/-! Admission. -/

/-- Rules R241, R274: `TACACQ` takes a unit, or says that the caller waits, or that there is no counter. -/
def Obligations.AcquireUnit : Prop :=
  ∀ s : State, Ready s →
    (s.h.tac = none → exec .tacacq s = .next { s with result := .abandoned }) ∧
    (s.h.tac = some 0 → exec .tacacq s = .next { s with result := .blocked }) ∧
    ∀ n, s.h.tac = some (n + 1) →
      exec .tacacq s = .next { s with
        h := { s.h with tac := some n }, held := s.held + 1, result := .acquired }

/-- Rule R242: `TACREL` adds a unit with no upper bound and emits the release; with no counter it does nothing. -/
def Obligations.ReleaseUnit : Prop :=
  ∀ s : State, Ready s →
    (s.h.tac = none → exec .tacrel s = .next { s with result := .unit }) ∧
    ∀ n, s.h.tac = some n →
      exec .tacrel s = .next { s with
        h := { s.h with tac := some (n + 1) }, trace := s.trace ++ [.effect .tacRelease], result := .unit }

/-- Rules R243, R274: `TACABANDON` removes the counter, emits the abandonment, also when there is no counter, and voids
the units that are held; a `TACACQ` after it returns `Abandoned`. -/
def Obligations.AbandonUnits : Prop :=
  ∀ s : State, Ready s →
    let t := { s with
      h := { s.h with tac := none }, held := 0, trace := s.trace ++ [.effect .tacAbandonAll], result := .unit }
    exec .tacabandon s = .next t ∧ exec .tacacq t = .next { t with result := .abandoned }

/-! The device and the bus. -/

/-- Rules R77, R78, R93, R275. The filter of a slot: MSGVAL, the identifier under MSK, XTD under MXTD, the direction under
MDIR, all in full with UMASK clear. A reception goes to the lowest slot whose filter it passes and that takes it: without
new data and with its direction bit clear, or with new data and marked end-of-block; the frame is stored there, NEWDAT
set, INTPND under RXIE, MSGLST on an overwrite; a frame that no slot takes changes nothing. With the slots up to a matching
end-of-block slot all full a frame sets its MSGLST. A transmission clears TXRQST and sets INTPND under TXIE. Neither touches
another slot or the block. The details of the filter, and that the direction bit the device has left in a full end-of-block
slot is not looked at, are the model's (log 17). -/
def Obligations.DeviceMovesFrames : Prop :=
  (∀ (id : BitVec 29) (xtd fdir : Bool) (o : MsgObj),
    let um := o.mctrl.getLsbD 12
    rxMatches id xtd fdir o = true ↔ o.arb.getLsbD 31 = true ∧
      (∀ j, j < 29 → um = false ∨ o.mask.getLsbD j = true → o.arb.getLsbD j = id.getLsbD j) ∧
      (um = false ∨ o.mask.getLsbD 31 = true → o.arb.getLsbD 30 = xtd) ∧
      (um = false ∨ o.mask.getLsbD 30 = true → fdir = false)) ∧
  ∀ (s : State) (rest : List AgentStep),
    (∀ id xtd fdir dir dlc data, s.env.agenda = .dev (.receive id xtd fdir dir dlc data) :: rest →
      let takes := fun l : Slot => rxMatches id xtd fdir (slotAt s.dev l) = true ∧
        (if (slotAt s.dev l).mctrl.getLsbD 15 then (slotAt s.dev l).mctrl.getLsbD 7
         else !(slotAt s.dev l).arb.getLsbD 29) = true
      (∀ k, takes k → (∀ l, l < k → ¬takes l) →
        let o := slotAt s.dev k
        ∃ t, step s = .next t ∧ SameBlock s t ∧ t.trace = s.trace ∧ SameGlobals s.dev t.dev ∧
          portOf t.dev .if0 = portOf s.dev .if0 ∧ portOf t.dev .if1 = portOf s.dev .if1 ∧
          SameOtherSlots k s.dev t.dev ∧ (slotAt t.dev k).data = data ∧ (slotAt t.dev k).mask = o.mask ∧
          (slotAt t.dev k).mctrl.extractLsb' 0 4 = dlc ∧ (slotAt t.dev k).mctrl.getLsbD 15 = true ∧
          (slotAt t.dev k).mctrl.getLsbD 13 = (o.mctrl.getLsbD 13 || o.mctrl.getLsbD 10) ∧
          (slotAt t.dev k).mctrl.getLsbD 14 = (o.mctrl.getLsbD 14 || o.mctrl.getLsbD 15) ∧
          (∀ j, j < 13 → 4 ≤ j → (slotAt t.dev k).mctrl.getLsbD j = o.mctrl.getLsbD j) ∧
          (slotAt t.dev k).arb.extractLsb' 0 29 = id ∧ (slotAt t.dev k).arb.getLsbD 30 = xtd ∧
          (slotAt t.dev k).arb.getLsbD 29 = dir ∧ (slotAt t.dev k).arb.getLsbD 31 = o.arb.getLsbD 31) ∧
      ((∀ k, ¬takes k) → ∃ t, step s = .next t ∧ SameBlock s t ∧ t.trace = s.trace ∧ t.dev = s.dev) ∧
      ∀ k, rxMatches id xtd fdir (slotAt s.dev k) = true → (slotAt s.dev k).mctrl.getLsbD 7 = true →
        (∀ l, l ≤ k → (slotAt s.dev l).mctrl.getLsbD 15 = true) →
        (∀ l, l < k → (slotAt s.dev l).mctrl.getLsbD 7 = false) →
        ∃ t, step s = .next t ∧ (slotAt t.dev k).mctrl.getLsbD 14 = true ∧ SameOtherSlots k s.dev t.dev) ∧
    ∀ k, s.env.agenda = .dev (.transmitted k) :: rest → (slotAt s.dev k).arb.getLsbD 31 = true →
      (slotAt s.dev k).mctrl.getLsbD 8 = true →
      let o := slotAt s.dev k
      ∃ t, step s = .next t ∧ SameBlock s t ∧ t.trace = s.trace ∧ SameGlobals s.dev t.dev ∧
        portOf t.dev .if0 = portOf s.dev .if0 ∧ portOf t.dev .if1 = portOf s.dev .if1 ∧
        SameOtherSlots k s.dev t.dev ∧
        slotAt t.dev k = { o with
          mctrl := (o.mctrl &&& 0xFEFF#16) ||| (if o.mctrl.getLsbD 11 then 0x2000#16 else 0#16) }

/-- Rules R61, R64, R67: for every legal table of offsets and every aligned base, the registers have distinct even
addresses, and a `...2` half stands right after its `...1` half. -/
def Obligations.AddressesDistinct : Prop :=
  ∀ (off : Variant → Nat → Nat) (h : Handle), LegalOffsets off → h.base % 4 = 0 →
    (∀ a b : Reg, regAddr off h a = regAddr off h b → a = b) ∧ (∀ a, regAddr off h a % 2 = 0) ∧
    (h.align = .align32 → ∀ a, regAddr off h a % 4 = 0) ∧
    ∀ b, regAddr off h (.half b true) =
      regAddr off h (.half b false) + (match h.align with | .align16 => 2 | .align32 => 4)
end

