-- ==== Sys2Proof/Laws/State.lean ====
section
/-! SUPPORT. The fields of the state after each named update, and of the device after its two updates. -/

namespace Sys2Proof.Machine

/-! Fields of the state. -/

@[simp] theorem countDraw_h (s : State) : (countDraw s).h = s.h := rfl
@[simp] theorem countDraw_g (s : State) : (countDraw s).g = s.g := rfl
@[simp] theorem countDraw_dev (s : State) : (countDraw s).dev = s.dev := rfl
@[simp] theorem countDraw_held (s : State) : (countDraw s).held = s.held := rfl
@[simp] theorem countDraw_env (s : State) : (countDraw s).env = { s.env with draws := s.env.draws + 1 } := rfl
@[simp] theorem countDraw_result (s : State) : (countDraw s).result = s.result := rfl
@[simp] theorem countDraw_trace (s : State) : (countDraw s).trace = s.trace := rfl

@[simp] theorem logEvent_h (e : Event) (s : State) : (logEvent e s).h = s.h := rfl
@[simp] theorem logEvent_g (e : Event) (s : State) : (logEvent e s).g = s.g := rfl
@[simp] theorem logEvent_dev (e : Event) (s : State) : (logEvent e s).dev = s.dev := rfl
@[simp] theorem logEvent_held (e : Event) (s : State) : (logEvent e s).held = s.held := rfl
@[simp] theorem logEvent_env (e : Event) (s : State) : (logEvent e s).env = s.env := rfl
@[simp] theorem logEvent_result (e : Event) (s : State) : (logEvent e s).result = s.result := rfl
@[simp] theorem logEvent_trace (e : Event) (s : State) : (logEvent e s).trace = s.trace ++ [e] := rfl

@[simp] theorem emit_h (e : Effect) (s : State) : (emit e s).h = s.h := rfl
@[simp] theorem emit_g (e : Effect) (s : State) : (emit e s).g = s.g := rfl
@[simp] theorem emit_dev (e : Effect) (s : State) : (emit e s).dev = s.dev := rfl
@[simp] theorem emit_held (e : Effect) (s : State) : (emit e s).held = s.held := rfl
@[simp] theorem emit_env (e : Effect) (s : State) : (emit e s).env = s.env := rfl
@[simp] theorem emit_result (e : Effect) (s : State) : (emit e s).result = s.result := rfl
@[simp] theorem emit_trace (e : Effect) (s : State) : (emit e s).trace = s.trace ++ [.effect e] := rfl

@[simp] theorem withResult_h (r : Result) (s : State) : (withResult r s).h = s.h := rfl
@[simp] theorem withResult_g (r : Result) (s : State) : (withResult r s).g = s.g := rfl
@[simp] theorem withResult_dev (r : Result) (s : State) : (withResult r s).dev = s.dev := rfl
@[simp] theorem withResult_held (r : Result) (s : State) : (withResult r s).held = s.held := rfl
@[simp] theorem withResult_env (r : Result) (s : State) : (withResult r s).env = s.env := rfl
@[simp] theorem withResult_result (r : Result) (s : State) : (withResult r s).result = r := rfl
@[simp] theorem withResult_trace (r : Result) (s : State) : (withResult r s).trace = s.trace := rfl

@[simp] theorem withHandle_h (h : Handle) (s : State) : (withHandle h s).h = h := rfl
@[simp] theorem withHandle_g (h : Handle) (s : State) : (withHandle h s).g = s.g := rfl
@[simp] theorem withHandle_dev (h : Handle) (s : State) : (withHandle h s).dev = s.dev := rfl
@[simp] theorem withHandle_held (h : Handle) (s : State) : (withHandle h s).held = s.held := rfl
@[simp] theorem withHandle_env (h : Handle) (s : State) : (withHandle h s).env = s.env := rfl
@[simp] theorem withHandle_result (h : Handle) (s : State) : (withHandle h s).result = s.result := rfl
@[simp] theorem withHandle_trace (h : Handle) (s : State) : (withHandle h s).trace = s.trace := rfl

@[simp] theorem setOpState_h (st : OpState) (s : State) : (setOpState st s).h = { s.h with state := st } := rfl
@[simp] theorem setOpState_g (st : OpState) (s : State) : (setOpState st s).g = s.g := rfl
@[simp] theorem setOpState_dev (st : OpState) (s : State) : (setOpState st s).dev = s.dev := rfl
@[simp] theorem setOpState_held (st : OpState) (s : State) : (setOpState st s).held = s.held := rfl
@[simp] theorem setOpState_env (st : OpState) (s : State) : (setOpState st s).env = s.env := rfl
@[simp] theorem setOpState_result (st : OpState) (s : State) : (setOpState st s).result = s.result := rfl
@[simp] theorem setOpState_trace (st : OpState) (s : State) : (setOpState st s).trace = s.trace := rfl

@[simp] theorem setPhase_h (ph : Phase) (s : State) : (setPhase ph s).h = { s.h with phase := ph } := rfl
@[simp] theorem setPhase_g (ph : Phase) (s : State) : (setPhase ph s).g = s.g := rfl
@[simp] theorem setPhase_dev (ph : Phase) (s : State) : (setPhase ph s).dev = s.dev := rfl
@[simp] theorem setPhase_held (ph : Phase) (s : State) : (setPhase ph s).held = s.held := rfl
@[simp] theorem setPhase_env (ph : Phase) (s : State) : (setPhase ph s).env = s.env := rfl
@[simp] theorem setPhase_result (ph : Phase) (s : State) : (setPhase ph s).result = s.result := rfl
@[simp] theorem setPhase_trace (ph : Phase) (s : State) : (setPhase ph s).trace = s.trace := rfl

/-! Fields of the device. -/

@[simp] theorem portOf_withPort (d : Device) (p : PortId) (r : PortRegs) : portOf (withPort d p r) p = r := by
  cases p <;> rfl

theorem portOf_withPort_ne (d : Device) {p q : PortId} (r : PortRegs) (h : q ≠ p) :
    portOf (withPort d p r) q = portOf d q := by
  cases p <;> cases q <;> first | rfl | exact absurd rfl h

@[simp] theorem portOf_withSlot (d : Device) (s : Slot) (o : MsgObj) (p : PortId) :
    portOf (withSlot d s o) p = portOf d p := by cases p <;> rfl

@[simp] theorem slotAt_withPort (d : Device) (p : PortId) (r : PortRegs) (s : Slot) :
    slotAt (withPort d p r) s = slotAt d s := by cases p <;> rfl

@[simp] theorem slotAt_withSlot (d : Device) (s : Slot) (o : MsgObj) : slotAt (withSlot d s o) s = o := by
  simp [slotAt, withSlot]

theorem slotAt_withSlot_ne (d : Device) {s k : Slot} (o : MsgObj) (h : k ≠ s) :
    slotAt (withSlot d s o) k = slotAt d k := by
  have : s.val ≠ k.val := fun e => h (Fin.ext e.symm)
  simp [slotAt, withSlot, this]

@[simp] theorem withPort_withPort (d : Device) (p : PortId) (r q : PortRegs) :
    withPort (withPort d p r) p q = withPort d p q := by cases p <;> rfl

@[simp] theorem withPort_portOf (d : Device) (p : PortId) : withPort d p (portOf d p) = d := by cases p <;> rfl

@[simp] theorem withSlot_withSlot (d : Device) (s : Slot) (o u : MsgObj) :
    withSlot (withSlot d s o) s u = withSlot d s u := by
  simp [withSlot]

theorem withSlot_withPort (d : Device) (s : Slot) (o : MsgObj) (p : PortId) (r : PortRegs) :
    withSlot (withPort d p r) s o = withPort (withSlot d s o) p r := by cases p <;> rfl

@[simp] theorem withSlot_slotAt (d : Device) (s : Slot) : withSlot d s (slotAt d s) = d := by
  simp [withSlot, slotAt]

@[simp] theorem withPort_ctrl (d : Device) (p : PortId) (r : PortRegs) : (withPort d p r).ctrl = d.ctrl := by
  cases p <;> rfl
@[simp] theorem withSlot_ctrl (d : Device) (s : Slot) (o : MsgObj) : (withSlot d s o).ctrl = d.ctrl := rfl
@[simp] theorem withPort_sts (d : Device) (p : PortId) (r : PortRegs) : (withPort d p r).sts = d.sts := by
  cases p <;> rfl
@[simp] theorem withSlot_sts (d : Device) (s : Slot) (o : MsgObj) : (withSlot d s o).sts = d.sts := rfl
@[simp] theorem withPort_errcnt (d : Device) (p : PortId) (r : PortRegs) : (withPort d p r).errcnt = d.errcnt := by
  cases p <;> rfl
@[simp] theorem withSlot_errcnt (d : Device) (s : Slot) (o : MsgObj) : (withSlot d s o).errcnt = d.errcnt := rfl
@[simp] theorem withPort_btr (d : Device) (p : PortId) (r : PortRegs) : (withPort d p r).btr = d.btr := by
  cases p <;> rfl
@[simp] theorem withSlot_btr (d : Device) (s : Slot) (o : MsgObj) : (withSlot d s o).btr = d.btr := rfl
@[simp] theorem withPort_test (d : Device) (p : PortId) (r : PortRegs) : (withPort d p r).test = d.test := by
  cases p <;> rfl
@[simp] theorem withSlot_test (d : Device) (s : Slot) (o : MsgObj) : (withSlot d s o).test = d.test := rfl
@[simp] theorem withPort_brpext (d : Device) (p : PortId) (r : PortRegs) : (withPort d p r).brpext = d.brpext := by
  cases p <;> rfl
@[simp] theorem withSlot_brpext (d : Device) (s : Slot) (o : MsgObj) : (withSlot d s o).brpext = d.brpext := rfl
@[simp] theorem withPort_statusCause (d : Device) (p : PortId) (r : PortRegs) : (withPort d p r).statusCause = d.statusCause := by
  cases p <;> rfl
@[simp] theorem withSlot_statusCause (d : Device) (s : Slot) (o : MsgObj) : (withSlot d s o).statusCause = d.statusCause := rfl

@[simp] theorem withPort_ram (d : Device) (p : PortId) (r : PortRegs) : (withPort d p r).ram = d.ram := by
  cases p <;> rfl

/-- Two devices with equal slots have equal message memories. -/
theorem ram_ext {d e : Device} (h : SameSlots d e) : e.ram = d.ram := by
  apply Vector.ext
  intro i hi
  exact h ⟨i, hi⟩

end Sys2Proof.Machine
end

