-- ==== Sys2Proof/Laws/Access.lean ====
section
/-! SUPPORT. What a register access can do: in any environment it leaves the block's own state alone, and in a still
environment its result is exact. -/

namespace Sys2Proof.Machine

/-! Any environment: the device's steps and the draws touch the device and the environment only. -/

@[simp] theorem takeDevStep_h (a : DevStep) (s : State) : (takeDevStep a s).h = s.h := rfl
@[simp] theorem takeDevStep_g (a : DevStep) (s : State) : (takeDevStep a s).g = s.g := rfl
@[simp] theorem takeDevStep_held (a : DevStep) (s : State) : (takeDevStep a s).held = s.held := rfl
@[simp] theorem takeDevStep_result (a : DevStep) (s : State) : (takeDevStep a s).result = s.result := rfl
@[simp] theorem takeDevStep_trace (a : DevStep) (s : State) : (takeDevStep a s).trace = s.trace := rfl

/-- Device steps change the device and the draw counter only. -/
theorem takeDevSteps_block (l : List DevStep) (s : State) :
    (takeDevSteps l s).h = s.h ∧ (takeDevSteps l s).g = s.g ∧ (takeDevSteps l s).held = s.held ∧
      (takeDevSteps l s).result = s.result ∧ (takeDevSteps l s).trace = s.trace := by
  induction l generalizing s with
  | nil => exact ⟨rfl, rfl, rfl, rfl, rfl⟩
  | cons a l ih => simpa [takeDevSteps] using ih (takeDevStep a s)

/-- An interleaving changes the device and the environment only. -/
theorem interleave_block (s : State) :
    (interleave s).h = s.h ∧ (interleave s).g = s.g ∧ (interleave s).held = s.held ∧
      (interleave s).result = s.result ∧ (interleave s).trace = s.trace := by
  unfold interleave
  split
  · exact takeDevSteps_block _ _
  · split
    · exact takeDevSteps_block _ _
    · exact ⟨rfl, rfl, rfl, rfl, rfl⟩

@[simp] theorem interleave_h (s : State) : (interleave s).h = s.h := (interleave_block s).1
@[simp] theorem interleave_g (s : State) : (interleave s).g = s.g := (interleave_block s).2.1
@[simp] theorem interleave_held (s : State) : (interleave s).held = s.held := (interleave_block s).2.2.1
@[simp] theorem interleave_result (s : State) : (interleave s).result = s.result := (interleave_block s).2.2.2.1
@[simp] theorem interleave_trace (s : State) : (interleave s).trace = s.trace := (interleave_block s).2.2.2.2

/-- A sample of `INT` changes the environment only. -/
theorem sampleInt_block (s : State) :
    (sampleInt s).2.h = s.h ∧ (sampleInt s).2.g = s.g ∧ (sampleInt s).2.held = s.held ∧
      (sampleInt s).2.result = s.result ∧ (sampleInt s).2.trace = s.trace := by
  unfold sampleInt
  split
  · exact ⟨rfl, rfl, rfl, rfl, rfl⟩
  · split <;> exact ⟨rfl, rfl, rfl, rfl, rfl⟩

/-- A sample of a shadow register changes the draw counter only. -/
theorem sampleShadow_block (p : PortId) (r : PortReg) (s : State) :
    (sampleShadow p r s).2.h = s.h ∧ (sampleShadow p r s).2.g = s.g ∧ (sampleShadow p r s).2.held = s.held ∧
      (sampleShadow p r s).2.result = s.result ∧ (sampleShadow p r s).2.trace = s.trace := by
  unfold sampleShadow
  split <;> exact ⟨rfl, rfl, rfl, rfl, rfl⟩

/-- A sample of a register changes the device's status cause and the environment only. -/
theorem sampleReg_block (r : Reg) (s : State) :
    (sampleReg r s).2.h = s.h ∧ (sampleReg r s).2.g = s.g ∧ (sampleReg r s).2.held = s.held ∧
      (sampleReg r s).2.result = s.result ∧ (sampleReg r s).2.trace = s.trace := by
  cases r with
  | int => exact sampleInt_block s
  | port p r => exact sampleShadow_block p r s
  | _ => exact ⟨rfl, rfl, rfl, rfl, rfl⟩

@[simp] theorem readReg_h (r : Reg) (s : State) : (readReg r s).2.h = s.h := by
  simp [readReg, (sampleReg_block r (interleave s)).1]
@[simp] theorem readReg_g (r : Reg) (s : State) : (readReg r s).2.g = s.g := by
  simp [readReg, (sampleReg_block r (interleave s)).2.1]
@[simp] theorem readReg_held (r : Reg) (s : State) : (readReg r s).2.held = s.held := by
  simp [readReg, (sampleReg_block r (interleave s)).2.2.1]
@[simp] theorem readReg_result (r : Reg) (s : State) : (readReg r s).2.result = s.result := by
  simp [readReg, (sampleReg_block r (interleave s)).2.2.2.1]

/-- A read appends one event, the access and the value it returned (rule R10). -/
@[simp] theorem readReg_trace (r : Reg) (s : State) :
    (readReg r s).2.trace = s.trace ++ [.read r (readReg r s).1] := by
  simp [readReg, (sampleReg_block r (interleave s)).2.2.2.2]

@[simp] theorem writeReg_h (r : Reg) (v : Word) (s : State) : (writeReg r v s).h = s.h := by simp [writeReg]
@[simp] theorem writeReg_g (r : Reg) (v : Word) (s : State) : (writeReg r v s).g = s.g := by simp [writeReg]
@[simp] theorem writeReg_held (r : Reg) (v : Word) (s : State) : (writeReg r v s).held = s.held := by
  simp [writeReg]
@[simp] theorem writeReg_result (r : Reg) (v : Word) (s : State) : (writeReg r v s).result = s.result := by
  simp [writeReg]

/-- A write appends one event, the access and its value (rule R10). -/
@[simp] theorem writeReg_trace (r : Reg) (v : Word) (s : State) :
    (writeReg r v s).trace = s.trace ++ [.write r v] := by simp [writeReg]

@[simp] theorem readComposite_h (b : Bitmap) (s : State) : (readComposite b s).2.h = s.h := by
  simp [readComposite]
@[simp] theorem readComposite_g (b : Bitmap) (s : State) : (readComposite b s).2.g = s.g := by
  simp [readComposite]
@[simp] theorem readComposite_held (b : Bitmap) (s : State) : (readComposite b s).2.held = s.held := by
  simp [readComposite]
@[simp] theorem readComposite_result (b : Bitmap) (s : State) : (readComposite b s).2.result = s.result := by
  simp [readComposite]

@[simp] theorem ieAll_h (e : Bool) (s : State) : (ieAll e s).h = s.h := by simp [ieAll]
@[simp] theorem ieAll_g (e : Bool) (s : State) : (ieAll e s).g = s.g := by simp [ieAll]
@[simp] theorem ieAll_held (e : Bool) (s : State) : (ieAll e s).held = s.held := by simp [ieAll]
@[simp] theorem ieAll_result (e : Bool) (s : State) : (ieAll e s).result = s.result := by simp [ieAll]

/-! A still environment: nothing is interleaved. -/

/-- The updates of the environment that an access makes keep it still. -/
theorem Still.draws {e : Env} (h : Still e) (n : Nat) : Still { e with draws := n } := h

theorem interleave_still {s : State} (h : Still s.env) : interleave s = s := by
  simp [interleave, h.1, h.2]

/-- A write in a still environment. -/
theorem writeReg_still {s : State} (h : Still s.env) (r : Reg) (v : Word) :
    writeReg r v s =
      logEvent (.write r v) (countDraw { s with dev := writeEffect s.env.draws r v s.dev }) := by
  simp [writeReg, interleave_still h]

/-- A read in a still environment of a register with neither a side effect nor a free value. -/
theorem readReg_plain {s : State} (h : Still s.env) (r : Reg)
    (hr : sampleReg r s = (regValue s.dev r, s)) :
    readReg r s = (regValue s.dev r, logEvent (.read r (regValue s.dev r)) s) := by
  simp [readReg, interleave_still h, hr]

theorem sampleReg_ctrl (s : State) : sampleReg .ctrl s = (regValue s.dev .ctrl, s) := rfl
theorem sampleReg_errcnt (s : State) : sampleReg .errcnt s = (regValue s.dev .errcnt, s) := rfl
theorem sampleReg_half (b : Bitmap) (hi : Bool) (s : State) :
    sampleReg (.half b hi) s = (regValue s.dev (.half b hi), s) := rfl

/-- The bit of a command-request word that says BUSY (rule R95). -/
theorem and_crBusy (w : Word) : w &&& crBusy = if w.getLsbD 15 then crBusy else 0 := by
  apply BitVec.eq_of_getLsbD_eq
  intro i hi
  have hc : crBusy.getLsbD i = decide (i = 15) := by revert i; decide
  rw [BitVec.getLsbD_and, hc]
  by_cases e : i = 15
  · subst e; cases w.getLsbD 15 <;> rfl
  · cases w.getLsbD 15 <;> simp [hc, e]

/-- BUSY clear is bit 15 of the command-request word clear (rule R95). -/
theorem busyClear_iff (d : Device) (p : PortId) : BusyClear d p ↔ hasAny (portOf d p).comreq crBusy = false := by
  simp only [BusyClear, hasAny, and_crBusy]
  cases (portOf d p).comreq.getLsbD 15 <;> decide

/-- A register that reads as it is held. -/
theorem sampleReg_held {s : State} {p : PortId} {r : PortReg} (h : readsHeld (portOf s.dev p) r = true) :
    sampleReg (.port p r) s = (regValue s.dev (.port p r), s) := by
  simp [sampleReg, sampleShadow, h, regValue]

/-- A shadow register of a port whose BUSY is clear reads as it is held (rule R144). -/
theorem sampleReg_port {s : State} {p : PortId} (h : BusyClear s.dev p) (r : PortReg) :
    sampleReg (.port p r) s = (regValue s.dev (.port p r), s) :=
  sampleReg_held (by simp [readsHeld, (busyClear_iff _ _).1 h])

/-- A command-request word with BUSY set says so, whatever its other bits (rule R95). -/
@[simp] theorem hasAny_or_crBusy (w : Word) : hasAny (w ||| crBusy) crBusy = true := by
  have h : crBusy.getLsbD 15 = true := by decide
  simp only [hasAny, and_crBusy, BitVec.getLsbD_or, h, Bool.or_true, if_true]
  decide

/-- While BUSY is set `COMREQ` reads as some word with BUSY set (rules R80, R131, R140). -/
theorem sampleReg_busy {s : State} {p : PortId} (h : hasAny (portOf s.dev p).comreq crBusy = true) :
    sampleReg (.port p .comreq) s = (Config.freeWord s.env.draws ||| crBusy, countDraw s) := by
  have ht : timedOutTarget (portOf s.dev p) .comreq = false := by
    unfold timedOutTarget
    split <;> simp [groupOf, hasAny]
  simp [sampleReg, sampleShadow, readsHeld, busyRead, h, ht]

/-- Whatever is in flight, BUSY reads as it is held (rules R80, R140). -/
theorem sampleReg_comreq (s : State) (p : PortId) :
    hasAny (sampleReg (.port p .comreq) s).1 crBusy = hasAny (portOf s.dev p).comreq crBusy ∧
      (sampleReg (.port p .comreq) s).2.dev = s.dev := by
  cases h : hasAny (portOf s.dev p).comreq crBusy with
  | true => rw [sampleReg_busy h]; exact ⟨hasAny_or_crBusy _, rfl⟩
  | false => rw [sampleReg_port ((busyClear_iff _ _).2 h)]; exact ⟨h, rfl⟩

/-- The word a read of `COMREQ` returns shows BUSY as the port holds it, in any environment (rules R80, R140). -/
theorem readReg_busy (p : PortId) (s : State) :
    hasAny (readReg (.port p .comreq) s).1 crBusy =
      hasAny (portOf (readReg (.port p .comreq) s).2.dev p).comreq crBusy := by
  have h := sampleReg_comreq (interleave s) p
  simp [readReg, h.1, h.2]

/-- The two halves of a 32-bit quantity joined give it back (rule R63). -/
theorem joinHalves_hi_lo (w : Word32) : joinHalves w.hi w.lo = w := by
  apply BitVec.eq_of_getLsbD_eq
  intro i hi
  simp only [joinHalves, Word32.hi, Word32.lo, BitVec.getLsbD_append, BitVec.getLsbD_extractLsb']
  by_cases h : i < 16
  · simp [h]
  · rw [show 16 + (i - 16) = i by omega]
    simp [h]; omega

/-- A composite read in a still environment gives the bitmask of the slots (rules R25, R133). -/
theorem readComposite_still {s : State} (h : Still s.env) (b : Bitmap) :
    readComposite b s =
      (bitmapWord b s.dev.ram,
        logEvent (.read (.half b true) (bitmapWord b s.dev.ram).hi)
          (logEvent (.read (.half b false) (bitmapWord b s.dev.ram).lo) s)) := by
  have h1 := readReg_plain h (.half b false) rfl
  have h2 := readReg_plain (s := (readReg (.half b false) s).2) (by simpa [h1] using h) (.half b true) rfl
  rw [h1] at h2
  simp [regValue] at h1 h2
  simp [readComposite, h1, h2, joinHalves_hi_lo]

/-- A bit of a bitmask composite is the flag of its slot (rule R25). -/
theorem bitmapWord_getLsbD (b : Bitmap) (ram : Vector MsgObj Config.nObj) (i : Slot) :
    (bitmapWord b ram).getLsbD i.val = bitmapFlag b ram[i] := by
  simp [bitmapWord]

/-- `IEALL` in a still environment (rule R224). -/
theorem ieAll_still {s : State} (h : Still s.env) (e : Bool) :
    ieAll e s =
      logEvent (.write .ctrl (if e then s.dev.ctrl ||| ctAllie else clearBits s.dev.ctrl ctAllie))
        (countDraw { logEvent (.read .ctrl s.dev.ctrl) s with
          dev := { s.dev with ctrl := if e then s.dev.ctrl ||| ctAllie else clearBits s.dev.ctrl ctAllie } }) := by
  have h1 := readReg_plain h .ctrl rfl
  simp only [ieAll, h1, regValue]
  rw [writeReg_still (by simpa using h)]
  rfl

/-! The slot a reception goes to (rule R77). -/

/-- No slot takes a frame exactly when the scan finds none. -/
theorem rxTarget_none (id : BitVec 29) (xtd fdir : Bool) (ram : Vector MsgObj Config.nObj) :
    rxTarget id xtd fdir ram = none ↔ ∀ k : Slot, rxTakes id xtd fdir ram[k] = false := by
  simp [rxTarget, List.find?_eq_none]

/-- The scan finds the lowest slot that takes the frame. -/
theorem rxTarget_some (id : BitVec 29) (xtd fdir : Bool) (ram : Vector MsgObj Config.nObj) (k : Slot) :
    rxTarget id xtd fdir ram = some k ↔
      rxTakes id xtd fdir ram[k] = true ∧ ∀ l : Slot, l < k → rxTakes id xtd fdir ram[l] = false := by
  simp only [rxTarget, List.find?_eq_some_iff_getElem, List.getElem_finRange, List.length_finRange,
    Bool.not_eq_true']
  refine and_congr_right fun _ => ⟨?_, fun h => ⟨k.val, k.isLt, rfl, fun j hj => h ⟨j, hj.trans k.isLt⟩ hj⟩⟩
  rintro ⟨i, hi, rfl, h⟩ l hl
  exact h l.val hl

end Sys2Proof.Machine
end

