-- ==== Sys2Proof/Laws/Transfer.lean ====
section
/-! SUPPORT. What a transfer can do (41_interface_transactor.md): in any environment it leaves the block's own state
alone; with no time-out and nothing interleaved its effect on the device is exact. -/

namespace Sys2Proof.Machine

/-! Any environment. -/

/-- The block's own state and the last result are the same. -/
def KeepsBlock (s t : State) : Prop := t.h = s.h ∧ t.g = s.g ∧ t.held = s.held ∧ t.result = s.result

theorem KeepsBlock.refl (s : State) : KeepsBlock s s := ⟨rfl, rfl, rfl, rfl⟩

theorem KeepsBlock.trans {s t u : State} (a : KeepsBlock s t) (b : KeepsBlock t u) : KeepsBlock s u :=
  ⟨b.1.trans a.1, b.2.1.trans a.2.1, b.2.2.1.trans a.2.2.1, b.2.2.2.trans a.2.2.2⟩

theorem readReg_block (r : Reg) (s : State) : KeepsBlock s (readReg r s).2 := by simp [KeepsBlock]
theorem writeReg_block (r : Reg) (v : Word) (s : State) : KeepsBlock s (writeReg r v s) := by simp [KeepsBlock]
theorem emit_block (e : Effect) (s : State) : KeepsBlock s (emit e s) := KeepsBlock.refl _
theorem deviceFinish_block (p : PortId) (s : State) : KeepsBlock s (deviceFinish p s) := KeepsBlock.refl _
theorem softFailure_block (p : PortId) (sl : Slot) (cm : Word) (s : State) :
    KeepsBlock s (softFailure p sl cm s) := KeepsBlock.refl _

theorem drawPolls_block (s : State) : KeepsBlock s (drawPolls s).2 := by
  unfold drawPolls
  split
  · exact KeepsBlock.refl _
  · split <;> exact KeepsBlock.refl _

/-- One round of the poll: the device's transfer step when it is due, then the read. -/
theorem pollRead_block (p : PortId) (k : Nat) (s : State) :
    KeepsBlock s (readReg (.port p .comreq) (if k = 0 then deviceFinish p s else s)).2 := by
  split
  · exact (deviceFinish_block p s).trans (readReg_block _ _)
  · exact readReg_block _ _

theorem pollBusy_block (p : PortId) (n k : Nat) (s : State) : KeepsBlock s (pollBusy p n k s).2 := by
  induction n generalizing k s with
  | zero => exact KeepsBlock.refl _
  | succ n ih =>
    have h := pollRead_block p k s
    simp only [pollBusy]
    generalize readReg (.port p .comreq) (if k = 0 then deviceFinish p s else s) = x at h ⊢
    split
    · exact (h.trans (emit_block _ _)).trans (ih _ _)
    · exact h

theorem xfer_block (p : PortId) (sl : Slot) (cm : Word) (s : State) : KeepsBlock s (xfer p sl cm s).2 := by
  have h1 := ((writeReg_block (.port p .commsk) cm s).trans
    (writeReg_block (.port p .comreq) (slotWord sl) _)).trans (drawPolls_block _)
  simp only [xfer]
  generalize drawPolls (writeReg (.port p .comreq) (slotWord sl) (writeReg (.port p .commsk) cm s)) = k at h1 ⊢
  have h2 := h1.trans (pollBusy_block p Config.busyRetries k.1 k.2)
  split
  · exact h2
  · exact h2.trans (softFailure_block _ _ _ _)

theorem getXfer_block (p : PortId) (sl : Slot) (m : Word) (s : State) : KeepsBlock s (getXfer p sl m s).2 :=
  xfer_block _ _ _ _

theorem putXfer_block (p : PortId) (sl : Slot) (m : Word) (s : State) : KeepsBlock s (putXfer p sl m s).2 :=
  xfer_block _ _ _ _

/-! No interleaving, no time-out. -/

/-- What the accesses of an operation may do to the environment: use up poll counts and advance the draw
counter. -/
def EnvUsed (e f : Env) : Prop :=
  f.agenda = e.agenda ∧ f.bursts = e.bursts ∧ f.replies = e.replies ∧ f.loopback = e.loopback ∧
    f.intNext = e.intNext ∧ f.free = e.free ∧ ∀ n ∈ f.polls, n ∈ e.polls

theorem EnvUsed.refl (e : Env) : EnvUsed e e := ⟨rfl, rfl, rfl, rfl, rfl, rfl, fun _ h => h⟩

theorem EnvUsed.trans {e f g : Env} (a : EnvUsed e f) (b : EnvUsed f g) : EnvUsed e g :=
  ⟨b.1.trans a.1, b.2.1.trans a.2.1, b.2.2.1.trans a.2.2.1, b.2.2.2.1.trans a.2.2.2.1,
    b.2.2.2.2.1.trans a.2.2.2.2.1, b.2.2.2.2.2.1.trans a.2.2.2.2.2.1,
    fun n h => a.2.2.2.2.2.2 n (b.2.2.2.2.2.2 n h)⟩

theorem EnvUsed.still {e f : Env} (a : EnvUsed e f) (h : Still e) : Still f :=
  ⟨a.2.2.2.2.2.1.trans h.1, a.2.1.trans h.2⟩

theorem EnvUsed.prompt {e f : Env} (a : EnvUsed e f) (h : Prompt e) : Prompt f :=
  ⟨a.still h.1, fun n hn => h.2 n (a.2.2.2.2.2.2 n hn)⟩

/-- The exact effect of a stretch of an operation: the device becomes `d`, the record grows by `ev`, the block's own
state stays, the environment is used. -/
structure Moves (s t : State) (d : Device) (ev : List Event) : Prop where
  block : KeepsBlock s t
  dev : t.dev = d
  trace : t.trace = s.trace ++ ev
  env : EnvUsed s.env t.env

theorem Moves.refl (s : State) : Moves s s s.dev [] := ⟨KeepsBlock.refl s, rfl, by simp, EnvUsed.refl _⟩

theorem Moves.trans {s t u : State} {d e : Device} {x y : List Event} (a : Moves s t d x) (b : Moves t u e y) :
    Moves s u e (x ++ y) :=
  ⟨a.block.trans b.block, b.dev, by rw [b.trace, a.trace, List.append_assoc], a.env.trans b.env⟩

theorem Moves.prompt {s t : State} {d : Device} {ev : List Event} (a : Moves s t d ev) (h : Prompt s.env) :
    Prompt t.env := a.env.prompt h

/-- A write, whatever register. -/
theorem writeReg_moves {s : State} (h : Still s.env) (r : Reg) (v : Word) :
    Moves s (writeReg r v s) (writeEffect s.env.draws r v s.dev) [.write r v] := by
  rw [writeReg_still h]
  exact ⟨KeepsBlock.refl _, rfl, rfl, rfl, rfl, rfl, rfl, rfl, rfl, fun _ h => h⟩

/-- A read of a register with neither a side effect nor a free value. -/
theorem readReg_moves {s : State} (h : Still s.env) {r : Reg} (hr : sampleReg r s = (regValue s.dev r, s)) :
    (readReg r s).1 = regValue s.dev r ∧
      Moves s (readReg r s).2 s.dev [.read r (regValue s.dev r)] := by
  rw [readReg_plain h r hr]
  exact ⟨rfl, KeepsBlock.refl _, rfl, rfl, EnvUsed.refl _⟩

/-- A composite read (rules R25, R133). -/
theorem readComposite_moves {s : State} (h : Still s.env) (b : Bitmap) :
    (readComposite b s).1 = bitmapWord b s.dev.ram ∧
      Moves s (readComposite b s).2 s.dev
        [.read (.half b false) (bitmapWord b s.dev.ram).lo, .read (.half b true) (bitmapWord b s.dev.ram).hi] := by
  rw [readComposite_still h]
  exact ⟨rfl, KeepsBlock.refl _, rfl, by simp, EnvUsed.refl _⟩

/-- `IEALL` (rule R224). -/
theorem ieAll_moves {s : State} (h : Still s.env) (e : Bool) :
    Moves s (ieAll e s)
      { s.dev with ctrl := if e then s.dev.ctrl ||| ctAllie else clearBits s.dev.ctrl ctAllie }
      [.read .ctrl s.dev.ctrl,
        .write .ctrl (if e then s.dev.ctrl ||| ctAllie else clearBits s.dev.ctrl ctAllie)] := by
  rw [ieAll_still h]
  exact ⟨KeepsBlock.refl _, rfl, by simp, rfl, rfl, rfl, rfl, rfl, rfl, fun _ h => h⟩

/-- A write of a shadow register of an idle port changes that register alone (rule R22). -/
theorem writeEffect_shadow {d : Device} {p : PortId} (h : PortIdle d p) (seed : Nat) {r : PortReg}
    (hr : r ≠ .comreq) (v : Word) :
    writeEffect seed (.port p r) v d = withPort d p (shadowSet (portOf d p) r v) := by
  have hi : (portOf d p).inflight = none := h
  have hn : ∀ q : PortRegs, q.inflight = none →
      { q with inflight := q.inflight.map fun x => { x with disturbed := true } } = q := by
    intro q hq; cases q; simp_all
  cases r <;> first
    | exact absurd rfl hr
    | (simp only [writeEffect, writeShadow, ownedByTransfer, if_true, if_false, Bool.false_eq_true])
  all_goals first
    | rfl
    | (rw [hn _ (by simpa [shadowSet] using hi)])

/-- A shadow write leaves an idle port idle. -/
theorem shadowSet_inflight (q : PortRegs) (r : PortReg) (v : Word) : (shadowSet q r v).inflight = q.inflight := by
  cases r <;> rfl

/-- The device after a transfer that is done, from a port whose command mask and slot the transfer writes
(rules R140 to R142). -/
def transferred (p : PortId) (sl : Slot) (cm : Word) (d : Device) : Device :=
  let r := { portOf d p with commsk := cm, comreq := slotWord sl, timedOut := none }
  let o := slotAt d sl
  if hasAny cm cmWr then withSlot (withPort d p r) sl (putSlot wholeChoice cm r o)
  else withSlot (withPort d p (getRegs wholeChoice cm o r)) sl (getSlot wholeChoice cm o)

/-- The rounds of a poll that read BUSY set: each reads a word of the list and waits (rules R140, R143). -/
def busyEvents (p : PortId) (vs : List Word) : List Event :=
  vs.flatMap fun v => [.read (.port p .comreq) v, .effect (.delay Config.busySpacingUs)]

/-- The two writes that start a transfer (rule R140). -/
def startEvents (p : PortId) (sl : Slot) (cm : Word) : List Event :=
  [.write (.port p .commsk) cm, .write (.port p .comreq) (slotWord sl)]

/-- The events of a transfer that reads the words of the list with BUSY set before it reads BUSY clear (rules R140,
R143). -/
def transferEvents (p : PortId) (sl : Slot) (cm : Word) (vs : List Word) : List Event :=
  startEvents p sl cm ++ busyEvents p vs ++ [.read (.port p .comreq) (slotWord sl)]

/-- The slot index is read back from a command-request word (rule R95). -/
theorem slotOf_slotWord (sl : Slot) : slotOf ((slotWord sl).extractLsb' 0 6) = sl := by
  revert sl; decide

/-- A request for a slot is one for that slot (rules R66, R95). -/
@[simp] theorem requestedSlot_slotWord (seed : Nat) (sl : Slot) : requestedSlot seed (slotWord sl) = some sl := by
  have : slotOk ((slotWord sl).extractLsb' 0 6) = true := by revert sl; decide
  simp [requestedSlot, this, slotOf_slotWord]

theorem clearBusy_slotWord (sl : Slot) : clearBits (slotWord sl ||| crBusy) crBusy = slotWord sl := by
  revert sl; decide

theorem slotWord_not_busy (sl : Slot) : hasAny (slotWord sl) crBusy = false := by revert sl; decide

/-- The device right after a transfer has been started from an idle port (rule R66). -/
def started (p : PortId) (sl : Slot) (cm : Word) (d : Device) : Device :=
  withPort d p { portOf d p with
    commsk := cm, comreq := slotWord sl ||| crBusy, inflight := some ⟨some sl, cm, false⟩, timedOut := none }

/-- The two writes that start a transfer (rule R140). -/
theorem start_started {d : Device} {p : PortId} (h : PortIdle d p) (a b : Nat) (sl : Slot) (cm : Word) :
    writeEffect b (.port p .comreq) (slotWord sl) (writeEffect a (.port p .commsk) cm d) = started p sl cm d := by
  have hi : (portOf d p).inflight = none := h
  rw [writeEffect_shadow h a (by decide)]
  simp [writeEffect, startTransfer, abandonTransfer, shadowSet, hi, started]

/-- The device's transfer step, from a transfer just started (rule R80). -/
theorem finish_started {d : Device} {p : PortId} (h : PortIdle d p) (a : Nat) (sl : Slot) (cm : Word) :
    finishTransfer a p (started p sl cm d) = transferred p sl cm d := by
  have hi : (portOf d p).inflight = none := h
  simp only [finishTransfer, started, portOf_withPort, moveTransfer, targetAt, withTarget, transferred]
  by_cases hw : hasAny cm cmWr
  · simp [hw, clearInflight, clearBusy, putSlot, clearBusy_slotWord, withSlot_withPort, ← hi]
  · simp [hw, clearInflight, clearBusy, getRegs, clearBusy_slotWord, withSlot_withPort, ← hi]

/-- A finish step on an idle port clears BUSY and moves nothing (logs 5 and 16). -/
theorem finishTransfer_idle {d : Device} {p : PortId} (h : PortIdle d p) (seed : Nat) :
    finishTransfer seed p d = clearBusy p d := by
  have hi : (portOf d p).inflight = none := h
  simp [finishTransfer, hi]

/-- A transfer the block has stopped waiting for leaves the port idle, BUSY as it was, and its command mask remembered
(rule R145, log 5). -/
theorem abandonTransfer_port {d : Device} {p : PortId} {x : Xfer} (h : (portOf d p).inflight = some x) (seed : Nat) :
    PortIdle (abandonTransfer seed p d) p ∧ (portOf (abandonTransfer seed p d) p).timedOut = some x.cm ∧
      (portOf (abandonTransfer seed p d) p).comreq = (portOf d p).comreq := by
  simp only [abandonTransfer, h, PortIdle, portOf_withPort, true_and]
  unfold moveTransfer withTarget
  split <;> cases x.slot <;> simp [getRegs]

theorem transferred_idle {d : Device} {p : PortId} (h : PortIdle d p) (sl : Slot) (cm : Word) :
    PortIdle (transferred p sl cm d) p := by
  have hi : (portOf d p).inflight = none := h
  unfold transferred PortIdle
  split <;> simp [getRegs, hi]

theorem transferred_comreq (d : Device) (p : PortId) (sl : Slot) (cm : Word) :
    (portOf (transferred p sl cm d) p).comreq = slotWord sl := by
  unfold transferred
  split <;> simp [getRegs]

/-- A round of the poll as rule R140 writes it: the branch is on BUSY of the word read. -/
theorem pollBusy_succ (p : PortId) (n k : Nat) (s : State) :
    pollBusy p (n + 1) k s =
      let x := readReg (.port p .comreq) (if k = 0 then deviceFinish p s else s)
      if hasAny x.1 crBusy then pollBusy p n (k - 1) (emit (.delay Config.busySpacingUs) x.2) else (.done, x.2) := by
  simp only [pollBusy, readReg_busy]

/-- One round of a poll that reads BUSY set changes nothing and records a read and a wait (rule R140). -/
theorem pollBusy_round {s : State} (h : Still s.env) {p : PortId} (hb : hasAny (portOf s.dev p).comreq crBusy = true)
    (n k : Nat) :
    ∃ t v, Moves s t s.dev (busyEvents p [v]) ∧ pollBusy p (n + 1) (k + 1) s = pollBusy p n k t := by
  let w := Config.freeWord s.env.draws ||| crBusy
  refine ⟨emit (.delay Config.busySpacingUs) (logEvent (.read (.port p .comreq) w) (countDraw s)), w, ?_, ?_⟩
  · exact ⟨KeepsBlock.refl _, rfl, by simp [busyEvents], rfl, rfl, rfl, rfl, rfl, rfl, fun _ h => h⟩
  · simp [pollBusy_succ, readReg, interleave_still h, sampleReg_busy hb, w]

/-- A poll for which BUSY stays set as long as it lasts ends in `Timeout` and has changed nothing (rules R140, R143). -/
theorem pollBusy_outlasted {p : PortId} (n k : Nat) {s : State} (h : Still s.env)
    (hb : hasAny (portOf s.dev p).comreq crBusy = true) (hk : n ≤ k) :
    (pollBusy p n k s).1 = .timeout ∧
      ∃ vs, vs.length = n ∧ Moves s (pollBusy p n k s).2 s.dev (busyEvents p vs) := by
  induction n generalizing k s with
  | zero => exact ⟨rfl, [], rfl, Moves.refl s⟩
  | succ n ih =>
    obtain ⟨k, rfl⟩ := Nat.exists_eq_add_of_le' (Nat.one_le_of_lt hk)
    obtain ⟨t, v, ht, he⟩ := pollBusy_round h hb n k
    rw [he]
    obtain ⟨h1, vs, hl, hm⟩ := ih k (ht.env.still h) (by rw [ht.dev]; exact hb) (Nat.le_of_succ_le_succ hk)
    refine ⟨h1, v :: vs, by simp [hl], ?_⟩
    rw [ht.dev] at hm
    exact ht.trans hm

/-- The poll of a transfer just started: fewer busy reads than polls left, so it ends `Done` with the transfer in
place (rule R143). -/
theorem pollBusy_started {d : Device} {p : PortId} (hp : PortIdle d p) (sl : Slot) (cm : Word) (n k : Nat)
    {s : State} (h : Still s.env) (hd : s.dev = started p sl cm d) (hk : k < n) :
    (pollBusy p n k s).1 = .done ∧
      ∃ vs, vs.length = k ∧ Moves s (pollBusy p n k s).2 (transferred p sl cm d)
        (busyEvents p vs ++ [.read (.port p .comreq) (slotWord sl)]) := by
  induction n generalizing k s with
  | zero => exact absurd hk (Nat.not_lt_zero k)
  | succ n ih =>
    cases k with
    | zero =>
      have hf : Moves s (deviceFinish p s) (transferred p sl cm d) [] :=
        ⟨KeepsBlock.refl _, by simp [deviceFinish, hd, finish_started hp], by simp [deviceFinish],
          rfl, rfl, rfl, rfl, rfl, rfl, fun _ h => h⟩
      have hc : (portOf (deviceFinish p s).dev p).comreq = slotWord sl := by rw [hf.dev, transferred_comreq]
      have hr := readReg_moves (hf.env.still h) (r := .port p .comreq)
        (sampleReg_port ((busyClear_iff _ _).2 (by rw [hc]; exact slotWord_not_busy sl)) _)
      rw [show regValue (deviceFinish p s).dev (.port p .comreq) = slotWord sl from hc, hf.dev] at hr
      simp only [pollBusy_succ, if_true, hr.1, slotWord_not_busy, Bool.false_eq_true, if_false, true_and]
      exact ⟨[], rfl, hf.trans hr.2⟩
    | succ k =>
      have hb : hasAny (portOf s.dev p).comreq crBusy = true := by simp [hd, started]
      obtain ⟨t, v, ht, he⟩ := pollBusy_round h hb n k
      rw [he]
      obtain ⟨h1, vs, hl, hm⟩ := ih k (ht.env.still h) (ht.dev.trans hd) (Nat.lt_of_succ_lt_succ hk)
      exact ⟨h1, v :: vs, by simp [hl], ht.trans hm⟩

/-- How many polls of the next transfer read BUSY set, in an environment that is not free (rule R143). -/
def nextPolls (e : Env) : Nat := e.polls.headD 0

/-- A transfer with no time-out and nothing interleaved (rules R140 to R143): it is done, its effect on the device is
`transferred`, and its accesses are `transferEvents`, one word read with BUSY set for each poll the environment gives. -/
theorem xfer_moves {s : State} (h : Prompt s.env) {p : PortId} (hp : PortIdle s.dev p) (sl : Slot) (cm : Word) :
    (xfer p sl cm s).1 = .done ∧
      ∃ vs, vs.length = nextPolls s.env ∧
        Moves s (xfer p sl cm s).2 (transferred p sl cm s.dev) (transferEvents p sl cm vs) := by
  have h1 := writeReg_moves h.1 (.port p .commsk) cm
  have h2 := writeReg_moves (h1.env.still h.1) (.port p .comreq) (slotWord sl)
  have h12 := h1.trans h2
  rw [h1.dev, start_started hp] at h12
  have hpolls : (writeReg (.port p .comreq) (slotWord sl) (writeReg (.port p .commsk) cm s)).env.polls =
      s.env.polls := by
    rw [writeReg_still (h1.env.still h.1), writeReg_still h.1]; rfl
  simp only [xfer]
  generalize writeReg (.port p .comreq) (slotWord sl) (writeReg (.port p .commsk) cm s) = w at h12 hpolls
  have hd : (drawPolls w).1 = nextPolls s.env ∧ Moves w (drawPolls w).2 w.dev [] := by
    unfold drawPolls nextPolls
    rw [← hpolls]
    cases hw : w.env.polls with
    | nil => simp [(h12.env.still h.1).1, Moves.refl]
    | cons n rest =>
      exact ⟨rfl, KeepsBlock.refl _, rfl, by simp, rfl, rfl, rfl, rfl, rfl, rfl,
        fun m hm => by rw [hw]; exact List.mem_cons_of_mem _ hm⟩
  have hlt : nextPolls s.env < Config.busyRetries := by
    unfold nextPolls
    cases hs : s.env.polls with
    | nil => decide
    | cons n rest => exact h.2 n (by simp [hs])
  have h3 := h12.trans hd.2
  have h4 := pollBusy_started hp sl cm Config.busyRetries (nextPolls s.env) (h3.env.still h.1)
    (h3.dev.trans h12.dev) hlt
  obtain ⟨h5, vs, hl, hm⟩ := h4
  rw [hd.1, h5]
  refine ⟨h5, vs, hl, ?_⟩
  simpa [transferEvents, startEvents] using h3.trans hm

/-- A *get* with no time-out and nothing interleaved (rule R141). -/
theorem getXfer_moves {s : State} (h : Prompt s.env) {p : PortId} (hp : PortIdle s.dev p) (sl : Slot) (m : Word) :
    (getXfer p sl m s).1 = .done ∧
      ∃ vs, vs.length = nextPolls s.env ∧
        Moves s (getXfer p sl m s).2 (transferred p sl m s.dev) (transferEvents p sl m vs) :=
  xfer_moves h hp sl m

/-- A *put* with no time-out and nothing interleaved (rule R142). -/
theorem putXfer_moves {s : State} (h : Prompt s.env) {p : PortId} (hp : PortIdle s.dev p) (sl : Slot) (m : Word) :
    (putXfer p sl m s).1 = .done ∧
      ∃ vs, vs.length = nextPolls s.env ∧
        Moves s (putXfer p sl m s).2 (transferred p sl (m ||| cmWr) s.dev) (transferEvents p sl (m ||| cmWr) vs) :=
  xfer_moves h hp sl (m ||| cmWr)

end Sys2Proof.Machine
end

