-- ==== Sys2Proof/Laws/Pool.lean ====
section
/-! SUPPORT. What the operations of the message-object pool can do (43_pool_manager.md). -/

namespace Sys2Proof.Machine

/-! The device after a *put*. -/

theorem put_wr (m : Word) : hasAny (m ||| cmWr) cmWr = true := by
  have h : (m ||| cmWr) &&& cmWr = cmWr := by
    apply BitVec.eq_of_getLsbD_eq
    intro i hi
    simp only [BitVec.getLsbD_and, BitVec.getLsbD_or]
    cases m.getLsbD i <;> cases cmWr.getLsbD i <;> rfl
  simp only [hasAny, h]
  decide

/-- A *put* replaces the slot by the selected shadow registers and leaves the port but for its two command
registers (rule R142). -/
theorem transferred_put (p : PortId) (sl : Slot) (m : Word) (d : Device) :
    transferred p sl (m ||| cmWr) d =
      withSlot (withPort d p { portOf d p with commsk := m ||| cmWr, comreq := slotWord sl, timedOut := none }) sl
        (putSlot wholeChoice (m ||| cmWr) (portOf d p) (slotAt d sl)) := by
  simp only [transferred, put_wr, if_true]
  rfl

/-- A *get* without `CM_TXRQST` leaves the slot and brings the selected groups (rule R141). -/
theorem transferred_get {m : Word} (hw : hasAny m cmWr = false) (ht : hasAny m cmTxrqst = false) (p : PortId)
    (sl : Slot) (d : Device) :
    transferred p sl m d =
      withPort d p (getRegs wholeChoice m (slotAt d sl)
        { portOf d p with commsk := m, comreq := slotWord sl, timedOut := none }) := by
  simp [transferred, hw, getSlot, ht, withSlot_withPort]

/-! Shadow writes before a transfer. -/

/-- A shadow write to an idle port with nothing interleaved. -/
theorem writeShadow_moves {s : State} (h : Still s.env) {p : PortId} (hp : PortIdle s.dev p) {r : PortReg}
    (hr : r ≠ .comreq) (v : Word) :
    Moves s (writeReg (.port p r) v s) (withPort s.dev p (shadowSet (portOf s.dev p) r v)) [.write (.port p r) v] := by
  have := writeReg_moves h (.port p r) v
  rwa [writeEffect_shadow hp _ hr] at this

theorem withPort_shadow_idle {d : Device} {p : PortId} (hp : PortIdle d p) (r : PortReg) (v : Word) :
    PortIdle (withPort d p (shadowSet (portOf d p) r v)) p := by
  simp only [PortIdle, portOf_withPort, shadowSet_inflight]; exact hp

/-- Shadow writes in order, as a function of the port's registers. -/
def shadowSets (q : PortRegs) : List (PortReg × Word) → PortRegs
  | [] => q
  | x :: rest => shadowSets (shadowSet q x.1 x.2) rest

/-- Shadow writes in order, as steps on the state. -/
def writeShadows (p : PortId) : List (PortReg × Word) → State → State
  | [], s => s
  | x :: rest, s => writeShadows p rest (writeReg (.port p x.1) x.2 s)

theorem writeShadows_block (p : PortId) (l : List (PortReg × Word)) (s : State) :
    KeepsBlock s (writeShadows p l s) := by
  induction l generalizing s with
  | nil => exact KeepsBlock.refl s
  | cons x l ih => exact (writeReg_block _ _ _).trans (ih _)

theorem writeShadows_moves {s : State} (h : Still s.env) {p : PortId} (hp : PortIdle s.dev p)
    (l : List (PortReg × Word)) (hl : ∀ x ∈ l, x.1 ≠ .comreq) :
    Moves s (writeShadows p l s) (withPort s.dev p (shadowSets (portOf s.dev p) l))
        (l.map fun x => .write (.port p x.1) x.2) ∧
      PortIdle (withPort s.dev p (shadowSets (portOf s.dev p) l)) p := by
  induction l generalizing s with
  | nil => simpa [writeShadows, shadowSets] using ⟨Moves.refl s, hp⟩
  | cons x l ih =>
    have h1 := writeShadow_moves h hp (hl x (by simp)) x.2
    have h2 := ih (h1.env.still h) (by rw [h1.dev]; exact withPort_shadow_idle hp _ _)
      (fun y hy => hl y (by simp [hy]))
    rw [h1.dev] at h2
    simp only [portOf_withPort, withPort_withPort] at h2
    exact ⟨h1.trans h2.1, h2.2⟩

/-- Shadow writes and then a *put*: what every configuring operation of the pool is made of. -/
def writesThenPut (p : PortId) (sl : Slot) (m : Word) (l : List (PortReg × Word)) (s : State) : State :=
  (putXfer p sl m (writeShadows p l s)).2

/-- The device after shadow writes and a *put*. -/
def putFrom (p : PortId) (sl : Slot) (m : Word) (l : List (PortReg × Word)) (d : Device) : Device :=
  let q := shadowSets (portOf d p) l
  withSlot (withPort d p { q with commsk := m ||| cmWr, comreq := slotWord sl, timedOut := none }) sl
    (putSlot wholeChoice (m ||| cmWr) q (slotAt d sl))

/-- The events of shadow writes and a *put* that reads the words of the last list with BUSY set. -/
def putEvents (p : PortId) (sl : Slot) (m : Word) (l : List (PortReg × Word)) (vs : List Word) :
    List Event :=
  (l.map fun x => Event.write (.port p x.1) x.2) ++ transferEvents p sl (m ||| cmWr) vs

theorem writesThenPut_block (p : PortId) (sl : Slot) (m : Word) (l : List (PortReg × Word)) (s : State) :
    KeepsBlock s (writesThenPut p sl m l s) :=
  (writeShadows_block p l s).trans (putXfer_block _ _ _ _)

theorem shadowSets_inflight (q : PortRegs) (l : List (PortReg × Word)) : (shadowSets q l).inflight = q.inflight := by
  induction l generalizing q with
  | nil => rfl
  | cons x l ih => rw [shadowSets, ih, shadowSet_inflight]

theorem putFrom_idle {d : Device} {p : PortId} (hp : PortIdle d p) (sl : Slot) (m : Word)
    (l : List (PortReg × Word)) : PortIdle (putFrom p sl m l d) p := by
  have hi : (portOf d p).inflight = none := hp
  simp [PortIdle, putFrom, shadowSets_inflight, hi]

theorem writesThenPut_moves {s : State} (h : Prompt s.env) {p : PortId} (hp : PortIdle s.dev p) (sl : Slot)
    (m : Word) (l : List (PortReg × Word)) (hl : ∀ x ∈ l, x.1 ≠ .comreq) :
    ∃ vs, Moves s (writesThenPut p sl m l s) (putFrom p sl m l s.dev) (putEvents p sl m l vs) := by
  have h1 := writeShadows_moves h.1 hp l hl
  obtain ⟨-, vs, -, h2⟩ := putXfer_moves (h1.1.prompt h) (by rw [h1.1.dev]; exact h1.2) sl m
  rw [h1.1.dev, transferred_put] at h2
  simp only [portOf_withPort, withPort_withPort, slotAt_withPort] at h2
  exact ⟨vs, h1.1.trans h2⟩

/-! The operations as shadow writes and a *put*. -/

theorem invalOp_eq (p : PortId) (sl : Slot) (s : State) :
    invalOp p sl s = writesThenPut p sl cmInval [(.arb1, 0), (.arb2, 0), (.mctrl, 0)] s := rfl

theorem rxcfgOp_eq (p : PortId) (sl : Slot) (mask idw : Word32) (mcont : Word) (s : State) :
    rxcfgOp p sl mask idw mcont s = writesThenPut p sl cmRx
      [(.mask1, mask.lo), (.mask2, mask.hi), (.arb1, idw.lo), (.arb2, idw.hi ||| 0x8000#16), (.mctrl, mcont)] s := rfl

theorem loadFrame_eq (p : PortId) (sl : Slot) (e : EncodedFrame) (s : State) :
    loadFrame p sl e s = writesThenPut p sl cmTx
      [(.arb1, e.lo), (.arb2, e.hi), (.mctrl, e.control), (.data1, e.data[0]), (.data2, e.data[1]),
        (.data3, e.data[2]), (.data4, e.data[3])] s := rfl

theorem rewriteControl_eq (p : PortId) (sl : Slot) (c : Word) (s : State) :
    rewriteControl p sl c s = writesThenPut p sl cmCtl [(.mctrl, c)] s := rfl

theorem invalOp_block (p : PortId) (sl : Slot) (s : State) : KeepsBlock s (invalOp p sl s) := by
  rw [invalOp_eq]; exact writesThenPut_block _ _ _ _ _
theorem rxcfgOp_block (p : PortId) (sl : Slot) (mask idw : Word32) (mcont : Word) (s : State) :
    KeepsBlock s (rxcfgOp p sl mask idw mcont s) := by
  rw [rxcfgOp_eq]; exact writesThenPut_block _ _ _ _ _
theorem loadFrame_block (p : PortId) (sl : Slot) (e : EncodedFrame) (s : State) :
    KeepsBlock s (loadFrame p sl e s) := by
  rw [loadFrame_eq]; exact writesThenPut_block _ _ _ _ _
theorem rewriteControl_block (p : PortId) (sl : Slot) (c : Word) (s : State) :
    KeepsBlock s (rewriteControl p sl c s) := by
  rw [rewriteControl_eq]; exact writesThenPut_block _ _ _ _ _

theorem rewriteControls_block (p : PortId) (c : Word) (l : List Slot) (s : State) :
    KeepsBlock s (rewriteControls p c l s) := by
  induction l generalizing s with
  | nil => exact KeepsBlock.refl s
  | cons sl l ih => exact (rewriteControl_block p sl c s).trans (ih _)

theorem decodePort_block (p : PortId) (c : Word) (s : State) : KeepsBlock s (decodePort p c s).2 := by
  have hd : ∀ r k n t, KeepsBlock t (readDataWord p r k n t).2 := by
    intro r k n t
    unfold readDataWord
    split
    · exact readReg_block _ _
    · exact KeepsBlock.refl _
  exact (((((readReg_block _ _).trans (readReg_block _ _)).trans (hd _ _ _ _)).trans (hd _ _ _ _)).trans
    (hd _ _ _ _)).trans (hd _ _ _ _)

/-- The eight bytes of a payload written out are the payload: the positions below 8, checked one by one. -/
theorem bytes_eta (v : Vector Byte 8) : #v[v[0], v[1], v[2], v[3], v[4], v[5], v[6], v[7]] = v := by
  refine Vector.ext fun i hi => ?_
  interval_cases i <;> simp

/-! The effect of an invalidation, a configuration, a control rewrite. -/

/-- The slot and the port after `INVAL` (rule R160). -/
theorem inval_putFrom (p : PortId) (sl : Slot) (d : Device) :
    putFrom p sl cmInval [(.arb1, 0), (.arb2, 0), (.mctrl, 0)] d =
      withSlot (withPort d p { portOf d p with
          arb1 := 0, arb2 := 0, mctrl := 0, commsk := 0x00B0#16, comreq := slotWord sl, timedOut := none }) sl
        { slotAt d sl with arb := 0, mctrl := 0 } := by
  have hm : cmInval ||| cmWr = 0x00B0#16 := by decide
  simp [putFrom, shadowSets, shadowSet, hm, putSlot, hasAny, cmMask, cmArb, cmDataa, cmDatab, putControl,
    cmControl, cmTxrqst, joinHalves, wholeChoice, bytes_eta]

end Sys2Proof.Machine
end

