-- ==== Sys2Proof/Laws/Slots.lean ====
section
/-! SUPPORT. What the shadow writes and *put*s of the pool leave in the slots and in the port, one after another
(43_pool_manager.md rules R160 to R170, 47_mode_controller.md rule R213). -/

namespace Sys2Proof.Machine

/-- MSGVAL in the high half is MSGVAL in the arbitration word (rules R90, R162). -/
theorem joinHalves_msgval (w : Word32) : joinHalves (w.hi ||| 0x8000#16) w.lo = w ||| arbMsgval := by
  apply BitVec.eq_of_getLsbD_eq
  intro i hi
  simp only [joinHalves, Word32.hi, Word32.lo, BitVec.getLsbD_append, BitVec.getLsbD_extractLsb',
    BitVec.getLsbD_or, arbMsgval]
  by_cases h : i < 16
  · have : (0x80000000#32).getLsbD i = false := by
      revert h; revert i; decide
    simp [h, this]
  · have hi' : i - 16 < 16 := by omega
    have he : (0x8000#16).getLsbD (i - 16) = (0x80000000#32).getLsbD i := by
      have : ∀ j : Fin 16, (0x8000#16).getLsbD j.val = (0x80000000#32).getLsbD (j.val + 16) := by decide
      have := this ⟨i - 16, hi'⟩
      simpa [show i - 16 + 16 = i by omega] using this
    have hs : 16 + (i - 16) = i := by omega
    simp only [h, if_false, hi', decide_true, Bool.true_and, he, hs]

/-- The slot and the port after a control rewrite (rules R167 to R170). -/
theorem control_putFrom (p : PortId) (sl : Slot) (c : Word) (d : Device) :
    putFrom p sl cmCtl [(.mctrl, c)] d =
      withSlot (withPort d p { portOf d p with mctrl := c, commsk := 0x0090#16, comreq := slotWord sl, timedOut := none }) sl
        { slotAt d sl with mctrl := c } := by
  have hm : cmCtl ||| cmWr = 0x0090#16 := by decide
  simp [putFrom, shadowSets, shadowSet, hm, putSlot, hasAny, cmMask, cmArb, cmDataa, cmDatab, putControl,
    cmControl, cmTxrqst, wholeChoice, bytes_eta]

/-- The slot and the port after `RXCFG` (rule R162). -/
theorem rxcfg_putFrom (p : PortId) (sl : Slot) (mask idw : Word32) (mcont : Word) (d : Device) :
    putFrom p sl cmRx [(.mask1, mask.lo), (.mask2, mask.hi), (.arb1, idw.lo), (.arb2, idw.hi ||| 0x8000#16),
        (.mctrl, mcont)] d =
      withSlot (withPort d p { portOf d p with
          mask1 := mask.lo, mask2 := mask.hi, arb1 := idw.lo, arb2 := idw.hi ||| 0x8000#16, mctrl := mcont,
          commsk := 0x00F3#16, comreq := slotWord sl, timedOut := none }) sl
        ⟨mask, idw ||| arbMsgval, mcont,
          dataBytes #v[(portOf d p).data1, (portOf d p).data2, (portOf d p).data3, (portOf d p).data4]⟩ := by
  have hm : cmRx ||| cmWr = 0x00F3#16 := by decide
  simp [putFrom, shadowSets, shadowSet, hm, putSlot, hasAny, cmMask, cmArb, cmDataa, cmDatab, putControl,
    cmControl, cmTxrqst, wholeChoice, bytes_eta, joinHalves_msgval, joinHalves_hi_lo]

/-- The bytes of the words of a payload are the payload (rules R96, R109). -/
theorem dataBytes_dataWords (v : Vector Byte 8) : dataBytes (dataWords v) = v := by
  have lo : ∀ a b : Byte, (pairWord a b).extractLsb' 0 8 = a := by
    intro a b
    apply BitVec.eq_of_getLsbD_eq
    intro i hi
    simp only [pairWord, BitVec.getLsbD_extractLsb', BitVec.getLsbD_append, Nat.zero_add, hi, decide_true,
      Bool.true_and, if_true]
  have hi : ∀ a b : Byte, (pairWord a b).extractLsb' 8 8 = b := by
    intro a b
    apply BitVec.eq_of_getLsbD_eq
    intro i hi
    have h : ¬8 + i < 8 := by omega
    simp only [pairWord, BitVec.getLsbD_extractLsb', BitVec.getLsbD_append, hi, decide_true, Bool.true_and, h,
      if_false, Nat.add_sub_cancel_left]
  rw [← bytes_eta v]
  simp [dataBytes, dataWords, lo, hi]

/-- The control word of a frame already requests transmission (rule R150). -/
theorem controlOf_txrqst (f : Frame) : controlOf f ||| mcTxrqst = controlOf f := by
  have h : ∀ w : Word, (mcTx ||| w) ||| mcTxrqst = mcTx ||| w := by
    intro w
    rw [BitVec.or_assoc, BitVec.or_comm w, ← BitVec.or_assoc]
    rfl
  exact h _

/-- The slot and the port after the writes and the *put* of `TXSUBMIT` (rule R164). -/
theorem load_putFrom (p : PortId) (sl : Slot) (f : Frame) (d : Device) :
    let w := dataWords f.data
    putFrom p sl cmTx [(.arb1, (arbOf f).lo), (.arb2, (arbOf f).hi), (.mctrl, controlOf f), (.data1, w[0]),
        (.data2, w[1]), (.data3, w[2]), (.data4, w[3])] d =
      withSlot (withPort d p { portOf d p with
          arb1 := (arbOf f).lo, arb2 := (arbOf f).hi, mctrl := controlOf f, data1 := w[0], data2 := w[1],
          data3 := w[2], data4 := w[3], commsk := 0x00B7#16, comreq := slotWord sl, timedOut := none }) sl
        ⟨(slotAt d sl).mask, arbOf f, controlOf f, f.data⟩ := by
  have hm : cmTx ||| cmWr = 0x00B7#16 := by decide
  have hd : dataBytes #v[(dataWords f.data)[0], (dataWords f.data)[1], (dataWords f.data)[2],
      (dataWords f.data)[3]] = f.data := dataBytes_dataWords f.data
  simp [putFrom, shadowSets, shadowSet, hm, putSlot, hasAny, cmMask, cmArb, cmDataa, cmDatab, putControl,
    cmControl, cmTxrqst, wholeChoice, hd, bytes_eta, joinHalves_hi_lo, controlOf_txrqst]

/-! Puts one after another. -/

/-- One element of a sequence of *put*s: the slot, the groups, the shadow writes before it. -/
abbrev PutStep := Slot × Word × List (PortReg × Word)

/-- A sequence of shadow writes and *put*s. -/
def runPuts (p : PortId) : List PutStep → State → State
  | [], s => s
  | x :: rest, s => runPuts p rest (writesThenPut p x.1 x.2.1 x.2.2 s)

/-- The device after a sequence of *put*s. -/
def putAll (p : PortId) : List PutStep → Device → Device
  | [], d => d
  | x :: rest, d => putAll p rest (putFrom p x.1 x.2.1 x.2.2 d)

/-- The register writes of shadow writes and a *put* (rules R70 (1) and (2), R140). -/
def putWrites (p : PortId) (x : PutStep) : List (Reg × Word) :=
  (x.2.2.map fun y => (Reg.port p y.1, y.2)) ++
    [(.port p .commsk, x.2.1 ||| cmWr), (.port p .comreq, slotWord x.1)]

theorem writesOf_append (a b : List Event) : writesOf (a ++ b) = writesOf a ++ writesOf b := by
  simp [writesOf]

theorem effectsOf_append (a b : List Event) : effectsOf (a ++ b) = effectsOf a ++ effectsOf b := by
  simp [effectsOf]

theorem writesOf_busy (p : PortId) (vs : List Word) : writesOf (busyEvents p vs) = [] := by
  induction vs with
  | nil => rfl
  | cons v vs ih => simpa [busyEvents, writesOf] using ih

theorem effectsOf_busy (p : PortId) (vs : List Word) :
    effectsOf (busyEvents p vs) = List.replicate vs.length (.delay Config.busySpacingUs) := by
  induction vs with
  | nil => rfl
  | cons v vs ih => simpa [busyEvents, effectsOf, List.replicate_succ] using ih

theorem writesOf_put (p : PortId) (x : PutStep) (vs : List Word) :
    writesOf (putEvents p x.1 x.2.1 x.2.2 vs) = putWrites p x := by
  have : ∀ l : List (PortReg × Word),
      writesOf (l.map fun y => Event.write (.port p y.1) y.2) = l.map fun y => (Reg.port p y.1, y.2) := by
    intro l; induction l with
    | nil => rfl
    | cons y l ih => simp [writesOf]
  simp only [putEvents, transferEvents, startEvents, writesOf_append, this, writesOf_busy, putWrites]
  rfl

theorem effectsOf_put (p : PortId) (x : PutStep) (vs : List Word) :
    effectsOf (putEvents p x.1 x.2.1 x.2.2 vs) = List.replicate vs.length (.delay Config.busySpacingUs) := by
  have : ∀ l : List (PortReg × Word), effectsOf (l.map fun y => Event.write (.port p y.1) y.2) = [] := by
    intro l; induction l with
    | nil => rfl
    | cons y l ih => simp [effectsOf]
  simp only [putEvents, transferEvents, startEvents, effectsOf_append, this, effectsOf_busy]
  simp [effectsOf]

theorem OnlyWrites.append {a b : List Event} {v w : List (Reg × Word)} (x : OnlyWrites a v) (y : OnlyWrites b w) :
    OnlyWrites (a ++ b) (v ++ w) :=
  ⟨by rw [writesOf_append, x.1, y.1], fun e he => by
    rw [effectsOf_append] at he
    exact (List.mem_append.1 he).elim (x.2 e) (y.2 e)⟩

/-- A step of a sequence never writes the command-request register itself. -/
def Plain (l : List PutStep) : Prop := ∀ x ∈ l, ∀ y ∈ x.2.2, y.1 ≠ .comreq

theorem writesThenPut_exact {s : State} (h : Prompt s.env) {p : PortId} (hp : PortIdle s.dev p) (x : PutStep)
    (hl : ∀ y ∈ x.2.2, y.1 ≠ .comreq) :
    ∃ ev, Moves s (writesThenPut p x.1 x.2.1 x.2.2 s) (putFrom p x.1 x.2.1 x.2.2 s.dev) ev ∧
      OnlyWrites ev (putWrites p x) := by
  obtain ⟨vs, hn⟩ := writesThenPut_moves h hp x.1 x.2.1 x.2.2 hl
  refine ⟨_, hn, writesOf_put p x vs, ?_⟩
  rw [effectsOf_put]
  intro e he
  exact List.eq_of_mem_replicate he

theorem runPuts_block (p : PortId) (l : List PutStep) (s : State) : KeepsBlock s (runPuts p l s) := by
  induction l generalizing s with
  | nil => exact KeepsBlock.refl s
  | cons x l ih => exact (writesThenPut_block _ _ _ _ _).trans (ih _)

/-- A sequence of *put*s with no time-out and nothing interleaved. -/
theorem runPuts_exact {s : State} (h : Prompt s.env) {p : PortId} (hp : PortIdle s.dev p) (l : List PutStep)
    (hl : Plain l) :
    ∃ ev, Moves s (runPuts p l s) (putAll p l s.dev) ev ∧ OnlyWrites ev (l.flatMap (putWrites p)) ∧
      PortIdle (putAll p l s.dev) p := by
  induction l generalizing s with
  | nil => exact ⟨[], Moves.refl s, ⟨rfl, by simp [effectsOf]⟩, hp⟩
  | cons x l ih =>
    obtain ⟨ev, hm, hw⟩ := writesThenPut_exact h hp x (hl x (by simp))
    obtain ⟨ev2, hm2, hw2, hi2⟩ := ih (hm.prompt h) (by rw [hm.dev]; exact putFrom_idle hp _ _ _)
      (fun y hy => hl y (by simp [hy]))
    rw [hm.dev] at hm2 hi2
    exact ⟨ev ++ ev2, hm.trans hm2, hw.append hw2, hi2⟩

/-- The steps of one control word written to a list of slots (rule R170). -/
def controlSteps (c : Word) (l : List Slot) : List PutStep := l.map fun sl => (sl, cmCtl, [(.mctrl, c)])

/-- The steps of the invalidation of a list of slots (rule R213). -/
def invalSteps (l : List Slot) : List PutStep := l.map fun sl => (sl, cmInval, [(.arb1, 0), (.arb2, 0), (.mctrl, 0)])

/-- The steps of the configuration of a list of slots with the block's own filter (rule R163). -/
def rxcfgSteps (mcont : Word) (l : List Slot) : List PutStep :=
  l.map fun sl => (sl, cmRx, [(.mask1, Config.rxFilterMask.lo), (.mask2, Config.rxFilterMask.hi),
    (.arb1, Config.rxFilterId.lo), (.arb2, Config.rxFilterId.hi ||| 0x8000#16), (.mctrl, mcont)])

theorem rewriteControls_eq (p : PortId) (c : Word) (l : List Slot) (s : State) :
    rewriteControls p c l s = runPuts p (controlSteps c l) s := by
  induction l generalizing s with
  | nil => rfl
  | cons sl l ih => simp only [rewriteControls, rewriteControl_eq, ih]; rfl

theorem invalAll_eq (p : PortId) (l : List Slot) (s : State) :
    invalAll p l s = runPuts p (invalSteps l) s := by
  induction l generalizing s with
  | nil => rfl
  | cons sl l ih => simp only [invalAll, invalOp_eq, ih]; rfl

theorem rxcfgAll_eq (p : PortId) (mcont : Word) (l : List Slot) (s : State) :
    rxcfgAll p mcont l s = runPuts p (rxcfgSteps mcont l) s := by
  induction l generalizing s with
  | nil => rfl
  | cons sl l ih => simp only [rxcfgAll, rxcfgOp_eq, ih]; rfl

theorem runPuts_append (p : PortId) (a b : List PutStep) (s : State) :
    runPuts p (a ++ b) s = runPuts p b (runPuts p a s) := by
  induction a generalizing s with
  | nil => rfl
  | cons x a ih => exact ih _

theorem putAll_append (p : PortId) (a b : List PutStep) (d : Device) :
    putAll p (a ++ b) d = putAll p b (putAll p a d) := by
  induction a generalizing d with
  | nil => rfl
  | cons x a ih => exact ih _

/-- The steps of the receive-pool configuration (rules R163, R213). -/
def poolSteps : List PutStep :=
  invalSteps (slotsFrom 1 Config.nObj) ++ rxcfgSteps mcRx (slotsFrom Config.rxFirst (Config.rxLast - 1)) ++
    rxcfgSteps mcRxLast (slotsFrom Config.rxLast Config.rxLast)

theorem configurePool_eq (p : PortId) (s : State) : configurePool p s = runPuts p poolSteps s := by
  simp only [configurePool, poolSteps, runPuts_append, invalAll_eq, rxcfgAll_eq]

/-! What a sequence leaves. -/

theorem putFrom_globals (p : PortId) (sl : Slot) (m : Word) (l : List (PortReg × Word)) (d : Device) :
    SameGlobals d (putFrom p sl m l d) := by
  simp [SameGlobals, putFrom]

theorem putAll_globals (p : PortId) (l : List PutStep) (d : Device) : SameGlobals d (putAll p l d) := by
  induction l generalizing d with
  | nil => exact ⟨rfl, rfl, rfl, rfl, rfl, rfl, rfl⟩
  | cons x l ih =>
    obtain ⟨a1, a2, a3, a4, a5, a6, a7⟩ := putFrom_globals p x.1 x.2.1 x.2.2 d
    obtain ⟨b1, b2, b3, b4, b5, b6, b7⟩ := ih (putFrom p x.1 x.2.1 x.2.2 d)
    exact ⟨b1.trans a1, b2.trans a2, b3.trans a3, b4.trans a4, b5.trans a5, b6.trans a6, b7.trans a7⟩

theorem putFrom_otherPort (p : PortId) (sl : Slot) (m : Word) (l : List (PortReg × Word)) (d : Device) :
    SameOtherPort p d (putFrom p sl m l d) := by
  intro q hq
  simp only [putFrom, portOf_withSlot]
  exact portOf_withPort_ne _ _ hq

theorem putAll_otherPort (p : PortId) (l : List PutStep) (d : Device) : SameOtherPort p d (putAll p l d) := by
  induction l generalizing d with
  | nil => exact fun _ _ => rfl
  | cons x l ih => exact fun q hq => (ih _ q hq).trans (putFrom_otherPort p x.1 x.2.1 x.2.2 d q hq)

theorem putFrom_otherSlots (p : PortId) (sl : Slot) (m : Word) (l : List (PortReg × Word)) (d : Device) :
    SameOtherSlots sl d (putFrom p sl m l d) := by
  intro k hk
  simp only [putFrom]
  rw [slotAt_withSlot_ne _ _ hk, slotAt_withPort]

theorem putAll_slot_other (p : PortId) (l : List PutStep) (d : Device) (k : Slot) (hk : ∀ x ∈ l, x.1 ≠ k) :
    slotAt (putAll p l d) k = slotAt d k := by
  induction l generalizing d with
  | nil => rfl
  | cons x l ih =>
    rw [putAll, ih _ (fun y hy => hk y (by simp [hy]))]
    exact putFrom_otherSlots p x.1 x.2.1 x.2.2 d k (fun h => hk x (by simp) h.symm)

/-- The slots after one control word has been written to a list of them (rule R170). -/
theorem controlSteps_slot (p : PortId) (c : Word) (l : List Slot) (d : Device) (k : Slot) :
    slotAt (putAll p (controlSteps c l) d) k =
      if k ∈ l then { slotAt d k with mctrl := c } else slotAt d k := by
  induction l generalizing d with
  | nil => rfl
  | cons sl l ih =>
    simp only [controlSteps, List.map_cons, putAll] at ih ⊢
    rw [ih, control_putFrom]
    by_cases h : k = sl
    · subst h; simp
    · rw [slotAt_withSlot_ne _ _ h, slotAt_withPort]
      simp [h]

/-- The slots after a list of them has been invalidated (rule R160). -/
theorem invalSteps_slot (p : PortId) (l : List Slot) (d : Device) (k : Slot) :
    slotAt (putAll p (invalSteps l) d) k =
      if k ∈ l then { slotAt d k with arb := 0, mctrl := 0 } else slotAt d k := by
  induction l generalizing d with
  | nil => rfl
  | cons sl l ih =>
    simp only [invalSteps, List.map_cons, putAll] at ih ⊢
    rw [ih, inval_putFrom]
    by_cases h : k = sl
    · subst h; simp
    · rw [slotAt_withSlot_ne _ _ h, slotAt_withPort]
      simp [h]

/-- The slots after a list of them has been configured with the block's own filter: every field but the payload is
fixed (rules R162, R163). -/
theorem rxcfgSteps_slot (p : PortId) (mcont : Word) (l : List Slot) (d : Device) (k : Slot) :
    let o := slotAt (putAll p (rxcfgSteps mcont l) d) k
    if k ∈ l then o.mask = 0 ∧ o.arb = arbMsgval ∧ o.mctrl = mcont else o = slotAt d k := by
  induction l generalizing d with
  | nil => rfl
  | cons sl l ih =>
    simp only [rxcfgSteps, List.map_cons, putAll] at ih ⊢
    rw [rxcfg_putFrom]
    have := ih (withSlot (withPort d p { portOf d p with
          mask1 := Config.rxFilterMask.lo, mask2 := Config.rxFilterMask.hi, arb1 := Config.rxFilterId.lo,
          arb2 := Config.rxFilterId.hi ||| 0x8000#16, mctrl := mcont,
          commsk := 0x00F3#16, comreq := slotWord sl, timedOut := none }) sl
        ⟨Config.rxFilterMask, Config.rxFilterId ||| arbMsgval, mcont,
          dataBytes #v[(portOf d p).data1, (portOf d p).data2, (portOf d p).data3, (portOf d p).data4]⟩)
    by_cases hl : k ∈ l
    · simpa [hl] using this
    · simp only [hl, if_false] at this
      rw [this]
      by_cases h : k = sl
      · subst h; simp [Config.rxFilterMask, Config.rxFilterId, arbMsgval]
      · rw [slotAt_withSlot_ne _ _ h, slotAt_withPort]
        simp [h, hl]

end Sys2Proof.Machine
end

