-- ==== Sys2Proof/Laws/Block.lean ====
section
/-! SUPPORT. What the operations do to the block's own state (handle, global locks, the host's count), in any
environment: 43_pool_manager.md, 44_interrupt_pipeline.md, 45_bus_state_machine.md, 47_mode_controller.md,
60_exceptions.md. -/

namespace Sys2Proof.Machine

/-! Delivery and its locks. -/

/-- The socket lock is held by a pass only while the dispatch lock is (rule R186: both are taken together). -/
def Paired (g : Globals) : Prop := g.socket = .pass → g.dispatch = .pass

/-- What a delivery may do to the global locks: nothing outside a pass, and they stay paired (rule R186). -/
def LocksStep (s t : State) : Prop := (s.h.phase ≠ .locked → t.g = s.g) ∧ (Paired s.g → Paired t.g)

theorem LocksStep.of_eq {s t : State} (h : t.g = s.g) : LocksStep s t := ⟨fun _ => h, fun p => by rwa [h]⟩

theorem LocksStep.trans {s t u : State} (hp : t.h.phase = s.h.phase) (a : LocksStep s t) (b : LocksStep t u) :
    LocksStep s u :=
  ⟨fun h => (b.1 (by rwa [hp])).trans (a.1 h), fun h => b.2 (a.2 h)⟩

theorem takeDeliveryLocks_spec (s : State) :
    (takeDeliveryLocks s).h = s.h ∧ (takeDeliveryLocks s).held = s.held ∧ (takeDeliveryLocks s).dev = s.dev ∧
      (takeDeliveryLocks s).env = s.env ∧ (takeDeliveryLocks s).result = s.result ∧
      LocksStep s (takeDeliveryLocks s) := by
  unfold takeDeliveryLocks
  split
  · rename_i h
    simp only [Bool.and_eq_true, beq_iff_eq] at h
    exact ⟨rfl, rfl, rfl, rfl, rfl, fun hp => absurd h.1 hp, fun _ _ => rfl⟩
  · exact ⟨rfl, rfl, rfl, rfl, rfl, LocksStep.of_eq rfl⟩

/-- A delivery outside the locked phase of a pass takes no lock (log 22). -/
theorem takeDeliveryLocks_outside {s : State} (h : s.h.phase ≠ .locked) : takeDeliveryLocks s = s := by
  simp [takeDeliveryLocks, h]

/-- A delivery outside a pass appends its effect and nothing else. -/
theorem deliver_outside {s : State} (h : s.h.phase ≠ .locked) (ev : BusEvent) :
    deliver ev s = emit (.deliver ev) s := by
  simp [deliver, takeDeliveryLocks_outside h]

@[simp] theorem deliver_h (ev : BusEvent) (s : State) : (deliver ev s).h = s.h := (takeDeliveryLocks_spec s).1
@[simp] theorem deliver_held (ev : BusEvent) (s : State) : (deliver ev s).held = s.held :=
  (takeDeliveryLocks_spec s).2.1
@[simp] theorem deliver_dev (ev : BusEvent) (s : State) : (deliver ev s).dev = s.dev :=
  (takeDeliveryLocks_spec s).2.2.1
@[simp] theorem deliver_env (ev : BusEvent) (s : State) : (deliver ev s).env = s.env :=
  (takeDeliveryLocks_spec s).2.2.2.1
@[simp] theorem deliver_result (ev : BusEvent) (s : State) : (deliver ev s).result = s.result :=
  (takeDeliveryLocks_spec s).2.2.2.2.1
theorem deliver_locks (ev : BusEvent) (s : State) : LocksStep s (deliver ev s) :=
  (takeDeliveryLocks_spec s).2.2.2.2.2

/-! The admission counter. -/

/-- `TACREL` touches the counter alone, and neither makes nor unmakes it (rule R242). -/
theorem tacRel_spec (s : State) :
    (tacRel s).h = { s.h with tac := s.h.tac.map (· + 1) } ∧ (tacRel s).g = s.g ∧ (tacRel s).dev = s.dev ∧
      (tacRel s).held = s.held ∧ (tacRel s).env = s.env ∧ (tacRel s).result = s.result ∧
      (tacRel s).trace = s.trace ++ (if s.h.tac.isSome then [.effect .tacRelease] else []) := by
  unfold tacRel
  cases h : s.h.tac with
  | none =>
    refine ⟨?_, rfl, rfl, rfl, rfl, rfl, by simp⟩
    cases hh : s.h; simp_all
  | some n => exact ⟨rfl, rfl, rfl, rfl, rfl, rfl, rfl⟩

/-- `TACABANDON` (rules R243, R274). -/
theorem tacAbandon_spec (s : State) :
    (tacAbandon s).h = { s.h with tac := none } ∧ (tacAbandon s).g = s.g ∧ (tacAbandon s).dev = s.dev ∧
      (tacAbandon s).held = 0 ∧ (tacAbandon s).env = s.env ∧ (tacAbandon s).result = s.result ∧
      (tacAbandon s).trace = s.trace ++ [.effect .tacAbandonAll] := ⟨rfl, rfl, rfl, rfl, rfl, rfl, rfl⟩

/-! The receive drain. -/

/-- What the receive side of the pool may do to the block's own state: the delivery locks alone (rule R187 (a)). -/
structure RxKeeps (s t : State) : Prop where
  handle : t.h = s.h
  held : t.held = s.held
  result : t.result = s.result
  locks : LocksStep s t

theorem RxKeeps.refl (s : State) : RxKeeps s s := ⟨rfl, rfl, rfl, LocksStep.of_eq rfl⟩

theorem RxKeeps.trans {s t u : State} (a : RxKeeps s t) (b : RxKeeps t u) : RxKeeps s u :=
  ⟨b.handle.trans a.handle, b.held.trans a.held, b.result.trans a.result,
    a.locks.trans (by rw [a.handle]) b.locks⟩

theorem KeepsBlock.rx {s t : State} (h : KeepsBlock s t) : RxKeeps s t :=
  ⟨h.1, h.2.2.1, h.2.2.2, LocksStep.of_eq h.2.1⟩

theorem deliver_rx (ev : BusEvent) (s : State) : RxKeeps s (deliver ev s) :=
  ⟨deliver_h ev s, deliver_held ev s, deliver_result ev s, deliver_locks ev s⟩

theorem rxLostOp_rx (p : PortId) (sl : Slot) (c : Word) (s : State) : RxKeeps s (rxLostOp p sl c s) :=
  (rewriteControl_block p sl _ s).rx.trans (deliver_rx _ _)

theorem rxMarkOp_block (p : PortId) (sl : Slot) (c : Word) (s : State) : KeepsBlock s (rxMarkOp p sl c s) :=
  rewriteControl_block p sl _ s

theorem rxActOp_block (p : PortId) (sl : Slot) (c : Word) (s : State) : KeepsBlock s (rxActOp p sl c s) :=
  rewriteControl_block p sl _ s

theorem rxActLowOp_block (p : PortId) (c : Word) (s : State) : KeepsBlock s (rxActLowOp p c s) :=
  rewriteControls_block p _ _ s

theorem reactivate_block (p : PortId) (sl : Slot) (c : Word) (s : State) : KeepsBlock s (reactivate p sl c s) := by
  unfold reactivate
  split
  · exact rxMarkOp_block p sl c s
  · split
    · exact rxActLowOp_block p c s
    · exact rxActOp_block p sl c s

theorem deliverSlot_rx (p : PortId) (sl : Slot) (c : Word) (s : State) : RxKeeps s (deliverSlot p sl c s) :=
  ((decodePort_block p c s).rx.trans (deliver_rx _ _)).trans (reactivate_block p sl c _).rx

theorem readComposite_block (b : Bitmap) (s : State) : KeepsBlock s (readComposite b s).2 :=
  (readReg_block _ _).trans (readReg_block _ _)

theorem rxScan_rx (p : PortId) (l : List Slot) (s : State) : RxKeeps s (rxScan p l s) := by
  induction l generalizing s with
  | nil => exact RxKeeps.refl s
  | cons sl l ih =>
    have h1 := (readComposite_block .intpnd s).rx
    have h2 := (h1.trans (getXfer_block p sl cmRx _).rx).trans (readReg_block (.port p .mctrl) _).rx
    simp only [rxScan]
    generalize readReg (.port p .mctrl) (getXfer p sl cmRx (readComposite .intpnd s).2).2 = c at h2 ⊢
    split
    · exact h1.trans (ih _)
    · split
      · exact h2
      · split
        · exact (h2.trans (rxLostOp_rx p sl _ _)).trans (ih _)
        · split
          · exact h2.trans (ih _)
          · exact (h2.trans (deliverSlot_rx p sl _ _)).trans (ih _)

theorem rxDrainOp_rx (s : State) : RxKeeps s (rxDrainOp s) := rxScan_rx _ _ s

/-! The transmit drain. -/

/-- What the transmit side of the pool may do to the block's own state: `tx_echo` and the counter's value (rules
R166, R187 (c)). -/
structure TxKeeps (s t : State) : Prop where
  handle : t.h = { s.h with txEcho := t.h.txEcho, tac := t.h.tac }
  exists_iff : t.h.tac.isSome = s.h.tac.isSome
  globals : t.g = s.g
  held : t.held = s.held
  result : t.result = s.result

theorem TxKeeps.refl (s : State) : TxKeeps s s := ⟨rfl, rfl, rfl, rfl, rfl⟩

theorem TxKeeps.trans {s t u : State} (a : TxKeeps s t) (b : TxKeeps t u) : TxKeeps s u :=
  ⟨by rw [b.handle, a.handle], b.exists_iff.trans a.exists_iff, b.globals.trans a.globals,
    b.held.trans a.held, b.result.trans a.result⟩

theorem KeepsBlock.tx {s t : State} (h : KeepsBlock s t) : TxKeeps s t :=
  ⟨by rw [h.1], by rw [h.1], h.2.1, h.2.2.1, h.2.2.2⟩

theorem tacRel_tx (s : State) : TxKeeps s (tacRel s) := by
  obtain ⟨h1, h2, -, h3, -, h4, -⟩ := tacRel_spec s
  exact ⟨by rw [h1], by rw [h1]; simp, h2, h3, h4⟩

theorem setTxEcho_tx (v : Counter) (s : State) : TxKeeps s (setTxEcho v s) := ⟨rfl, rfl, rfl, rfl, rfl⟩

theorem txDrainLoop_tx (p : PortId) (n : Nat) (s : State) : TxKeeps s (txDrainLoop p n s) := by
  induction n generalizing s with
  | zero => exact TxKeeps.refl s
  | succ n ih =>
    have h1 := (readComposite_block .txrqst s).tx
    simp only [txDrainLoop]
    split
    · exact h1.trans (tacRel_tx _)
    · exact (((h1.trans (invalOp_block p _ _).tx).trans (setTxEcho_tx _ _)).trans (tacRel_tx _)).trans (ih _)

theorem txDrainOp_tx (s : State) : TxKeeps s (txDrainOp s) := by
  have h := txDrainLoop_tx Config.defaultPort (s.h.txNext - s.h.txEcho).toNat s
  unfold txDrainOp txBonus
  split
  · exact h.trans (tacRel_tx _)
  · exact h

theorem drawLoopback_block (s : State) : KeepsBlock s (drawLoopback s).2 := by
  unfold drawLoopback
  split
  · exact KeepsBlock.refl _
  · split <;> exact KeepsBlock.refl _

theorem drawReply_block (s : State) : KeepsBlock s (drawReply s).2 := by
  unfold drawReply
  split
  · exact KeepsBlock.refl _
  · split <;> exact KeepsBlock.refl _

theorem loopbackOp_rx (s : State) : RxKeeps s (loopbackOp s) := by
  have h := (drawLoopback_block s).rx
  simp only [loopbackOp]
  generalize drawLoopback s = b at h ⊢
  split
  · obtain ⟨h1, h2, -, -, h3, h4⟩ := takeDeliveryLocks_spec b.2
    exact h.trans ⟨h1, h2, h3, h4⟩
  · exact h

/-! The bus state machine. -/

/-- What a rising edge's entry does to the block's own state (rule R192). -/
theorem stEnterOp_spec (t : ErrState) (s : State) :
    (stEnterOp t s).h =
        (match t with
          | .warning => { s.h with state := .errorWarning }
          | .passive => { s.h with state := .errorPassive }
          | .busOff => { s.h with state := .busOff, tac := none }) ∧
      (stEnterOp t s).held = (if t = .busOff then 0 else s.held) ∧ (stEnterOp t s).result = s.result ∧
      LocksStep s (stEnterOp t s) := by
  cases t with
  | warning =>
    refine ⟨by simp [stEnterOp], by simp [stEnterOp], by simp [stEnterOp], ?_⟩
    exact LocksStep.trans (t := setOpState .errorWarning (readReg .errcnt s).2) (by simp)
      (LocksStep.of_eq (by simp)) (deliver_locks _ _)
  | passive =>
    refine ⟨by simp [stEnterOp], by simp [stEnterOp], by simp [stEnterOp], ?_⟩
    exact LocksStep.trans (t := setOpState .errorPassive (readReg .errcnt s).2) (by simp)
      (LocksStep.of_eq (by simp)) (deliver_locks _ _)
  | busOff =>
    obtain ⟨h1, h2, -, h3, -, h4, -⟩ := tacAbandon_spec (ieAll false (deliver .busOff (setOpState .busOff s)))
    refine ⟨by simp [stEnterOp, h1], by simp [stEnterOp, h3], by simp [stEnterOp, h4], ?_⟩
    refine LocksStep.trans (t := deliver .busOff (setOpState .busOff s)) (by simp) ?_
      (LocksStep.of_eq (by simp [stEnterOp, h2]))
    exact LocksStep.trans (t := setOpState .busOff s) (by simp) (LocksStep.of_eq (by simp)) (deliver_locks _ _)

/-- The state after the edge tests, as a function of the snapshot, the value read and the state before (rules R190,
R193, R194). -/
def edgeState (cur old : Word) (st : OpState) : OpState :=
  let a := if rising cur old stEwarn then .errorWarning else st
  let b := if rising cur old stEpass then .errorPassive else a
  let c := if rising cur old stBoff then .busOff else b
  let d := if falling cur old stBoff then .errorActive else c
  if falling cur old stEpass then .errorActive else d

/-- What a conditional operation does. -/
theorem runIf_eq (b : Bool) (f : State → State) (s : State) : runIf b f s = if b then f s else s := rfl

/-- What the status branch may do to the block's own state (rules R190 to R196). -/
structure StKeeps (s t : State) : Prop where
  handle : t.h = { s.h with state := t.h.state, lastStatus := t.h.lastStatus, tac := t.h.tac }
  counter : (t.h.tac = s.h.tac ∧ t.held = s.held) ∨ (t.h.tac = none ∧ t.held = 0)
  result : t.result = s.result
  locks : LocksStep s t

theorem StKeeps.refl (s : State) : StKeeps s s := ⟨rfl, Or.inl ⟨rfl, rfl⟩, rfl, LocksStep.of_eq rfl⟩

theorem StKeeps.phase {s t : State} (a : StKeeps s t) : t.h.phase = s.h.phase := by rw [a.handle]

theorem StKeeps.trans {s t u : State} (a : StKeeps s t) (b : StKeeps t u) : StKeeps s u := by
  refine ⟨by rw [b.handle, a.handle], ?_, b.result.trans a.result, a.locks.trans a.phase b.locks⟩
  rcases b.counter with hb | hb
  · rcases a.counter with ha | ha
    · exact Or.inl ⟨hb.1.trans ha.1, hb.2.trans ha.2⟩
    · exact Or.inr ⟨hb.1.trans ha.1, hb.2.trans ha.2⟩
  · exact Or.inr hb

theorem RxKeeps.st {s t : State} (a : RxKeeps s t) : StKeeps s t :=
  ⟨by rw [a.handle], Or.inl ⟨by rw [a.handle], a.held⟩, a.result, a.locks⟩

theorem stEnterOp_st (t : ErrState) (s : State) : StKeeps s (stEnterOp t s) := by
  obtain ⟨h1, h2, h3, h4⟩ := stEnterOp_spec t s
  cases t with
  | warning => exact ⟨by rw [h1], Or.inl ⟨by rw [h1], by simpa using h2⟩, h3, h4⟩
  | passive => exact ⟨by rw [h1], Or.inl ⟨by rw [h1], by simpa using h2⟩, h3, h4⟩
  | busOff => exact ⟨by rw [h1], Or.inr ⟨by rw [h1], by simpa using h2⟩, h3, h4⟩

theorem setOpState_st (st : OpState) (s : State) : StKeeps s (setOpState st s) :=
  ⟨rfl, Or.inl ⟨rfl, rfl⟩, rfl, LocksStep.of_eq rfl⟩

theorem setLastStatus_st (v : Word) (s : State) : StKeeps s (setLastStatus v s) :=
  ⟨rfl, Or.inl ⟨rfl, rfl⟩, rfl, LocksStep.of_eq rfl⟩

theorem runIf_st (b : Bool) {f : State → State} (h : ∀ s, StKeeps s (f s)) (s : State) : StKeeps s (runIf b f s) := by
  cases b
  · exact StKeeps.refl s
  · exact h s

theorem lecDecOp_rx (lec : BitVec 3) (s : State) : RxKeeps s (lecDecOp lec s) := by
  unfold lecDecOp
  split
  · exact (deliver_rx _ _).trans (writeReg_block _ _ _).rx
  · exact RxKeeps.refl s

theorem clearOkFlags_block (cur : Word) (s : State) : KeepsBlock s (clearOkFlags cur s) := by
  unfold clearOkFlags runIf
  split
  · exact writeReg_block _ _ _
  · exact KeepsBlock.refl s

theorem statusEdges_st (cur old : Word) (s : State) : StKeeps s (statusEdges cur old s) :=
  ((((runIf_st _ (stEnterOp_st .warning) s).trans (runIf_st _ (stEnterOp_st .passive) _)).trans
    (runIf_st _ (stEnterOp_st .busOff) _)).trans (runIf_st _ (setOpState_st .errorActive) _)).trans
    (runIf_st _ (setOpState_st .errorActive) _)

/-- The state, the counter and the host's count after the edge tests, in any environment (rules R190 to R194). -/
theorem statusEdges_spec (cur old : Word) (s : State) :
    (statusEdges cur old s).h =
        { s.h with
          state := edgeState cur old s.h.state
          tac := if rising cur old stBoff then none else s.h.tac } ∧
      (statusEdges cur old s).held = if rising cur old stBoff then 0 else s.held := by
  have e1 := fun t => (stEnterOp_spec .warning t).1
  have e2 := fun t => (stEnterOp_spec .passive t).1
  have e3 := fun t => (stEnterOp_spec .busOff t).1
  have f1 := fun t => (stEnterOp_spec .warning t).2.1
  have f2 := fun t => (stEnterOp_spec .passive t).2.1
  have f3 := fun t => (stEnterOp_spec .busOff t).2.1
  unfold statusEdges edgeState
  generalize rising cur old stEwarn = b1
  generalize rising cur old stEpass = b2
  generalize rising cur old stBoff = b3
  generalize falling cur old stBoff = b4
  generalize falling cur old stEpass = b5
  cases b1 <;> cases b2 <;> cases b3 <;> cases b4 <;> cases b5 <;>
    simp [runIf, e1, e2, e3, f1, f2, f3]

theorem stChgOp_st (s : State) : StKeeps s (stChgOp s) := by
  have h1 := ((readReg_block .sts s).trans (clearOkFlags_block (readReg .sts s).1 (readReg .sts s).2)).rx.st
  exact ((h1.trans (statusEdges_st _ _ _)).trans (setLastStatus_st _ _)).trans (lecDecOp_rx _ _).st

/-! A pass. -/

/-- What a branch of a pass may do to the block's own state (rule R187). -/
structure BranchKeeps (s t : State) : Prop where
  handle : t.h = { s.h with state := t.h.state, lastStatus := t.h.lastStatus, txEcho := t.h.txEcho, tac := t.h.tac }
  result : t.result = s.result
  locks : LocksStep s t

theorem passBranch_keeps (v : Word) (s : State) : BranchKeeps s (passBranch v s) := by
  unfold passBranch
  split
  · have h := stChgOp_st s
    exact ⟨by rw [h.handle], h.result, h.locks⟩
  · split
    · have h := rxDrainOp_rx s
      exact ⟨by rw [h.handle], h.result, h.locks⟩
    · split
      · have h := txDrainOp_tx s
        have k := loopbackOp_rx (txDrainOp s)
        refine ⟨by rw [k.handle, h.handle], k.result.trans h.result, ?_⟩
        exact LocksStep.trans (by rw [h.handle]) (LocksStep.of_eq h.globals) k.locks
      · exact ⟨rfl, rfl, LocksStep.of_eq rfl⟩

/-- Entry of a pass: the lock is taken and the phase is `Locked` (rule R226). -/
theorem enterPass_spec (s : State) :
    (enterPass s).h = { s.h with phase := .locked, lock := .pass } ∧ (enterPass s).g = s.g ∧
      (enterPass s).held = s.held ∧ (enterPass s).result = s.result := by
  simp [enterPass, acquire, withLock]

/-- Exit of a pass: the locks it took are free again and the phase is `Idle` (rules R185, R186, R227). -/
theorem exitPass_spec (s : State) :
    (exitPass s).h = { s.h with phase := .idle, lock := .free } ∧
      (exitPass s).g = (if s.g.dispatch = .pass then ⟨.free, .free⟩ else s.g) ∧
      (exitPass s).held = s.held ∧ (exitPass s).result = s.result := by
  unfold exitPass releaseDeliveryLocks
  by_cases hd : s.g.dispatch = .pass <;> by_cases hb : s.h.state = .busOff <;>
    simp [hd, hb, release, withLock]

end Sys2Proof.Machine
end

