-- ==== Sys2Proof/Laws/Modes.lean ====
section
/-! SUPPORT. What the bit-timing configurator and the mode controller can do (46_bit_timing.md, 47_mode_controller.md). -/

namespace Sys2Proof.Machine

/-! Any environment. -/

theorem btApplyOp_block (b : BitTiming) (s : State) : KeepsBlock s (btApplyOp b s) :=
  ((((readReg_block _ _).trans (writeReg_block _ _ _)).trans (writeReg_block _ _ _)).trans
    (writeReg_block _ _ _)).trans (writeReg_block _ _ _)

theorem enterInit_block (s : State) : KeepsBlock s (enterInit s) := by
  unfold enterInit
  split
  · exact writeReg_block _ _ _
  · exact (writeReg_block _ _ _).trans (writeReg_block _ _ _)

theorem leaveInit_block (s : State) : KeepsBlock s (leaveInit s) :=
  (readReg_block _ _).trans (writeReg_block _ _ _)

theorem chipCfgOp_block (b : BitTiming) (s : State) : KeepsBlock s (chipCfgOp b s) := by
  have h1 := enterInit_block s
  have h2 : KeepsBlock (enterInit s) (configurePool Config.defaultPort (enterInit s)) := by
    rw [configurePool_eq]; exact runPuts_block _ _ _
  exact (((h1.trans h2).trans (writeReg_block _ _ _)).trans (btApplyOp_block b _)).trans (leaveInit_block _)

/-- What `CHIPCFG` applies is the cached timing where there is one (rule R213); taking it changes nothing but the count of
free values. -/
theorem timingToApply_spec (s : State) :
    (∀ b, s.h.btCache = some b → timingToApply s = (b, s)) ∧
      ((timingToApply s).2 = s ∨ (timingToApply s).2 = countDraw s) := by
  unfold timingToApply
  cases s.h.btCache <;> simp

theorem timingToApply_block (s : State) : KeepsBlock s (timingToApply s).2 := by
  rcases (timingToApply_spec s).2 with h | h <;> simp [KeepsBlock, h]

theorem ramInit_block (s : State) : KeepsBlock s (ramInit s) := by
  simp [KeepsBlock, ramInit]

theorem ieAll_block (e : Bool) (s : State) : KeepsBlock s (ieAll e s) := by simp [KeepsBlock]

/-- The registration of the handler changes `irq_registered` alone, and only when it succeeds (rules R211, R212). -/
theorem registerHandler_spec (s : State) :
    (registerHandler s).2.h = { s.h with irqRegistered := (registerHandler s).1 || s.h.irqRegistered } ∧
      (registerHandler s).2.g = s.g ∧ (registerHandler s).2.held = s.held ∧
      (registerHandler s).2.result = s.result ∧ (registerHandler s).2.dev = s.dev := by
  have hd : ∀ t, (drawReply t).2.dev = t.dev := by
    intro t; unfold drawReply; split
    · rfl
    · split <;> rfl
  unfold registerHandler
  by_cases hr : s.h.irqRegistered
  · simp only [hr, if_true, Bool.true_or]
    refine ⟨?_, trivial, trivial, trivial, trivial⟩
    cases hh : s.h; simp_all
  · have h := drawReply_block (emit (.irqRegister s.h.irqLine) s)
    have k := hd (emit (.irqRegister s.h.irqLine) s)
    simp only [hr, Bool.false_eq_true, if_false, Bool.or_false]
    generalize drawReply (emit (.irqRegister s.h.irqLine) s) = r at h k ⊢
    obtain ⟨h1, h2, h3, h4⟩ := h
    cases hb : r.1 with
    | true => simp [h1, h2, h3, h4, k]
    | false =>
      have : s.h.irqRegistered = false := by simpa using hr
      simp only [Bool.false_eq_true, if_false]
      refine ⟨?_, h2, h3, h4, k⟩
      rw [h1]; simp only [emit_h]; rw [← this]

/-- `STOP` while operating (rule R215). -/
theorem stopOp_operating {s : State} (h : operating s.h = true) :
    (stopOp s).h = { s.h with state := .stopped, tac := none, irqRegistered := false } ∧
      (stopOp s).g = s.g ∧ (stopOp s).held = 0 ∧ (stopOp s).dev = (ieAll false s).dev ∧
      (stopOp s).trace = (ieAll false s).trace ++
        [.effect .tacAbandonAll, .effect (.irqDeregister s.h.irqLine)] := by
  simp [stopOp, h, tacAbandon]

/-- `START` with a cached timing while not operating, when the handler is or becomes registered (rule R211). -/
theorem startWith_registered {s : State} (b : BitTiming) (h : (registerHandler s).1 = true) :
    (startWith b s).h = startHandle { s.h with irqRegistered := true } ∧ (startWith b s).g = s.g ∧
      (startWith b s).held = 0 ∧ (startWith b s).result = .ok := by
  obtain ⟨h1, h2, h3, h4, -⟩ := registerHandler_spec s
  have k := (ramInit_block (registerHandler s).2).trans (chipCfgOp_block b (ramInit (registerHandler s).2))
  simp only [h, Bool.true_or] at h1
  simp [startWith, h, k.1, k.2.1, h1, h2]

/-- `START` when the registration fails (rule R212 (a)). -/
theorem startWith_unavailable {s : State} (b : BitTiming) (h : (registerHandler s).1 = false) :
    (startWith b s).h = s.h ∧ (startWith b s).g = s.g ∧ (startWith b s).held = s.held ∧
      (startWith b s).dev = s.dev ∧ (startWith b s).result = .resourceUnavailable := by
  obtain ⟨h1, h2, h3, h4, h5⟩ := registerHandler_spec s
  simp only [h, Bool.false_or] at h1
  simp [startWith, h, h1, h2, h3, h5]

/-! Nothing interleaved, no time-out. -/

/-- With INIT set, setting CCE opens the timing registers (rule R66). -/
theorem timingOpen_cce {c : Word} (h : hasAny c ctInit = true) {d : Device} (hd : d.ctrl = c ||| ctCce) :
    timingOpen d = true := by
  have h1 : (c ||| ctCce) &&& ctCce = ctCce := by
    apply BitVec.eq_of_getLsbD_eq
    intro i _
    simp only [BitVec.getLsbD_and, BitVec.getLsbD_or]
    cases c.getLsbD i <;> cases ctCce.getLsbD i <;> rfl
  have h2 : (c ||| ctCce) &&& ctInit = c &&& ctInit := by
    rw [BitVec.and_comm, BitVec.and_or_distrib_left, show ctInit &&& ctCce = 0 by decide, BitVec.and_comm]
    exact BitVec.or_zero
  unfold timingOpen hasAny at *
  rw [hd, h1, h2, h]
  decide

/-- `BTAPPLY` in initialization mode (rule R202). -/
theorem btApplyOp_moves {s : State} (h : Still s.env) (hi : hasAny s.dev.ctrl ctInit = true) (b : BitTiming) :
    Moves s (btApplyOp b s) { s.dev with btr := btrOf b, brpext := brpextOf b }
      [.read .ctrl s.dev.ctrl, .write .ctrl (s.dev.ctrl ||| ctCce), .write .btr (btrOf b),
        .write .brpext (brpextOf b), .write .ctrl s.dev.ctrl] := by
  obtain ⟨v, m1⟩ := readReg_moves h (r := .ctrl) rfl
  have ho : ∀ d : Device, d.ctrl = s.dev.ctrl ||| ctCce → timingOpen d = true :=
    fun d hd => timingOpen_cce hi hd
  have m2 := writeReg_moves (m1.env.still h) .ctrl ((readReg .ctrl s).1 ||| ctCce)
  have m12 := m1.trans m2
  have m3 := writeReg_moves (m12.env.still h) .btr (btrOf b)
  have m13 := m12.trans m3
  have m4 := writeReg_moves (m13.env.still h) .brpext (brpextOf b)
  have m14 := m13.trans m4
  have m5 := writeReg_moves (m14.env.still h) .ctrl (readReg .ctrl s).1
  have m := m14.trans m5
  have hv : regValue s.dev .ctrl = s.dev.ctrl := rfl
  have e : Moves s (btApplyOp b s) _ _ := m
  refine ⟨e.block, ?_, ?_, e.env⟩
  · rw [e.dev, m14.dev, m13.dev, m12.dev, m1.dev, v, hv]
    simp [writeEffect, timingWrite, ho]
  · rw [e.trace, v, hv]; rfl

/-- The test-mode bit of the first write of `CHIPCFG` (rules R213, R214). -/
def testFlag (m : TestMode) : Word := if m = .none then 0 else ctTest

/-- Entry to initialization mode (rules R213, R214). -/
theorem enterInit_moves {s : State} (h : Still s.env) :
    Moves s (enterInit s)
      { s.dev with
        ctrl := ctInit ||| testFlag s.h.testMode
        test := if s.h.testMode = .none then s.dev.test else testBits s.h.testMode }
      (if s.h.testMode = .none then [.write .ctrl ctInit]
        else [.write .ctrl (ctInit ||| ctTest), .write .test (testBits s.h.testMode)]) := by
  unfold enterInit testFlag
  by_cases ht : s.h.testMode = .none
  · simp only [ht, beq_self_eq_true, if_true]
    exact writeReg_moves h .ctrl ctInit
  · have hb : (s.h.testMode == .none) = false := by simpa using ht
    simp only [hb, Bool.false_eq_true, if_false, ht]
    have m1 := writeReg_moves h .ctrl (ctInit ||| ctTest)
    have m2 := writeReg_moves (m1.env.still h) .test (testBits s.h.testMode)
    rw [m1.dev] at m2
    exact m1.trans m2

/-- Exit from initialization mode (rule R213). -/
theorem leaveInit_moves {s : State} (h : Still s.env) :
    Moves s (leaveInit s) { s.dev with ctrl := clearBits s.dev.ctrl ctInit }
      [.read .ctrl s.dev.ctrl, .write .ctrl (clearBits s.dev.ctrl ctInit)] := by
  obtain ⟨v, m1⟩ := readReg_moves h (r := .ctrl) rfl
  have m2 := writeReg_moves (m1.env.still h) .ctrl (clearBits (readReg .ctrl s).1 ctInit)
  have hv : regValue s.dev .ctrl = s.dev.ctrl := rfl
  rw [v, hv, m1.dev] at m2
  have e := m1.trans m2
  dsimp only [leaveInit]
  rw [v, hv]
  exact ⟨e.block, e.dev, e.trace, e.env⟩

/-- The register writes of `CHIPCFG`, in order (rule R213). -/
def chipCfgWrites (m : TestMode) (b : BitTiming) : List (Reg × Word) :=
  (if m = .none then [(Reg.ctrl, ctInit)] else [(.ctrl, ctInit ||| ctTest), (.test, testBits m)]) ++
    poolSteps.flatMap (putWrites Config.defaultPort) ++
    [(.sts, 7#16), (.ctrl, ctInit ||| testFlag m ||| ctCce), (.btr, btrOf b), (.brpext, brpextOf b),
      (.ctrl, ctInit ||| testFlag m), (.ctrl, testFlag m)]

theorem poolSteps_plain : Plain poolSteps := by
  intro x hx y hy
  simp only [poolSteps, List.mem_append, invalSteps, rxcfgSteps, List.mem_map] at hx
  rcases hx with (⟨sl, -, rfl⟩ | ⟨sl, -, rfl⟩) | ⟨sl, -, rfl⟩ <;>
    (simp at hy; rcases hy with rfl | rfl | rfl | rfl | rfl <;> simp)

/-- A *put* does not look at `CTRL` or `TEST`. -/
theorem putAll_ctrl_test (p : PortId) (l : List PutStep) (d : Device) (c v : Word) :
    putAll p l { d with ctrl := c, test := v } = { putAll p l d with ctrl := c, test := v } := by
  induction l generalizing d with
  | nil => rfl
  | cons x l ih =>
    have : putFrom p x.1 x.2.1 x.2.2 { d with ctrl := c, test := v } =
        { putFrom p x.1 x.2.1 x.2.2 d with ctrl := c, test := v } := by cases p <;> rfl
    rw [putAll, this, ih]; rfl

theorem testFlag_clear (m : TestMode) : clearBits (ctInit ||| testFlag m) ctInit = testFlag m := by
  cases m <;> decide

theorem testFlag_init (m : TestMode) : hasAny (ctInit ||| testFlag m) ctInit = true := by
  cases m <;> decide

/-- `CHIPCFG` with no time-out and nothing interleaved (rule R213). -/
theorem chipCfgOp_exact {s : State} (h : Prompt s.env) (hp : PortIdle s.dev .if0) (b : BitTiming) :
    ∃ ev, Moves s (chipCfgOp b s)
        { putAll .if0 poolSteps s.dev with
          ctrl := testFlag s.h.testMode
          test := if s.h.testMode = .none then s.dev.test else testBits s.h.testMode
          sts := clearBits s.dev.sts stWritable ||| 7#16
          btr := btrOf b
          brpext := brpextOf b } ev ∧
      OnlyWrites ev (chipCfgWrites s.h.testMode b) ∧ PortIdle (putAll .if0 poolSteps s.dev) .if0 := by
  have m1 := enterInit_moves h.1
  have hp1 : PortIdle (enterInit s).dev Config.defaultPort := by rw [m1.dev]; exact hp
  obtain ⟨ev, m2, hw, hi⟩ := runPuts_exact (m1.prompt h) hp1 poolSteps poolSteps_plain
  have m12 := m1.trans m2
  rw [m1.dev, putAll_ctrl_test] at m12
  have m3 := writeReg_moves (m12.env.still h.1) .sts (Config.lecUnused.setWidth 16)
  have m13 := m12.trans m3
  rw [m12.dev] at m13
  have m4 := btApplyOp_moves (m13.env.still h.1) (by rw [m13.dev]; exact testFlag_init _) b
  have m14 := m13.trans m4
  rw [m13.dev] at m14
  have m5 := leaveInit_moves (m14.env.still h.1)
  have m15 := m14.trans m5
  rw [m14.dev] at m15
  rw [chipCfgOp, configurePool_eq]
  have hidle : PortIdle (putAll .if0 poolSteps s.dev) .if0 := by
    rw [m1.dev, putAll_ctrl_test] at hi; exact hi
  have hsts : (putAll .if0 poolSteps s.dev).sts = s.dev.sts := (putAll_globals .if0 poolSteps s.dev).2.1
  refine ⟨_, ⟨m15.block, ?_, m15.trace, m15.env⟩, ?_, hidle⟩
  · rw [m15.dev]
    simp only [writeEffect, testFlag_clear, Config.defaultPort, hsts]
    rfl
  · have e1 : OnlyWrites (if s.h.testMode = .none then [Event.write .ctrl ctInit]
        else [.write .ctrl (ctInit ||| ctTest), .write .test (testBits s.h.testMode)])
        (if s.h.testMode = .none then [(Reg.ctrl, ctInit)]
          else [(.ctrl, ctInit ||| ctTest), (.test, testBits s.h.testMode)]) := by
      split <;> exact ⟨rfl, by simp [effectsOf]⟩
    have e2 : ∀ c : Word, OnlyWrites [Event.read .ctrl c, .write .ctrl (c ||| ctCce), .write .btr (btrOf b),
        .write .brpext (brpextOf b), .write .ctrl c]
        [(.ctrl, c ||| ctCce), (.btr, btrOf b), (.brpext, brpextOf b), (.ctrl, c)] :=
      fun c => ⟨rfl, by simp [effectsOf]⟩
    have e3 : ∀ c : Word, OnlyWrites [Event.read .ctrl c, .write .ctrl (clearBits c ctInit)]
        [(.ctrl, clearBits c ctInit)] := fun c => ⟨rfl, by simp [effectsOf]⟩
    have e4 : OnlyWrites [Event.write .sts (Config.lecUnused.setWidth 16)] [(.sts, 7#16)] :=
      ⟨rfl, by simp [effectsOf]⟩
    have e := (((e1.append hw).append e4).append (e2 (ctInit ||| testFlag s.h.testMode))).append
      (e3 (ctInit ||| testFlag s.h.testMode))
    rw [testFlag_clear] at e
    convert e using 1
    · simp only [writeEffect, testFlag_clear]
    · simp only [chipCfgWrites, List.append_assoc, List.cons_append, List.nil_append, Config.defaultPort]

end Sys2Proof.Machine
end

