-- ==== Sys2Proof/Laws/PerInstr.lean ====
section
/-! SUPPORT. Statements made per constructor of `Instr`, about the instruction as syntax: the operation code of rule
R120 stands in bits 127:120 of its command word, and an interrupt-status class has none (rules R105, R118). -/

namespace Sys2Proof.Laws.CodeAssigned

open Sys2Proof

/-- The operation code of each operation (rule R120). -/
def code : Instr → Option (BitVec 8)
  | .regrd _ => some 0x10
  | .regwr _ _ => some 0x11
  | .regrd32 _ => some 0x12
  | .get _ _ _ => some 0x20
  | .put _ _ _ => some 0x21
  | .encode _ => some 0x30
  | .decode _ => some 0x31
  | .inval _ _ => some 0x40
  | .rxcfg _ _ _ _ _ => some 0x41
  | .txsubmit _ => some 0x42
  | .txdrain => some 0x43
  | .rxdrain => some 0x44
  | .rxlost _ _ _ => some 0x45
  | .rxmark _ _ _ => some 0x46
  | .rxact _ _ _ => some 0x47
  | .rxactlow _ _ => some 0x48
  | .irq => some 0x50
  | .ieall _ => some 0x51
  | .stchg => some 0x60
  | .stenter _ => some 0x61
  | .lecdec _ => some 0x62
  | .btcalc _ => some 0x70
  | .btapply _ => some 0x71
  | .cfgbt _ => some 0x72
  | .btdecode _ _ => some 0x73
  | .start => some 0x80
  | .stop => some 0x81
  | .chipcfg => some 0x82
  | .tacacq => some 0x90
  | .tacrel => some 0x91
  | .tacabandon => some 0x92
  | .intNone => none
  | .intStatus => none
  | .intRxobj _ => none
  | .intTxobj _ => none
  | .intOther _ => none

/-- The encoding has the operation's code in its place. -/
def Statement (i : Instr) : Prop :=
  match encode i with
  | .cmd w => code i = some (opcodeOf w)
  | .int _ => code i = none

/-- No bit at or above the operation code. -/
def Low (w : CmdWord) : Prop := ∀ k, 120 ≤ k → w.getLsbD k = false

theorem low_zero : Low 0 := fun _ _ => by simp

theorem low_or {a b : CmdWord} (ha : Low a) (hb : Low b) : Low (a ||| b) := fun k hk => by
  simp [ha k hk, hb k hk]

theorem low_place {n : Nat} (v : BitVec n) (lsb : Nat) (h : n + lsb ≤ 120) : Low (place v lsb) := fun k hk => by
  have : v.getLsbD (k - lsb) = false := BitVec.getLsbD_of_ge _ _ (by omega)
  simp [place, this]

/-- The code over fields that stay below it is the code (rule R118). -/
theorem opcodeOf_withCode (c : BitVec 8) {w : CmdWord} (h : Low w) : opcodeOf (withCode c w) = c := by
  apply BitVec.eq_of_getLsbD_eq
  intro i hi
  have h1 : w.getLsbD (120 + i) = false := h _ (by omega)
  have h2 : ¬120 + i < 120 := by omega
  have h3 : 120 + i < 128 := by omega
  have h4 : i < 128 := by omega
  simp only [opcodeOf, withCode, place, BitVec.getLsbD_extractLsb', hi, decide_true, Bool.true_and,
    BitVec.getLsbD_or, h1, Bool.or_false, BitVec.getLsbD_shiftLeft, h2, h3, h4, decide_false, Bool.not_false,
    Nat.add_sub_cancel_left, BitVec.getLsbD_setWidth]

theorem low_frame (f : Frame) : Low f.fields :=
  low_or (low_or (low_or (low_or (low_place _ _ (by decide)) (low_place _ _ (by decide)))
    (low_place _ _ (by decide))) (low_place _ _ (by decide))) (low_place _ _ (by decide))

theorem low_timing (b : BitTiming) : Low b.fields :=
  low_or (low_or (low_or (low_place _ _ (by decide)) (low_place _ _ (by decide))) (low_place _ _ (by decide)))
    (low_place _ _ (by decide))

theorem low_slot (p : PortId) (s : BitVec 6) : Low (slotFields p s) :=
  low_or (low_place _ _ (by decide)) (low_place _ _ (by decide))

/-- A command word's code, once its fields are known to stay low. -/
theorem of_low {i : Instr} {c : BitVec 8} {w : CmdWord} (he : encode i = .cmd (withCode c w))
    (hc : code i = some c) (h : Low w) : Statement i := by
  simp only [Statement, he, hc, opcodeOf_withCode c h]

theorem regrd (r : BitVec 6) : Statement (.regrd r) := of_low rfl rfl (low_place _ _ (by decide))
theorem regwr (r : BitVec 6) (v : Word) : Statement (.regwr r v) :=
  of_low rfl rfl (low_or (low_place _ _ (by decide)) (low_place _ _ (by decide)))
theorem regrd32 (r : BitVec 6) : Statement (.regrd32 r) := of_low rfl rfl (low_place _ _ (by decide))
theorem get (p : PortId) (s : BitVec 6) (m : BitVec 8) : Statement (.get p s m) :=
  of_low rfl rfl (low_or (low_place _ _ (by decide)) (low_slot p s))
theorem put (p : PortId) (s : BitVec 6) (m : BitVec 8) : Statement (.put p s m) :=
  of_low rfl rfl (low_or (low_place _ _ (by decide)) (low_slot p s))
theorem encode (f : Frame) : Statement (.encode f) := of_low rfl rfl (low_frame f)
theorem decode (p : PortId) : Statement (.decode p) := of_low rfl rfl (low_place _ _ (by decide))
theorem inval (p : PortId) (s : BitVec 6) : Statement (.inval p s) := of_low rfl rfl (low_slot p s)
theorem rxcfg (p : PortId) (s : BitVec 6) (mask idw : Word32) (mcont : Word) : Statement (.rxcfg p s mask idw mcont) :=
  of_low rfl rfl (low_or (low_or (low_or (low_or (low_place _ _ (by decide)) (low_place _ _ (by decide))) (low_place _ _ (by decide))) (low_place _ _ (by decide))) (low_place _ _ (by decide)))
theorem txsubmit (f : Frame) : Statement (.txsubmit f) := of_low rfl rfl (low_frame f)
theorem txdrain : Statement (.txdrain) := of_low rfl rfl low_zero
theorem rxdrain : Statement (.rxdrain) := of_low rfl rfl low_zero
theorem rxlost (p : PortId) (s : BitVec 6) (c : Word) : Statement (.rxlost p s c) :=
  of_low rfl rfl (low_or (low_slot p s) (low_place _ _ (by decide)))
theorem rxmark (p : PortId) (s : BitVec 6) (c : Word) : Statement (.rxmark p s c) :=
  of_low rfl rfl (low_or (low_slot p s) (low_place _ _ (by decide)))
theorem rxact (p : PortId) (s : BitVec 6) (c : Word) : Statement (.rxact p s c) :=
  of_low rfl rfl (low_or (low_slot p s) (low_place _ _ (by decide)))
theorem rxactlow (p : PortId) (c : Word) : Statement (.rxactlow p c) :=
  of_low rfl rfl (low_or (low_place _ _ (by decide)) (low_place _ _ (by decide)))
theorem irq : Statement (.irq) := of_low rfl rfl low_zero
theorem ieall (e : Bool) : Statement (.ieall e) := of_low rfl rfl (low_place _ _ (by decide))
theorem stchg : Statement (.stchg) := of_low rfl rfl low_zero
theorem stenter (t : BitVec 2) : Statement (.stenter t) := of_low rfl rfl (low_place _ _ (by decide))
theorem lecdec (l : BitVec 3) : Statement (.lecdec l) := of_low rfl rfl (low_place _ _ (by decide))
theorem btcalc (b : BitTiming) : Statement (.btcalc b) := of_low rfl rfl (low_timing b)
theorem btapply (b : BitTiming) : Statement (.btapply b) := of_low rfl rfl (low_timing b)
theorem cfgbt (b : BitTiming) : Statement (.cfgbt b) := of_low rfl rfl (low_timing b)
theorem btdecode (btr brpext : Word) : Statement (.btdecode btr brpext) :=
  of_low rfl rfl (low_or (low_place _ _ (by decide)) (low_place _ _ (by decide)))
theorem start : Statement (.start) := of_low rfl rfl low_zero
theorem stop : Statement (.stop) := of_low rfl rfl low_zero
theorem chipcfg : Statement (.chipcfg) := of_low rfl rfl low_zero
theorem tacacq : Statement (.tacacq) := of_low rfl rfl low_zero
theorem tacrel : Statement (.tacrel) := of_low rfl rfl low_zero
theorem tacabandon : Statement (.tacabandon) := of_low rfl rfl low_zero
theorem intNone : Statement (.intNone) := rfl
theorem intStatus : Statement (.intStatus) := rfl
theorem intRxobj (slot : BitVec 6) : Statement (.intRxobj slot) := rfl
theorem intTxobj (slot : BitVec 6) : Statement (.intTxobj slot) := rfl
theorem intOther (v : Word) : Statement (.intOther v) := rfl

end Sys2Proof.Laws.CodeAssigned
end

