-- ==== Sys2Proof/Tests/Slice0.lean ====
section
/-! SUPPORT. Tests: ill-formed terms, words written out from the spec's encodings, single steps from the spec's worked
vectors (95_test_vectors.md), and for every obligation with hypotheses a state and operands that meet them. -/

set_option Elab.async false

namespace Sys2Proof.Tests

open Sys2Proof.Machine

/-! Well-formedness: an ill-formed term for each check (95_test_vectors.md T1, T2, T6, T7 and rule R111). -/

theorem test_wf_registers :
    Instr.WellFormed (.regrd 37) = false ∧ Instr.WellFormed (.regrd 36) = true ∧
    Instr.WellFormed (.regwr 63 0) = false ∧
    Instr.WellFormed (.regrd32 30) = false ∧ Instr.WellFormed (.regrd32 35) = true := by decide

theorem test_wf_slots :
    Instr.WellFormed (.get .if0 0 0x73) = false ∧ Instr.WellFormed (.get .if0 33 0x73) = false ∧
    Instr.WellFormed (.get .if0 5 0x80) = false ∧ Instr.WellFormed (.put .if0 32 0x08) = false ∧
    Instr.WellFormed (.put .if0 33 0x10) = false ∧ Instr.WellFormed (.put .if1 32 0x77) = true ∧
    Instr.WellFormed (.inval .if0 0) = false ∧ Instr.WellFormed (.inval .if0 32) = true := by decide

theorem test_wf_receive :
    Instr.WellFormed (.rxcfg .if0 16 0 0 0) = false ∧ Instr.WellFormed (.rxcfg .if0 15 0 0 0) = true ∧
    Instr.WellFormed (.rxlost .if0 16 0) = false ∧ Instr.WellFormed (.rxmark .if0 9 0) = false ∧
    Instr.WellFormed (.rxmark .if0 8 0) = true ∧ Instr.WellFormed (.rxact .if0 9 0) = false ∧
    Instr.WellFormed (.rxact .if0 10 0) = true := by decide

theorem test_wf_timing :
    Instr.WellFormed (.cfgbt ⟨0, 8, 4, 10⟩) = false ∧ Instr.WellFormed (.cfgbt ⟨5, 8, 4, 10⟩) = false ∧
    Instr.WellFormed (.btcalc ⟨2, 1, 4, 10⟩) = false ∧ Instr.WellFormed (.btcalc ⟨2, 17, 4, 10⟩) = false ∧
    Instr.WellFormed (.btapply ⟨2, 8, 0, 10⟩) = false ∧ Instr.WellFormed (.btapply ⟨2, 8, 9, 10⟩) = false ∧
    Instr.WellFormed (.cfgbt ⟨2, 8, 4, 0⟩) = false ∧ Instr.WellFormed (.cfgbt ⟨2, 8, 4, 1025⟩) = false ∧
    Instr.WellFormed (.cfgbt ⟨4, 16, 8, 1024⟩) = true := by decide

theorem test_wf_classes :
    Instr.WellFormed (.stenter 3) = false ∧ Instr.WellFormed (.intRxobj 16) = false ∧
    Instr.WellFormed (.intTxobj 15) = false ∧ Instr.WellFormed (.intOther 0) = false ∧
    Instr.WellFormed (.intOther 0x8000) = false ∧ Instr.WellFormed (.intOther 9) = false ∧
    Instr.WellFormed (.intOther 31) = false ∧ Instr.WellFormed (.intOther 32) = true := by decide

/-- The constraints that rule R7 puts on the parameters. -/
theorem test_parameters :
    Config.rxFirst = 1 ∧ Config.rxFirst ≤ Config.rxLowLast ∧ Config.rxLowLast < Config.rxSplit ∧
    Config.rxSplit ≤ Config.rxLast ∧ Config.rxLast < Config.txFirst ∧ Config.txLast ≤ Config.nObj ∧
    Config.txNum = 16 ∧ [PortId.if0, PortId.if1].length = Config.nPorts := by decide

/-! Decoding: a word of each operation, written out from the formats of rules R118 to R120. -/

/-- T1 of 95_test_vectors.md. -/
theorem test_decode_register_access :
    decodeCmd 0x10000000000000000000000000010000 = .ok (.regrd 1) ∧
    decodeCmd 0x110000000000000000000000000800F3 = .ok (.regwr 8 0x00F3) ∧
    decodeCmd 0x120000000000000000000000001D0000 = .ok (.regrd32 29) := by decide

/-- T2. -/
theorem test_decode_transactor :
    decodeCmd 0x20000000000000000000000000000573 = .ok (.get .if0 5 0x73) ∧
    decodeCmd 0x21000000000000000000000000001030 = .ok (.put .if0 16 0x30) ∧
    decodeCmd 0x21000000000000000000000000006010 = .ok (.put .if1 32 0x10) := by decide

/-- T3.2, and `DECODE` of port 1 (format `P`). -/
theorem test_decode_codec :
    decodeCmd 0x300000043ABCDEF00807060504030201 =
      .ok (.encode ⟨0x1ABCDEF0, true, false, 8, #v[1, 2, 3, 4, 5, 6, 7, 8]⟩) ∧
    decodeCmd 0x31000000000000000000000000004000 = .ok (.decode .if1) := by decide

/-- T4. -/
theorem test_decode_pool :
    decodeCmd 0x40000000000000000000000000001000 = .ok (.inval .if0 16) ∧
    decodeCmd 0x41000000000F14800000000000000000 = .ok (.rxcfg .if0 15 0 0 0x1480) ∧
    decodeCmd 0x4200000100000123000000000000BBAA =
      .ok (.txsubmit ⟨0x123, false, false, 2, #v[0xAA, 0xBB, 0, 0, 0, 0, 0, 0]⟩) ∧
    decodeCmd 0x43000000000000000000000000000000 = .ok .txdrain ∧
    decodeCmd 0x44000000000000000000000000000000 = .ok .rxdrain ∧
    decodeCmd 0x450000000000000000000000F4030500 = .ok (.rxlost .if0 5 0xF403) ∧
    decodeCmd 0x460000000000000000000000B4010300 = .ok (.rxmark .if0 3 0xB401) ∧
    decodeCmd 0x470000000000000000000000B4080C00 = .ok (.rxact .if0 12 0xB408) ∧
    decodeCmd 0x480000000000000000000000B4020000 = .ok (.rxactlow .if0 0xB402) := by decide

/-- Every operand field of format `C` in its place: port 1, slot 5, a control word, an identifier word, a mask. -/
theorem test_decode_rxcfg_fields :
    decodeCmd 0x41000000004514008BCDEF0112345678 = .ok (.rxcfg .if1 5 0x12345678 0x8BCDEF01 0x1400) := by decide

/-- T6, T9, T10. -/
theorem test_decode_pipeline_and_bus :
    decodeCmd 0x50000000000000000000000000000000 = .ok .irq ∧
    decodeCmd 0x51000000000000000000000000000001 = .ok (.ieall true) ∧
    decodeCmd 0x60000000000000000000000000000000 = .ok .stchg ∧
    decodeCmd 0x61000000000000000000000000000002 = .ok (.stenter 2) ∧
    decodeCmd 0x62000000000000000000000000000003 = .ok (.lecdec 3) := by decide

/-- T7. -/
theorem test_decode_bit_timing :
    decodeCmd 0x7000000000000000000000000022100A = .ok (.btcalc ⟨2, 8, 4, 10⟩) ∧
    decodeCmd 0x7100000000000000000000000022100A = .ok (.btapply ⟨2, 8, 4, 10⟩) ∧
    decodeCmd 0x72000000000000000000000000442400 = .ok (.cfgbt ⟨4, 16, 8, 1024⟩) ∧
    decodeCmd 0x730000000000000000000000000F7FFF = .ok (.btdecode 0x7FFF 0x000F) := by decide

/-- T10 and rule R120. -/
theorem test_decode_mode_and_admission :
    decodeCmd 0x80000000000000000000000000000000 = .ok .start ∧
    decodeCmd 0x81000000000000000000000000000000 = .ok .stop ∧
    decodeCmd 0x82000000000000000000000000000000 = .ok .chipcfg ∧
    decodeCmd 0x90000000000000000000000000000000 = .ok .tacacq ∧
    decodeCmd 0x91000000000000000000000000000000 = .ok .tacrel ∧
    decodeCmd 0x92000000000000000000000000000000 = .ok .tacabandon := by decide

/-- T10: a reserved bit, and a code that is not assigned. -/
theorem test_decode_illegal :
    decodeCmd 0x80000000000000000000000000000001 = .error .reservedBit ∧
    decodeCmd 0x13000000000000000000000000000000 = .error (.illegalCode 0x13) ∧
    decodeCmd 0x10000000000000000000000000010001 = .error .reservedBit ∧
    decodeCmd 0x20000000000000000000000000008573 = .error .reservedBit := by decide

/-- The table at the head of T5. -/
theorem test_decode_int :
    decodeInt 0x0000 = .intNone ∧ decodeInt 0x0001 = .intRxobj 1 ∧ decodeInt 0x0009 = .intRxobj 9 ∧
    decodeInt 0x000F = .intRxobj 15 ∧ decodeInt 0x8000 = .intStatus ∧ decodeInt 0x0010 = .intTxobj 16 ∧
    decodeInt 0x001F = .intTxobj 31 ∧ decodeInt 0x0020 = .intOther 0x0020 ∧ decodeInt 0x0021 = .intOther 0x0021 ∧
    decodeInt 0x7FFF = .intOther 0x7FFF ∧ decodeInt 0x8001 = .intOther 0x8001 ∧
    decodeInt 0xFFFF = .intOther 0xFFFF := by decide

theorem test_table_words :
    decodeTableWord 128 0x80000000000000000000000000000000 = some .start ∧
    decodeTableWord 16 0x8000 = some .intStatus ∧
    decodeTableWord 128 0x13000000000000000000000000000000 = none := by decide

/-! Small states, and what is looked at after one operation. -/

/-- The machine right after attach with another device. -/
def onDevice (f : Device → Device) : State := { State.reset with dev := f Device.powerOn }

/-- An operating machine with the interrupt sources on: `CTRL = 0x000E`, handler registered. -/
def running (txNext txEcho : Counter) (tac : Option Nat) (f : Device → Device) : State :=
  { State.reset with
    h := { Handle.attach with
      state := .errorActive, irqRegistered := true, txNext := txNext, txEcho := txEcho, tac := tac }
    dev := f { Device.powerOn with ctrl := 0x000E } }

/-- A device with the control word of one slot set. -/
def control (n : BitVec 6) (c : Word) (d : Device) : Device :=
  withSlot d (slotOf n) { slotAt d (slotOf n) with mctrl := c }

/-- What is looked at in the next state; `none` after a refusal. -/
def after {α : Type} (i : Instr) (s : State) (look : State → α) : Option α :=
  match exec i s with
  | .next t => some (look t)
  | .fault _ => none
  | .refused _ => none

/-- The refusal an operation ends in, if it does. -/
def refusal (i : Instr) (s : State) : Option Refusal :=
  match exec i s with
  | .next _ => none
  | .fault _ => none
  | .refused r => some r

/-- A step answers a next state. -/
def moves (s : State) : Bool :=
  match step s with
  | .next _ => true
  | .fault _ => false
  | .refused _ => false

/-- The schedule of a state. -/
def withAgenda (l : List AgentStep) (s : State) : State := { s with env := { s.env with agenda := l } }

/-! Register access. -/

/-- T1.1. -/
theorem test_regrd :
    after (.regrd 1) (onDevice fun d => { d with sts := 0x0048, statusCause := true })
      (fun t => (t.result, t.dev.statusCause)) = some (.word 0x0048, false) := by decide +kernel

/-- T1.2. -/
theorem test_regwr : after (.regwr 8 0x00F3) State.reset (fun t => t.dev.if0.commsk) = some 0x00F3 := by
  decide +kernel

/-- A request that names no slot is written all the same and sets BUSY (rules R66, R132). -/
theorem test_regwr_no_slot :
    after (.regwr 7 0x0021) State.reset (fun t => (t.dev.if0.comreq, t.dev.if0.inflight.isSome)) =
      some (0x8021, true) := by decide +kernel

/-- T1.6. -/
theorem test_regwr_read_only : refusal (.regwr 2 0) State.reset = some .readOnlyWrite := by decide +kernel

/-- T1.3: slots 16, 17, 18 requesting. -/
theorem test_regrd32 :
    after (.regrd32 29) (onDevice fun d => control 16 0x0100 (control 17 0x0100 (control 18 0x0100 d)))
      (fun t => (t.result, t.trace)) =
      some (.word32 0x00038000, [.read (.half .txrqst false) 0x8000, .read (.half .txrqst true) 0x0003]) := by
  decide +kernel

/-! Interface transactor. -/

/-- T2.1. -/
theorem test_get :
    after (.get .if0 5 0x73)
      (onDevice fun d => withSlot d (slotOf 5) ⟨0, 0x80000000, 0xB403, #v[0x10, 0x20, 0x30, 0, 0, 0, 0, 0]⟩)
      (fun t => (t.dev.if0.arb2, t.dev.if0.mctrl, t.dev.if0.data1, t.dev.if0.data2)) =
      some (0x8000, 0xB403, 0x2010, 0x0030) := by decide +kernel

/-- T2.7. -/
theorem test_get_txrqst : refusal (.get .if0 5 0x77) State.reset = some .getWithTxrqst := by decide +kernel

/-- T2.6: `CM_TXRQST` sets TXRQST after the control copy. -/
theorem test_put :
    after (.put .if0 17 0x37) (onDevice fun d => { d with if0 := { d.if0 with mctrl := 0x0884 } })
      (fun t => ((slotAt t.dev (slotOf 17)).mctrl, writesOf t.trace)) =
      some (0x0984, [(.port .if0 .commsk, 0x00B7), (.port .if0 .comreq, 0x0011)]) := by decide +kernel

/-- T2.5 with `k = 7`: six polls, then the log entry. -/
theorem test_put_timeout :
    after (.put .if0 16 0x30) { State.reset with env := { Env.initial with polls := [7] } }
      (fun t => (t.result, (effectsOf t.trace).length)) = some (.xfer .timeout, 7) := by decide +kernel

/-! Frame codec. -/

/-- T3.4: a remote request keeps its payload in the data words, and DIR is 0. -/
theorem test_encode :
    after (.encode ⟨0, true, true, 4, #v[0xDE, 0xAD, 0xBE, 0xEF, 0, 0, 0, 0]⟩) State.reset (fun t => t.result) =
      some (.encoded ⟨0xC000, 0x0000, 0x0984, #v[0xADDE, 0xEFBE, 0, 0]⟩) := by decide +kernel

/-- T3.13: an odd DLC, the high byte of `DATA2` ignored, two data registers read. -/
theorem test_decode :
    after (.decode .if0) (onDevice fun d => { d with if0 := { d.if0 with
        arb2 := 0xB554, mctrl := 0xB403, data1 := 0x2010, data2 := 0xFF30 } })
      (fun t => (t.result, t.trace.length)) =
      some (.frame ⟨0x555, false, false, 3, #v[0x10, 0x20, 0x30, 0, 0, 0, 0, 0]⟩, 4) := by decide +kernel

/-- T3.12: MSGVAL, the low identifier bits and the upper control bits ignored; DLC 15 capped. -/
theorem test_decode_ignores :
    decodeFrame 0x2003FFFF 0xFFFF #v[0xFFFF, 0xFFFF, 0xFFFF, 0xFFFF] =
      ⟨0, false, false, 8, Vector.replicate 8 0xFF⟩ := by decide +kernel

/-! Message-object pool. -/

/-- T4.1. -/
theorem test_inval :
    after (.inval .if0 16) (onDevice fun d => withSlot d (slotOf 16) ⟨7, 0xFFFFFFFF, 0xFFFF, Vector.replicate 8 9⟩)
      (fun t => (slotAt t.dev (slotOf 16), writesOf t.trace)) =
      some (⟨7, 0, 0, Vector.replicate 8 9⟩, [(.port .if0 .arb1, 0), (.port .if0 .arb2, 0), (.port .if0 .mctrl, 0),
        (.port .if0 .commsk, 0x00B0), (.port .if0 .comreq, 0x0010)]) := by decide +kernel

/-- T4.3. -/
theorem test_rxcfg :
    after (.rxcfg .if0 15 0 0 0x1480) State.reset (fun t => (slotAt t.dev (slotOf 15), t.dev.if0.comreq)) =
      some (⟨0, 0x80000000, 0x1480, Vector.replicate 8 0⟩, 0x000F) := by decide +kernel

/-- T4.4. -/
theorem test_txsubmit :
    after (.txsubmit ⟨0x123, false, false, 2, #v[0xAA, 0xBB, 0, 0, 0, 0, 0, 0]⟩)
      { running 3 0 (some 12) id with held := 1 }
      (fun t => ((slotAt t.dev (slotOf 19)).arb, (slotAt t.dev (slotOf 19)).mctrl, t.dev.if0.data1, t.h.txNext)) =
      some (0xA48C0000, 0x0982, 0xBBAA, 4) := by decide +kernel

/-- T4.5: the counter wraps. -/
theorem test_txsubmit_wraps :
    after (.txsubmit default) { running 0xFFFFFFFF 0xFFFFFFFE (some 12) id with held := 1 }
      (fun t => (t.dev.if0.comreq, t.h.txNext, t.held)) = some (31, 0, 0) := by decide +kernel

/-- T4.8: slot 17 still requesting, two units for one slot freed. -/
theorem test_txdrain :
    after .txdrain (running 2 0 (some 14) (control 17 0x0100)) (fun t => (t.h.txEcho, t.h.tac)) =
      some (1, some 16) := by decide +kernel

/-- T4.10: the bonus release alone. -/
theorem test_txdrain_bonus :
    after .txdrain (running 0 0 (some 16) id) (fun t => (t.h.tac, t.trace)) =
      some (some 17, [.effect .tacRelease]) := by decide +kernel

/-- T4.14 on slot 9 alone: slots 1 to 9 freed, slot 10 not. -/
theorem test_rxdrain_boundary :
    after .rxdrain (running 0 0 none fun d => control 9 0xB402 (control 1 0x9401 (control 10 0x9403 d)))
      (fun t => ((slotAt t.dev (slotOf 1)).mctrl, (slotAt t.dev (slotOf 9)).mctrl, (slotAt t.dev (slotOf 10)).mctrl)) =
      some (0x1402, 0x1402, 0x9403) := by decide +kernel

/-- T4.19: the last slot is never delivered. -/
theorem test_rxdrain_last :
    after .rxdrain (running 0 0 none (control 15 0xB488))
      (fun t => ((slotAt t.dev (slotOf 15)).mctrl, effectsOf t.trace)) = some (0xB488, []) := by decide +kernel

/-- T4.15. -/
theorem test_rxlost :
    after (.rxlost .if0 5 0xF403) State.reset (fun t => ((slotAt t.dev (slotOf 5)).mctrl, effectsOf t.trace)) =
      some (0xB403, [.deliver .rxOverflow]) := by decide +kernel

/-- T4.16. -/
theorem test_rxmark :
    after (.rxmark .if0 3 0xB401) State.reset (fun t => (slotAt t.dev (slotOf 3)).mctrl) = some 0x9401 := by
  decide +kernel

/-- T4.17. -/
theorem test_rxact :
    after (.rxact .if0 12 0xB408) State.reset (fun t => (slotAt t.dev (slotOf 12)).mctrl) = some 0x1408 := by
  decide +kernel

/-- T4.18. -/
theorem test_rxactlow :
    after (.rxactlow .if0 0xB402) State.reset
      (fun t => ((slotAt t.dev (slotOf 9)).mctrl, (slotAt t.dev (slotOf 10)).mctrl, (writesOf t.trace).length)) =
      some (0x1402, 0, 27) := by decide +kernel

/-! Interrupt pipeline. -/

/-- T5.1. -/
theorem test_intNone :
    after .intNone (running 0 0 none id) (fun t => (t.result, t.trace, t.dev.ctrl)) =
      some (.notHandled, [.read .int 0], 0x000E) := by decide +kernel

/-- T5.2, the value from the device: slot 16 sent. -/
theorem test_irq :
    after .irq (running 1 0 (some 15) (control 16 0x2880)) (fun t => (t.result, t.h.txEcho, t.h.tac, t.dev.ctrl)) =
      some (.handled, 1, some 16, 0x000E) := by decide +kernel

/-- T5.7. -/
theorem test_irq_handler_absent : refusal .irq State.reset = some .handlerAbsent := by decide +kernel

/-- T5.5: the drain starts at slot 16, not at slot 31. -/
theorem test_intTxobj :
    after (.intTxobj 31) (running 1 0 (some 15) (control 31 0x2880))
      (fun t => (t.h.txEcho, (slotAt t.dev (slotOf 31)).mctrl)) = some (1, 0x2880) := by decide +kernel

/-- T5.3: the delivery locks are taken for the loopback delivery and released before the controller lock. -/
theorem test_intTxobj_loopback :
    after (.intTxobj 16)
      (let s := running 0 0 none id; { s with env := { s.env with loopback := [true] } })
      (fun t => t.trace.drop 3) =
      some [.acquire .controller, .acquire .dispatch, .acquire .socket, .effect .loopbackDeliver,
        .release .socket, .release .dispatch, .release .controller, .read .ctrl 0, .write .ctrl 0x000E] := by
  decide +kernel

/-- P2 of part 3, its first frame. -/
theorem test_intRxobj :
    after (.intRxobj 1) (running 0 0 none fun d =>
        withSlot d (slotOf 1) ⟨0, 0xB5540000, 0xB403, #v[0x10, 0x20, 0x30, 0, 0, 0, 0, 0]⟩)
      (fun t => ((slotAt t.dev (slotOf 1)).mctrl, effectsOf t.trace)) =
      some (0x9403, [.deliver (.data ⟨0x555, false, false, 3, #v[0x10, 0x20, 0x30, 0, 0, 0, 0, 0]⟩)]) := by
  decide +kernel

/-- T5.6, P3: bus-off in a pass, no re-enable. -/
theorem test_intStatus :
    after .intStatus (running 1 0 (some 14) fun d => { d with sts := 0x00E5, errcnt := 0x0088, ctrl := 0x000F })
      (fun t => (t.h.state, t.h.tac, t.dev.ctrl, t.dev.sts, (effectsOf t.trace).length)) =
      some (.busOff, none, 0x0001, 0x00E7, 5) := by decide +kernel

/-- T5.4. -/
theorem test_intOther :
    after (.intOther 0x0020) (running 0 0 none id) (fun t => (t.result, writesOf t.trace)) =
      some (.handled, [(.ctrl, 0x0000), (.ctrl, 0x000E)]) := by decide +kernel

/-- T9.9: INIT written back as read. -/
theorem test_ieall :
    after (.ieall true) (onDevice fun d => { d with ctrl := 0x0001 }) (fun t => t.dev.ctrl) = some 0x000F := by
  decide +kernel

/-- T9.7. -/
theorem test_ieall_off :
    after (.ieall false) (onDevice fun d => { d with ctrl := 0x008E }) (fun t => t.dev.ctrl) = some 0x0080 := by
  decide +kernel

/-! Bus state machine. -/

/-- T6.4: the passive recovery edge wins over BOFF. -/
theorem test_stchg :
    after .stchg { running 0 0 none (fun d => { d with sts := 0x0080 }) with
        h := { Handle.attach with state := .busOff, lastStatus := 0x00A0 } }
      (fun t => (t.h.state, t.h.lastStatus)) = some (.errorActive, 0x0080) := by decide +kernel

/-- T6.7. -/
theorem test_stchg_lec :
    after .stchg (running 0 0 none fun d => { d with sts := 0x001B }) (fun t => (writesOf t.trace, effectsOf t.trace)) =
      some ([(.sts, 0x0003), (.sts, 0x0007)], [.deliver (.busError .ack)]) := by decide +kernel

/-- T6.11: a tie goes to the transmit side. -/
theorem test_stenter :
    after (.stenter 0) (onDevice fun d => { d with errcnt := 0x4040 }) (fun t => (t.h.state, effectsOf t.trace)) =
      some (.errorWarning, [.deliver (.stateWarning 64 64 .tx)]) := by decide +kernel

/-- T6.12: bit 15 is no part of the receive counter. -/
theorem test_stenter_passive :
    after (.stenter 1) (onDevice fun d => { d with errcnt := 0xFF00 }) (fun t => effectsOf t.trace) =
      some [.deliver (.statePassive 0 127 .rx)] := by decide +kernel

theorem test_lecdec :
    after (.lecdec 3) State.reset (fun t => t.trace) =
      some [.effect (.deliver (.busError .ack)), .write .sts 0x0007] := by decide +kernel

theorem test_lecdec_none : after (.lecdec 7) State.reset (fun t => t.trace) = some [] := by decide +kernel

/-! Bit timing. -/

/-- T7.9. -/
theorem test_btcalc :
    after (.btcalc ⟨2, 11, 4, 128⟩) State.reset (fun t => t.result) = some (.timingWords 0x3A7F 0x0001) := by
  decide +kernel

/-- The word with bit 15 of `BTR` and the upper bits of `BRPEXT` set (T7). -/
theorem test_btdecode :
    after (.btdecode 0xB749 0xFFF0) State.reset (fun t => t.result) = some (.timing ⟨2, 8, 4, 10⟩) := by
  decide +kernel

/-- The second example of T7. -/
theorem test_btapply :
    after (.btapply ⟨2, 8, 4, 10⟩) (onDevice fun d => { d with ctrl := 0x0081 })
      (fun t => (writesOf t.trace, t.dev.btr)) =
      some ([(.ctrl, 0x00C1), (.btr, 0x3749), (.brpext, 0x0000), (.ctrl, 0x0081)], 0x3749) := by decide +kernel

theorem test_cfgbt :
    after (.cfgbt ⟨2, 8, 4, 10⟩) State.reset (fun t => (t.h.btCache, t.trace)) = some (some ⟨2, 8, 4, 10⟩, []) := by
  decide +kernel

/-! Mode controller. -/

/-- T8.1. -/
theorem test_start_no_timing : refusal .start State.reset = some .noBitTiming := by decide +kernel

/-- T8.4: the receive pool after `START` (rule R261). -/
theorem test_start :
    after .start { State.reset with h := { Handle.attach with btCache := some ⟨2, 8, 4, 10⟩ } }
      (fun t => (t.h.state, t.h.tac, t.dev.ctrl, t.dev.btr, bitmapWord .msgval t.dev.ram,
        (slotAt t.dev (slotOf 15)).mctrl)) =
      some (.errorActive, some 16, 0x000E, 0x3749, 0x00007FFF, 0x1480) := by decide +kernel

/-- T8.5: the test mode `LoopbackSilent`. -/
theorem test_chipcfg :
    after .chipcfg { State.reset with
        h := { Handle.attach with btCache := some ⟨2, 8, 4, 10⟩, testMode := .loopbackSilent } }
      (fun t => ((writesOf t.trace).take 2, t.dev.ctrl)) =
      some ([(.ctrl, 0x0081), (.test, 0x0018)], 0x0080) := by decide +kernel

/-- With no cached timing `CHIPCFG` runs, and leaves initialization mode (rule R213, log 37). -/
theorem test_chipcfg_no_timing :
    after .chipcfg State.reset (fun t => (t.dev.ctrl, t.dev.sts, (slotAt t.dev (slotOf 15)).mctrl)) =
      some (0x0000, 0x0007, 0x1480) := by decide +kernel

/-- T8.6. -/
theorem test_stop :
    after .stop (running 2 0 (some 14) id)
      (fun t => (t.h.state, t.h.tac, t.h.irqRegistered, t.dev.ctrl, effectsOf t.trace)) =
      some (.stopped, none, false, 0x0000, [.tacAbandonAll, .irqDeregister 0]) := by decide +kernel

/-- T8.7. -/
theorem test_stop_noop : after .stop State.reset (fun t => t.trace) = some [] := by decide +kernel

/-! Admission. -/

/-- T9.1. -/
theorem test_tacacq :
    after .tacacq (running 0 0 (some 16) id) (fun t => (t.h.tac, t.result, t.held)) =
      some (some 15, .acquired, 1) := by decide +kernel

/-- T9.2. -/
theorem test_tacacq_blocked :
    after .tacacq (running 0 0 (some 0) id) (fun t => (t.h.tac, t.result)) = some (some 0, .blocked) := by
  decide +kernel

/-- T9.4: no upper bound. -/
theorem test_tacrel :
    after .tacrel (running 0 0 (some 16) id) (fun t => (t.h.tac, t.trace)) =
      some (some 17, [.effect .tacRelease]) := by decide +kernel

/-- T9.6. -/
theorem test_tacabandon :
    after .tacabandon { running 0 0 (some 0) id with held := 2 } (fun t => (t.h.tac, t.held, t.trace)) =
      some (none, 0, [.effect .tacAbandonAll]) := by decide +kernel

/-! Steps. -/

/-- T10: an internal operation at the command port. -/
theorem test_step_internal :
    (match step (withAgenda [.host 0x43000000000000000000000000000000] State.reset) with
      | .refused r => some r
      | .next _ => none
      | .fault f => nomatch f) = some .internalAtPort := by decide +kernel

/-- The placed word is the next thing a step runs. -/
theorem test_placed_word :
    (match step (State.reset.withFetchWord 128 0x60000000000000000000000000000000) with
      | .next t => t.trace
      | .refused _ => []
      | .fault f => nomatch f) = [.read .sts 0] := by decide +kernel

/-- P2: a reception goes to the lowest free slot and raises its pending bit under RXIE (rule R77). -/
theorem test_device_receive :
    (slotAt (deviceStep 0 (.receive 0x15540000 false false true 3 #v[0x10, 0x20, 0x30, 0, 0, 0, 0, 0])
      (onDevice fun d => withSlot d (slotOf 1) ⟨0, 0x80000000, 0x1400, Vector.replicate 8 0⟩).dev) (slotOf 1)) =
      ⟨0, 0xB5540000, 0xB403, #v[0x10, 0x20, 0x30, 0, 0, 0, 0, 0]⟩ := by decide +kernel

/-- Rule R275: a frame that comes when the end-of-block slot is full sets its MSGLST, whatever DIR the device left there. -/
theorem test_device_receive_full :
    (slotAt (deviceStep 0 (.receive 0x0AA80000 false false false 2 (Vector.replicate 8 7))
      (onDevice fun d => withSlot d (slotOf 15) ⟨0, 0xB5540000, 0xB483, Vector.replicate 8 0⟩).dev) (slotOf 15)) =
      ⟨0, 0x8AA80000, 0xF482, Vector.replicate 8 7⟩ := by decide +kernel

/-- Rule R93: MDIR makes the direction take part in filtering. -/
theorem test_filter_direction :
    rxMatches 5 false true ⟨0x40000000, 0x80000000, 0x1000, default⟩ = false ∧
    rxMatches 5 false false ⟨0x40000000, 0x80000000, 0x1000, default⟩ = true ∧
    rxMatches 5 false true ⟨0, 0x80000000, 0x1000, default⟩ = true := by decide

/-- Rules R144, R145: with BUSY left set by a *put* the device owns `MCTRL`; a target of a timed-out *get* reads as held. -/
theorem test_busy_owns :
    readsHeld { PortRegs.zero with comreq := 0x8010, timedOut := some 0x00F7 } .mctrl = false ∧
    readsHeld { PortRegs.zero with comreq := 0x8010, timedOut := some 0x0010 } .mctrl = true ∧
    readsHeld { PortRegs.zero with comreq := 0x8010, timedOut := some 0x0010 } .data1 = false ∧
    readsHeld { PortRegs.zero with comreq := 0x8010, timedOut := some 0x0073 } .commsk = false ∧
    readsHeld { PortRegs.zero with comreq := 0x0010 } .commsk = true := by decide

/-! Witnesses: for each obligation with hypotheses, values that meet all of them together; one for each clause where the
obligation has several. -/

/-- An operating machine, three frames submitted, one unit held by a caller. -/
def quiet : State := { running 3 0 (some 12) (control 17 0x0100) with held := 1 }

/-- A stopped machine with a cached bit timing. -/
def stopped : State := { State.reset with h := { Handle.attach with btCache := some ⟨4, 16, 8, 1024⟩ } }

/-- The same in `Sleeping`, which no step enters. -/
def asleep : State := { State.reset with h := { Handle.attach with state := .sleeping } }

/-- An operation answers a next state in which something has changed. -/
def changes {α : Type} [DecidableEq α] (i : Instr) (s : State) (look : State → α) : Bool :=
  match exec i s with
  | .next t => look t != look s
  | .fault _ => false
  | .refused _ => false

theorem witness_DecodeOfEncode :
    Instr.WellFormed (.rxcfg .if1 15 0xFFFFFFFF 0 0x1480) = true ∧ Instr.WellFormed (.intOther 0xFFFF) = true := by
  decide

theorem witness_EncodeOfDecode :
    decode (.cmd 0x41000000004514008BCDEF0112345678) = .ok (.rxcfg .if1 5 0x12345678 0x8BCDEF01 0x1400) ∧
    decode (.int 0x0020) = .ok (.intOther 0x0020) := by decide

theorem witness_IllegalWords :
    opcodeOf 0x13000000000000000000000000000000 ∉ codeTable.map Prod.fst ∧
    ((0x92, 0) ∈ codeTable ∧ opcodeOf 0x92000000000000000000000000000001 = 0x92 ∧
      (0x92000000000000000000000000000001#128 &&& ~~~(0 ||| 0xFF000000000000000000000000000000#128)) ≠ 0) ∧
    ((0x10, 0x3F0000) ∈ codeTable ∧ opcodeOf 0x10000000000000000000000000240000 = 0x10 ∧
      (0x10000000000000000000000000240000#128 &&&
        ~~~(0x3F0000 ||| 0xFF000000000000000000000000000000#128)) = 0) := by decide

theorem witness_InterruptClasses :
    (0x8000#16 ≠ 0) ∧ (0x000F#16 ≠ 0) ∧ (0x0010#16 ≠ 0) ∧ Ready quiet ∧ PassReady quiet := by
  simp only [Ready, PassReady]; decide +kernel

theorem witness_StepRunsTheMove :
    (withAgenda [.block 0x44000000000000000000000000000000] quiet).env.agenda =
      [.block 0x44000000000000000000000000000000] ∧
    decodeCmd 0x44000000000000000000000000000000 = .ok .rxdrain ∧ external .rxdrain = false ∧
    decodeCmd 0x90000000000000000000000000000000 = .ok .tacacq ∧ external .tacacq = true ∧
    decodeCmd 0x13000000000000000000000000000000 = .error (.illegalCode 0x13) ∧
    decodeCmd 0x90000000000000000000000000000001 = .error .reservedBit ∧
    ({ quiet with result := .acquired }).result = .acquired ∧ quiet.result ≠ .acquired ∧
    (withAgenda [.take .socket] quiet).env.agenda = [.take .socket] ∧ quiet.g.socket = .free ∧
    (withAgenda [.give .socket] { quiet with g := ⟨.free, .other⟩ }).env.agenda = [.give .socket] ∧
    (withAgenda [.ifAcquired 0x44000000000000000000000000000000] quiet).env.agenda =
      [.ifAcquired 0x44000000000000000000000000000000] ∧
    quiet.env.agenda = [] ∧ quiet.env.free = false := by decide +kernel

theorem witness_StepKeepsBetweenPasses :
    BetweenPasses (withAgenda [.lineInt 0x8000] quiet) ∧ moves (withAgenda [.lineInt 0x8000] quiet) = true := by
  simp only [BetweenPasses]; decide +kernel

theorem witness_StepKeepsAdmissionLifetime :
    AdmissionLifetime (withAgenda [.host 0x81000000000000000000000000000000] quiet) ∧
    moves (withAgenda [.host 0x81000000000000000000000000000000] quiet) = true := by
  simp only [AdmissionLifetime]; decide +kernel

theorem witness_StepKeepsCacheInRange :
    CacheInRange (withAgenda [.host 0x72000000000000000000000000442400] stopped) ∧
    moves (withAgenda [.host 0x72000000000000000000000000442400] stopped) = true := by
  refine ⟨fun b hb => ?_, by decide +kernel⟩
  cases hb
  decide

theorem witness_ConfigurationIsFixed :
    moves (withAgenda [.host 0x80000000000000000000000000000000] stopped) = true := by decide +kernel

theorem witness_SleepingIsClosed :
    asleep.h.state = .sleeping ∧ moves (withAgenda [.take .socket] asleep) = true := by decide +kernel

theorem witness_HandleFieldWriters :
    changes .start stopped (fun t => t.h.state) = true ∧
    changes .stchg (running 0 0 none fun d => { d with sts := 0x0040 }) (fun t => t.h.lastStatus) = true ∧
    changes (.txsubmit default) quiet (fun t => t.h.txNext) = true ∧
    changes .txdrain quiet (fun t => t.h.txEcho) = true ∧
    changes (.cfgbt ⟨1, 2, 1, 1⟩) stopped (fun t => t.h.btCache) = true ∧
    changes .stop quiet (fun t => t.h.irqRegistered) = true ∧
    changes .tacacq quiet (fun t => t.h.tac) = true ∧
    changes (.intOther 0x0020) { quiet with h := { quiet.h with lock := .other } } (fun t => t.h.lock) = true := by decide +kernel

theorem witness_RefusedCalls :
    Ready State.reset ∧ Instr.WellFormed (.get .if0 33 0) = false ∧
    (Excluded State.reset (.txsubmit default) ∧ Excluded { quiet with held := 0 } (.txsubmit default)) ∧
    Excluded State.reset .start ∧ ¬Excluded State.reset .chipcfg ∧
    (Instr.WellFormed (.get .if0 32 0x77) = true ∧ Excluded State.reset (.get .if0 32 0x77)) ∧
    (Instr.WellFormed (.regwr 29 0) = true ∧ Excluded State.reset (.regwr 29 0)) ∧
    (Instr.WellFormed (.regwr 7 0) = true ∧ ¬Excluded State.reset (.regwr 7 0)) ∧
    (Instr.WellFormed (.regwr 28 0) = true ∧ ¬Excluded State.reset (.regwr 28 0)) := by
  simp only [Ready, Excluded]; decide +kernel

/-- A machine on which a *get* on port 1 has timed out. -/
def timedOut : State := onDevice fun d => { d with if1 := { d.if1 with comreq := 0x8020, timedOut := some 0x0073 } }

theorem witness_ReadRegister :
    (regOk 0 = true ∧ regOk 1 = true ∧ regOk 36 = true) ∧ Ready quiet ∧ Still quiet.env ∧ quiet.env.intNext = none ∧
    regOf 28 = .port .if1 .data4 ∧ regOf 18 = .port .if1 .comreq ∧ BusyClear quiet.dev .if1 ∧
    (PortIdle timedOut.dev .if1 ∧ timedOut.dev.if1.timedOut = some 0x0073 ∧ (0x0073#16).getLsbD 7 = false ∧
      0x0073#16 &&& groupOf .data4 ≠ 0) := by
  simp only [Ready, Still, PortIdle, BusyClear]; decide +kernel

theorem witness_WriteGlobalRegister :
    Ready (onDevice fun d => { d with ctrl := 0x0041 }) ∧ Still (onDevice fun d => { d with ctrl := 0x0041 }).env ∧
    (onDevice fun d => { d with ctrl := 0x0041 }).dev.ctrl.getLsbD 0 = true ∧
    (onDevice fun d => { d with ctrl := 0x0041 }).dev.ctrl.getLsbD 6 = true := by
  simp only [Ready, Still]; decide +kernel

theorem witness_WriteShadowRegister :
    Ready quiet ∧ Still quiet.env ∧ PortIdle quiet.dev .if0 ∧ PortIdle quiet.dev .if1 ∧
    (regOk 17 = true ∧ regOf 17 = .port .if0 .data4) ∧
    (regOk 18 = true ∧ regOf 18 = .port .if1 .comreq ∧ 1 ≤ (0x0020#16).toNat % 64 ∧ (0x0020#16).toNat % 64 ≤ 32) := by
  simp only [Ready, Still, PortIdle]; decide +kernel

theorem witness_CompositeRead :
    Ready quiet ∧ Still quiet.env ∧ (29#6).toNat = regIndex (.half .txrqst false) ∧
    (31#6).toNat = regIndex (.half .newdat false) ∧ (33#6).toNat = regIndex (.half .intpnd false) ∧
    (35#6).toNat = regIndex (.half .msgval false) := by
  simp only [Ready, Still]; decide +kernel

theorem witness_GetTransfer :
    Ready quiet ∧ Prompt quiet.env ∧ PortIdle quiet.dev .if1 ∧ 1 ≤ (32#6).toNat ∧ (32#6).toNat ≤ 32 ∧
    0x73#8 &&& 0x88#8 = 0#8 ∧ (0x73#8).getLsbD 2 = false := by
  simp only [Ready, Prompt, Still, PortIdle]; decide +kernel

theorem witness_PutTransfer :
    Ready quiet ∧ Prompt quiet.env ∧ PortIdle quiet.dev .if1 ∧ 1 ≤ (32#6).toNat ∧ (32#6).toNat ≤ 32 ∧
    0x77#8 &&& 0x88#8 = 0#8 := by
  simp only [Ready, Prompt, Still, PortIdle]; decide +kernel

/-- A machine whose next transfer reads BUSY set a given number of times. -/
def polled (k : Nat) : State := { quiet with env := { quiet.env with polls := [k] } }

theorem witness_PollsAndTimeout :
    Ready (polled 5) ∧ Still (polled 5).env ∧ (polled 5).env.polls = [5] ∧ PortIdle (polled 5).dev .if0 ∧
    Ready (polled 6) ∧ Still (polled 6).env ∧ (polled 6).env.polls = [6] ∧ PortIdle (polled 6).dev .if0 ∧
    1 ≤ (32#6).toNat ∧ (32#6).toNat ≤ 32 ∧ 0x73#8 &&& 0x88#8 = 0#8 ∧ (0x73#8).getLsbD 2 = false ∧
    (5 < 6 ∧ 6 ≤ 6) := by
  simp only [Ready, Still, PortIdle]; decide +kernel

theorem witness_EncodeWords : Ready quiet := by simp only [Ready]; decide +kernel

theorem witness_DecodePort : Ready quiet ∧ Still quiet.env ∧ BusyClear quiet.dev .if1 := by
  simp only [Ready, Still, BusyClear]; decide +kernel

/-- A standard data frame with the largest identifier and DLC. -/
def fullFrame : Frame := ⟨0x7FF, false, false, 8, Vector.replicate 8 0xFF⟩

theorem witness_CodecRoundTrip :
    fullFrame.dlc.toNat ≤ 8 ∧ (fullFrame.ext = false → fullFrame.id.toNat < 2048) ∧ fullFrame.rtr = false ∧
    ({ fullFrame with rtr := true }).rtr = true := by decide

theorem witness_InvalidateSlot :
    Ready quiet ∧ Prompt quiet.env ∧ PortIdle quiet.dev .if1 ∧ 1 ≤ (32#6).toNat ∧ (32#6).toNat ≤ 32 := by
  simp only [Ready, Prompt, Still, PortIdle]; decide +kernel

theorem witness_ConfigureSlot :
    Ready quiet ∧ Prompt quiet.env ∧ PortIdle quiet.dev .if1 ∧ 1 ≤ (15#6).toNat ∧ (15#6).toNat ≤ 15 := by
  simp only [Ready, Prompt, Still, PortIdle]; decide +kernel

theorem witness_SubmitFrame :
    Ready quiet ∧ Prompt quiet.env ∧ PortIdle quiet.dev .if0 ∧ 0 < quiet.held ∧ quiet.h.tac ≠ none := by
  simp only [Ready, Prompt, Still, PortIdle]; decide +kernel

theorem witness_DrainReleaseAccounting :
    Ready quiet ∧ quiet.h.tac ≠ none ∧ Ready State.reset ∧ State.reset.h.tac = none := by
  simp only [Ready]; decide +kernel

theorem witness_DrainSentFrames :
    Ready quiet ∧ Prompt quiet.env ∧ PortIdle quiet.dev .if0 ∧ (quiet.h.txNext - quiet.h.txEcho).toNat = 3 ∧
    (∀ i, i < 1 → (slotAt quiet.dev (txSlot (quiet.h.txEcho + BitVec.ofNat 32 i))).mctrl.getLsbD 8 = false) ∧
    (slotAt quiet.dev (txSlot (quiet.h.txEcho + BitVec.ofNat 32 1))).mctrl.getLsbD 8 = true := by
  simp only [Ready, Prompt, Still, PortIdle]; decide +kernel

/-- An operating machine in which one receive slot is pending with a given control word. -/
def pending (n : BitVec 6) (c : Word) : State := running 0 0 (some 16) (control n c)

theorem witness_ReceiveDrainStops :
    (Ready quiet ∧ Prompt quiet.env ∧ PortIdle quiet.dev .if0 ∧
      ∀ k : Slot, k.num ≤ 15 → (slotAt quiet.dev k).mctrl.getLsbD 13 = false) ∧
    (Ready (pending 15 0xB488) ∧ Prompt (pending 15 0xB488).env ∧ PortIdle (pending 15 0xB488).dev .if0 ∧
      (slotOf 15).num = 15 ∧
      (∀ l : Slot, l.num < 15 → (slotAt (pending 15 0xB488).dev l).mctrl.getLsbD 13 = false) ∧
      (slotAt (pending 15 0xB488).dev (slotOf 15)).mctrl.getLsbD 13 = true ∧
      (slotAt (pending 15 0xB488).dev (slotOf 15)).mctrl.getLsbD 7 = true) := by
  simp only [Ready, Prompt, Still, PortIdle]; decide +kernel

/-- With a frame, at the slots where the clauses of the reactivation meet: 8, 9 and 10. -/
theorem witness_ReceiveDrainDelivers :
    ∀ k : Slot, 8 ≤ k.num → k.num ≤ 10 →
      (Ready (pending (BitVec.ofNat 6 k.num) 0xB402) ∧ Prompt (pending (BitVec.ofNat 6 k.num) 0xB402).env ∧
      PortIdle (pending (BitVec.ofNat 6 k.num) 0xB402).dev .if0 ∧
      (pending (BitVec.ofNat 6 k.num) 0xB402).h.phase = .idle) ∧
      (∀ l : Slot, l.num ≤ 15 →
        ((slotAt (pending (BitVec.ofNat 6 k.num) 0xB402).dev l).mctrl.getLsbD 13 = true ↔ l = k)) ∧
      (slotAt (pending (BitVec.ofNat 6 k.num) 0xB402).dev k).mctrl = 0xB402 ∧ (0xB402#16).getLsbD 7 = false := by
  simp only [Ready, Prompt, Still, PortIdle]; decide +kernel

/-- With a message lost. -/
theorem witness_ReceiveDrainDelivers_lost :
    ∀ k : Slot, 9 ≤ k.num → k.num ≤ 9 →
      (Ready (pending (BitVec.ofNat 6 k.num) 0xF402) ∧ Prompt (pending (BitVec.ofNat 6 k.num) 0xF402).env ∧
      PortIdle (pending (BitVec.ofNat 6 k.num) 0xF402).dev .if0 ∧
      (pending (BitVec.ofNat 6 k.num) 0xF402).h.phase = .idle) ∧
      (∀ l : Slot, l.num ≤ 15 →
        ((slotAt (pending (BitVec.ofNat 6 k.num) 0xF402).dev l).mctrl.getLsbD 13 = true ↔ l = k)) ∧
      (slotAt (pending (BitVec.ofNat 6 k.num) 0xF402).dev k).mctrl = 0xF402 ∧ (0xF402#16).getLsbD 7 = false := by
  simp only [Ready, Prompt, Still, PortIdle]; decide +kernel

/-- With neither a frame nor a message lost. -/
theorem witness_ReceiveDrainDelivers_neither :
    ∀ k : Slot, 9 ≤ k.num → k.num ≤ 9 →
      (Ready (pending (BitVec.ofNat 6 k.num) 0x3402) ∧ Prompt (pending (BitVec.ofNat 6 k.num) 0x3402).env ∧
      PortIdle (pending (BitVec.ofNat 6 k.num) 0x3402).dev .if0 ∧
      (pending (BitVec.ofNat 6 k.num) 0x3402).h.phase = .idle) ∧
      (∀ l : Slot, l.num ≤ 15 →
        ((slotAt (pending (BitVec.ofNat 6 k.num) 0x3402).dev l).mctrl.getLsbD 13 = true ↔ l = k)) ∧
      (slotAt (pending (BitVec.ofNat 6 k.num) 0x3402).dev k).mctrl = 0x3402 ∧ (0x3402#16).getLsbD 7 = false := by
  simp only [Ready, Prompt, Still, PortIdle]; decide +kernel

theorem witness_BoundaryReactivation :
    Ready (pending 9 0xB402) ∧ Prompt (pending 9 0xB402).env ∧ PortIdle (pending 9 0xB402).dev .if0 ∧
    (∀ l : Slot, l.num ≤ 9 → (slotAt (pending 9 0xB402).dev l).mctrl.getLsbD 13 = true →
      (slotAt (pending 9 0xB402).dev l).mctrl.getLsbD 7 = false) ∧
    ∀ l : Slot, l.num = 9 → (slotAt (pending 9 0xB402).dev l).mctrl.getLsbD 13 = true ∧
      (slotAt (pending 9 0xB402).dev l).mctrl.getLsbD 14 = false ∧
      (slotAt (pending 9 0xB402).dev l).mctrl.getLsbD 15 = true := by
  simp only [Ready, Prompt, Still, PortIdle]; decide +kernel

theorem witness_ControlRewrites :
    Ready quiet ∧ Prompt quiet.env ∧ PortIdle quiet.dev .if1 ∧ quiet.h.phase = .idle ∧
    (1 ≤ (15#6).toNat ∧ (15#6).toNat ≤ 15) ∧ (1 ≤ (8#6).toNat ∧ (8#6).toNat ≤ 8) ∧
    (10 ≤ (10#6).toNat ∧ (10#6).toNat ≤ 15) := by
  simp only [Ready, Prompt, Still, PortIdle]; decide +kernel

theorem witness_BoundaryRewrite : Ready quiet ∧ Prompt quiet.env ∧ PortIdle quiet.dev .if1 := by
  simp only [Ready, Prompt, Still, PortIdle]; decide +kernel

theorem witness_PassNotOurs :
    Ready quiet ∧ PassReady quiet ∧ Still quiet.env ∧ quiet.env.intNext = none ∧ intView quiet.dev = 0#16 := by
  simp only [Ready, PassReady, Still]; decide +kernel

theorem witness_IrqServesTheDevice :
    Ready quiet ∧ PassReady quiet ∧ BetweenPasses quiet ∧ Still quiet.env ∧ quiet.env.intNext = none := by
  simp only [Ready, PassReady, BetweenPasses, Still]; decide +kernel

theorem witness_PassLeavesEnables :
    encode .intStatus = .int 0x8000 ∧
    after .intStatus (running 1 0 (some 14) fun d => { d with sts := 0x0080 }) (fun t => (t.result, t.h.state)) =
      some (.handled, .busOff) ∧
    after .irq (pending 9 0xB402) (fun t => (t.result, t.h.state)) = some (.handled, .errorActive) := by
  decide +kernel

theorem witness_PassOfNoBranch :
    Ready quiet ∧ PassReady quiet ∧ BetweenPasses quiet ∧ Still quiet.env ∧ 32 ≤ (0x0020#16).toNat ∧
    (0x0020#16).toNat ≠ 0x8000 := by
  simp only [Ready, PassReady, BetweenPasses, Still]; decide +kernel

theorem witness_PassOnStatusChange :
    Ready quiet ∧ PassReady quiet ∧ BetweenPasses quiet ∧ Still quiet.env := by
  simp only [Ready, PassReady, BetweenPasses, Still]; decide +kernel

theorem witness_PassOnTransmit :
    Ready quiet ∧ PassReady quiet ∧ BetweenPasses quiet ∧ Prompt quiet.env ∧ PortIdle quiet.dev .if0 ∧
    16 ≤ (31#6).toNat ∧ (31#6).toNat ≤ 31 ∧ (quiet.h.txNext - quiet.h.txEcho).toNat = 3 ∧
    (∀ i, i < 1 → (slotAt quiet.dev (txSlot (quiet.h.txEcho + BitVec.ofNat 32 i))).mctrl.getLsbD 8 = false) ∧
    (slotAt quiet.dev (txSlot (quiet.h.txEcho + BitVec.ofNat 32 1))).mctrl.getLsbD 8 = true := by
  simp only [Ready, PassReady, BetweenPasses, Prompt, Still, PortIdle]; decide +kernel

theorem witness_PassOnReceive :
    ∀ k : Slot, k.num = 8 ∨ k.num = 10 →
      (Ready (pending (BitVec.ofNat 6 k.num) 0xB402) ∧ PassReady (pending (BitVec.ofNat 6 k.num) 0xB402) ∧
      BetweenPasses (pending (BitVec.ofNat 6 k.num) 0xB402) ∧
      Prompt (pending (BitVec.ofNat 6 k.num) 0xB402).env ∧
      PortIdle (pending (BitVec.ofNat 6 k.num) 0xB402).dev .if0) ∧
      (1 ≤ (15#6).toNat ∧ (15#6).toNat ≤ 15) ∧
      (∀ l : Slot, l.num ≤ 15 →
        ((slotAt (pending (BitVec.ofNat 6 k.num) 0xB402).dev l).mctrl.getLsbD 13 = true ↔ l = k)) ∧
      (slotAt (pending (BitVec.ofNat 6 k.num) 0xB402).dev k).mctrl = 0xB402 := by
  simp only [Ready, PassReady, BetweenPasses, Prompt, Still, PortIdle]; decide +kernel

theorem witness_InterruptEnables : Ready quiet ∧ Still quiet.env := by
  simp only [Ready, Still]; decide +kernel

theorem witness_StatusChange : Ready quiet ∧ Still quiet.env ∧ quiet.h.phase = .idle := by
  simp only [Ready, Still]; decide +kernel

theorem witness_EnterErrorState :
    Ready quiet ∧ Still quiet.env ∧ quiet.h.phase = .idle ∧ 0#2 ≠ 3#2 ∧ 1#2 ≠ 3#2 ∧ 2#2 ≠ 3#2 := by
  simp only [Ready, Still]; decide +kernel

theorem witness_LastErrorCode :
    Ready quiet ∧ Still quiet.env ∧ quiet.h.phase = .idle ∧ 1 ≤ (1#3).toNat ∧ (6#3).toNat ≤ 6 ∧
    [ErrKind.stuff, .form, .ack, .bitDominant, .bitRecessive, .crc][(6#3).toNat - 1]? = some .crc := by
  simp only [Ready, Still]; decide +kernel

/-- A machine on which a status change finds bus-off, with a cached bit timing. -/
def fallen : State :=
  let s := running 0 0 (some 16) fun d => { d with sts := 0x0080 }
  { s with h := { s.h with btCache := some ⟨2, 8, 4, 10⟩ } }

theorem witness_BusOffTearsDown :
    Ready fallen ∧ after .stchg fallen (fun t => (rising t.h.lastStatus fallen.h.lastStatus stBoff, t.h.state)) =
      some (true, .busOff) ∧ fallen.h.btCache ≠ none := by
  simp only [Ready]; decide +kernel

theorem witness_TimingWords :
    Ready quiet ∧ BitTiming.inRange ⟨1, 2, 1, 1⟩ = true ∧ BitTiming.inRange ⟨4, 16, 8, 1024⟩ = true ∧
    BitTiming.inRange ⟨2, 8, 9, 10⟩ = false := by
  simp only [Ready]; decide +kernel

theorem witness_TimingRoundTrip :
    BitTiming.inRange ⟨1, 2, 1, 1⟩ = true ∧ BitTiming.inRange ⟨4, 16, 8, 1024⟩ = true := by decide

theorem witness_TimingParameters : Ready quiet := by simp only [Ready]; decide +kernel

theorem witness_ApplyTiming :
    Ready quiet ∧ Still quiet.env ∧ BitTiming.inRange ⟨4, 16, 8, 1024⟩ = true ∧ quiet.dev.ctrl.getLsbD 0 = false ∧
    (Ready (onDevice fun d => { d with ctrl := 0x0001 }) ∧ Still (onDevice fun d => { d with ctrl := 0x0001 }).env ∧
      (onDevice fun d => { d with ctrl := 0x0001 }).dev.ctrl.getLsbD 0 = true) := by
  simp only [Ready, Still]; decide +kernel

theorem witness_CacheTiming :
    Ready quiet ∧ BitTiming.inRange ⟨4, 16, 8, 1024⟩ = true ∧ BitTiming.inRange ⟨4, 16, 8, 1025⟩ = false ∧
    after .stop quiet (fun t => t.h.state) = some .stopped := by
  simp only [Ready]; decide +kernel

theorem witness_StartEstablishes :
    Ready stopped ∧ Prompt stopped.env ∧ PortIdle stopped.dev .if0 ∧ BetweenPasses stopped ∧
    operating stopped.h = false ∧ stopped.h.btCache = some ⟨4, 16, 8, 1024⟩ ∧
    (stopped.h.irqRegistered = false → stopped.env.replies.headD true = true) := by
  simp only [Ready, Prompt, Still, PortIdle, BetweenPasses]; decide +kernel

/-- A stopped machine whose host will answer the registration with failure. -/
def unheard : State := { stopped with env := { stopped.env with replies := [false] } }

theorem witness_ModeCallsWithoutEffect :
    (Ready quiet ∧ operating quiet.h = true) ∧
    (Ready unheard ∧ operating unheard.h = false ∧ unheard.h.btCache ≠ none ∧ unheard.h.irqRegistered = false ∧
      unheard.env.replies.head? = some false) := by
  simp only [Ready]; decide +kernel

theorem witness_StopEndsOperation : Ready quiet ∧ Still quiet.env ∧ operating quiet.h = true := by
  simp only [Ready, Still]; decide +kernel

theorem witness_ChipConfiguration :
    (Ready stopped ∧ Prompt stopped.env ∧ PortIdle stopped.dev .if0 ∧ stopped.h.btCache = some ⟨4, 16, 8, 1024⟩) ∧
    (Ready State.reset ∧ Prompt State.reset.env ∧ PortIdle State.reset.dev .if0 ∧
      State.reset.h.btCache = none) := by
  simp only [Ready, Prompt, Still, PortIdle]; decide +kernel

theorem witness_AcquireUnit :
    (Ready stopped ∧ stopped.h.tac = none) ∧
    (Ready (running 0 0 (some 0) id) ∧ (running 0 0 (some 0) id).h.tac = some 0) ∧
    (Ready (running 0 0 (some 1) id) ∧ (running 0 0 (some 1) id).h.tac = some (0 + 1)) := by
  simp only [Ready]; decide +kernel

theorem witness_ReleaseUnit :
    (Ready stopped ∧ stopped.h.tac = none) ∧
    (Ready (running 0 0 (some 0) id) ∧ (running 0 0 (some 0) id).h.tac = some 0) := by
  simp only [Ready]; decide +kernel

theorem witness_AbandonUnits : Ready stopped ∧ Ready quiet := by simp only [Ready]; decide +kernel

/-- A slot that accepts every standard identifier, and one that asks to be sent. -/
def onBus (l : List AgentStep) : State :=
  withAgenda l (onDevice fun d =>
    withSlot (withSlot d (slotOf 15) ⟨0, 0x80000000, 0x9480, Vector.replicate 8 0⟩) (slotOf 16)
      ⟨0, 0xA4000000, 0x0980, Vector.replicate 8 0⟩)

theorem witness_DeviceMovesFrames :
    (onBus [.dev (.receive 0x15540000 false false true 3 default)]).env.agenda =
      [.dev (.receive 0x15540000 false false true 3 default)] ∧
    rxTarget 0x15540000 false false (onBus []).dev.ram = some (slotOf 15) ∧
    rxTarget 0x15540000 false false (onDevice id).dev.ram = none ∧
    (rxMatches 0x0AA80000 false false ⟨0, 0xB5540000, 0xB483, default⟩ = true ∧ (0xB483#16).getLsbD 7 = true ∧
      (0xB483#16).getLsbD 15 = true ∧ (0xB5540000#32).getLsbD 29 = true) ∧
    (onBus [.dev (.transmitted (slotOf 16))]).env.agenda = [.dev (.transmitted (slotOf 16))] ∧
    (slotAt (onBus []).dev (slotOf 16)).arb.getLsbD 31 = true ∧
    (slotAt (onBus []).dev (slotOf 16)).mctrl.getLsbD 8 = true := by decide +kernel

/-- Offsets that rise by two with the register index. -/
def plainOffsets (_ : Variant) (i : Nat) : Nat := 2 * i

theorem witness_AddressesDistinct : LegalOffsets plainOffsets ∧ Handle.attach.base % 4 = 0 ∧
    ({ Handle.attach with align := .align32 }).align = .align32 := by
  refine ⟨⟨fun _ i j _ _ h => ?_, fun _ i _ => ?_, fun _ b => ?_⟩, rfl, rfl⟩
  · simp only [plainOffsets] at h; omega
  · simp [plainOffsets]
  · cases b <;> rfl

end Sys2Proof.Tests
end

section
/-! PROOFS. Scope (00_scope.md). First what every proof about an invoked operation needs: when an operation is refused and
by which name, and what it may do to the handle. After each part stand the obligations it settles. -/

namespace Sys2Proof.Machine

/-! When a call is refused. -/

/-- `answer` gives a next state only where nothing refuses the call, and then the state it was given. -/
theorem answer_eq_next_iff {s u t : State} {r : Option Refusal} :
    answer s r u = .next t ↔ Ready s ∧ r = none ∧ u = t := by
  unfold answer Ready
  by_cases hs : s.h.state = .sleeping
  · simp [hs]
  · by_cases hb : s.h.base % 4 = 0
    · cases r <;> simp [hs, hb]
    · simp [hs, hb]

/-- In a ready state `answer` refuses for the reason it was given. -/
theorem answer_ready_some {s : State} (hs : Ready s) (r : Refusal) (u : State) :
    answer s (some r) u = .refused r := by
  simp [answer, hs.1, hs.2]

@[simp] theorem refuseIf_eq_none_iff (b : Bool) (r : Refusal) : refuseIf b r = none ↔ b = false := by
  cases b <;> simp [refuseIf]

/-- A refusal whose condition holds. -/
theorem refuseIf_eq_some {b : Bool} (r : Refusal) (hb : b = true) : refuseIf b r = some r := by
  simp [refuseIf, hb]

/-- Why an operation with its operands in their ranges is refused all the same: the names of rule R232 for the calls of
`Excluded`, and of log 10 for a pass that cannot begin. -/
def exclusion (s : State) : Instr → Option Refusal
  | .regwr r _ => refuseIf (readOnly (regOf r)) .readOnlyWrite
  | .get _ _ m => refuseIf (hasAny (m.setWidth 16) cmTxrqst) .getWithTxrqst
  | .txsubmit _ => refuseIf (!holdsUnit s) .noAdmission
  | .start => refuseIf (!operating s.h && s.h.btCache.isNone) .noBitTiming
  | .irq | .intNone | .intStatus | .intRxobj _ | .intTxobj _ | .intOther _ => passRefusal s
  | _ => none

/-- The reason of an operation: an operand out of range comes before what the spec excludes (log 13). -/
def reasonOf (s : State) (i : Instr) : Option Refusal :=
  (refuseIf (!i.WellFormed) .operandRange).or (exclusion s i)

/-- A `REGWR` is refused for its register index before its register (rules R111, R132). -/
theorem regwrRefusal_eq (s : State) (r : BitVec 6) (v : Word) : regwrRefusal r = reasonOf s (.regwr r v) := by
  change regwrRefusal r = (refuseIf (!regOk r) .operandRange).or (refuseIf (readOnly (regOf r)) .readOnlyWrite)
  unfold regwrRefusal
  cases regOk r <;> rfl

/-- Every operation is an `answer` with its reason: those with no operand range of their own as they stand, `REGWR` and
`STENTER` by how they write their range, the others by the range alone. -/
theorem exec_eq_answer (i : Instr) (s : State) : ∃ u, exec i s = answer s (reasonOf s i) u := by
  have range_only : ∀ b : Bool, refuseIf b .operandRange = (refuseIf b .operandRange).or none :=
    fun _ => Option.or_none.symm
  cases i with
  | regwr r v => exact ⟨_, congrArg (answer s · _) (regwrRefusal_eq s r v)⟩
  | stenter t =>
    have ht : (t == 3#2) = !(t != 3#2) := by simp [bne]
    exact ⟨_, congrArg (answer s · _) ((congrArg (refuseIf · _) ht).trans (range_only _))⟩
  | regrd | regrd32 | put | inval | rxcfg | rxlost | rxmark | rxact | btcalc | btapply | cfgbt =>
    exact ⟨_, congrArg (answer s · _) (range_only _)⟩
  | _ => exact ⟨_, rfl⟩

/-- An operation with a reason is refused by it in a ready state. -/
theorem exec_of_reason {i : Instr} {s : State} (hs : Ready s) {r : Refusal} (hr : reasonOf s i = some r) :
    exec i s = .refused r := by
  obtain ⟨u, hu⟩ := exec_eq_answer i s
  rw [hu, hr, answer_ready_some hs]

/-- An operation answers a next state exactly in a ready state and with no reason against it. -/
theorem exec_next_iff {i : Instr} {s : State} :
    (∃ t, exec i s = .next t) ↔ Ready s ∧ reasonOf s i = none := by
  obtain ⟨u, hu⟩ := exec_eq_answer i s
  simp [hu, answer_eq_next_iff]

theorem reasonOf_illFormed (s : State) {i : Instr} (hi : i.WellFormed = false) :
    reasonOf s i = some .operandRange := by
  simp [reasonOf, refuseIf, hi]

theorem reasonOf_wellFormed (s : State) {i : Instr} (hi : i.WellFormed = true) : reasonOf s i = exclusion s i := by
  simp [reasonOf, refuseIf, hi]

/-- The registers that may only be read, by their index (rules R66, R117, R132). -/
theorem readOnly_regOf : ∀ r : BitVec 6, readOnly (regOf r) = true ↔ r = 2#6 ∨ r = 4#6 ∨ 29 ≤ r.toNat := by
  decide

/-- `CM_TXRQST` is bit 2 of a transfer mask (rule R94). -/
theorem hasAny_cmTxrqst : ∀ m : BitVec 8, hasAny (m.setWidth 16) cmTxrqst = true ↔ m.getLsbD 2 = true := by
  decide

/-- A pass is refused exactly when it cannot begin (rule R180). -/
theorem passRefusal_eq_none_iff (s : State) : passRefusal s = none ↔ PassReady s := by
  unfold passRefusal PassReady
  cases s.h.irqRegistered <;> simp

/-- A refusal by its condition, against the proposition the condition decides. -/
theorem refuseIf_eq_none_iff_not {b : Bool} {P : Prop} (r : Refusal) (h : b = true ↔ P) :
    refuseIf b r = none ↔ ¬P := by
  rw [refuseIf_eq_none_iff, ← h, Bool.not_eq_true]

/-- The caller holds no unit, or there is no counter (rules R232, R274). -/
theorem not_holdsUnit_iff (s : State) : (!holdsUnit s) = true ↔ s.held = 0 ∨ s.h.tac = none := by
  cases h : s.h.tac <;> simp [holdsUnit, h]

/-- Not operating and no timing cached (rule R212). -/
theorem no_timing_iff (s : State) :
    (!operating s.h && s.h.btCache.isNone) = true ↔ operating s.h = false ∧ s.h.btCache = none := by
  simp

/-- A name is given exactly to the calls that the spec excludes. -/
theorem exclusion_eq_none_iff (s : State) (i : Instr) : exclusion s i = none ↔ ¬Excluded s i := by
  cases i with
  | regwr r v => exact refuseIf_eq_none_iff_not _ (readOnly_regOf r)
  | get p x m => exact refuseIf_eq_none_iff_not _ (hasAny_cmTxrqst m)
  | txsubmit f => exact refuseIf_eq_none_iff_not _ (not_holdsUnit_iff s)
  | start => exact refuseIf_eq_none_iff_not _ (no_timing_iff s)
  | irq | intNone | intStatus | intRxobj | intTxobj | intOther =>
    exact (passRefusal_eq_none_iff s).trans not_not.symm
  | _ => exact iff_of_true rfl not_false

/-- An operation has no reason against it exactly when it is well-formed and not excluded. -/
theorem reasonOf_eq_none_iff (s : State) (i : Instr) :
    reasonOf s i = none ↔ i.WellFormed = true ∧ ¬Excluded s i := by
  cases hi : i.WellFormed with
  | false => simp [reasonOf_illFormed s hi]
  | true => simp [reasonOf_wellFormed s hi, exclusion_eq_none_iff]

/-- What an answered call says of its operands and of the state it started in. -/
theorem exec_next {i : Instr} {s t : State} (h : exec i s = .next t) :
    Ready s ∧ i.WellFormed = true ∧ ¬Excluded s i := by
  obtain ⟨hs, hr⟩ := exec_next_iff.1 ⟨t, h⟩
  exact ⟨hs, (reasonOf_eq_none_iff s i).1 hr⟩

/-- An excluded call whose only name is `r` is refused by it. -/
theorem exec_of_excluded {i : Instr} {s : State} (hs : Ready s) (hi : i.WellFormed = true) (hx : Excluded s i)
    {b : Bool} {r : Refusal} (he : exclusion s i = refuseIf b r) : exec i s = .refused r := by
  have hb : b = true := by
    by_contra hb
    refine (exclusion_eq_none_iff s i).1 ?_ hx
    rw [he, refuseIf_eq_none_iff]
    simpa using hb
  exact exec_of_reason hs ((reasonOf_wellFormed s hi).trans (he.trans (refuseIf_eq_some r hb)))

/-- Settles O14: every operation is an `answer` whose reason is named by `reasonOf`. -/
theorem refusedCalls : Obligations.RefusedCalls := by
  unfold Obligations.RefusedCalls
  intro i s hs
  refine ⟨fun hi => exec_of_reason hs (reasonOf_illFormed s hi), ?_, ?_, ?_, ?_, ?_⟩
  · rw [exec_next_iff, reasonOf_eq_none_iff]
    exact and_iff_right hs
  · rintro f rfl hx
    exact exec_of_excluded hs rfl hx rfl
  · rintro rfl hx
    exact exec_of_excluded hs rfl hx rfl
  · rintro p x m rfl hi hx
    exact exec_of_excluded hs hi hx rfl
  · rintro r v rfl hi hx
    exact exec_of_excluded hs hi hx rfl

end Sys2Proof.Machine
end

section
/-! PROOFS. What an operation may do to the handle (10_state.md rules R20 to R34). -/

namespace Sys2Proof.Machine

/-! The branch of a pass by the class of the value shown (rules R105, R184). -/

/-- A value inside a range of slot indices is none of the values outside it. -/
theorem intIn_ne {lo hi : Nat} {v c : Word} (hv : intIn lo hi v = true) (hc : intIn lo hi c = false) : v ≠ c := by
  rintro rfl
  simp [hv] at hc

theorem passBranch_status (s : State) : passBranch Config.statusSentinel s = stChgOp s := by
  simp [passBranch]

theorem passBranch_rx {v : Word} (hv : intIn Config.rxFirst Config.rxLast v = true) (s : State) :
    passBranch v s = rxDrainOp s := by
  have hs : v ≠ Config.statusSentinel := intIn_ne hv (by decide)
  simp [passBranch, hs, hv]

theorem passBranch_tx {v : Word} (hv : intIn Config.txFirst Config.txLast v = true) (s : State) :
    passBranch v s = loopbackOp (txDrainOp s) := by
  have hs : v ≠ Config.statusSentinel := intIn_ne hv (by decide)
  have hr : intIn Config.rxFirst Config.rxLast v = false := by
    simp only [intIn, decide_eq_true_eq, decide_eq_false_iff_not] at hv ⊢
    simp only [Config.txFirst, Config.rxLast] at hv ⊢
    omega
  simp [passBranch, hs, hr, hv]

theorem passBranch_other {v : Word} (hv : intOtherOk v = true) (s : State) : passBranch v s = s := by
  simp only [intOtherOk, Bool.and_eq_true, bne_iff_ne, Bool.not_eq_true'] at hv
  obtain ⟨⟨⟨-, hs⟩, hr⟩, ht⟩ := hv
  simp [passBranch, hs, hr, ht]

/-! The value a pass reads. -/

theorem takeDevSteps_intNext (l : List DevStep) (s : State) : (takeDevSteps l s).env.intNext = s.env.intNext := by
  induction l generalizing s with
  | nil => rfl
  | cons a l ih => exact ih (takeDevStep a s)

/-- The device's own steps leave the value the environment names for `INT`. -/
theorem interleave_intNext (s : State) : (interleave s).env.intNext = s.env.intNext := by
  unfold interleave
  split
  · exact takeDevSteps_intNext _ _
  · split
    · exact takeDevSteps_intNext _ _
    · rfl

/-- A read of `INT` returns the value the environment names (rule R121). -/
theorem readReg_int_given {s : State} {v : Word} (hv : s.env.intNext = some v) : (readReg .int s).1 = v := by
  have h : (sampleInt (interleave s)).1 = v := by
    unfold sampleInt
    rw [interleave_intNext, hv]
  exact h

/-! The handle after a pass. -/

/-- The state in which a pass makes its branch: past the read of `INT` and the entry (rule R180). -/
def branchStart (s : State) : State := enterPass (readReg .int s).2

theorem branchStart_h (s : State) : (branchStart s).h = { s.h with phase := .locked, lock := .pass } := by
  rw [branchStart, (enterPass_spec _).1, readReg_h]

/-- A pass that reads 0 leaves the handle (rule R181). -/
theorem passOp_h_none {s : State} (hv : (readReg .int s).1 = 0) : (passOp s).h = s.h := by
  simp [passOp, hv]

/-- A pass that is handled frees the lock, and of the handle it changes besides what its branch changes (rules R180, R187,
R227). -/
theorem passOp_h_handled {s : State} {v : Word} (hp : s.h.phase = .idle) (hv : (readReg .int s).1 = v) (h0 : v ≠ 0#16) :
    (passOp s).h =
      { s.h with
        state := (passBranch v (branchStart s)).h.state
        lastStatus := (passBranch v (branchStart s)).h.lastStatus
        txEcho := (passBranch v (branchStart s)).h.txEcho
        tac := (passBranch v (branchStart s)).h.tac
        lock := .free } := by
  have he : (passOp s).h = (exitPass (passBranch v (branchStart s))).h := by
    simp only [passOp, hv, beq_iff_eq, if_neg h0, withResult_h, branchStart]
  rw [he, (exitPass_spec _).1, (passBranch_keeps v (branchStart s)).handle, branchStart_h, ← hp]

/-! What each operation may do to the handle. -/

/-- The change an operation may make to the handle: one constructor per operation that writes it, with the fields it may
write. The phase and the configuration are never among them (rules R8, R30). -/
inductive HandleStep (h : Handle) : Instr → Handle → Prop
  | same (i) : HandleStep h i h
  | start (st n e tac reg) :
      HandleStep h .start { h with state := st, txNext := n, txEcho := e, tac := tac, irqRegistered := reg }
  | stop (st tac reg) : HandleStep h .stop { h with state := st, tac := tac, irqRegistered := reg }
  | txsubmit (f n) : HandleStep h (.txsubmit f) { h with txNext := n }
  | txdrain (e tac) : HandleStep h .txdrain { h with txEcho := e, tac := tac }
  | cfgbt (b c) : HandleStep h (.cfgbt b) { h with btCache := c }
  | tacacq (tac) : HandleStep h .tacacq { h with tac := tac }
  | tacrel (tac) : HandleStep h .tacrel { h with tac := tac }
  | tacabandon (tac) : HandleStep h .tacabandon { h with tac := tac }
  | stchg (st ls tac) : HandleStep h .stchg { h with state := st, lastStatus := ls, tac := tac }
  | stenter (x st tac) : HandleStep h (.stenter x) { h with state := st, tac := tac }
  | irq (st ls e tac lk) :
      HandleStep h .irq { h with state := st, lastStatus := ls, txEcho := e, tac := tac, lock := lk }
  | intStatus (st ls tac lk) :
      HandleStep h .intStatus { h with state := st, lastStatus := ls, tac := tac, lock := lk }
  | intRxobj (x lk) : HandleStep h (.intRxobj x) { h with lock := lk }
  | intTxobj (x e tac lk) : HandleStep h (.intTxobj x) { h with txEcho := e, tac := tac, lock := lk }
  | intOther (v lk) : HandleStep h (.intOther v) { h with lock := lk }

theorem HandleStep.of_eq {h k : Handle} (i : Instr) (e : k = h) : HandleStep h i k := e ▸ .same i

/-- An operation changes the handle as the state it answers with says. -/
theorem HandleStep.of_answer {i : Instr} {s u t : State} {r : Option Refusal} (h : answer s r u = .next t)
    (k : HandleStep s.h i u.h) : HandleStep s.h i t.h :=
  (answer_eq_next_iff.1 h).2.2 ▸ k

/-- An operation that keeps the block's own state keeps the handle. -/
theorem HandleStep.of_block {i : Instr} {s u t : State} {r : Option Refusal} {x : Result}
    (h : answer s r (withResult x u) = .next t) (k : KeepsBlock s u) : HandleStep s.h i t.h :=
  .of_answer h (.of_eq i k.1)

/-- An operation of the receive side, which may touch the delivery locks besides, keeps the handle too. -/
theorem HandleStep.of_rx {i : Instr} {s u t : State} {r : Option Refusal} {x : Result}
    (h : answer s r (withResult x u) = .next t) (k : RxKeeps s u) : HandleStep s.h i t.h :=
  .of_answer h (.of_eq i k.handle)

theorem startOp_handleStep (s : State) : HandleStep s.h .start (startOp s).h := by
  unfold startOp
  split
  · exact .same _
  · split
    · rename_i b _
      cases hr : (registerHandler s).1 with
      | true => rw [(startWith_registered b hr).1]; exact .start _ _ _ _ _
      | false => exact .of_eq _ (startWith_unavailable b hr).1
    · exact .same _

theorem stopOp_handleStep (s : State) : HandleStep s.h .stop (stopOp s).h := by
  by_cases ho : operating s.h = true
  · rw [(stopOp_operating ho).1]; exact .stop _ _ _
  · exact .of_eq _ (by simp [stopOp, ho])

theorem txSubmitOp_handleStep (f : Frame) (s : State) : HandleStep s.h (.txsubmit f) (txSubmitOp f s).h := by
  have hl := (loadFrame_block Config.defaultPort (txSlot s.h.txNext) (encodeFrame f) s).1
  have : (txSubmitOp f s).h = { s.h with txNext := s.h.txNext + 1 } := by simp [txSubmitOp, setTxNext, hl]
  rw [this]; exact .txsubmit _ _

theorem tacAcqOp_handleStep (s : State) : HandleStep s.h .tacacq (tacAcqOp s).h := by
  unfold tacAcqOp
  split
  · exact .same _
  · exact .same _
  · exact .tacacq _

theorem stEnterOp_handleStep (x : BitVec 2) (s : State) :
    HandleStep s.h (.stenter x) (stEnterOp (targetOf x) s).h := by
  rw [(stEnterOp_spec _ s).1]
  cases targetOf x <;> exact .stenter _ _ _

/-- A pass with any value (rule R180). -/
theorem passOp_handleStep {s : State} (hp : s.h.phase = .idle) : HandleStep s.h .irq (passOp s).h := by
  by_cases h0 : (readReg .int s).1 = 0
  · exact .of_eq _ (passOp_h_none h0)
  · rw [passOp_h_handled hp rfl h0]; exact .irq _ _ _ _ _

section
/-! A pass by the class of its value: `s` with the value named for the next read of `INT`. -/
variable {s : State} (hp : s.h.phase = .idle)
include hp

/-- The handle after `passWith`, for a value other than 0. -/
theorem passWith_h {v : Word} (h0 : v ≠ 0#16) :
    ∃ w : State, w.h = { s.h with phase := .locked, lock := .pass } ∧
      (passWith v s).h =
        { s.h with
          state := (passBranch v w).h.state
          lastStatus := (passBranch v w).h.lastStatus
          txEcho := (passBranch v w).h.txEcho
          tac := (passBranch v w).h.tac
          lock := .free } :=
  ⟨branchStart { s with env := { s.env with intNext := some v } }, branchStart_h _,
    passOp_h_handled hp (readReg_int_given rfl) h0⟩

theorem passWith_handleStep_status : HandleStep s.h .intStatus (passWith Config.statusSentinel s).h := by
  obtain ⟨w, hw, he⟩ := passWith_h hp (v := Config.statusSentinel) (by decide)
  have hb : (passBranch Config.statusSentinel w).h.txEcho = s.h.txEcho := by
    rw [passBranch_status, (stChgOp_st w).handle, hw]
  rw [he, hb]
  exact .intStatus _ _ _ _

theorem passWith_handleStep_rx {x : BitVec 6} (hx : Instr.WellFormed (.intRxobj x) = true) :
    HandleStep s.h (.intRxobj x) (passWith (x.setWidth 16) s).h := by
  have hx : intIn Config.rxFirst Config.rxLast (x.setWidth 16) = true := hx
  obtain ⟨w, hw, he⟩ := passWith_h hp (intIn_ne hx (by decide))
  rw [he, passBranch_rx hx, (rxDrainOp_rx w).handle, hw]
  exact .intRxobj _ _

theorem passWith_handleStep_tx {x : BitVec 6} (hx : Instr.WellFormed (.intTxobj x) = true) :
    HandleStep s.h (.intTxobj x) (passWith (x.setWidth 16) s).h := by
  have hx : intIn Config.txFirst Config.txLast (x.setWidth 16) = true := hx
  obtain ⟨w, hw, he⟩ := passWith_h hp (intIn_ne hx (by decide))
  rw [he, passBranch_tx hx, (loopbackOp_rx _).handle, (txDrainOp_tx w).handle, hw]
  exact .intTxobj _ _ _ _

theorem passWith_handleStep_other {v : Word} (hv : Instr.WellFormed (.intOther v) = true) :
    HandleStep s.h (.intOther v) (passWith v s).h := by
  have hv : intOtherOk v = true := hv
  have h0 : v ≠ 0#16 := by rintro rfl; exact absurd hv (by decide)
  obtain ⟨w, hw, he⟩ := passWith_h hp h0
  rw [he, passBranch_other hv, hw]
  exact .intOther _ _

end

/-- A pass that is not excluded begins between passes (rule R180). -/
theorem phase_idle_of_not_excluded {s : State} (h : ¬¬PassReady s) : s.h.phase = .idle := (not_not.1 h).2

/-- What an operation may do to the handle, over all operations (rules R8, R20, R26 to R34, R187, R195, R196, R244). Where
an operation has no reason of refusal at all, `r := none` says so: the unifier would unfold the `answer` before it finds
it. -/
theorem exec_handleStep {i : Instr} {s t : State} (h : exec i s = .next t) : HandleStep s.h i t.h := by
  obtain ⟨-, hwf, hx⟩ := exec_next h
  cases i with
  | regrd r => exact .of_block h (readReg_block _ s)
  | regwr r v => exact .of_block h (writeReg_block _ v s)
  | regrd32 r => exact .of_block h (readComposite_block _ s)
  | get p x m => exact .of_block h (getXfer_block p _ _ s)
  | put p x m => exact .of_block h (putXfer_block p _ _ s)
  | encode f => exact .of_block (r := none) h (KeepsBlock.refl s)
  | decode p => exact .of_block (r := none) h (decodePort_block p _ s)
  | inval p x => exact .of_block h (invalOp_block p _ s)
  | rxcfg p x mask idw mcont => exact .of_block h (rxcfgOp_block p _ mask idw mcont s)
  | txsubmit f => exact .of_answer h (txSubmitOp_handleStep f s)
  | txdrain => exact .of_answer (r := none) h (by rw [withResult_h, (txDrainOp_tx s).handle]; exact .txdrain _ _)
  | rxdrain => exact .of_rx (r := none) h (rxDrainOp_rx s)
  | rxlost p x c => exact .of_rx h (rxLostOp_rx p _ c s)
  | rxmark p x c => exact .of_block h (rxMarkOp_block p _ c s)
  | rxact p x c => exact .of_block h (rxActOp_block p _ c s)
  | rxactlow p c => exact .of_block (r := none) h (rxActLowOp_block p c s)
  | irq => exact .of_answer h (passOp_handleStep (phase_idle_of_not_excluded hx))
  | ieall e => exact .of_block (r := none) h (ieAll_block e s)
  | stchg => exact .of_answer (r := none) h (by rw [withResult_h, (stChgOp_st s).handle]; exact .stchg _ _ _)
  | stenter x => exact .of_answer h (stEnterOp_handleStep x s)
  | lecdec lec => exact .of_rx (r := none) h (lecDecOp_rx lec s)
  | btcalc b => exact .of_block h (KeepsBlock.refl s)
  | btapply b => exact .of_block h (btApplyOp_block b s)
  | cfgbt b => exact .of_answer h (.cfgbt b _)
  | btdecode btr brpext => exact .of_block (r := none) h (KeepsBlock.refl s)
  | start => exact .of_answer h (startOp_handleStep s)
  | stop => exact .of_answer (r := none) h (stopOp_handleStep s)
  | chipcfg => exact .of_block (r := none) h ((timingToApply_block s).trans (chipCfgOp_block _ _))
  | tacacq => exact .of_answer (r := none) h (tacAcqOp_handleStep s)
  | tacrel => exact .of_answer (r := none) h (by rw [withResult_h, (tacRel_spec s).1]; exact .tacrel _)
  | tacabandon => exact .of_answer (r := none) h (.tacabandon _)
  | intNone => exact .of_answer h (.of_eq _ (passOp_h_none (readReg_int_given rfl)))
  | intStatus => exact .of_answer h (passWith_handleStep_status (phase_idle_of_not_excluded hx))
  | intRxobj x => exact .of_answer h (passWith_handleStep_rx (phase_idle_of_not_excluded hx) hwf)
  | intTxobj x => exact .of_answer h (passWith_handleStep_tx (phase_idle_of_not_excluded hx) hwf)
  | intOther v => exact .of_answer h (passWith_handleStep_other (phase_idle_of_not_excluded hx) hwf)

/-- Settles O13: the writers of each field are read off the constructors of `HandleStep`. -/
theorem handleFieldWriters : Obligations.HandleFieldWriters := by
  unfold Obligations.HandleFieldWriters SameConfig
  intro i s t h
  have hs := exec_handleStep h
  generalize t.h = k at hs ⊢
  cases hs <;> simp

/-- No operation changes the configuration (rule R8). -/
theorem HandleStep.sameConfig {i : Instr} {s t : State} (h : HandleStep s.h i t.h) : SameConfig s t := by
  unfold SameConfig
  generalize t.h = k at h ⊢
  cases h <;> exact ⟨rfl, rfl, rfl, rfl, rfl⟩

end Sys2Proof.Machine
end

section
/-! PROOFS. What a step does with the head of the schedule (00_scope.md rule R12), and what it may do to the handle. -/

namespace Sys2Proof.Machine

/-! The head of the schedule. -/

/-- The state with the head of its schedule taken. -/
def withRest (rest : List AgentStep) (s : State) : State := { s with env := { s.env with agenda := rest } }

theorem fetch_head {s : State} {a : AgentStep} {rest : List AgentStep} (h : s.env.agenda = a :: rest) :
    fetch s = moveOf a (withRest rest s) := by
  simp only [fetch, h, withRest]

theorem step_of_run {s t : State} {i : Instr} (h : fetch s = .run i t) : step s = exec i t := by
  simp only [step, h]

theorem step_of_moved {s t : State} (h : fetch s = .moved t) : step s = .next t := by
  simp only [step, h]

theorem step_of_stop {s : State} {r : Refusal} (h : fetch s = .stop r) : step s = .refused r := by
  simp only [step, h]

/-- A word the block gives itself runs what it decodes to (rule R113). -/
theorem fromBlock_ok {w : CmdWord} {i : Instr} (h : decodeCmd w = .ok i) (s : State) : fromBlock w s = .run i s := by
  simp only [fromBlock, h]

theorem fromBlock_error {w : CmdWord} {e : DecodeError} (h : decodeCmd w = .error e) (s : State) :
    fromBlock w s = .stop (decodeRefusal e) := by
  simp only [fromBlock, h]

/-- The command port runs external operations only (rule R118). -/
theorem fromPort_ok {w : CmdWord} {i : Instr} (h : decodeCmd w = .ok i) (s : State) :
    fromPort w s = if external i then .run i s else .stop .internalAtPort := by
  simp only [fromPort, h]

theorem fromPort_error {w : CmdWord} {e : DecodeError} (h : decodeCmd w = .error e) (s : State) :
    fromPort w s = .stop (decodeRefusal e) := by
  simp only [fromPort, h]

/-- The second half of `SEND` is a word at the command port after `Acquired`, and nothing otherwise (rule R122). -/
theorem moveOf_ifAcquired (w : CmdWord) (s : State) :
    moveOf (.ifAcquired w) s = if s.result = .acquired then fromPort w s else .moved s := by
  simp only [moveOf, beq_iff_eq]

/-- A step that takes a word at the command port, by what the word decodes to. -/
theorem step_of_port {s t : State} {w : CmdWord} {i : Instr} (h : fetch s = fromPort w t) (hd : decodeCmd w = .ok i) :
    step s = if external i then exec i t else .refused .internalAtPort := by
  rw [fromPort_ok hd] at h
  cases he : external i with
  | true => exact step_of_run (by simpa [he] using h)
  | false => exact step_of_stop (by simpa [he] using h)

/-- A step that takes a word which names no operation, wherever it is given. -/
theorem step_of_illegal {s t : State} {w : CmdWord} {e : DecodeError}
    (h : fetch s = fromPort w t ∨ fetch s = fromBlock w t) (hd : decodeCmd w = .error e) :
    step s = .refused (decodeRefusal e) := by
  rw [fromPort_error hd, fromBlock_error hd, or_self] at h
  exact step_of_stop h

theorem takeGlobal_dispatch (g : Globals) :
    takeGlobal .dispatch g = { g with dispatch := if g.dispatch = .free then .other else g.dispatch } := by
  by_cases h : g.dispatch = .free <;> simp [takeGlobal, h]

theorem takeGlobal_socket (g : Globals) :
    takeGlobal .socket g = { g with socket := if g.socket = .free then .other else g.socket } := by
  by_cases h : g.socket = .free <;> simp [takeGlobal, h]

theorem giveGlobal_dispatch (g : Globals) :
    giveGlobal .dispatch g = { g with dispatch := if g.dispatch = .other then .free else g.dispatch } := by
  by_cases h : g.dispatch = .other <;> simp [giveGlobal, h]

theorem giveGlobal_socket (g : Globals) :
    giveGlobal .socket g = { g with socket := if g.socket = .other then .free else g.socket } := by
  by_cases h : g.socket = .other <;> simp [giveGlobal, h]

/-- With the schedule at its end the deterministic run stays put (rule R253). -/
theorem fetch_end {s : State} (h : s.env.agenda = []) (hf : s.env.free = false) : fetch s = .moved s := by
  simp only [fetch, h, hf, Bool.false_eq_true, if_false]

/-- Settles O6: the fetch of the head, and then what its kind of move does. -/
theorem stepRunsTheMove : Obligations.StepRunsTheMove := by
  unfold Obligations.StepRunsTheMove
  intro s rest t
  have acquired : ∀ w, s.env.agenda = .ifAcquired w :: rest → s.result = .acquired → fetch s = fromPort w t :=
    fun w ha hr => (fetch_head ha).trans ((moveOf_ifAcquired w t).trans (if_pos hr))
  refine ⟨fun w i ha hd => step_of_run ((fetch_head ha).trans (fromBlock_ok hd t)), fun w i ha hd he => ?_,
    fun w i ha hd he => ?_, fun w i ha hr hd => step_of_port (acquired w ha hr) hd, fun w ha => ?_, fun w ha hr => ?_,
    fun ha => step_of_run (fetch_head ha), fun v ha => step_of_run (fetch_head ha),
    fun d ha => step_of_moved (fetch_head ha), fun l ha => ?_, fun l ha => ?_,
    fun ha hf => step_of_moved (fetch_end ha hf)⟩
  · rw [step_of_port (fetch_head ha) hd, if_pos he]; rfl
  · rw [step_of_port (fetch_head ha) hd, he]; rfl
  · have hw : fetch s = fromPort w t ∨ fetch s = fromBlock w t := by
      rcases ha with ha | ha | ⟨ha, hr⟩
      · exact .inl (fetch_head ha)
      · exact .inr (fetch_head ha)
      · exact .inl (acquired w ha hr)
    exact ⟨fun c hd => step_of_illegal hw hd, fun hd => step_of_illegal hw hd⟩
  · exact step_of_moved ((fetch_head ha).trans ((moveOf_ifAcquired w t).trans (if_neg hr)))
  · rw [step_of_moved (fetch_head ha)]
    cases l
    · rw [takeGlobal_dispatch]; rfl
    · rw [takeGlobal_socket]; rfl
  · rw [step_of_moved (fetch_head ha)]
    cases l
    · rw [giveGlobal_dispatch]; rfl
    · rw [giveGlobal_socket]; rfl

/-! What a step may do to the handle. -/

/-- A word at the command port is refused, or runs on the state it found. -/
theorem fromPort_cases (w : CmdWord) (s : State) :
    (∃ r, fromPort w s = .stop r) ∨ ∃ i, fromPort w s = .run i s := by
  cases hd : decodeCmd w with
  | error e => exact .inl ⟨_, fromPort_error hd s⟩
  | ok i =>
    rw [fromPort_ok hd]
    cases external i
    · exact .inl ⟨_, rfl⟩
    · exact .inr ⟨_, rfl⟩

/-- A move is refused, or runs an operation on the state it found, or is one that leaves the handle. -/
theorem moveOf_cases (a : AgentStep) (s : State) :
    (∃ r, moveOf a s = .stop r) ∨ (∃ i, moveOf a s = .run i s) ∨ ∃ u, moveOf a s = .moved u ∧ u.h = s.h := by
  cases a with
  | host w => exact (fromPort_cases w s).imp_right .inl
  | ifAcquired w =>
    rw [moveOf_ifAcquired]
    split
    · exact (fromPort_cases w s).imp_right .inl
    · exact .inr (.inr ⟨s, rfl, rfl⟩)
  | block w =>
    cases hd : decodeCmd w with
    | error e => exact .inl ⟨_, fromBlock_error hd s⟩
    | ok i => exact .inr (.inl ⟨i, fromBlock_ok hd s⟩)
  | line => exact .inr (.inl ⟨_, rfl⟩)
  | lineInt v => exact .inr (.inl ⟨_, rfl⟩)
  | dev d => exact .inr (.inr ⟨_, rfl, rfl⟩)
  | take l => exact .inr (.inr ⟨_, rfl, rfl⟩)
  | give l => exact .inr (.inr ⟨_, rfl, rfl⟩)

/-- The next move, scheduled or free, is one move on a state with the same handle, or the run stays put. -/
theorem fetch_cases (s : State) : (∃ a u, u.h = s.h ∧ fetch s = moveOf a u) ∨ fetch s = .moved s := by
  cases ha : s.env.agenda with
  | cons a rest => exact .inl ⟨a, withRest rest s, rfl, fetch_head ha⟩
  | nil =>
    cases hf : s.env.free with
    | false => exact .inr (fetch_end ha hf)
    | true => exact .inl ⟨Config.freeAgent s.env.draws, countDraw s, rfl, by simp only [fetch, ha, hf, if_true]⟩

/-- A step that answers runs one operation on a state with the same handle, or leaves the handle. -/
theorem step_cases {s t : State} (h : step s = .next t) :
    (∃ i u, u.h = s.h ∧ exec i u = .next t) ∨ t.h = s.h := by
  obtain ⟨a, u, hu, hf⟩ | hf := fetch_cases s
  · obtain ⟨r, hm⟩ | ⟨i, hm⟩ | ⟨v, hm, hv⟩ := moveOf_cases a u
    · rw [step_of_stop (hf.trans hm)] at h; cases h
    · rw [step_of_run (hf.trans hm)] at h; exact .inl ⟨i, u, hu, h⟩
    · rw [step_of_moved (hf.trans hm)] at h; cases h; exact .inr (hv.trans hu)
  · rw [step_of_moved hf] at h; cases h; exact .inr rfl

/-- Settles O11: an operation keeps the configuration, and every other move keeps the handle. -/
theorem configurationIsFixed : Obligations.ConfigurationIsFixed := by
  unfold Obligations.ConfigurationIsFixed
  intro s t h
  obtain ⟨i, u, hu, he⟩ | he := step_cases h
  · have hc := (exec_handleStep he).sameConfig
    simpa only [SameConfig, hu] using hc
  · simp [SameConfig, he]

end Sys2Proof.Machine
end

section
/-! PROOFS. What every step keeps of the block's own state (10_state.md): an operation outside a pass and a pass are
looked at once each, for the locks and for the admission counter; the other moves touch the global locks alone. -/

namespace Sys2Proof.Machine

/-- Settles O7: every field is written out in `Handle.attach`. -/
theorem resetAtAttach : Obligations.ResetAtAttach := by
  have between : BetweenPasses State.reset := ⟨rfl, rfl, nofun, nofun⟩
  have lifetime : AdmissionLifetime State.reset := ⟨fun _ => rfl, nofun⟩
  exact ⟨rfl, rfl, rfl, rfl, rfl, rfl, rfl, rfl, rfl, rfl, rfl, ⟨nofun, rfl⟩, between, lifetime, nofun⟩

/-! The operating state and the admission counter. -/

theorem operating_iff (h : Handle) :
    operating h = true ↔ h.state = .errorActive ∨ h.state = .errorWarning ∨ h.state = .errorPassive := by
  simp [operating, or_assoc]

/-- Whether a handle is operating is a matter of its state. -/
theorem operating_congr {h k : Handle} (e : k.state = h.state) : operating k = operating h := by
  simp only [operating, e]

theorem ne_sleeping_of_operating {h : Handle} (ho : operating h = true) : h.state ≠ .sleeping := by
  intro hs
  simp [operating_iff, hs] at ho

/-- What anything the block does may do to the operating state, the counter and the host's count: the state is left for
an operating one, or for one without a counter that is not `Sleeping`; a counter is made in an operating state only; and
units are held of a counter, or are left over where there was none before (rules R26, R27, R32, R274). -/
structure AdmissionStep (s t : State) : Prop where
  state : t.h.state = s.h.state ∨ operating t.h = true ∨ t.h.state ≠ .sleeping ∧ t.h.tac = none
  counter : t.h.tac ≠ none → s.h.tac ≠ none ∨ operating t.h = true
  units : 0 < t.held → t.h.tac ≠ none ∨ 0 < s.held ∧ s.h.tac = none

namespace AdmissionStep

/-- The state and the existence of the counter are kept, and no unit is added. -/
theorem of_kept {s t : State} (hs : t.h.state = s.h.state) (hc : t.h.tac.isSome = s.h.tac.isSome)
    (hu : t.held ≤ s.held) : AdmissionStep s t where
  state := .inl hs
  counter ht := .inl (by rwa [← Option.isSome_iff_ne_none, ← hc, Option.isSome_iff_ne_none])
  units h := by
    cases ht : s.h.tac with
    | none => exact .inr ⟨by omega, rfl⟩
    | some n => exact .inl (by rw [← Option.isSome_iff_ne_none, hc, ht]; rfl)

/-- The counter is gone, and every unit of it. -/
theorem of_abandoned {s t : State} (hs : t.h.state = s.h.state ∨ t.h.state ≠ .sleeping) (hc : t.h.tac = none)
    (hu : t.held = 0) : AdmissionStep s t where
  state := hs.imp_right fun h => .inr ⟨h, hc⟩
  counter h := absurd hc h
  units h := absurd hu h.ne'

/-- The state becomes an operating one, and the counter and the units are kept. -/
theorem of_operating {s t : State} (ho : operating t.h = true) (hc : t.h.tac = s.h.tac) (hu : t.held = s.held) :
    AdmissionStep s t where
  state := .inr (.inl ho)
  counter _ := .inr ho
  units h := by
    cases ht : s.h.tac with
    | none => exact .inr ⟨hu ▸ h, rfl⟩
    | some n => exact .inl (by simp [hc, ht])

theorem trans {s t u : State} (a : AdmissionStep s t) (b : AdmissionStep t u) : AdmissionStep s u := by
  have counter (h : u.h.tac ≠ none) : s.h.tac ≠ none ∨ operating u.h = true := by
    obtain ht | ho := b.counter h
    · refine (a.counter ht).imp_right fun ho => ?_
      obtain he | hu | ⟨-, hn⟩ := b.state
      · rwa [operating_congr he]
      · exact hu
      · exact absurd hn h
    · exact .inr ho
  refine ⟨?_, counter, fun h => ?_⟩
  · obtain he | hu := b.state
    · obtain ha | ho | ⟨hs, hn⟩ := a.state
      · exact .inl (he.trans ha)
      · exact .inr (.inl ((operating_congr he).trans ho))
      · refine .inr (or_iff_not_imp_right.2 fun hk => ?_)
        exact (b.counter fun hu => hk ⟨he ▸ hs, hu⟩).resolve_left (· hn)
    · exact .inr hu
  · obtain hu | ⟨hp, hn⟩ := b.units h
    · exact .inl hu
    · exact .inr ((a.units hp).resolve_left (· hn))

theorem refl (s : State) : AdmissionStep s s := of_kept rfl rfl le_rfl

theorem withResult {s t : State} (a : AdmissionStep s t) (x : Result) : AdmissionStep s (withResult x t) :=
  ⟨a.state, a.counter, a.units⟩

/-- `Sleeping` is not entered (rule R27). -/
theorem ne_sleeping {s t : State} (a : AdmissionStep s t) (h : s.h.state ≠ .sleeping) : t.h.state ≠ .sleeping := by
  obtain he | ho | hn := a.state
  · rwa [he]
  · exact ne_sleeping_of_operating ho
  · exact hn.1

/-- The counter's lifetime is kept (rules R32, R240, R274). -/
theorem keeps {s t : State} (a : AdmissionStep s t) (h : AdmissionLifetime s) : AdmissionLifetime t := by
  obtain ⟨h1, h2⟩ := h
  refine ⟨fun hn => ?_, fun hp => ?_⟩
  · by_contra ht
    obtain hs | ho := a.counter ht
    · obtain he | ho | hg := a.state
      · exact hs (h1 ((operating_congr he).symm.trans hn))
      · simp [ho] at hn
      · exact ht hg.2
    · simp [ho] at hn
  · obtain ht | ⟨hq, hs⟩ := a.units hp
    · exact ht
    · exact absurd hs (h2 hq)

end AdmissionStep

theorem RxKeeps.admission {s t : State} (k : RxKeeps s t) : AdmissionStep s t :=
  .of_kept (by rw [k.handle]) (by rw [k.handle]) k.held.le

theorem TxKeeps.admission {s t : State} (k : TxKeeps s t) : AdmissionStep s t :=
  .of_kept (by rw [k.handle]) k.exists_iff k.held.le

/-! The status branch (rules R190 to R194). -/

theorem stEnterOp_admission (x : ErrState) (s : State) : AdmissionStep s (stEnterOp x s) := by
  obtain ⟨hh, hu, -, -⟩ := stEnterOp_spec x s
  cases x with
  | warning => exact .of_operating (by rw [hh]; rfl) (by rw [hh]) hu
  | passive => exact .of_operating (by rw [hh]; rfl) (by rw [hh]) hu
  | busOff => exact .of_abandoned (.inr (by rw [hh]; nofun)) (by rw [hh]) hu

theorem runIf_admission (b : Bool) {f : State → State} (h : ∀ s, AdmissionStep s (f s)) (s : State) :
    AdmissionStep s (runIf b f s) := by
  cases b
  · exact .refl s
  · exact h s

theorem statusEdges_admission (cur old : Word) (s : State) : AdmissionStep s (statusEdges cur old s) :=
  have recover (s : State) : AdmissionStep s (setOpState .errorActive s) := .of_operating rfl rfl rfl
  ((((runIf_admission _ (stEnterOp_admission .warning) s).trans
    (runIf_admission _ (stEnterOp_admission .passive) _)).trans
    (runIf_admission _ (stEnterOp_admission .busOff) _)).trans (runIf_admission _ recover _)).trans
    (runIf_admission _ recover _)

theorem stChgOp_admission (s : State) : AdmissionStep s (stChgOp s) := by
  have start := ((readReg_block .sts s).trans (clearOkFlags_block (readReg .sts s).1 (readReg .sts s).2)).rx.admission
  have snapshot (v : Word) (t : State) : AdmissionStep t (setLastStatus v t) := .of_kept rfl rfl le_rfl
  exact ((start.trans (statusEdges_admission _ _ _)).trans (snapshot _ _)).trans (lecDecOp_rx _ _).admission

/-! An operation outside a pass. -/

/-- What an operation that is not a pass may do: it changes neither the phase nor `h.lock`, and the global locks only as a
delivery does (rules R30, R186). -/
structure OutsidePass (s t : State) : Prop where
  phase : t.h.phase = s.h.phase
  lock : t.h.lock = s.h.lock
  locks : LocksStep s t
  admission : AdmissionStep s t

theorem OutsidePass.withResult {s t : State} (k : OutsidePass s t) (x : Result) : OutsidePass s (withResult x t) :=
  ⟨k.phase, k.lock, k.locks, k.admission.withResult x⟩

/-- An operation outside a pass keeps that no pass is in progress and none holds a lock. -/
theorem OutsidePass.betweenPasses {s t : State} (k : OutsidePass s t) (h : BetweenPasses s) : BetweenPasses t := by
  obtain ⟨hp, hl, hg⟩ := h
  have same : t.g = s.g := k.locks.1 (by rw [hp]; nofun)
  exact ⟨k.phase.trans hp, k.lock.trans hl, by rwa [same]⟩

theorem RxKeeps.outside {s t : State} (k : RxKeeps s t) : OutsidePass s t :=
  ⟨by rw [k.handle], by rw [k.handle], k.locks, k.admission⟩

theorem TxKeeps.outside {s t : State} (k : TxKeeps s t) : OutsidePass s t :=
  ⟨by rw [k.handle], by rw [k.handle], .of_eq k.globals, k.admission⟩

theorem StKeeps.outside {s t : State} (k : StKeeps s t) (a : AdmissionStep s t) : OutsidePass s t :=
  ⟨k.phase, by rw [k.handle], k.locks, a⟩

theorem txSubmitOp_outside (f : Frame) (s : State) : OutsidePass s (txSubmitOp f s) := by
  obtain ⟨hh, hg, hu, -⟩ := loadFrame_block Config.defaultPort (txSlot s.h.txNext) (encodeFrame f) s
  have handle : (txSubmitOp f s).h = { s.h with txNext := s.h.txNext + 1 } := by simp [txSubmitOp, setTxNext, hh]
  have count : (txSubmitOp f s).held ≤ s.held := by simp [txSubmitOp, setTxNext, hu]
  exact ⟨by rw [handle], by rw [handle], .of_eq hg, .of_kept (by rw [handle]) (by rw [handle]) count⟩

theorem startOp_outside (s : State) : OutsidePass s (startOp s) := by
  unfold startOp
  split
  · exact (RxKeeps.refl s).outside.withResult _
  · split
    · rename_i b _
      cases hr : (registerHandler s).1 with
      | true =>
        obtain ⟨hh, hg, hu, -⟩ := startWith_registered b hr
        have ho : operating (startWith b s).h = true := by rw [hh]; rfl
        refine ⟨by rw [hh]; rfl, by rw [hh]; rfl, .of_eq hg, .inr (.inl ho), fun _ => .inr ho, fun h => ?_⟩
        exact absurd hu h.ne'
      | false =>
        obtain ⟨hh, hg, hu, -⟩ := startWith_unavailable b hr
        exact ⟨by rw [hh], by rw [hh], .of_eq hg, .of_kept (by rw [hh]) (by rw [hh]) hu.le⟩
    · exact (RxKeeps.refl s).outside

theorem stopOp_outside (s : State) : OutsidePass s (stopOp s) := by
  by_cases ho : operating s.h = true
  · obtain ⟨hh, hg, hu, -⟩ := stopOp_operating ho
    exact ⟨by rw [hh], by rw [hh], .of_eq hg, .of_abandoned (.inr (by rw [hh]; nofun)) (by rw [hh]) hu⟩
  · have same : stopOp s = s := by simp [stopOp, ho]
    rw [same]
    exact (RxKeeps.refl s).outside

theorem tacAcqOp_outside (s : State) : OutsidePass s (tacAcqOp s) := by
  unfold tacAcqOp
  split
  · exact (RxKeeps.refl s).outside.withResult _
  · exact (RxKeeps.refl s).outside.withResult _
  · rename_i n hn
    have exists_before : s.h.tac ≠ none := by rw [hn]; nofun
    exact ⟨rfl, rfl, .of_eq rfl, .inl rfl, fun _ => .inl exists_before, fun _ => .inl (Option.some_ne_none n)⟩

theorem tacAbandon_outside (s : State) : OutsidePass s (tacAbandon s) :=
  ⟨rfl, rfl, .of_eq rfl, .of_abandoned (.inl rfl) rfl rfl⟩

/-! A pass. -/

theorem passBranch_admission (v : Word) (s : State) : AdmissionStep s (passBranch v s) := by
  unfold passBranch
  split
  · exact stChgOp_admission s
  · split
    · exact (rxDrainOp_rx s).admission
    · split
      · exact (txDrainOp_tx s).admission.trans (loopbackOp_rx _).admission
      · exact .refl s

/-- A pass does to the counter what its branch does: neither its entry nor its exit touches it. -/
theorem passOp_admission (s : State) : AdmissionStep s (passOp s) := by
  have read := (readReg_block .int s).rx.admission
  simp only [passOp]
  split
  · exact read.withResult _
  · generalize (readReg .int s).1 = v
    generalize (readReg .int s).2 = w at read ⊢
    obtain ⟨eh, -, eu, -⟩ := enterPass_spec w
    obtain ⟨xh, -, xu, -⟩ := exitPass_spec (passBranch v (enterPass w))
    have entry : AdmissionStep w (enterPass w) := .of_kept (by rw [eh]) (by rw [eh]) eu.le
    have exit : AdmissionStep _ (exitPass (passBranch v (enterPass w))) := .of_kept (by rw [xh]) (by rw [xh]) xu.le
    exact ((read.trans entry).trans (passBranch_admission v _)).trans exit |>.withResult _

/-- The exit of a pass frees what the pass holds, where the delivery locks are held together (rules R180, R186). -/
theorem exitPass_betweenPasses {s : State} (h : Paired s.g) : BetweenPasses (exitPass s) := by
  obtain ⟨hh, hg, -, -⟩ := exitPass_spec s
  refine ⟨by rw [hh], by rw [hh], ?_⟩
  rw [hg]
  split
  · exact ⟨nofun, nofun⟩
  · rename_i hd
    exact ⟨hd, fun hs => hd (h hs)⟩

theorem passOp_betweenPasses {s : State} (h : BetweenPasses s) : BetweenPasses (passOp s) := by
  have read := (readReg_block .int s).rx.outside.betweenPasses h
  simp only [passOp]
  split
  · exact read
  · have paired : Paired (enterPass (readReg .int s).2).g := by
      rw [(enterPass_spec _).2.1]
      exact fun hs => absurd hs read.2.2.2
    exact exitPass_betweenPasses ((passBranch_keeps _ _).locks.2 paired)

/-! Every operation. -/

/-- The pass an operation runs, in the state where the environment may name the value of `INT` (rule R121). -/
def IsPass (s u : State) : Prop := ∃ v, u = passOp { s with env := { s.env with intNext := v } }

theorem isPass_irq (s : State) : IsPass s (passOp s) := ⟨s.env.intNext, rfl⟩

theorem isPass_with (v : Word) (s : State) : IsPass s (passWith v s) := ⟨some v, rfl⟩

theorem IsPass.admission {s u : State} (h : IsPass s u) : AdmissionStep s u := by
  obtain ⟨v, rfl⟩ := h
  exact .trans (t := { s with env := { s.env with intNext := v } }) (.of_kept rfl rfl le_rfl) (passOp_admission _)

theorem IsPass.betweenPasses {s u : State} (h : IsPass s u) (hs : BetweenPasses s) : BetweenPasses u := by
  obtain ⟨v, rfl⟩ := h
  exact passOp_betweenPasses hs

/-- An operation that answers is a pass, or one outside a pass. For `r := none` see `exec_handleStep`. -/
theorem exec_cases {i : Instr} {s t : State} (h : exec i s = .next t) : OutsidePass s t ∨ IsPass s t := by
  have pass {r u} (h : answer s r u = .next t) (k : IsPass s u) : OutsidePass s t ∨ IsPass s t :=
    .inr ((answer_eq_next_iff.1 h).2.2 ▸ k)
  have outside {r u} (h : answer s r u = .next t) (k : OutsidePass s u) : OutsidePass s t ∨ IsPass s t :=
    .inl ((answer_eq_next_iff.1 h).2.2 ▸ k)
  have rx {r x u} (h : answer s r (withResult x u) = .next t) (k : RxKeeps s u) : OutsidePass s t ∨ IsPass s t :=
    outside h (k.outside.withResult x)
  have block {r x u} (h : answer s r (withResult x u) = .next t) (k : KeepsBlock s u) := rx h k.rx
  cases i with
  | regrd r => exact block h (readReg_block _ s)
  | regwr r v => exact block h (writeReg_block _ v s)
  | regrd32 r => exact block h (readComposite_block _ s)
  | get p x m => exact block h (getXfer_block p _ _ s)
  | put p x m => exact block h (putXfer_block p _ _ s)
  | encode f => exact block (r := none) h (KeepsBlock.refl s)
  | decode p => exact block (r := none) h (decodePort_block p _ s)
  | inval p x => exact block h (invalOp_block p _ s)
  | rxcfg p x mask idw mcont => exact block h (rxcfgOp_block p _ mask idw mcont s)
  | txsubmit f => exact outside h ((txSubmitOp_outside f s).withResult _)
  | txdrain => exact outside (r := none) h ((txDrainOp_tx s).outside.withResult _)
  | rxdrain => exact rx (r := none) h (rxDrainOp_rx s)
  | rxlost p x c => exact rx h (rxLostOp_rx p _ c s)
  | rxmark p x c => exact block h (rxMarkOp_block p _ c s)
  | rxact p x c => exact block h (rxActOp_block p _ c s)
  | rxactlow p c => exact block (r := none) h (rxActLowOp_block p c s)
  | ieall e => exact block (r := none) h (ieAll_block e s)
  | stchg => exact outside (r := none) h (((stChgOp_st s).outside (stChgOp_admission s)).withResult _)
  | stenter x => exact outside h (((stEnterOp_st _ s).outside (stEnterOp_admission _ s)).withResult _)
  | lecdec lec => exact rx (r := none) h (lecDecOp_rx lec s)
  | btcalc b => exact block h (KeepsBlock.refl s)
  | btapply b => exact block h (btApplyOp_block b s)
  | cfgbt b => exact outside h ⟨rfl, rfl, .of_eq rfl, .of_kept rfl rfl le_rfl⟩
  | btdecode btr brpext => exact block (r := none) h (KeepsBlock.refl s)
  | start => exact outside h (startOp_outside s)
  | stop => exact outside (r := none) h ((stopOp_outside s).withResult _)
  | chipcfg => exact block (r := none) h ((timingToApply_block s).trans (chipCfgOp_block _ _))
  | tacacq => exact outside (r := none) h (tacAcqOp_outside s)
  | tacrel => exact outside (r := none) h ((tacRel_tx s).outside.withResult _)
  | tacabandon => exact outside (r := none) h ((tacAbandon_outside s).withResult _)
  | irq => exact pass h (isPass_irq s)
  | intNone | intStatus | intRxobj | intTxobj | intOther => exact pass h (isPass_with _ s)

theorem exec_admission {i : Instr} {s t : State} (h : exec i s = .next t) : AdmissionStep s t :=
  (exec_cases h).elim OutsidePass.admission IsPass.admission

theorem exec_betweenPasses {i : Instr} {s t : State} (h : exec i s = .next t) (hs : BetweenPasses s) :
    BetweenPasses t :=
  (exec_cases h).elim (·.betweenPasses hs) (·.betweenPasses hs)

/-! Every step. -/

/-- A move that runs no operation leaves the handle and the host's count, and of the global locks it takes a free one or
gives one back that another context holds (rule R245). -/
structure ContextMove (s t : State) : Prop where
  handle : t.h = s.h
  held : t.held = s.held
  globals : t.g = s.g ∨ ∃ l, t.g = takeGlobal l s.g ∨ t.g = giveGlobal l s.g

/-- Taking or giving back a global lock leaves none held by a pass that was not (rule R245). -/
theorem ContextMove.globals_not_pass {s t : State} (k : ContextMove s t)
    (h : s.g.dispatch ≠ .pass ∧ s.g.socket ≠ .pass) : t.g.dispatch ≠ .pass ∧ t.g.socket ≠ .pass := by
  obtain hg | ⟨l, hg | hg⟩ := k.globals <;> rw [hg]
  · exact h
  · cases l <;> simp only [takeGlobal_dispatch, takeGlobal_socket] <;> split <;> simp [h]
  · cases l <;> simp only [giveGlobal_dispatch, giveGlobal_socket] <;> split <;> simp [h]

theorem ContextMove.betweenPasses {s t : State} (k : ContextMove s t) (h : BetweenPasses s) : BetweenPasses t := by
  obtain ⟨hp, hl, hg⟩ := h
  exact ⟨by rw [k.handle, hp], by rw [k.handle, hl], k.globals_not_pass hg⟩

theorem ContextMove.admission {s t : State} (k : ContextMove s t) : AdmissionStep s t :=
  .of_kept (by rw [k.handle]) (by rw [k.handle]) k.held.le

/-- A move that answers with no operation is one of the other contexts or of the device, or an `ifAcquired` with nothing
to do: a word is refused or runs. -/
theorem contextMove_of_moved {a : AgentStep} {s t : State} (h : moveOf a s = .moved t) : ContextMove s t := by
  have port (w : CmdWord) (h : fromPort w s = .moved t) : ContextMove s t := by
    obtain ⟨r, hr⟩ | ⟨i, hi⟩ := fromPort_cases w s
    · rw [hr] at h; cases h
    · rw [hi] at h; cases h
  cases a with
  | host w => exact port w h
  | ifAcquired w =>
    rw [moveOf_ifAcquired] at h
    split at h
    · exact port w h
    · cases h; exact ⟨rfl, rfl, .inl rfl⟩
  | block w =>
    change fromBlock w s = .moved t at h
    cases hd : decodeCmd w with
    | error e => rw [fromBlock_error hd] at h; cases h
    | ok i => rw [fromBlock_ok hd] at h; cases h
  | line | lineInt => cases h
  | dev d => cases h; exact ⟨rfl, rfl, .inl rfl⟩
  | take l => cases h; exact ⟨rfl, rfl, .inr ⟨l, .inl rfl⟩⟩
  | give l => cases h; exact ⟨rfl, rfl, .inr ⟨l, .inr rfl⟩⟩

/-- An operation runs on the state its move found. -/
theorem eq_of_run {a : AgentStep} {s t : State} {i : Instr} (h : moveOf a s = .run i t) : t = s := by
  obtain ⟨r, hm⟩ | ⟨j, hm⟩ | ⟨u, hm, -⟩ := moveOf_cases a s <;> rw [hm] at h <;> cases h
  rfl

/-- The next move is a move on a state with the same block, or the run stays put. -/
theorem fetch_contextMove (s : State) : (∃ a u, ContextMove s u ∧ fetch s = moveOf a u) ∨ fetch s = .moved s := by
  cases ha : s.env.agenda with
  | cons a rest => exact .inl ⟨a, withRest rest s, ⟨rfl, rfl, .inl rfl⟩, fetch_head ha⟩
  | nil =>
    cases hf : s.env.free with
    | false => exact .inr (fetch_end ha hf)
    | true =>
      refine .inl ⟨Config.freeAgent s.env.draws, countDraw s, ⟨rfl, rfl, .inl rfl⟩, ?_⟩
      simp only [fetch, ha, hf, if_true]

/-- What every operation keeps and every other move keeps, every step keeps. -/
theorem step_keeps {P : State → Prop} (move : ∀ s t, ContextMove s t → P s → P t)
    (op : ∀ i s t, exec i s = .next t → P s → P t) {s t : State} (h : step s = .next t) (hs : P s) : P t := by
  obtain ⟨a, u, hu, hf⟩ | hf := fetch_contextMove s
  · have hu := move s u hu hs
    cases hm : moveOf a u with
    | stop r => rw [step_of_stop (hf.trans hm)] at h; cases h
    | run i v => rw [step_of_run (hf.trans hm), eq_of_run hm] at h; exact op i u t h hu
    | moved v => rw [step_of_moved (hf.trans hm)] at h; cases h; exact move u t (contextMove_of_moved hm) hu
  · rw [step_of_moved hf] at h; cases h; exact hs

/-- Settles O8: an operation outside a pass touches no lock, and a pass frees at its exit what it took. -/
theorem stepKeepsBetweenPasses : Obligations.StepKeepsBetweenPasses := by
  unfold Obligations.StepKeepsBetweenPasses
  intro s t hs h
  exact step_keeps (fun _ _ => ContextMove.betweenPasses) (fun _ _ _ => exec_betweenPasses) h hs

/-- Settles O9: `AdmissionStep` is what every operation and every other move does. -/
theorem stepKeepsAdmissionLifetime : Obligations.StepKeepsAdmissionLifetime := by
  unfold Obligations.StepKeepsAdmissionLifetime
  intro s t hs h
  exact step_keeps (fun _ _ k => k.admission.keeps) (fun _ _ _ k => (exec_admission k).keeps) h hs

/-- `CFGBT` caches its operand, which is in range or the call is refused (rules R111, R203). -/
theorem exec_cfgbt_cache {b : BitTiming} {s t : State} (h : exec (.cfgbt b) s = .next t) :
    t.h.btCache = some b ∧ b.inRange = true := by
  have ht := (answer_eq_next_iff.1 h).2.2
  exact ⟨by rw [← ht]; rfl, (exec_next h).2.1⟩

/-- Only `CFGBT` writes the cache, so every operation keeps it in range. -/
theorem exec_cacheInRange {i : Instr} {s t : State} (h : exec i s = .next t) (hs : CacheInRange s) :
    CacheInRange t := by
  intro b hb
  obtain ⟨-, -, -, -, cache, -⟩ := handleFieldWriters i s t h
  by_cases same : t.h.btCache = s.h.btCache
  · exact hs b (same ▸ hb)
  · obtain ⟨c, rfl⟩ := cache same
    obtain ⟨hc, hr⟩ := exec_cfgbt_cache h
    rw [hc] at hb
    cases hb
    exact hr

/-- Settles O10: the operations keep the range, and the other moves keep the handle. -/
theorem stepKeepsCacheInRange : Obligations.StepKeepsCacheInRange := by
  unfold Obligations.StepKeepsCacheInRange
  intro s t hs h
  have move (s t : State) (k : ContextMove s t) (hs : CacheInRange s) : CacheInRange t := by
    unfold CacheInRange; rwa [k.handle]
  exact step_keeps move (fun _ _ _ => exec_cacheInRange) h hs

/-- In `Sleeping` every operation is refused (rule R27). -/
theorem exec_sleeping (i : Instr) {s : State} (h : s.h.state = .sleeping) : exec i s = .refused .sleeping := by
  obtain ⟨u, hu⟩ := exec_eq_answer i s
  rw [hu]
  simp [answer, h]

/-- Settles O12: an operation that answers did not start in `Sleeping` and does not enter it. -/
theorem sleepingIsClosed : Obligations.SleepingIsClosed := by
  unfold Obligations.SleepingIsClosed
  refine ⟨fun i s => exec_sleeping i, fun s t h => ?_⟩
  obtain ⟨i, u, hu, he⟩ | he := step_cases h
  · obtain ⟨⟨awake, -⟩, -⟩ := exec_next he
    exact iff_of_false ((exec_admission he).ne_sleeping awake) (hu ▸ awake)
  · rw [he]

end Sys2Proof.Machine
end

section
/-! PROOFS. The bitmask registers as views of the slots (10_state.md rule R25). -/

namespace Sys2Proof.Machine

/-- A mask of one bit tests that bit. -/
theorem hasAny_twoPow {n i : Nat} (v : BitVec n) (hi : i < n) : hasAny v (BitVec.twoPow n i) = v.getLsbD i := by
  have hne : BitVec.twoPow n i ≠ 0 := by
    intro h
    have := congrArg (·.getLsbD i) h
    simp [hi] at this
  rw [hasAny, BitVec.and_twoPow]
  cases v.getLsbD i
  · simp
  · simpa using hne

/-- The flag of each bitmask register is one bit of its slot (rules R25, R90, R92). -/
theorem bitmapFlag_eq (b : Bitmap) (o : MsgObj) :
    bitmapFlag b o =
      match b with
      | .txrqst => o.mctrl.getLsbD 8
      | .newdat => o.mctrl.getLsbD 15
      | .intpnd => o.mctrl.getLsbD 13
      | .msgval => o.arb.getLsbD 31 := by
  cases b
  · exact hasAny_twoPow o.mctrl (i := 8) (by decide)
  · exact hasAny_twoPow o.mctrl (i := 15) (by decide)
  · exact hasAny_twoPow o.mctrl (i := 13) (by decide)
  · exact hasAny_twoPow o.arb (i := 31) (by decide)

/-- The index of a first half names its bitmask register (rules R117, R133). -/
theorem bitmapOf_firstHalf {b : Bitmap} {r : BitVec 6} (h : r.toNat = regIndex (.half b false)) :
    firstHalfOk r = true ∧ bitmapOf r = b := by
  have hr : r = BitVec.ofNat 6 (regIndex (.half b false)) := by rw [← h, BitVec.ofNat_toNat, BitVec.setWidth_eq]
  subst hr
  cases b <;> decide

/-- `REGRD32` of a first half answers with the composite read (rule R133). -/
theorem exec_regrd32 {b : Bitmap} {r : BitVec 6} {s : State} (hs : Ready s)
    (h : r.toNat = regIndex (.half b false)) :
    exec (.regrd32 r) s = .next (withResult (.word32 (readComposite b s).1) (readComposite b s).2) := by
  obtain ⟨hok, rfl⟩ := bitmapOf_firstHalf h
  exact answer_eq_next_iff.2 ⟨hs, by simp [hok], rfl⟩

/-- Settles O18: the composite is `bitmapWord`, whose bits are the flags of the slots. -/
theorem compositeRead : Obligations.CompositeRead := by
  unfold Obligations.CompositeRead
  intro b r s hs hstill hr
  refine ⟨_, bitmapWord b s.dev.ram, exec_regrd32 hs hr, ?_⟩
  rw [readComposite_still hstill]
  refine ⟨rfl, fun k => ?_, by simp [Word32.lo, Word32.hi], ⟨rfl, rfl, rfl⟩, rfl, rfl⟩
  have bit := (bitmapWord_getLsbD b s.dev.ram k).trans (bitmapFlag_eq b (slotAt s.dev k))
  cases b <;> exact bit

end Sys2Proof.Machine
end

section
/-! PROOFS. The addresses of the register window (20_memory.md rules R61, R64, R67). -/

namespace Sys2Proof.Machine

/-- The register list of rule R117 gives back each register from its index. -/
theorem regOf_regIndex (r : Reg) : regOf (BitVec.ofNat 6 (regIndex r)) = r := by
  cases r with
  | port p q => cases p <;> cases q <;> rfl
  | half b hi => cases b <;> cases hi <;> rfl
  | _ => rfl

theorem regIndex_injective : Function.Injective regIndex :=
  Function.LeftInverse.injective (g := fun n => regOf (BitVec.ofNat 6 n)) regOf_regIndex

theorem regIndex_lt (r : Reg) : regIndex r < Config.nRegs := by
  cases r with
  | port p q => cases p <;> cases q <;> decide
  | half b hi => cases b <;> cases hi <;> decide
  | _ => decide

theorem alignMult_pos (a : Align) : 0 < alignMult a := by cases a <;> decide

/-- The strategy and the base are the same for all registers, so equal addresses are equal offsets. -/
theorem regAddr_eq_iff (off : Variant → Nat → Nat) (h : Handle) (a b : Reg) :
    regAddr off h a = regAddr off h b ↔ off h.variant (regIndex a) = off h.variant (regIndex b) := by
  rw [regAddr, regAddr, Nat.add_left_cancel_iff, Nat.mul_right_inj (alignMult_pos h.align).ne']

theorem LegalOffsets.regAddr_injective {off : Variant → Nat → Nat} (hoff : LegalOffsets off) (h : Handle) :
    Function.Injective (regAddr off h) := fun a b e =>
  regIndex_injective <|
    hoff.injective _ _ _ (regIndex_lt a) (regIndex_lt b) ((regAddr_eq_iff off h a b).1 e)

/-- An aligned base and an even offset make every address a multiple of twice the multiplier (rules R61, R67). -/
theorem LegalOffsets.two_mul_alignMult_dvd {off : Variant → Nat → Nat} (hoff : LegalOffsets off) {h : Handle}
    (hb : h.base % 4 = 0) (r : Reg) : 2 * alignMult h.align ∣ regAddr off h r := by
  have hbase : 2 * alignMult h.align ∣ h.base := by cases h.align <;> simp only [alignMult] <;> omega
  have heven : 2 ∣ off h.variant (regIndex r) := Nat.dvd_of_mod_eq_zero (hoff.even _ _ (regIndex_lt r))
  exact dvd_add hbase (mul_comm 2 (alignMult h.align) ▸ mul_dvd_mul_left _ heven)

/-- The second half stands two bytes after the first, times the multiplier (rules R61, R67). -/
theorem LegalOffsets.regAddr_half {off : Variant → Nat → Nat} (hoff : LegalOffsets off) (h : Handle) (b : Bitmap) :
    regAddr off h (.half b true) = regAddr off h (.half b false) + alignMult h.align * 2 := by
  rw [regAddr, regAddr, hoff.halves, Nat.mul_add, Nat.add_assoc]

/-- Settles O60: a legal table keeps registers apart, and every address is a multiple of twice the multiplier. -/
theorem addressesDistinct : Obligations.AddressesDistinct := by
  unfold Obligations.AddressesDistinct
  intro off h hoff hb
  have hdvd := hoff.two_mul_alignMult_dvd hb
  refine ⟨fun a b e => hoff.regAddr_injective h e, fun a => ?_, fun hal a => ?_, fun b => ?_⟩
  · exact Nat.mod_eq_zero_of_dvd ((Nat.dvd_mul_right 2 _).trans (hdvd a))
  · exact Nat.mod_eq_zero_of_dvd (by simpa only [hal, alignMult] using hdvd a)
  · rw [hoff.regAddr_half]
    cases h.align <;> rfl

end Sys2Proof.Machine
end

section
/-! PROOFS. What a step of the device does with the slots (20_memory.md rules R77, R78, R275): the bits of the words it
tests and writes, the filter, the slot it chooses, and what it leaves unchanged. -/

namespace Sys2Proof.Machine

/-! The flags of a slot's words, as bits (rules R90, R92, R93). -/

@[simp] theorem hasAny_arbMsgval (v : Word32) : hasAny v arbMsgval = v.getLsbD 31 :=
  hasAny_twoPow v (i := 31) (by decide)
@[simp] theorem hasAny_arbXtd (v : Word32) : hasAny v arbXtd = v.getLsbD 30 := hasAny_twoPow v (i := 30) (by decide)
@[simp] theorem hasAny_arbDir (v : Word32) : hasAny v arbDir = v.getLsbD 29 := hasAny_twoPow v (i := 29) (by decide)
@[simp] theorem hasAny_maskMxtd (v : Word32) : hasAny v maskMxtd = v.getLsbD 31 :=
  hasAny_twoPow v (i := 31) (by decide)
@[simp] theorem hasAny_maskMdir (v : Word32) : hasAny v maskMdir = v.getLsbD 30 :=
  hasAny_twoPow v (i := 30) (by decide)
@[simp] theorem hasAny_mcEob (v : Word) : hasAny v mcEob = v.getLsbD 7 := hasAny_twoPow v (i := 7) (by decide)
@[simp] theorem hasAny_mcTxrqst (v : Word) : hasAny v mcTxrqst = v.getLsbD 8 := hasAny_twoPow v (i := 8) (by decide)
@[simp] theorem hasAny_mcRxie (v : Word) : hasAny v mcRxie = v.getLsbD 10 := hasAny_twoPow v (i := 10) (by decide)
@[simp] theorem hasAny_mcTxie (v : Word) : hasAny v mcTxie = v.getLsbD 11 := hasAny_twoPow v (i := 11) (by decide)
@[simp] theorem hasAny_mcUmask (v : Word) : hasAny v mcUmask = v.getLsbD 12 := hasAny_twoPow v (i := 12) (by decide)
@[simp] theorem hasAny_mcNewdat (v : Word) : hasAny v mcNewdat = v.getLsbD 15 :=
  hasAny_twoPow v (i := 15) (by decide)

/-! Bits of a word after the ways the device writes one. -/

/-- Putting one bit replaces that bit. -/
theorem getLsbD_putBits_twoPow {n i j : Nat} (v : BitVec n) (b : Bool) (hj : j < n) :
    (putBits v (BitVec.twoPow n i) b).getLsbD j = if j = i then b else v.getLsbD j := by
  by_cases e : j = i
  · subst e; cases b <;> simp [putBits, hj]
  · cases b <;> simp [putBits, hj, e]

/-- Setting one bit under a condition. -/
theorem getLsbD_setBitIf {n i : Nat} (v : BitVec n) (b : Bool) (hi : i < n) (j : Nat) :
    (if b = true then v ||| BitVec.twoPow n i else v).getLsbD j = (v.getLsbD j || (b && decide (j = i))) := by
  cases b <;> simp [BitVec.getLsbD_twoPow, hi, eq_comm]

/-- Clearing the low `k` bits and putting `x` there. -/
theorem getLsbD_replaceLow {n k j : Nat} (v : BitVec n) (x : BitVec k) (hj : j < n) :
    (clearBits v ((BitVec.allOnes k).setWidth n) ||| x.setWidth n).getLsbD j =
      if j < k then x.getLsbD j else v.getLsbD j := by
  by_cases e : j < k
  · simp [clearBits, hj, e]
  · simp [clearBits, hj, e, BitVec.getLsbD_of_ge x j (not_lt.1 e)]

/-- Two words agree under a mask exactly when they agree at each bit the mask has. -/
theorem xor_and_eq_zero_iff {n : Nat} (a b m : BitVec n) :
    (a ^^^ b) &&& m = 0#n ↔ ∀ j, j < n → m.getLsbD j = true → a.getLsbD j = b.getLsbD j := by
  rw [BitVec.eq_of_getLsbD_eq_iff]
  refine forall₂_congr fun j _ => ?_
  simp only [BitVec.getLsbD_and, BitVec.getLsbD_xor, BitVec.getLsbD_zero]
  cases m.getLsbD j <;> simp

/-! The filter, and the slot a reception goes to (rules R77, R93, R275). -/

/-- The bits of the identifier that the filter compares: all of them, or those of MSK under UMASK. -/
theorem getLsbD_filterBits (m : Word32) (um : Bool) {j : Nat} (hj : j < 32) :
    (if um = true then m &&& maskMsk else maskMsk).getLsbD j = (decide (j < 29) && (!um || m.getLsbD j)) := by
  have hmsk : maskMsk.getLsbD j = decide (j < 29) := by revert j; decide
  cases um
  · simpa using hmsk
  · rw [if_pos rfl, BitVec.getLsbD_and, hmsk, Bool.and_comm, Bool.not_true, Bool.false_or]

/-- What the filter of a slot looks at, bit by bit. -/
theorem rxMatches_iff (id : BitVec 29) (xtd fdir : Bool) (o : MsgObj) :
    rxMatches id xtd fdir o = true ↔ o.arb.getLsbD 31 = true ∧
      (∀ j, j < 29 → o.mctrl.getLsbD 12 = false ∨ o.mask.getLsbD j = true → o.arb.getLsbD j = id.getLsbD j) ∧
      (o.mctrl.getLsbD 12 = false ∨ o.mask.getLsbD 31 = true → o.arb.getLsbD 30 = xtd) ∧
      (o.mctrl.getLsbD 12 = false ∨ o.mask.getLsbD 30 = true → fdir = false) := by
  simp only [rxMatches, Bool.and_eq_true, beq_iff_eq, xor_and_eq_zero_iff, hasAny_arbMsgval, hasAny_arbXtd,
    hasAny_mcUmask, hasAny_maskMxtd, hasAny_maskMdir, and_assoc]
  refine and_congr_right fun _ => and_congr ⟨fun h j hj hm => ?_, fun h j hj hm => ?_⟩ (and_congr ?_ ?_)
  · have := h j (by omega) (by simpa [getLsbD_filterBits _ _ (show j < 32 by omega), hj] using hm)
    simpa [show j < 32 by omega] using this
  · obtain ⟨hj', hm⟩ : j < 29 ∧ (o.mctrl.getLsbD 12 = false ∨ o.mask.getLsbD j = true) := by
      simpa [getLsbD_filterBits _ _ hj] using hm
    simpa [hj] using h j hj' hm
  · cases o.mctrl.getLsbD 12 <;> cases o.mask.getLsbD 31 <;> simp
  · cases o.mctrl.getLsbD 12 <;> cases o.mask.getLsbD 30 <;> simp

/-- A slot takes a frame it matches when it is free with its direction bit clear, or full and end-of-block. -/
theorem rxTakes_iff (id : BitVec 29) (xtd fdir : Bool) (o : MsgObj) :
    rxTakes id xtd fdir o = true ↔ rxMatches id xtd fdir o = true ∧
      (if o.mctrl.getLsbD 15 then o.mctrl.getLsbD 7 else !o.arb.getLsbD 29) = true := by
  simp only [rxTakes, Bool.and_eq_true, hasAny_mcNewdat, hasAny_mcEob, hasAny_arbDir]

/-! What a reception stores and a transmission leaves (rules R77, R78). -/

section Stored

variable {id : BitVec 29} {xtd dir : Bool} {dlc : BitVec 4} {data : Vector Byte 8} {o : MsgObj}

/-- The arbitration word of a stored frame: its identifier, its format, the device's direction bit, and the old
MSGVAL. -/
theorem rxStore_arb_getLsbD {j : Nat} (hj : j < 32) :
    (rxStore id xtd dir dlc data o).arb.getLsbD j =
      if j = 29 then dir else if j = 30 then xtd else if j < 29 then id.getLsbD j else o.arb.getLsbD j := by
  have hid : arbId = (BitVec.allOnes 29).setWidth 32 := by decide
  have hxtd : arbXtd = BitVec.twoPow 32 30 := by decide
  have hdir : arbDir = BitVec.twoPow 32 29 := by decide
  rw [rxStore, hid, hxtd, hdir, getLsbD_putBits_twoPow _ _ hj, getLsbD_putBits_twoPow _ _ hj,
    getLsbD_replaceLow _ _ hj]

/-- The control word of a stored frame: its length, INTPND under RXIE, MSGLST if the slot was full, NEWDAT, and the
rest as it was. -/
theorem rxStore_mctrl_getLsbD {j : Nat} (hj : j < 16) :
    (rxStore id xtd dir dlc data o).mctrl.getLsbD j =
      ((((if j < 4 then dlc.getLsbD j else o.mctrl.getLsbD j) || (o.mctrl.getLsbD 10 && decide (j = 13))) ||
        (o.mctrl.getLsbD 15 && decide (j = 14))) || decide (j = 15)) := by
  have hdlc : mcDlc = (BitVec.allOnes 4).setWidth 16 := by decide
  have hint : mcIntpnd = BitVec.twoPow 16 13 := by decide
  have hlost : mcMsglst = BitVec.twoPow 16 14 := by decide
  have hnew : mcNewdat.getLsbD j = decide (j = 15) := by revert j; decide
  simp only [rxStore, hasAny_mcRxie, hasAny_mcNewdat, BitVec.getLsbD_or, hnew]
  rw [hlost, getLsbD_setBitIf _ _ (by decide), hint, getLsbD_setBitIf _ _ (by decide), hdlc, getLsbD_replaceLow _ _ hj]

/-- A stored frame can be read back: its length. -/
theorem rxStore_dlc : (rxStore id xtd dir dlc data o).mctrl.extractLsb' 0 4 = dlc := by
  refine BitVec.eq_of_getLsbD_eq fun j hj => ?_
  rw [BitVec.getLsbD_extractLsb', Nat.zero_add, rxStore_mctrl_getLsbD (by omega)]
  simp [hj, show j ≠ 13 by omega, show j ≠ 14 by omega, show j ≠ 15 by omega]

/-- A stored frame can be read back: its identifier. -/
theorem rxStore_id : (rxStore id xtd dir dlc data o).arb.extractLsb' 0 29 = id := by
  refine BitVec.eq_of_getLsbD_eq fun j hj => ?_
  rw [BitVec.getLsbD_extractLsb', Nat.zero_add, rxStore_arb_getLsbD (by omega)]
  simp [hj, show j ≠ 29 by omega, show j ≠ 30 by omega]

/-- The flags below INTPND and above the length stay as they were. -/
theorem rxStore_mctrl_kept {j : Nat} (hj : j < 13) (h4 : 4 ≤ j) :
    (rxStore id xtd dir dlc data o).mctrl.getLsbD j = o.mctrl.getLsbD j := by
  rw [rxStore_mctrl_getLsbD (by omega)]
  simp [show ¬j < 4 by omega, show j ≠ 13 by omega, show j ≠ 14 by omega, show j ≠ 15 by omega]

theorem rxStore_newdat : (rxStore id xtd dir dlc data o).mctrl.getLsbD 15 = true := by
  simp only [rxStore_mctrl_getLsbD (j := 15) (by decide), decide_true, Bool.or_true]

theorem rxStore_intpnd :
    (rxStore id xtd dir dlc data o).mctrl.getLsbD 13 = (o.mctrl.getLsbD 13 || o.mctrl.getLsbD 10) := by
  rw [rxStore_mctrl_getLsbD (by decide)]
  simp

theorem rxStore_msglst :
    (rxStore id xtd dir dlc data o).mctrl.getLsbD 14 = (o.mctrl.getLsbD 14 || o.mctrl.getLsbD 15) := by
  rw [rxStore_mctrl_getLsbD (by decide)]
  simp

end Stored

/-- A sent slot has TXRQST clear and INTPND set under TXIE. -/
theorem txDone_eq (o : MsgObj) :
    txDone o = { o with
      mctrl := (o.mctrl &&& 0xFEFF#16) ||| (if o.mctrl.getLsbD 11 then 0x2000#16 else 0#16) } := by
  have hclear : clearBits o.mctrl mcTxrqst = o.mctrl &&& 0xFEFF#16 := rfl
  rw [txDone, hclear, hasAny_mcTxie]
  cases o.mctrl.getLsbD 11
  · simp
  · rfl

/-! A move of the device. -/

/-- A step that takes a move of the device touches the device only (rule R12). -/
theorem step_dev {s : State} {a : DevStep} {rest : List AgentStep} (h : s.env.agenda = .dev a :: rest) :
    ∃ t, step s = .next t ∧ SameBlock s t ∧ t.trace = s.trace ∧ t.dev = deviceStep s.env.draws a s.dev :=
  ⟨takeDevStep a (withRest rest s), step_of_moved (fetch_head h), ⟨rfl, rfl, rfl⟩, rfl, rfl⟩

theorem deviceStep_receive_some {id : BitVec 29} {xtd fdir : Bool} {d : Device} {k : Slot}
    (h : rxTarget id xtd fdir d.ram = some k) (seed : Nat) (dir : Bool) (dlc : BitVec 4) (data : Vector Byte 8) :
    deviceStep seed (.receive id xtd fdir dir dlc data) d =
      withSlot d k (rxStore id xtd dir dlc data (slotAt d k)) := by
  simp only [deviceStep, h]

theorem deviceStep_receive_none {id : BitVec 29} {xtd fdir : Bool} {d : Device}
    (h : rxTarget id xtd fdir d.ram = none) (seed : Nat) (dir : Bool) (dlc : BitVec 4) (data : Vector Byte 8) :
    deviceStep seed (.receive id xtd fdir dir dlc data) d = d := by
  simp only [deviceStep, h]

theorem deviceStep_transmitted {d : Device} {k : Slot} (hval : (slotAt d k).arb.getLsbD 31 = true)
    (hreq : (slotAt d k).mctrl.getLsbD 8 = true) (seed : Nat) :
    deviceStep seed (.transmitted k) d = withSlot d k (txDone (slotAt d k)) := by
  simp only [deviceStep, hasAny_arbMsgval, hasAny_mcTxrqst, hval, hreq, Bool.and_self, if_true]

theorem sameGlobals_withSlot (d : Device) (k : Slot) (o : MsgObj) : SameGlobals d (withSlot d k o) :=
  ⟨rfl, rfl, rfl, rfl, rfl, rfl, rfl⟩

theorem sameOtherSlots_withSlot (d : Device) (k : Slot) (o : MsgObj) : SameOtherSlots k d (withSlot d k o) :=
  fun _ hl => slotAt_withSlot_ne d o hl

/-- The target is a slot that takes the frame with no lower slot taking it (rule R77). -/
theorem rxTarget_eq_some {id : BitVec 29} {xtd fdir : Bool} {d : Device} {k : Slot}
    (hk : rxTakes id xtd fdir (slotAt d k) = true) (hmin : ∀ l, l < k → ¬rxTakes id xtd fdir (slotAt d l) = true) :
    rxTarget id xtd fdir d.ram = some k :=
  (rxTarget_some id xtd fdir d.ram k).2 ⟨hk, fun l hl => Bool.eq_false_iff.2 (hmin l hl)⟩

/-- A reception that some slot takes stores the frame in the lowest one and touches nothing else. -/
theorem step_receive_taken {s : State} {rest : List AgentStep} {id : BitVec 29} {xtd fdir dir : Bool} {dlc : BitVec 4}
    {data : Vector Byte 8} (h : s.env.agenda = .dev (.receive id xtd fdir dir dlc data) :: rest) {k : Slot}
    (hk : rxTakes id xtd fdir (slotAt s.dev k) = true)
    (hmin : ∀ l, l < k → ¬rxTakes id xtd fdir (slotAt s.dev l) = true) :
    ∃ t, step s = .next t ∧ SameBlock s t ∧ t.trace = s.trace ∧
      t.dev = withSlot s.dev k (rxStore id xtd dir dlc data (slotAt s.dev k)) := by
  obtain ⟨t, hstep, hblock, htrace, hdev⟩ := step_dev h
  exact ⟨t, hstep, hblock, htrace, hdev.trans (deviceStep_receive_some (rxTarget_eq_some hk hmin) _ _ _ _)⟩

/-- A reception that no slot takes changes nothing (log 16). -/
theorem step_receive_dropped {s : State} {rest : List AgentStep} {id : BitVec 29} {xtd fdir dir : Bool}
    {dlc : BitVec 4} {data : Vector Byte 8} (h : s.env.agenda = .dev (.receive id xtd fdir dir dlc data) :: rest)
    (hno : ∀ k, ¬rxTakes id xtd fdir (slotAt s.dev k) = true) :
    ∃ t, step s = .next t ∧ SameBlock s t ∧ t.trace = s.trace ∧ t.dev = s.dev := by
  obtain ⟨t, hstep, hblock, htrace, hdev⟩ := step_dev h
  have hnone := (rxTarget_none id xtd fdir s.dev.ram).2 fun k => Bool.eq_false_iff.2 (hno k)
  exact ⟨t, hstep, hblock, htrace, hdev.trans (deviceStep_receive_none hnone _ _ _ _)⟩

/-- Settles O59: a device step is `withSlot` on the slot the scan finds, whose words are known bit by bit. -/
theorem deviceMovesFrames : Obligations.DeviceMovesFrames := by
  unfold Obligations.DeviceMovesFrames
  refine ⟨rxMatches_iff, fun s rest => ⟨fun id xtd fdir dir dlc data hag => ?_, fun k hag hval hreq => ?_⟩⟩
  · simp only [← rxTakes_iff]
    refine ⟨fun k hk hmin => ?_, step_receive_dropped hag, fun k hmatch heob hfull hnoeob => ?_⟩
    · obtain ⟨t, hstep, hblock, htrace, hdev⟩ := step_receive_taken hag hk hmin
      refine ⟨t, hstep, hblock, htrace, ?_⟩
      rw [hdev, slotAt_withSlot]
      exact ⟨sameGlobals_withSlot _ _ _, portOf_withSlot _ _ _ _, portOf_withSlot _ _ _ _,
        sameOtherSlots_withSlot _ _ _, rfl, rfl, rxStore_dlc, rxStore_newdat, rxStore_intpnd, rxStore_msglst,
        fun _ hj h4 => rxStore_mctrl_kept hj h4, rxStore_id, rxStore_arb_getLsbD (by decide),
        rxStore_arb_getLsbD (by decide), rxStore_arb_getLsbD (by decide)⟩
    · have hk : rxTakes id xtd fdir (slotAt s.dev k) = true :=
        (rxTakes_iff _ _ _ _).2 ⟨hmatch, by rw [hfull k le_rfl, if_pos rfl, heob]⟩
      have hmin : ∀ l, l < k → ¬rxTakes id xtd fdir (slotAt s.dev l) = true := fun l hl htakes => by
        have := ((rxTakes_iff _ _ _ _).1 htakes).2
        simp only [hfull l hl.le, hnoeob l hl, if_true, Bool.false_eq_true] at this
      obtain ⟨t, hstep, -, -, hdev⟩ := step_receive_taken hag hk hmin
      refine ⟨t, hstep, ?_, hdev ▸ sameOtherSlots_withSlot _ _ _⟩
      rw [hdev, slotAt_withSlot, rxStore_msglst, hfull k le_rfl, Bool.or_true]
  · obtain ⟨t, hstep, hblock, htrace, hdev⟩ := step_dev hag
    rw [deviceStep_transmitted hval hreq, txDone_eq] at hdev
    refine ⟨t, hstep, hblock, htrace, ?_⟩
    rw [hdev]
    exact ⟨sameGlobals_withSlot _ _ _, portOf_withSlot _ _ _ _, portOf_withSlot _ _ _ _,
      sameOtherSlots_withSlot _ _ _, slotAt_withSlot _ _ _⟩

end Sys2Proof.Machine
end

section
/-! PROOFS. The command words and the interrupt-status values (30_encoding.md rules R105, R118 to R120). A field placed
in a word and a field read from one are inverse to each other; so the operand fields of a format, placed again, are the
word under the format's mask, and both directions of the round trip follow from that. -/

namespace Sys2Proof

open Machine

/-! A field placed in a word, and a field read from one (rules R118, R119). -/

theorem getLsbD_place {n : Nat} (v : BitVec n) {lsb k : Nat} (hk : k < 128) :
    (place v lsb).getLsbD k = (decide (lsb ≤ k) && v.getLsbD (k - lsb)) := by
  by_cases h : k < lsb
  · simp [place, hk, h, not_le.2 h]
  · simp [place, hk, h, not_lt.1 h]

/-- A field read from a word and placed where it stood is the word under the field's mask. -/
theorem place_extractLsb' (w : CmdWord) (lsb n : Nat) :
    place (w.extractLsb' lsb n) lsb = w &&& place (BitVec.allOnes n) lsb := by
  refine BitVec.eq_of_getLsbD_eq fun k hk => ?_
  simp only [BitVec.getLsbD_and, getLsbD_place _ hk, BitVec.getLsbD_extractLsb', BitVec.getLsbD_allOnes]
  by_cases h : lsb ≤ k
  · simp [h, Bool.and_comm]
  · simp [h]

/-- A placed field is read back. -/
theorem extractLsb'_place {n lsb : Nat} (v : BitVec n) (h : lsb + n ≤ 128) : (place v lsb).extractLsb' lsb n = v := by
  refine BitVec.eq_of_getLsbD_eq fun k hk => ?_
  rw [BitVec.getLsbD_extractLsb', getLsbD_place _ (by omega)]
  simp [hk]

/-- A field placed below or above another leaves that one 0. -/
theorem extractLsb'_place_of_disjoint {n lsb m a : Nat} (v : BitVec n) (ha : a + m ≤ 128)
    (h : a + m ≤ lsb ∨ lsb + n ≤ a) : (place v lsb).extractLsb' a m = 0#m := by
  refine BitVec.eq_of_getLsbD_eq fun k hk => ?_
  rw [BitVec.getLsbD_extractLsb', getLsbD_place _ (by omega)]
  obtain h | h := h
  · simp [show ¬lsb ≤ a + k by omega]
  · simp [BitVec.getLsbD_of_ge v (a + k - lsb) (by omega)]

/-- The operation code is above every operand field (rule R118). -/
theorem extractLsb'_withCode (c : BitVec 8) (w : CmdWord) {a n : Nat} (h : a + n ≤ 120) :
    (withCode c w).extractLsb' a n = w.extractLsb' a n := by
  rw [withCode, BitVec.extractLsb'_or, extractLsb'_place_of_disjoint c (by omega) (.inl h), BitVec.zero_or]

/-- A bit is a field one bit wide. -/
theorem getLsbD_eq_field (w : CmdWord) (k : Nat) : w.getLsbD k = (w.extractLsb' k 1).getLsbD 0 := by
  simp

theorem ofBool_getLsbD_zero (b : BitVec 1) : BitVec.ofBool (b.getLsbD 0) = b := by revert b; decide

theorem bit_portOfBit (b : Bool) : (portOfBit b).bit = BitVec.ofBool b := by cases b <;> rfl

theorem portOfBit_bit (p : PortId) : portOfBit (p.bit.getLsbD 0) = p := by cases p <;> rfl

theorem packBytes_unpackBytes (x : BitVec 64) : packBytes (unpackBytes x) = x := by
  change x.extractLsb' 56 8 ++ x.extractLsb' 48 8 ++ x.extractLsb' 40 8 ++ x.extractLsb' 32 8 ++ x.extractLsb' 24 8 ++
    x.extractLsb' 16 8 ++ x.extractLsb' 8 8 ++ x.extractLsb' 0 8 = x
  iterate 7 rw [BitVec.extractLsb'_append_extractLsb'_eq_extractLsb' (by rfl)]
  exact BitVec.extractLsb'_eq_self

theorem extractLsb'_packBytes (d : Vector Byte 8) {i : Nat} (hi : i < 8) :
    (packBytes d).extractLsb' (8 * i) 8 = d[i] := by
  rw [packBytes]
  interval_cases i <;>
    simp (disch := decide) only [BitVec.extractLsb'_append_eq_of_le, BitVec.extractLsb'_append_eq_of_add_le,
      Nat.reduceMul, Nat.reduceSub, BitVec.extractLsb'_eq_self]

theorem unpackBytes_packBytes (d : Vector Byte 8) : unpackBytes (packBytes d) = d := by
  refine Vector.ext fun i hi => ?_
  have byte : (unpackBytes (packBytes d))[i] = (packBytes d).extractLsb' (8 * i) 8 := by
    interval_cases i <;> rfl
  rw [byte, extractLsb'_packBytes d hi]

/-! The operand fields of each format, placed again (rule R119). -/

theorem fields_b (w : CmdWord) : (timingOfWord w).fields = w &&& Format.b.used := by
  simp only [BitTiming.fields, timingOfWord, place_extractLsb', ← BitVec.and_or_distrib_left]
  rfl

theorem fields_f (w : CmdWord) : (frameOfWord w).fields = w &&& Format.f.used := by
  simp only [Frame.fields, frameOfWord, packBytes_unpackBytes, getLsbD_eq_field w, ofBool_getLsbD_zero,
    place_extractLsb', ← BitVec.and_or_distrib_left]
  rfl

theorem fields_s (w : CmdWord) : slotFields (portField w) (slotField w) = w &&& Format.s.used := by
  simp only [slotFields, portField, slotField, bit_portOfBit, getLsbD_eq_field w, ofBool_getLsbD_zero,
    place_extractLsb', ← BitVec.and_or_distrib_left]
  rfl

theorem fields_p (w : CmdWord) : place (portField w).bit 14 = w &&& Format.p.used := by
  simp only [portField, bit_portOfBit, getLsbD_eq_field w, ofBool_getLsbD_zero, place_extractLsb']
  rfl

theorem place_and {n : Nat} (v u : BitVec n) (lsb : Nat) : place (v &&& u) lsb = place v lsb &&& place u lsb := by
  simp only [place, BitVec.setWidth_and, BitVec.shiftLeft_and_distrib]

theorem maskOk_iff : ∀ m : BitVec 8, maskOk m = true ↔ m &&& 0x77#8 = m := by decide

/-- Format `T` gives the mask eight bits and reserves two of them (rules R119, R141). -/
theorem fields_t {w : CmdWord} (hm : maskOk (w.extractLsb' 0 8) = true) :
    place (w.extractLsb' 0 8) 0 ||| slotFields (portField w) (slotField w) = w &&& Format.t.used := by
  rw [← (maskOk_iff _).1 hm, place_and, fields_s, place_extractLsb', BitVec.and_assoc, ← BitVec.and_or_distrib_left]
  rfl

theorem fields_sc (w : CmdWord) :
    slotFields (portField w) (slotField w) ||| place (savedField w) 16 = w &&& Format.sc.used := by
  rw [fields_s, savedField, place_extractLsb', ← BitVec.and_or_distrib_left]
  rfl

theorem fields_pc (w : CmdWord) : place (portField w).bit 14 ||| place (savedField w) 16 = w &&& Format.pc.used := by
  rw [fields_p, savedField, place_extractLsb', ← BitVec.and_or_distrib_left]
  rfl

theorem fields_rd (w : CmdWord) : place (regField w) 16 = w &&& Format.rd.used := place_extractLsb' w 16 6

theorem fields_r (w : CmdWord) : place (w.extractLsb' 0 16) 0 ||| place (regField w) 16 = w &&& Format.r.used := by
  rw [fields_rd, place_extractLsb', ← BitVec.and_or_distrib_left]
  rfl

theorem fields_c (w : CmdWord) :
    place (w.extractLsb' 0 32) 0 ||| place (w.extractLsb' 32 32) 32 ||| place (w.extractLsb' 64 16) 64 |||
      place (w.extractLsb' 80 6) 80 ||| place (portOfBit (w.getLsbD 86)).bit 86 = w &&& Format.c.used := by
  simp only [bit_portOfBit, getLsbD_eq_field w, ofBool_getLsbD_zero, place_extractLsb',
    ← BitVec.and_or_distrib_left]
  rfl

theorem fields_e (w : CmdWord) : place (BitVec.ofBool (w.getLsbD 0)) 0 = w &&& Format.e.used := by
  rw [getLsbD_eq_field w, ofBool_getLsbD_zero]
  exact place_extractLsb' w 0 1

theorem fields_n (w : CmdWord) : place (w.extractLsb' 0 2) 0 = w &&& Format.n.used := place_extractLsb' w 0 2

theorem fields_l (w : CmdWord) : place (w.extractLsb' 0 3) 0 = w &&& Format.l.used := place_extractLsb' w 0 3

theorem fields_v (w : CmdWord) :
    place (w.extractLsb' 0 16) 0 ||| place (w.extractLsb' 16 16) 16 = w &&& Format.v.used := by
  rw [place_extractLsb', place_extractLsb', ← BitVec.and_or_distrib_left]
  rfl

theorem fields_z (w : CmdWord) : 0 = w &&& Format.z.used := BitVec.and_zero.symm

/-! The reserved bits (rule R119). -/

/-- No bit of one word is set outside another. -/
theorem and_not_eq_zero_iff {n : Nat} (a b : BitVec n) :
    a &&& ~~~b = 0#n ↔ ∀ k, k < n → a.getLsbD k = true → b.getLsbD k = true := by
  rw [BitVec.eq_of_getLsbD_eq_iff]
  refine forall₂_congr fun k hk => ?_
  simp [hk]

theorem reservedClear_iff (fmt : Format) (w : CmdWord) :
    reservedClear fmt w = true ↔ ∀ k, k < 120 → w.getLsbD k = true → fmt.used.getLsbD k = true := by
  rw [reservedClear, beq_iff_eq, and_not_eq_zero_iff]
  refine forall₂_congr fun k hk => ?_
  simp [hk]

/-- The operand bits of a format are below the operation code. -/
theorem getLsbD_used_of_ge (fmt : Format) {k : Nat} (hk : 120 ≤ k) : fmt.used.getLsbD k = false := by
  have h : fmt.used.toNat < 2 ^ 120 := by cases fmt <;> decide
  exact Nat.testBit_lt_two_pow (h.trans_le (Nat.pow_le_pow_right (by decide) hk))

theorem getLsbD_withCode_opcodeOf (w x : CmdWord) {k : Nat} (hk : k < 128) :
    (withCode (opcodeOf w) x).getLsbD k = (decide (120 ≤ k) && w.getLsbD k || x.getLsbD k) := by
  rw [withCode, BitVec.getLsbD_or, getLsbD_place _ hk, opcodeOf, BitVec.getLsbD_extractLsb']
  by_cases h : 120 ≤ k
  · simp [h, show k - 120 < 8 by omega, show 120 + (k - 120) = k by omega]
  · simp [h]

/-- A word has its reserved bits clear exactly when it is its code over its operand bits (rules R118, R119). -/
theorem reservedClear_iff_withCode (fmt : Format) (w : CmdWord) :
    reservedClear fmt w = true ↔ withCode (opcodeOf w) (w &&& fmt.used) = w := by
  rw [reservedClear_iff, BitVec.eq_of_getLsbD_eq_iff]
  refine forall_congr' fun k => ⟨fun h hk => ?_, fun h hk hw => ?_⟩
  · rw [getLsbD_withCode_opcodeOf _ _ hk]
    by_cases hc : 120 ≤ k
    · simp [hc, getLsbD_used_of_ge fmt hc]
    · simpa [hc] using h (by omega)
  · have := h (by omega)
    rw [getLsbD_withCode_opcodeOf _ _ (by omega)] at this
    simpa [hw, show ¬120 ≤ k by omega] using this

/-- The reserved bits are clear when no bit is set outside the format's mask and the operation code. -/
theorem reservedClear_iff_and (fmt : Format) (w : CmdWord) :
    reservedClear fmt w = true ↔ w &&& ~~~(fmt.used ||| 0xFF000000000000000000000000000000#128) = 0 := by
  have code : ∀ k, k < 128 → (0xFF000000000000000000000000000000#128).getLsbD k = decide (120 ≤ k) := by decide
  refine (reservedClear_iff fmt w).trans (Iff.trans ?_ (and_not_eq_zero_iff w _).symm)
  refine forall_congr' fun k => ⟨fun h hk hw => ?_, fun h hk hw => ?_⟩
  · rw [BitVec.getLsbD_or, code k hk]
    by_cases hc : 120 ≤ k
    · simp [hc]
    · simp [h (by omega) hw]
  · have := h (by omega) hw
    rw [BitVec.getLsbD_or, code k (by omega)] at this
    simpa [show ¬120 ≤ k by omega] using this

theorem maskOk_of_reservedClear {w : CmdWord} (h : reservedClear .t w = true) : maskOk (w.extractLsb' 0 8) = true := by
  rw [reservedClear_iff_withCode] at h
  have low := congrArg (BitVec.extractLsb' 0 8) h
  rw [extractLsb'_withCode _ _ (by decide), BitVec.extractLsb'_and] at low
  exact (maskOk_iff _).2 low

/-! A word's operation has that word for its encoding (rules R119, R120). -/

/-- The encoding of the operation of a word, once its fields are known to be the format's bits of the word. -/
theorem cmd_of_fields {w x : CmdWord} {c : BitVec 8} {fmt : Format} (hc : (opcodeOf w).toNat = c.toNat)
    (hx : x = w &&& fmt.used) : Code.cmd (withCode c x) = .cmd (withCode (opcodeOf w) (w &&& fmt.used)) := by
  rw [BitVec.eq_of_toNat_eq hc, hx]

/-- Whatever the operation code, the operation's encoding is the code over the format's bits of the word: the cases are the
rows of the table of rule R120, in its order. -/
theorem encode_operationOf {w : CmdWord} {fmt : Format} {i : Instr} (h : operationOf w = some (fmt, i))
    (ht : fmt = .t → maskOk (w.extractLsb' 0 8) = true) :
    encode i = .cmd (withCode (opcodeOf w) (w &&& fmt.used)) := by
  unfold operationOf at h
  split at h
  all_goals
    rename_i hc
    cases h
  all_goals refine cmd_of_fields hc ?_
  case h_1 | h_3 => exact fields_rd w
  case h_2 => exact fields_r w
  case h_4 | h_5 => exact fields_t (ht rfl)
  case h_6 | h_10 => exact fields_f w
  case h_7 => exact fields_p w
  case h_8 => exact fields_s w
  case h_9 => exact fields_c w
  case h_13 | h_14 | h_15 => exact fields_sc w
  case h_16 => exact fields_pc w
  case h_18 => exact fields_e w
  case h_20 => exact fields_n w
  case h_21 => exact fields_l w
  case h_22 | h_23 | h_24 => exact fields_b w
  case h_25 => exact fields_v w
  all_goals exact fields_z w

/-! An encoded operation read back (rules R119, R120). -/

/-- Every operation has its code in its command word (rule R120). -/
theorem codeAssigned : ∀ i : Instr, Laws.CodeAssigned.Statement i
  | .regrd r => Laws.CodeAssigned.regrd r
  | .regwr r v => Laws.CodeAssigned.regwr r v
  | .regrd32 r => Laws.CodeAssigned.regrd32 r
  | .get p x m => Laws.CodeAssigned.get p x m
  | .put p x m => Laws.CodeAssigned.put p x m
  | .encode f => Laws.CodeAssigned.encode f
  | .decode p => Laws.CodeAssigned.decode p
  | .inval p x => Laws.CodeAssigned.inval p x
  | .rxcfg p x mask idw mcont => Laws.CodeAssigned.rxcfg p x mask idw mcont
  | .txsubmit f => Laws.CodeAssigned.txsubmit f
  | .txdrain => Laws.CodeAssigned.txdrain
  | .rxdrain => Laws.CodeAssigned.rxdrain
  | .rxlost p x c => Laws.CodeAssigned.rxlost p x c
  | .rxmark p x c => Laws.CodeAssigned.rxmark p x c
  | .rxact p x c => Laws.CodeAssigned.rxact p x c
  | .rxactlow p c => Laws.CodeAssigned.rxactlow p c
  | .irq => Laws.CodeAssigned.irq
  | .ieall e => Laws.CodeAssigned.ieall e
  | .stchg => Laws.CodeAssigned.stchg
  | .stenter t => Laws.CodeAssigned.stenter t
  | .lecdec l => Laws.CodeAssigned.lecdec l
  | .btcalc b => Laws.CodeAssigned.btcalc b
  | .btapply b => Laws.CodeAssigned.btapply b
  | .cfgbt b => Laws.CodeAssigned.cfgbt b
  | .btdecode btr brpext => Laws.CodeAssigned.btdecode btr brpext
  | .start => Laws.CodeAssigned.start
  | .stop => Laws.CodeAssigned.stop
  | .chipcfg => Laws.CodeAssigned.chipcfg
  | .tacacq => Laws.CodeAssigned.tacacq
  | .tacrel => Laws.CodeAssigned.tacrel
  | .tacabandon => Laws.CodeAssigned.tacabandon
  | .intNone => Laws.CodeAssigned.intNone
  | .intStatus => Laws.CodeAssigned.intStatus
  | .intRxobj x => Laws.CodeAssigned.intRxobj x
  | .intTxobj x => Laws.CodeAssigned.intTxobj x
  | .intOther v => Laws.CodeAssigned.intOther v

theorem opcodeOf_encode {i : Instr} {w : CmdWord} (h : encode i = .cmd w) :
    Laws.CodeAssigned.code i = some (opcodeOf w) := by
  simpa only [Laws.CodeAssigned.Statement, h] using codeAssigned i

theorem frameOfWord_withCode (c : BitVec 8) (f : Frame) : frameOfWord (withCode c f.fields) = f := by
  simp (disch := decide) only [frameOfWord, Frame.fields, getLsbD_eq_field (withCode _ _), extractLsb'_withCode,
    BitVec.extractLsb'_or, extractLsb'_place, extractLsb'_place_of_disjoint, BitVec.zero_or, BitVec.or_zero,
    BitVec.getLsbD_ofBool, decide_true, Bool.true_and, unpackBytes_packBytes]

theorem timingOfWord_withCode (c : BitVec 8) (b : BitTiming) : timingOfWord (withCode c b.fields) = b := by
  simp (disch := decide) only [timingOfWord, BitTiming.fields, extractLsb'_withCode, BitVec.extractLsb'_or,
    extractLsb'_place, extractLsb'_place_of_disjoint, BitVec.zero_or, BitVec.or_zero]

/-- The code selects the row of the table, and every operand is read back from its field. -/
theorem operationOf_encode {i : Instr} {w : CmdWord} (h : encode i = .cmd w) :
    ∃ fmt, operationOf w = some (fmt, i) := by
  have code := opcodeOf_encode h
  cases i
  all_goals cases h
  all_goals
    unfold operationOf
    rw [← Option.some.inj code]
    refine ⟨_, congrArg (fun j => some (_, j)) ?_⟩
  case encode f | txsubmit f => rw [frameOfWord_withCode]
  case btcalc b | btapply b | cfgbt b => rw [timingOfWord_withCode]
  all_goals
    simp (disch := decide) only [regField, slotField, portField, savedField, slotFields,
      getLsbD_eq_field (withCode _ _), extractLsb'_withCode, BitVec.extractLsb'_or, extractLsb'_place,
      extractLsb'_place_of_disjoint, BitVec.zero_or, BitVec.or_zero, BitVec.getLsbD_ofBool, decide_true, Bool.true_and,
      portOfBit_bit]

/-- A word of format `T` carries the mask of its operation, so a well-formed operation keeps the two reserved bits 0. -/
theorem maskOk_of_wellFormed {w : CmdWord} {i : Instr} (h : operationOf w = some (.t, i)) (hi : i.WellFormed = true) :
    maskOk (w.extractLsb' 0 8) = true := by
  unfold operationOf at h
  split at h
  all_goals cases h
  -- left are the two rows of format `T`, whose operations both check their mask
  all_goals exact (Bool.and_eq_true_iff.1 hi).2

/-! What a command word decodes to (rules R111, R119, R120). -/

theorem decodeCmd_of_none {w : CmdWord} (h : operationOf w = none) :
    decodeCmd w = .error (.illegalCode (opcodeOf w)) := by
  simp only [decodeCmd, h]

theorem decodeCmd_of_some {w : CmdWord} {fmt : Format} {i : Instr} (h : operationOf w = some (fmt, i)) :
    decodeCmd w = if reservedClear fmt w then .ok i else .error .reservedBit := by
  simp only [decodeCmd, h]

theorem decodeCmd_eq_ok_iff {w : CmdWord} {i : Instr} :
    decodeCmd w = .ok i ↔ ∃ fmt, operationOf w = some (fmt, i) ∧ reservedClear fmt w = true := by
  cases h : operationOf w with
  | none => simp [decodeCmd_of_none h]
  | some x =>
    obtain ⟨fmt, j⟩ := x
    rw [decodeCmd_of_some h]
    cases hr : reservedClear fmt w <;> simp [hr]

theorem encode_of_decodeCmd {w : CmdWord} {i : Instr} (h : decodeCmd w = .ok i) : encode i = .cmd w := by
  obtain ⟨fmt, hop, hr⟩ := decodeCmd_eq_ok_iff.1 h
  have mask (ht : fmt = .t) : maskOk (w.extractLsb' 0 8) = true := maskOk_of_reservedClear (ht ▸ hr)
  rw [encode_operationOf hop mask, (reservedClear_iff_withCode fmt w).1 hr]

theorem decodeCmd_of_encode {w : CmdWord} {i : Instr} (h : encode i = .cmd w) (hi : i.WellFormed = true) :
    decodeCmd w = .ok i := by
  obtain ⟨fmt, hop⟩ := operationOf_encode h
  have mask (ht : fmt = .t) : maskOk (w.extractLsb' 0 8) = true := maskOk_of_wellFormed (ht ▸ hop) hi
  have code_over_fields := Code.cmd.inj ((encode_operationOf hop mask).symm.trans h)
  exact decodeCmd_eq_ok_iff.2 ⟨fmt, hop, (reservedClear_iff_withCode fmt w).2 code_over_fields⟩

/-! The classes of an interrupt-status value (rule R105). -/

theorem decodeInt_rx {v : Word} (hv : intIn Config.rxFirst Config.rxLast v = true) :
    decodeInt v = .intRxobj (v.setWidth 6) := by
  have h0 : v ≠ 0#16 := intIn_ne hv (by decide)
  have hs : v ≠ Config.statusSentinel := intIn_ne hv (by decide)
  simp [decodeInt, h0, hs, hv]

theorem decodeInt_tx {v : Word} (hv : intIn Config.txFirst Config.txLast v = true) :
    decodeInt v = .intTxobj (v.setWidth 6) := by
  have h0 : v ≠ 0#16 := intIn_ne hv (by decide)
  have hs : v ≠ Config.statusSentinel := intIn_ne hv (by decide)
  have hr : intIn Config.rxFirst Config.rxLast v = false := by
    simp only [intIn, decide_eq_true_eq, decide_eq_false_iff_not] at hv ⊢
    simp only [Config.txFirst, Config.rxLast] at hv ⊢
    omega
  simp [decodeInt, h0, hs, hr, hv]

theorem decodeInt_other {v : Word} (hv : intOtherOk v = true) : decodeInt v = .intOther v := by
  simp only [intOtherOk, Bool.and_eq_true, bne_iff_ne, Bool.not_eq_true'] at hv
  obtain ⟨⟨⟨h0, hs⟩, hr⟩, ht⟩ := hv
  simp [decodeInt, h0, hs, hr, ht]

/-- The five classes cover every value. -/
theorem intClass_cases (v : Word) :
    v = 0#16 ∨ v = Config.statusSentinel ∨ intIn Config.rxFirst Config.rxLast v = true ∨
      intIn Config.txFirst Config.txLast v = true ∨ intOtherOk v = true := by
  by_cases h0 : v = 0#16
  · exact .inl h0
  · by_cases hs : v = Config.statusSentinel
    · exact .inr (.inl hs)
    · cases hr : intIn Config.rxFirst Config.rxLast v <;> cases ht : intIn Config.txFirst Config.txLast v <;>
        simp [intOtherOk, h0, hs, hr, ht]

/-- A slot index is named by its low six bits. -/
theorem setWidth_setWidth_of_intIn {lo hi : Nat} {v : Word} (hv : intIn lo hi v = true) (hhi : hi < 64) :
    ((v.setWidth 6).setWidth 16) = v := by
  have hlt : v.toNat < 64 := by
    simp only [intIn, decide_eq_true_eq] at hv
    omega
  exact BitVec.eq_of_toNat_eq (by simp; omega)

theorem encode_decodeInt (v : Word) : encode (decodeInt v) = .int v := by
  obtain rfl | rfl | hv | hv | hv := intClass_cases v
  · rfl
  · rfl
  · rw [decodeInt_rx hv]; exact congrArg Code.int (setWidth_setWidth_of_intIn hv (by decide))
  · rw [decodeInt_tx hv]; exact congrArg Code.int (setWidth_setWidth_of_intIn hv (by decide))
  · rw [decodeInt_other hv]; rfl

/-- A well-formed class is the class of the value it names. -/
theorem decodeInt_of_encode {v : Word} {i : Instr} (h : encode i = .int v) (hi : i.WellFormed = true) :
    decodeInt v = i := by
  cases i
  all_goals cases h
  case intNone | intStatus => rfl
  case intRxobj x => exact (decodeInt_rx hi).trans (congrArg Instr.intRxobj (by simp))
  case intTxobj x => exact (decodeInt_tx hi).trans (congrArg Instr.intTxobj (by simp))
  case intOther => exact decodeInt_other hi

/-- Settles O2: the code selects the row of the operation and its fields are read back; for a class, it is the class of
its value. -/
theorem decodeOfEncode : Obligations.DecodeOfEncode := by
  unfold Obligations.DecodeOfEncode
  intro i hi
  cases h : encode i with
  | cmd w => exact decodeCmd_of_encode h hi
  | int v => exact congrArg Except.ok (decodeInt_of_encode h hi)

/-- Settles O3: the operation's fields, placed again, are the word's operand bits, and no other bit is set. -/
theorem encodeOfDecode : Obligations.EncodeOfDecode := by
  unfold Obligations.EncodeOfDecode
  intro c i h
  cases c with
  | cmd w => exact encode_of_decodeCmd h
  | int v =>
    obtain rfl : decodeInt v = i := Except.ok.inj h
    exact encode_decodeInt v

/-- Settles O1: the four words are decoded, and O3 gives their encodings. -/
theorem workedEncodings : Obligations.WorkedEncodings := by
  have start : decode (.cmd 0x80000000000000000000000000000000#128) = .ok .start := by decide
  have stop : decode (.cmd 0x81000000000000000000000000000000#128) = .ok .stop := by decide
  have cfgbt : decode (.cmd 0x7200000000000000000000000022100A#128) = .ok (.cfgbt ⟨2#3, 8#5, 4#4, 10#11⟩) := by decide
  have txsubmit : decode (.cmd 0x4200000100000123000000000000BBAA#128) =
      .ok (.txsubmit ⟨0x123#29, false, false, 2#4, #v[0xAA#8, 0xBB#8, 0, 0, 0, 0, 0, 0]⟩) := by decide
  exact ⟨start, stop, cfgbt, txsubmit, encodeOfDecode _ _ start, encodeOfDecode _ _ stop, encodeOfDecode _ _ cfgbt,
    encodeOfDecode _ _ txsubmit⟩

/-! The words that name no operation (rules R111, R120). -/

/-- The row of an assigned code stands in the table, with the mask of its format. -/
theorem mem_codeTable {w : CmdWord} {fmt : Format} {i : Instr} (h : operationOf w = some (fmt, i)) :
    (opcodeOf w, fmt.used) ∈ codeTable := by
  have code : BitVec.ofNat 8 (opcodeOf w).toNat = opcodeOf w := by simp
  unfold operationOf at h
  split at h
  all_goals
    rename_i hc
    cases h
  all_goals
    rw [← code, hc]
    decide

theorem codeTable_nodup : (codeTable.map Prod.fst).Nodup := by decide

/-- A code that the table of rule R120 has is assigned. -/
theorem not_mem_codeTable {w : CmdWord} (h : operationOf w = none) : opcodeOf w ∉ codeTable.map Prod.fst := by
  unfold operationOf at h
  split at h
  case h_32 =>
    simp only [codeTable, List.map, List.cons_append, List.nil_append, List.mem_cons, List.not_mem_nil, or_false,
      not_or, ← BitVec.toNat_inj]
    and_intros <;> assumption
  all_goals cases h

/-- Settles O4: a word is looked up in the table by its code, and its reserved bits are those outside the mask there. -/
theorem illegalWords : Obligations.IllegalWords := by
  unfold Obligations.IllegalWords
  intro w
  cases h : operationOf w with
  | none =>
    refine ⟨fun _ => decodeCmd_of_none h, fun x hx hw => ?_⟩
    exact absurd (List.mem_map.2 ⟨x, hx, hw.symm⟩) (not_mem_codeTable h)
  | some r =>
    obtain ⟨fmt, i⟩ := r
    have row := mem_codeTable h
    refine ⟨fun hw => absurd (List.mem_map_of_mem row) hw, fun x hx hw => ?_⟩
    obtain rfl := List.inj_on_of_nodup_map codeTable_nodup hx row hw.symm
    rw [decodeCmd_of_some h]
    refine ⟨fun hne => if_neg (mt (reservedClear_iff_and fmt w).1 hne), fun he => ⟨i, ?_⟩⟩
    exact if_pos ((reservedClear_iff_and fmt w).2 he)

/-! The interrupt-status classes by value and by mask, and the branch of each (rule R105). -/

/-- The twelve high bits of a value are its value with the low four cleared. -/
theorem toNat_and_FFF0 (v : Word) : (v &&& 0xFFF0#16).toNat = v.toNat / 16 * 16 := by
  have hm : (0xFFF0#16) = BitVec.allOnes 16 <<< 4 := by decide
  rw [hm, ← BitVec.shiftLeft_ushiftRight]
  simp [Nat.shiftLeft_eq, Nat.shiftRight_eq_div_pow]
  omega

end Sys2Proof
end

section
/-! PROOFS. A pass by the class of its value (30_encoding.md rule R105, 44_interrupt_pipeline.md rules R121, R180): the
classes by value and by mask, the branch and the answer of each, and the `IRQ` that serves what the device shows. -/

namespace Sys2Proof.Machine

/-! The classes by value and by mask (rule R105). -/

theorem decodeInt_eq_ranges (v : Word) :
    decodeInt v =
      if v.toNat = 0 then .intNone
      else if v.toNat = 0x8000 then .intStatus
      else if 1 ≤ v.toNat ∧ v.toNat ≤ 15 then .intRxobj (BitVec.ofNat 6 v.toNat)
      else if 16 ≤ v.toNat ∧ v.toNat ≤ 31 then .intTxobj (BitVec.ofNat 6 v.toNat)
      else .intOther v := by
  simp only [decodeInt, beq_iff_eq, ← BitVec.toNat_inj, intIn, decide_eq_true_eq, BitVec.ofNat_toNat]
  rfl

/-- The mask of the two slot classes leaves the value with its low four bits cleared. -/
theorem toNat_and_FFF0 (v : BitVec 16) : (v &&& 0xFFF0#16).toNat = v.toNat / 16 * 16 := by
  have mask : 0xFFF0#16 = BitVec.allOnes 16 <<< 4 := by decide
  rw [mask, ← BitVec.shiftLeft_ushiftRight]
  simp only [BitVec.toNat_shiftLeft, BitVec.toNat_ushiftRight, Nat.shiftLeft_eq, Nat.shiftRight_eq_div_pow]
  omega

theorem decodeInt_eq_masks (v : Word) :
    decodeInt v =
      if v &&& 0xFFFF#16 = 0x0000#16 then .intNone
      else if v &&& 0xFFFF#16 = 0x8000#16 then .intStatus
      else if v &&& 0xFFF0#16 = 0x0000#16 then .intRxobj (BitVec.ofNat 6 v.toNat)
      else if v &&& 0xFFF0#16 = 0x0010#16 then .intTxobj (BitVec.ofNat 6 v.toNat)
      else .intOther v := by
  have all : v &&& 0xFFFF#16 = v := BitVec.and_allOnes
  rw [decodeInt_eq_ranges, all]
  simp only [← BitVec.toNat_inj, toNat_and_FFF0, BitVec.toNat_ofNat, Config.wReg, Nat.reducePow, Nat.reduceMod]
  refine ite_congr rfl (fun _ => rfl) fun h0 => ite_congr rfl (fun _ => rfl) fun _ => ?_
  exact ite_congr (propext (by omega)) (fun _ => rfl) fun _ => ite_congr (propext (by omega)) (fun _ => rfl) fun _ => rfl

/-! The pass of a value (rules R121, R180). -/

/-- The branch of a pass is that of the class of its value (rules R105, R184). -/
theorem passBranch_eq_decodeInt {v : Word} (hv : v ≠ 0) (s : State) :
    passBranch v s =
      match decodeInt v with
      | .intStatus => stChgOp s
      | .intRxobj _ => rxDrainOp s
      | .intTxobj _ => loopbackOp (txDrainOp s)
      | _ => s := by
  obtain rfl | rfl | hr | ht | ho := intClass_cases v
  · exact absurd rfl hv
  · exact passBranch_status s
  · rw [passBranch_rx hr, decodeInt_rx hr]
  · rw [passBranch_tx ht, decodeInt_tx ht]
  · rw [passBranch_other ho, decodeInt_other ho]

/-- Whatever its class, a value's operation is the pass in which `INT` reads that value. -/
theorem exec_decodeInt (v : Word) (s : State) : exec (decodeInt v) s = answer s (passRefusal s) (passWith v s) := by
  obtain rfl | rfl | hr | ht | ho := intClass_cases v
  · rfl
  · rfl
  · rw [decodeInt_rx hr]
    simp [exec, execIntRxobj, setWidth_setWidth_of_intIn hr (by decide), hr, refuseIf]
  · rw [decodeInt_tx ht]
    simp [exec, execIntTxobj, setWidth_setWidth_of_intIn ht (by decide), ht, refuseIf]
  · rw [decodeInt_other ho]
    simp [exec, execIntOther, ho, refuseIf]

/-- A pass that can begin answers (rule R180). -/
theorem answer_pass {s : State} (hs : Ready s) (hp : PassReady s) (u : State) :
    answer s (passRefusal s) u = .next u :=
  answer_eq_next_iff.2 ⟨hs, (passRefusal_eq_none_iff s).2 hp, rfl⟩

theorem passOp_result (s : State) :
    (passOp s).result = if (readReg .int s).1 = 0#16 then .notHandled else .handled := by
  by_cases h : (readReg .int s).1 = 0#16 <;> simp [passOp, h]

/-- A pass of a given value is not ours exactly when the value is 0 (rule R181). -/
theorem passWith_result (v : Word) (s : State) :
    (passWith v s).result = if v = 0#16 then .notHandled else .handled := by
  rw [passWith, passOp_result, readReg_int_given rfl]

/-- Settles O5: the table by ranges and by masks, and the pass of each class. -/
theorem interruptClasses : Obligations.InterruptClasses := by
  unfold Obligations.InterruptClasses
  refine fun v => ⟨decodeInt_eq_ranges v, decodeInt_eq_masks v, fun s hv => passBranch_eq_decodeInt hv s,
    fun s hs hp => ⟨passWith 0#16 s, ?_, passWith_result 0#16 s⟩⟩
  rw [exec_decodeInt, answer_pass hs hp]

/-! What the device shows (rule R79, log 9). -/

/-- With nothing interleaved a read of `INT` that the environment gives no value returns what the device shows, and leaves
everything but the record. -/
theorem readReg_int_shown {s : State} (h : Still s.env) (hi : s.env.intNext = none) :
    readReg .int s = (intView s.dev, logEvent (.read .int (intView s.dev)) s) := by
  have sample : sampleInt s = (intView s.dev, s) := by simp only [sampleInt, hi, h.1, Bool.false_eq_true, if_false]
  exact readReg_plain h .int sample

/-- The state in which the environment names a value for the next read of `INT`, or none (rule R121). -/
def namingInt (v : Option Word) (s : State) : State := { s with env := { s.env with intNext := v } }

theorem passWith_eq (v : Word) (s : State) : passWith v s = passOp (namingInt (some v) s) := rfl

theorem namingInt_none {s : State} (hi : s.env.intNext = none) : namingInt none s = s := by
  rw [namingInt, ← hi]

/-- A value the environment names is used up by the read (rule R121). -/
theorem readReg_int_named {s : State} (h : Still s.env) (v : Word) :
    readReg .int (namingInt (some v) s) = (v, logEvent (.read .int v) (namingInt none s)) := by
  rw [readReg, interleave_still (s := namingInt (some v) s) h]
  rfl

/-- With nothing interleaved a pass is the pass of the value the device shows: naming that value makes no difference to the
read of `INT`. -/
theorem passWith_shown {s : State} (h : Still s.env) (hi : s.env.intNext = none) :
    passWith (intView s.dev) s = passOp s := by
  simp only [passWith_eq, passOp, readReg_int_named h, readReg_int_shown h hi, namingInt_none hi]

/-- Settles O36: `IRQ` is the pass of the value shown, and a pass frees what it takes. -/
theorem irqServesTheDevice : Obligations.IrqServesTheDevice := by
  unfold Obligations.IrqServesTheDevice
  intro s hs hp hb hstill hi
  refine ⟨passOp s, answer_pass hs hp _, ?_, ?_, passOp_betweenPasses hb⟩
  · rw [exec_decodeInt, passWith_shown hstill hi, answer_pass hs hp]
  · rw [← passWith_shown hstill hi, passWith_result]

end Sys2Proof.Machine
end

section
/-! PROOFS. `REGRD` (40_register_access.md rule R131): a read has no effect on the device but that of `STS`, and returns what
the register holds but where BUSY leaves the value free. -/

namespace Sys2Proof.Machine

/-- The register of an index has that index (rule R117). -/
theorem regIndex_regOf : ∀ r : BitVec 6, regOk r = true → regIndex (regOf r) = r.toNat := by decide

theorem regOf_eq_sts_iff : ∀ r : BitVec 6, regOf r = .sts ↔ r = 1#6 := by decide

theorem hasAny_crBusy (v : Word) : hasAny v crBusy = v.getLsbD 15 := hasAny_twoPow v (i := 15) (by decide)
theorem hasAny_cmWr (v : Word) : hasAny v cmWr = v.getLsbD 7 := hasAny_twoPow v (i := 7) (by decide)

/-- `REGRD` of a register answers with the read. -/
theorem exec_regrd {r : BitVec 6} {s : State} (hs : Ready s) (hr : regOk r = true) :
    exec (.regrd r) s = .next (withResult (.word (readReg (regOf r) s).1) (readReg (regOf r) s).2) :=
  answer_eq_next_iff.2 ⟨hs, by simp [hr], rfl⟩

/-- With nothing interleaved the only effect of a read on the device is that of `STS`, which takes the status-change cause
away (rule R66). -/
theorem readReg_dev_still {s : State} (h : Still s.env) (r : Reg) :
    (readReg r s).2.dev = if r = .sts then { s.dev with statusCause := false } else s.dev := by
  rw [readReg, interleave_still h, logEvent_dev]
  cases r with
  | int =>
    have sample : (sampleInt s).2.dev = s.dev := by
      unfold sampleInt
      split
      · rfl
      · split <;> rfl
    exact sample
  | port p q =>
    have sample : (sampleShadow p q s).2.dev = s.dev := by unfold sampleShadow; split <;> rfl
    exact sample
  | _ => rfl

/-- BUSY of `COMREQ` reads as the port holds it, whatever else is free (rules R80, R140). -/
theorem readReg_comreq_busy {s : State} (h : Still s.env) (p : PortId) :
    (readReg (.port p .comreq) s).1.getLsbD 15 = (portOf s.dev p).comreq.getLsbD 15 := by
  have busy := readReg_busy p s
  rwa [readReg_dev_still h, if_neg nofun, hasAny_crBusy, hasAny_crBusy] at busy

/-- A shadow register of a port with BUSY clear reads as held, and so does a target of a *get* that has timed out (rules
R144, R145, log 35). -/
theorem readsHeld_of {d : Device} {p : PortId} {q : PortReg}
    (h : BusyClear d p ∨ PortIdle d p ∧
      ∃ cm, (portOf d p).timedOut = some cm ∧ cm.getLsbD 7 = false ∧ cm &&& groupOf q ≠ 0) :
    readsHeld (portOf d p) q = true := by
  obtain hclear | ⟨hidle, cm, hcm, hget, hgroup⟩ := h
  · simp [readsHeld, (busyClear_iff d p).1 hclear]
  · have target : timedOutTarget (portOf d p) q = true := by
      simp only [timedOutTarget, hcm, show (portOf d p).inflight = none from hidle, hasAny_cmWr, hget]
      simpa [hasAny] using hgroup
    rw [readsHeld, target, Bool.or_true]

/-- With nothing interleaved a register that reads as held gives its value and uses nothing up; `INT` gives what the device
shows where the environment names no value. -/
theorem readReg_of_readsHeld {s : State} (h : Still s.env) (hi : s.env.intNext = none) {r : Reg}
    (hr : ∀ p q, r = .port p q → readsHeld (portOf s.dev p) q = true) :
    (readReg r s).1 = regValue s.dev r ∧ (readReg r s).2.env = s.env := by
  cases r with
  | sts => rw [readReg, interleave_still h]; exact ⟨rfl, rfl⟩
  | int => rw [readReg_int_shown h hi]; exact ⟨rfl, rfl⟩
  | port p q => rw [readReg_plain h _ (sampleReg_held (hr p q rfl))]; exact ⟨rfl, rfl⟩
  | _ => rw [readReg_plain h _ rfl]; exact ⟨rfl, rfl⟩

/-- Settles O15: the device and the value of a read, register by register. -/
theorem readRegister : Obligations.ReadRegister := by
  unfold Obligations.ReadRegister
  intro r s hr hs hstill hi
  refine ⟨regIndex_regOf r hr, _, (readReg (regOf r) s).1, exec_regrd hs hr, rfl, readReg_trace _ s,
    ⟨readReg_h _ s, readReg_g _ s, readReg_held _ s⟩, ?_, ?_, ?_⟩
  · simpa only [withResult_dev, regOf_eq_sts_iff] using readReg_dev_still hstill (regOf r)
  · intro p hp
    rw [hp, readReg_comreq_busy hstill]
  · exact fun held => readReg_of_readsHeld hstill hi fun p q hpq => readsHeld_of (held p q hpq)

end Sys2Proof.Machine
end

section
/-! PROOFS. The bus state machine (45_bus_state_machine.md rules R190 to R197) outside a pass, with nothing interleaved: what
each part of `STCHG` emits and what it leaves of the device, and the parts one after another. -/

namespace Sys2Proof.Machine

/-! A part of an operation, with nothing interleaved and outside a pass. -/

/-- Nothing is interleaved, and no pass is in the phase in which a delivery takes locks. -/
def StillOutside (s : State) : Prop := Still s.env ∧ s.h.phase ≠ .locked

/-- What a part of an operation does, as a function of the device alone: the effects it emits and the device it leaves. -/
def StillStep (f : State → State) (fx : Device → List Effect) (e : Device → Device) : Prop :=
  ∀ s, StillOutside s →
    StillOutside (f s) ∧ (f s).dev = e s.dev ∧ ∃ ev, (f s).trace = s.trace ++ ev ∧ effectsOf ev = fx s.dev

theorem StillStep.refl : StillStep id (fun _ => []) id :=
  fun _ hs => ⟨hs, rfl, [], (List.append_nil _).symm, rfl⟩

theorem StillStep.comp {f g : State → State} {fx gx : Device → List Effect} {e k : Device → Device}
    (b : StillStep g gx k) (a : StillStep f fx e) : StillStep (g ∘ f) (fun d => fx d ++ gx (e d)) (k ∘ e) := by
  intro s hs
  obtain ⟨ht, hdev, ev, htr, hev⟩ := a s hs
  obtain ⟨hu, hdev', ev', htr', hev'⟩ := b (f s) ht
  refine ⟨hu, by rw [Function.comp, hdev', hdev]; rfl, ev ++ ev', ?_, ?_⟩
  · rw [Function.comp, htr', htr, List.append_assoc]
  · rw [effectsOf_append, hev, hev', hdev]

theorem StillStep.runIf {f : State → State} {fx : Device → List Effect} {e : Device → Device} (a : StillStep f fx e)
    (b : Bool) : StillStep (runIf b f) (fun d => if b then fx d else []) (fun d => if b then e d else d) := by
  cases b
  · exact .refl
  · exact a

/-- A change of the handle that leaves the phase. -/
theorem StillStep.of_handle {f : State → State} (h : ∀ s, ∃ k : Handle, f s = withHandle k s ∧ k.phase = s.h.phase) :
    StillStep f (fun _ => []) id := by
  intro s hs
  obtain ⟨k, hf, hk⟩ := h s
  rw [hf]
  exact ⟨⟨hs.1, by rw [withHandle_h, hk]; exact hs.2⟩, rfl, [], (List.append_nil _).symm, rfl⟩

theorem setOpState_stillStep (st : OpState) : StillStep (setOpState st) (fun _ => []) id :=
  .of_handle fun _ => ⟨_, rfl, rfl⟩

theorem setLastStatus_stillStep (v : Word) : StillStep (setLastStatus v) (fun _ => []) id :=
  .of_handle fun _ => ⟨_, rfl, rfl⟩

theorem deliver_stillStep (ev : BusEvent) : StillStep (deliver ev) (fun _ => [.deliver ev]) id := by
  intro s hs
  rw [deliver_outside hs.2]
  exact ⟨hs, rfl, _, rfl, rfl⟩

theorem tacAbandon_stillStep : StillStep tacAbandon (fun _ => [.tacAbandonAll]) id :=
  fun _ hs => ⟨hs, rfl, _, rfl, rfl⟩

/-- A write of `STS` takes TXOK, RXOK and LEC (rule R66); it keeps the other bits (log 8). -/
theorem writeSts_stillStep (v : Word) :
    StillStep (writeReg .sts v) (fun _ => [])
      (fun d => { d with sts := (d.sts &&& 0xFFE0#16) ||| (v &&& 0x001F#16) }) := by
  intro s hs
  rw [writeReg_still hs.1]
  exact ⟨hs, rfl, _, rfl, rfl⟩

theorem ieAll_false_stillStep :
    StillStep (ieAll false) (fun _ => []) (fun d => { d with ctrl := d.ctrl &&& 0xFFF1#16 }) := by
  intro s hs
  rw [ieAll_still hs.1]
  exact ⟨hs, rfl, [_] ++ [_], List.append_assoc _ _ _, rfl⟩

/-- A read of `STS` takes the status-change cause away (rule R66). -/
theorem readReg_sts_still {s : State} (h : Still s.env) :
    readReg .sts s =
      (s.dev.sts, logEvent (.read .sts s.dev.sts) { s with dev := { s.dev with statusCause := false } }) := by
  rw [readReg, interleave_still h]
  rfl

theorem readSts_stillStep :
    StillStep (fun s => (readReg .sts s).2) (fun _ => []) (fun d => { d with statusCause := false }) := by
  intro s hs
  simp only [readReg_sts_still hs.1]
  exact ⟨hs, rfl, _, rfl, rfl⟩

/-! The parts of `STCHG`. -/

/-- What entering an error state emits (rule R192). -/
def entryEffects (x : ErrState) (errcnt : Word) : List Effect :=
  match x with
  | .warning => [.deliver (stateEvent false errcnt)]
  | .passive => [.deliver (stateEvent true errcnt)]
  | .busOff => [.deliver .busOff, .tacAbandonAll]

/-- Entering the warning or the passive state reads `ERRCNT` and delivers (rule R192). -/
theorem errcnt_stillStep (ev : Word → BusEvent) (st : OpState) :
    StillStep (fun s => deliver (ev (readReg .errcnt s).1) (setOpState st (readReg .errcnt s).2))
      (fun d => [.deliver (ev d.errcnt)]) id := by
  intro s hs
  simp only [readReg_plain hs.1 .errcnt rfl]
  rw [deliver_outside (s := setOpState st (logEvent _ s)) hs.2]
  exact ⟨hs, rfl, [_] ++ [_], List.append_assoc _ _ _, rfl⟩

theorem stEnterOp_stillStep (x : ErrState) :
    StillStep (stEnterOp x) (fun d => entryEffects x d.errcnt)
      (fun d => if x = .busOff then { d with ctrl := d.ctrl &&& 0xFFF1#16 } else d) := by
  cases x with
  | warning => exact errcnt_stillStep (stateEvent false) .errorWarning
  | passive => exact errcnt_stillStep (stateEvent true) .errorPassive
  | busOff =>
    exact tacAbandon_stillStep.comp <| ieAll_false_stillStep.comp <|
      (deliver_stillStep .busOff).comp (setOpState_stillStep .busOff)

/-- What the rising edges emit, in their order (rules R190, R192). -/
def edgeEffects (cur old errcnt : Word) : List Effect :=
  (if rising cur old stEwarn then entryEffects .warning errcnt else []) ++
    (if rising cur old stEpass then entryEffects .passive errcnt else []) ++
    if rising cur old stBoff then entryEffects .busOff errcnt else []

theorem statusEdges_stillStep (cur old : Word) :
    StillStep (statusEdges cur old) (fun d => edgeEffects cur old d.errcnt)
      (fun d => if rising cur old stBoff then { d with ctrl := d.ctrl &&& 0xFFF1#16 } else d) := by
  have rises (x : ErrState) (m : Word) := (stEnterOp_stillStep x).runIf (rising cur old m)
  have falls (m : Word) := (setOpState_stillStep .errorActive).runIf (falling cur old m)
  have run := (falls stEpass).comp <| (falls stBoff).comp <| (rises .busOff stBoff).comp <|
    (rises .passive stEpass).comp (rises .warning stEwarn)
  intro s hs
  simpa [edgeEffects, statusEdges] using run s hs

/-- The last-error codes that report (rules R107, R197). -/
theorem lecDecOp_some {lec : BitVec 3} {k : ErrKind} (hk : lecKind lec = some k) :
    lecDecOp lec = writeReg .sts 0x0007#16 ∘ deliver (.busError k) := by
  funext s
  simp only [lecDecOp, hk]
  rfl

theorem lecDecOp_none {lec : BitVec 3} (hk : lecKind lec = none) : lecDecOp lec = id := by
  funext s
  simp only [lecDecOp, hk, id]

theorem lecDecOp_stillStep (lec : BitVec 3) :
    StillStep (lecDecOp lec) (fun _ => ((lecKind lec).map fun k => Effect.deliver (.busError k)).toList)
      (fun d => if (lecKind lec).isSome then { d with sts := (d.sts &&& 0xFFE0#16) ||| 0x0007#16 } else d) := by
  cases hk : lecKind lec with
  | none =>
    rw [lecDecOp_none hk]
    exact .refl
  | some k =>
    rw [lecDecOp_some hk]
    exact (writeSts_stillStep 0x0007#16).comp (deliver_stillStep (.busError k))

/-- The flags TXOK and RXOK are clear after the clearing write, or were clear before (rule R190). -/
theorem clearOkFlags_stillStep (cur : Word) :
    StillStep (clearOkFlags cur) (fun _ => [])
      (fun d => if hasAny cur (stTxok ||| stRxok) then
        { d with sts := (d.sts &&& 0xFFE0#16) ||| (cur &&& 0xFFE7#16 &&& 0x001F#16) } else d) := by
  have run := (writeSts_stillStep (cur &&& 0xFFE7#16)).runIf (hasAny cur (stTxok ||| stRxok))
  simp only [ite_self] at run
  exact run

/-! `STCHG` as a whole. -/

/-- The handle and the host's count after `STCHG`, in any environment (rules R190 to R196). -/
theorem stChgOp_handle (s : State) :
    (stChgOp s).h =
        { s.h with
          state := edgeState (readReg .sts s).1 s.h.lastStatus s.h.state
          lastStatus := (readReg .sts s).1
          tac := if rising (readReg .sts s).1 s.h.lastStatus stBoff then none else s.h.tac } ∧
      (stChgOp s).held = if rising (readReg .sts s).1 s.h.lastStatus stBoff then 0 else s.held := by
  obtain ⟨hh, -, hu, -⟩ := (readReg_block .sts s).trans (clearOkFlags_block (readReg .sts s).1 (readReg .sts s).2)
  have lecHandle := fun l t => (lecDecOp_rx l t).handle
  have lecHeld := fun l t => (lecDecOp_rx l t).held
  obtain ⟨eh, eu⟩ := statusEdges_spec (readReg .sts s).1 s.h.lastStatus
    (clearOkFlags (readReg .sts s).1 (readReg .sts s).2)
  simp only [stChgOp, lecHandle, lecHeld, setLastStatus, withHandle_h, withHandle_held, hh, eh, eu, hu, and_self]

/-- With nothing interleaved the parts of `STCHG` all work from the `STS` the device holds. -/
theorem stChgOp_eq_parts {s : State} (h : Still s.env) :
    stChgOp s = (lecDecOp (s.dev.sts.extractLsb' 0 3) ∘ setLastStatus s.dev.sts ∘
      statusEdges s.dev.sts s.h.lastStatus ∘ clearOkFlags s.dev.sts ∘ fun t => (readReg .sts t).2) s := by
  have snapshot := (clearOkFlags_block s.dev.sts (readReg .sts s).2).1
  simp only [stChgOp, Function.comp, readReg_sts_still h] at snapshot ⊢
  rw [snapshot]
  rfl

/-- Clearing TXOK and RXOK only where one of them is set comes to clearing both (rule R190). -/
theorem okFlags_cleared (d : Device) :
    (if hasAny d.sts (stTxok ||| stRxok) then
      { d with sts := (d.sts &&& 0xFFE0#16) ||| (d.sts &&& 0xFFE7#16 &&& 0x001F#16) } else d) =
      { d with sts := d.sts &&& 0xFFE7#16 } := by
  cases h : hasAny d.sts (stTxok ||| stRxok) with
  | true =>
    rw [if_pos rfl, BitVec.and_assoc, ← BitVec.and_or_distrib_left]
    rfl
  | false =>
    have clear : d.sts &&& (stTxok ||| stRxok) = 0#16 := by simpa [hasAny] using h
    have same : d.sts &&& 0xFFE7#16 = d.sts := calc
      d.sts &&& 0xFFE7#16 = d.sts &&& ((stTxok ||| stRxok) ||| 0xFFE7#16) := by
        rw [BitVec.and_or_distrib_left, clear, BitVec.zero_or]
      _ = d.sts := BitVec.and_allOnes
    rw [same]
    rfl

/-- The device after `STCHG`, from the snapshot (rules R66, R190, R192, R197; log 8 for the bits of `STS` a write keeps). -/
def statusDevice (old : Word) (d : Device) : Device :=
  { d with
    ctrl := if rising d.sts old stBoff then d.ctrl &&& 0xFFF1#16 else d.ctrl
    sts := if (lecKind (d.sts.extractLsb' 0 3)).isSome then (d.sts &&& 0xFFE0#16) ||| 0x0007#16 else d.sts &&& 0xFFE7#16
    statusCause := false }

/-- The effects of `STCHG`, from the snapshot (rules R190, R192, R197). -/
def statusEffects (old : Word) (d : Device) : List Effect :=
  edgeEffects d.sts old d.errcnt ++
    ((lecKind (d.sts.extractLsb' 0 3)).map fun k => Effect.deliver (.busError k)).toList

theorem stChgOp_still {s : State} (hs : StillOutside s) :
    (stChgOp s).dev = statusDevice s.h.lastStatus s.dev ∧
      ∃ ev, (stChgOp s).trace = s.trace ++ ev ∧ effectsOf ev = statusEffects s.h.lastStatus s.dev := by
  have parts := (lecDecOp_stillStep (s.dev.sts.extractLsb' 0 3)).comp <| (setLastStatus_stillStep s.dev.sts).comp <|
    (statusEdges_stillStep s.dev.sts s.h.lastStatus).comp <|
    (clearOkFlags_stillStep s.dev.sts).comp readSts_stillStep
  obtain ⟨-, hdev, ev, htr, hev⟩ := parts s hs
  rw [stChgOp_eq_parts hs.1]
  have cleared := okFlags_cleared { s.dev with statusCause := false }
  simp only [Function.comp, id, List.nil_append, List.append_nil] at hdev hev
  rw [cleared] at hdev hev
  refine ⟨hdev.trans ?_, ev, htr, hev⟩
  have acked : (s.dev.sts &&& 0xFFE7#16) &&& 0xFFE0#16 = s.dev.sts &&& 0xFFE0#16 := BitVec.and_assoc ..
  unfold statusDevice
  cases rising s.dev.sts s.h.lastStatus stBoff <;> cases (lecKind (s.dev.sts.extractLsb' 0 3)).isSome
  all_goals simp [acked]

/-- Outside a pass `STCHG` leaves the global locks (log 22). -/
theorem stChgOp_globals {s : State} (hp : s.h.phase = .idle) : (stChgOp s).g = s.g :=
  (stChgOp_st s).locks.1 (by rw [hp]; nofun)

/-! The bits of `STS` that the edges look at, and the codes that report (rules R101, R107, R191, R193). -/

theorem rising_twoPow (cur old : Word) {i : Nat} (hi : i < 16) :
    rising cur old (BitVec.twoPow 16 i) = (cur.getLsbD i && !old.getLsbD i) := by
  rw [rising, hasAny_twoPow _ hi, hasAny_twoPow _ hi]

theorem falling_twoPow (cur old : Word) {i : Nat} (hi : i < 16) :
    falling cur old (BitVec.twoPow 16 i) = (!cur.getLsbD i && old.getLsbD i) := by
  rw [falling, hasAny_twoPow _ hi, hasAny_twoPow _ hi]

theorem rising_stEwarn (cur old : Word) : rising cur old stEwarn = (cur.getLsbD 6 && !old.getLsbD 6) :=
  rising_twoPow cur old (i := 6) (by decide)

theorem rising_stEpass (cur old : Word) : rising cur old stEpass = (cur.getLsbD 5 && !old.getLsbD 5) :=
  rising_twoPow cur old (i := 5) (by decide)

theorem rising_stBoff (cur old : Word) : rising cur old stBoff = (cur.getLsbD 7 && !old.getLsbD 7) :=
  rising_twoPow cur old (i := 7) (by decide)

theorem falling_stEpass (cur old : Word) : falling cur old stEpass = (!cur.getLsbD 5 && old.getLsbD 5) :=
  falling_twoPow cur old (i := 5) (by decide)

theorem falling_stBoff (cur old : Word) : falling cur old stBoff = (!cur.getLsbD 7 && old.getLsbD 7) :=
  falling_twoPow cur old (i := 7) (by decide)

theorem lecKind_eq : ∀ lec : BitVec 3,
    lecKind lec =
      if 1 ≤ lec.toNat ∧ lec.toNat ≤ 6 then
        [ErrKind.stuff, .form, .ack, .bitDominant, .bitRecessive, .crc][lec.toNat - 1]? else none := by decide

theorem lecKind_isSome_iff : ∀ lec : BitVec 3, (lecKind lec).isSome = true ↔ 1 ≤ lec.toNat ∧ lec.toNat ≤ 6 := by decide

/-- The last-error code is the low three bits of `STS`. -/
theorem lecKind_sts_isSome_iff (cur : Word) :
    (lecKind (cur.extractLsb' 0 3)).isSome = true ↔ 1 ≤ cur.toNat % 8 ∧ cur.toNat % 8 ≤ 6 := by
  have low : (cur.extractLsb' 0 3).toNat = cur.toNat % 8 := by simp
  rw [lecKind_isSome_iff, low]

/-! The obligations. -/

theorem exec_stchg {s : State} (hs : Ready s) : exec .stchg s = .next (withResult .unit (stChgOp s)) :=
  answer_eq_next_iff.2 ⟨hs, rfl, rfl⟩

theorem exec_lecdec (lec : BitVec 3) {s : State} (hs : Ready s) :
    exec (.lecdec lec) s = .next (withResult .unit (lecDecOp lec s)) :=
  answer_eq_next_iff.2 ⟨hs, rfl, rfl⟩

theorem stillOutside_of_idle {s : State} (h : Still s.env) (hp : s.h.phase = .idle) : StillOutside s :=
  ⟨h, by rw [hp]; nofun⟩

/-- A reporting code outside a pass: the bus error is delivered, and then acknowledged by one write of `STS` (rule R197). -/
theorem lecDecOp_reports {lec : BitVec 3} {k : ErrKind} {s : State} (hk : lecKind lec = some k) (hs : StillOutside s) :
    (lecDecOp lec s).trace = s.trace ++ [.effect (.deliver (.busError k)), .write .sts 0x0007#16] ∧
      (lecDecOp lec s).dev = { s.dev with sts := (s.dev.sts &&& 0xFFE0#16) ||| 0x0007#16 } := by
  rw [lecDecOp_some hk, Function.comp, deliver_outside hs.2, writeReg_trace, emit_trace, List.append_assoc]
  obtain ⟨-, hdev, -⟩ := writeSts_stillStep 0x0007#16 (emit (.deliver (.busError k)) s) hs
  exact ⟨rfl, hdev⟩

/-- Settles O45: the codes that report are those of `lecKind`, and a code that does not report changes nothing. -/
theorem lastErrorCode : Obligations.LastErrorCode := by
  unfold Obligations.LastErrorCode
  intro lec s hs hstill hp kinds
  have outside := stillOutside_of_idle hstill hp
  have keeps := lecDecOp_rx lec s
  refine ⟨_, exec_lecdec lec hs, rfl, ⟨keeps.handle, keeps.locks.1 outside.2, keeps.held⟩, fun h => ?_,
    fun k h1 h6 hk => lecDecOp_reports ?_ outside⟩
  · have silent : lecKind lec = none := by obtain rfl | rfl := h <;> rfl
    rw [lecDecOp_none silent]
    exact ⟨rfl, rfl⟩
  · rw [lecKind_eq, if_pos ⟨h1, h6⟩, hk]

/-- Settles O43: the handle in any environment, and the device and the effects of the parts one after another. -/
theorem statusChange : Obligations.StatusChange := by
  unfold Obligations.StatusChange
  intro s hs hstill hp cur old tec rec' side rises falls lec
  obtain ⟨hh, hu⟩ := stChgOp_handle s
  obtain ⟨hdev, ev, htr, hev⟩ := stChgOp_still (stillOutside_of_idle hstill hp)
  have value : (readReg .sts s).1 = cur := congrArg Prod.fst (readReg_sts_still hstill)
  rw [value, rising_stBoff] at hu
  rw [value, rising_stBoff, edgeState] at hh
  simp only [rising_stEwarn, rising_stEpass, rising_stBoff, falling_stBoff, falling_stEpass] at hh
  simp only [statusEffects, edgeEffects, rising_stEwarn, rising_stEpass, rising_stBoff] at hev
  simp only [statusDevice, rising_stBoff, lecKind_sts_isSome_iff] at hdev
  refine ⟨_, ev, exec_stchg hs, rfl, htr, hh.trans ?_, hev.trans ?_, ?_⟩
  · rfl
  · refine congrArg (List.append _) ?_
    cases lecKind (cur.extractLsb' 0 3) <;> rfl
  · simp only [withResult_g, withResult_dev, withResult_held]
    rw [hdev]
    exact ⟨rfl, rfl, stChgOp_globals hp, hu, rfl, rfl, rfl, rfl, rfl, fun _ => rfl, rfl, rfl⟩

end Sys2Proof.Machine
end

section
/-! PROOFS. `REGWR` (40_register_access.md rules R66, R132, R140): with nothing interleaved a write is the effect of its one
access on the device; of a global register that is a change of that register, of a shadow register a change of its port. -/

namespace Sys2Proof.Machine

/-- `REGWR` of a register that may be written, with nothing interleaved, has the effect of the write on the device and one
write in the record (rule R132). -/
theorem exec_regwr_still {r : BitVec 6} {s : State} (v : Word) (hs : Ready s) (h : Still s.env) (hr : regOk r = true)
    (hw : readOnly (regOf r) = false) :
    ∃ t, exec (.regwr r v) s = .next t ∧ t.result = .unit ∧ t.trace = s.trace ++ [.write (regOf r) v] ∧
      SameBlock s t ∧ t.dev = writeEffect s.env.draws (regOf r) v s.dev := by
  have allowed : regwrRefusal r = none := by simp [regwrRefusal, hr, hw]
  obtain ⟨⟨hh, hg, hu, -⟩, hdev, htr, -⟩ := writeReg_moves h (regOf r) v
  exact ⟨_, answer_eq_next_iff.2 ⟨hs, allowed, rfl⟩, rfl, htr, ⟨hh, hg, hu⟩, hdev⟩

/-! The global registers (rule R66). -/

/-- The effect of a write of a global register, by its index (rules R66, R117; logs 8 and 36). -/
theorem writeEffect_global {r : BitVec 6} (hr : r = 0#6 ∨ r = 1#6 ∨ r = 3#6 ∨ r = 5#6 ∨ r = 6#6) (seed : Nat) (v : Word)
    (d : Device) :
    writeEffect seed (regOf r) v d =
      { d with
        ctrl := if r = 0#6 then v else d.ctrl
        sts := if r = 1#6 then (d.sts &&& 0xFFE0#16) ||| (v &&& 0x001F#16) else d.sts
        btr := if r = 3#6 then timingWrite seed d d.btr v else d.btr
        test := if r = 5#6 then v else d.test
        brpext := if r = 6#6 then timingWrite seed d d.brpext v else d.brpext } := by
  obtain rfl | rfl | rfl | rfl | rfl := hr <;> rfl

/-- A timing register that may have been written holds the old value, or was written and holds the new one (93 U6). -/
theorem ite_timingWrite_cases (c : Prop) [Decidable c] (seed : Nat) (d : Device) (old v : Word) :
    (if c then timingWrite seed d old v else old) = old ∨ c ∧ (if c then timingWrite seed d old v else old) = v := by
  by_cases hc : c
  · cases ho : timingOpen d <;> cases hf : Config.freeBool seed <;> simp [timingWrite, hc, ho, hf]
  · exact .inl (if_neg hc)

/-- With INIT and CCE set a timing register takes the value (rule R66). -/
theorem timingWrite_of_init_cce {d : Device} (hinit : d.ctrl.getLsbD 0 = true) (hcce : d.ctrl.getLsbD 6 = true)
    (seed : Nat) (old v : Word) : timingWrite seed d old v = v := by
  have init : hasAny d.ctrl ctInit = true := (hasAny_twoPow _ (i := 0) (by decide)).trans hinit
  have cce : hasAny d.ctrl ctCce = true := (hasAny_twoPow _ (i := 6) (by decide)).trans hcce
  simp [timingWrite, timingOpen, init, cce]

/-- Settles O16: the device is the effect of the write, which changes the one register; a timing register takes its value in
the open window and may take it elsewhere. -/
theorem writeGlobalRegister : Obligations.WriteGlobalRegister := by
  unfold Obligations.WriteGlobalRegister
  intro r v s hs h hr
  have writable : regOk r = true ∧ readOnly (regOf r) = false := by
    obtain rfl | rfl | rfl | rfl | rfl := hr <;> decide
  obtain ⟨t, hexec, hres, htr, hblock, hdev⟩ := exec_regwr_still v hs h writable.1 writable.2
  rw [writeEffect_global hr] at hdev
  refine ⟨t, hexec, hres, htr, hblock, ?_⟩
  rw [hdev]
  refine ⟨rfl, rfl, rfl, ite_timingWrite_cases _ _ _ _ v, ite_timingWrite_cases _ _ _ _ v, fun hinit hcce => ?_,
    rfl, rfl, fun _ => rfl, rfl, rfl⟩
  simp only [timingWrite_of_init_cce hinit hcce, and_self]

/-! The shadow registers of an idle port (rules R66, R140). -/

theorem sameGlobals_withPort (d : Device) (p : PortId) (q : PortRegs) : SameGlobals d (withPort d p q) := by
  simp [SameGlobals]

theorem shadowGet_shadowSet (q : PortRegs) (r k : PortReg) (v : Word) :
    shadowGet (shadowSet q r v) k = if k = r then v else shadowGet q k := by
  cases r <;> cases k <;> rfl

theorem shadowSet_timedOut (q : PortRegs) (r : PortReg) (v : Word) : (shadowSet q r v).timedOut = q.timedOut := by
  cases r <;> rfl

/-- The hidden state of a port is none of its shadow registers (rule R22). -/
theorem shadowGet_hidden (q : PortRegs) (x : Option Xfer) (cm : Option Word) (k : PortReg) :
    shadowGet { q with inflight := x, timedOut := cm } k = shadowGet q k := by
  cases k <;> rfl

/-- A port after a request on it while it was idle: BUSY set in `COMREQ`, and the transfer in flight (rules R66, R140). -/
def requested (seed : Nat) (v : Word) (q : PortRegs) : PortRegs :=
  { shadowSet q .comreq (v ||| crBusy) with
    inflight := some ⟨requestedSlot seed v, q.commsk, false⟩
    timedOut := none }

/-- A request on an idle port abandons nothing (rules R66, R140). -/
theorem writeEffect_comreq {d : Device} {p : PortId} (h : PortIdle d p) (seed : Nat) (v : Word) :
    writeEffect seed (.port p .comreq) v d = withPort d p (requested seed v (portOf d p)) := by
  have abandons : abandonTransfer seed p d = d := by simp only [abandonTransfer, show (portOf d p).inflight = none from h]
  simp only [writeEffect, startTransfer, abandons]
  rfl

theorem slotOf_num : ∀ x : BitVec 6, slotOk x = true → (slotOf x).num = x.toNat := by decide

/-- A request whose bits 5:0 are a slot index is one for that slot (rules R66, R95). -/
theorem requestedSlot_of_index (seed : Nat) {v : Word} (h1 : 1 ≤ v.toNat % 64) (h32 : v.toNat % 64 ≤ 32) :
    ∃ k, requestedSlot seed v = some k ∧ k.num = v.toNat % 64 := by
  have low : (v.extractLsb' 0 6).toNat = v.toNat % 64 := by simp
  have ok : slotOk (v.extractLsb' 0 6) = true := decide_eq_true ⟨low ▸ h1, low ▸ h32⟩
  exact ⟨_, if_pos ok, (slotOf_num _ ok).trans low⟩

/-- `REGWR` of a shadow register, where the effect of the write is one on its port: nothing else changes (rule R132). -/
theorem exec_regwr_port {r : BitVec 6} {s : State} {p : PortId} {q : PortReg} {v : Word} {u : PortRegs} (hs : Ready s)
    (h : Still s.env) (hr : regOk r = true) (hreg : regOf r = .port p q)
    (effect : writeEffect s.env.draws (.port p q) v s.dev = withPort s.dev p u) :
    ∃ t, exec (.regwr r v) s = .next t ∧ t.result = .unit ∧ t.trace = s.trace ++ [.write (.port p q) v] ∧
      SameBlock s t ∧ SameGlobals s.dev t.dev ∧ SameOtherPort p s.dev t.dev ∧ SameSlots s.dev t.dev ∧
      portOf t.dev p = u := by
  obtain ⟨t, hexec, hres, htr, hblock, hdev⟩ := exec_regwr_still v hs h hr (by rw [hreg]; rfl)
  rw [hreg] at htr hdev
  rw [effect] at hdev
  refine ⟨t, hexec, hres, htr, hblock, ?_⟩
  rw [hdev]
  exact ⟨sameGlobals_withPort _ p u, fun _ => portOf_withPort_ne _ u, slotAt_withPort _ p u, portOf_withPort _ p u⟩

/-- Settles O17: a write of `COMREQ` is a request on the port, one of another register sets that register. -/
theorem writeShadowRegister : Obligations.WriteShadowRegister := by
  unfold Obligations.WriteShadowRegister
  intro r v p q s hs h hr hreg idle
  by_cases hq : q = .comreq
  · subst hq
    obtain ⟨t, hexec, hres, htr, hblock, globals, other, slots, port⟩ :=
      exec_regwr_port hs h hr hreg (writeEffect_comreq idle _ v)
    refine ⟨t, hexec, hres, htr, hblock, globals, other, slots, fun k hk => ?_, (absurd rfl ·), fun _ => ?_⟩
    · rw [port, requested, shadowGet_hidden, shadowGet_shadowSet, if_neg hk]
    · rw [port]
      exact ⟨rfl, rfl, _, rfl, rfl, rfl, requestedSlot_of_index _⟩
  · obtain ⟨t, hexec, hres, htr, hblock, globals, other, slots, port⟩ :=
      exec_regwr_port hs h hr hreg (writeEffect_shadow idle _ hq v)
    refine ⟨t, hexec, hres, htr, hblock, globals, other, slots, fun k hk => ?_, fun _ => ?_, (absurd · hq)⟩
    · rw [port, shadowGet_shadowSet, if_neg hk]
    · rw [PortIdle, port, shadowGet_shadowSet, if_pos rfl, shadowSet_inflight, shadowSet_timedOut]
      exact ⟨rfl, idle, rfl⟩

end Sys2Proof.Machine
end

section
/-! PROOFS. The interface transactor (41_interface_transactor.md rules R140 to R145): a transfer is its two writes, the poll,
and either the device's transfer step or a soft failure; a *get* changes the port alone, a *put* one slot besides. -/

namespace Sys2Proof.Machine

/-! The poll counts: accesses leave them, and a transfer takes the head (rule R143). -/

theorem takeDevSteps_polls (l : List DevStep) (s : State) : (takeDevSteps l s).env.polls = s.env.polls := by
  induction l generalizing s with
  | nil => rfl
  | cons a l ih => exact ih (takeDevStep a s)

theorem interleave_polls (s : State) : (interleave s).env.polls = s.env.polls := by
  unfold interleave
  split
  · exact takeDevSteps_polls _ _
  · split
    · exact takeDevSteps_polls _ _
    · rfl

theorem writeReg_polls (r : Reg) (v : Word) (s : State) : (writeReg r v s).env.polls = s.env.polls :=
  interleave_polls s

theorem readShadow_polls (p : PortId) (r : PortReg) (s : State) :
    (readReg (.port p r) s).2.env.polls = s.env.polls := by
  have sample : (sampleShadow p r (interleave s)).2.env.polls = (interleave s).env.polls := by
    unfold sampleShadow
    split <;> rfl
  exact sample.trans (interleave_polls s)

theorem pollBusy_polls (p : PortId) (n k : Nat) (s : State) : (pollBusy p n k s).2.env.polls = s.env.polls := by
  induction n generalizing k s with
  | zero => rfl
  | succ n ih =>
    have round : (readReg (.port p .comreq) (if k = 0 then deviceFinish p s else s)).2.env.polls = s.env.polls := by
      rw [readShadow_polls]
      split <;> rfl
    simp only [pollBusy]
    generalize readReg (.port p .comreq) (if k = 0 then deviceFinish p s else s) = x at round ⊢
    split
    · exact (ih _ _).trans round
    · exact round

theorem drawPolls_cons {s : State} {k : Nat} {rest : List Nat} (h : s.env.polls = k :: rest) :
    drawPolls s = (k, { s with env := { s.env with polls := rest } }) := by
  simp only [drawPolls, h]

/-! The start of a transfer, and its two ends (rule R140). -/

/-- The state in which the polls of a transfer begin: past its two writes and the draw of how many of them read BUSY
set. -/
def polling (p : PortId) (sl : Slot) (cm : Word) (s : State) : Nat × State :=
  drawPolls (writeReg (.port p .comreq) (slotWord sl) (writeReg (.port p .commsk) cm s))

theorem xfer_of_done {p : PortId} {sl : Slot} {cm : Word} {s w : State} {k : Nat} (hw : polling p sl cm s = (k, w))
    (ho : (pollBusy p Config.busyRetries k w).1 = .done) : xfer p sl cm s = pollBusy p Config.busyRetries k w := by
  rw [polling] at hw
  simp only [xfer, hw, ho]

theorem xfer_of_timeout {p : PortId} {sl : Slot} {cm : Word} {s w : State} {k : Nat} (hw : polling p sl cm s = (k, w))
    (ho : (pollBusy p Config.busyRetries k w).1 = .timeout) :
    xfer p sl cm s = (.timeout, softFailure p sl cm (pollBusy p Config.busyRetries k w).2) := by
  rw [polling] at hw
  simp only [xfer, hw, ho]

/-- The polls begin with the transfer started and the head of the poll counts taken. -/
theorem polling_moves {s : State} (h : Still s.env) {p : PortId} (hp : PortIdle s.dev p) (sl : Slot) (cm : Word)
    {k : Nat} {rest : List Nat} (hk : s.env.polls = k :: rest) :
    ∃ w, polling p sl cm s = (k, w) ∧ w.env.polls = rest ∧
      Moves s w (started p sl cm s.dev) (startEvents p sl cm) := by
  have first := writeReg_moves h (.port p .commsk) cm
  have both := first.trans (writeReg_moves (first.env.still h) (.port p .comreq) (slotWord sl))
  rw [first.dev, start_started hp] at both
  have polls : (writeReg (.port p .comreq) (slotWord sl) (writeReg (.port p .commsk) cm s)).env.polls = k :: rest := by
    rw [writeReg_polls, writeReg_polls, hk]
  refine ⟨_, drawPolls_cons polls, rfl, ⟨both.block, both.dev, both.trace, both.env.trans ?_⟩⟩
  exact ⟨rfl, rfl, rfl, rfl, rfl, rfl, fun n hn => by rw [polls]; exact List.mem_cons_of_mem _ hn⟩

/-- Fewer busy polls than are left: the transfer is done (rules R140, R143). Unlike `xfer_moves` this asks nothing of the
polls of later transfers, and says what is left of the poll counts. -/
theorem xfer_done {s : State} (h : Still s.env) {p : PortId} (hp : PortIdle s.dev p) (sl : Slot) (cm : Word) {k : Nat}
    {rest : List Nat} (hpolls : s.env.polls = k :: rest) (hk : k < Config.busyRetries) :
    (xfer p sl cm s).1 = .done ∧ (xfer p sl cm s).2.env.polls = rest ∧
      ∃ vs, vs.length = k ∧ Moves s (xfer p sl cm s).2 (transferred p sl cm s.dev) (transferEvents p sl cm vs) := by
  obtain ⟨w, hw, hrest, hm⟩ := polling_moves h hp sl cm hpolls
  obtain ⟨ho, vs, hl, hpoll⟩ := pollBusy_started hp sl cm Config.busyRetries k (hm.env.still h) hm.dev hk
  rw [xfer_of_done hw ho, pollBusy_polls]
  exact ⟨ho, hrest, vs, hl, by simpa [transferEvents] using hm.trans hpoll⟩

/-- The events of a transfer that times out, with the words its polls read (rules R140, R145). -/
def timeoutEvents (p : PortId) (sl : Slot) (cm : Word) (vs : List Word) : List Event :=
  startEvents p sl cm ++ busyEvents p vs ++ [.effect (.logTimeout p sl cm)]

/-- As many busy polls as are left: the transfer times out and is abandoned (rules R143, R145). -/
theorem xfer_timeout {s : State} (h : Still s.env) {p : PortId} (hp : PortIdle s.dev p) (sl : Slot) (cm : Word) {k : Nat}
    {rest : List Nat} (hpolls : s.env.polls = k :: rest) (hk : Config.busyRetries ≤ k) :
    (xfer p sl cm s).1 = .timeout ∧ (xfer p sl cm s).2.env.polls = rest ∧
      ∃ vs seed, vs.length = Config.busyRetries ∧
        Moves s (xfer p sl cm s).2 (abandonTransfer seed p (started p sl cm s.dev)) (timeoutEvents p sl cm vs) := by
  obtain ⟨w, hw, hrest, hm⟩ := polling_moves h hp sl cm hpolls
  have busy : hasAny (portOf w.dev p).comreq crBusy = true := by simp [hm.dev, started]
  obtain ⟨ho, vs, hl, hpoll⟩ := pollBusy_outlasted Config.busyRetries k (hm.env.still h) busy hk
  rw [hm.dev] at hpoll
  have polled := hm.trans hpoll
  rw [xfer_of_timeout hw ho]
  refine ⟨rfl, (pollBusy_polls p _ k w).trans hrest, vs, (pollBusy p Config.busyRetries k w).2.env.draws, hl,
    polled.block, ?_, ?_, polled.env⟩
  · simp only [softFailure, emit_dev, countDraw_dev, polled.dev]
  · simp only [softFailure, emit_trace, countDraw_trace, polled.trace, timeoutEvents, List.append_assoc]

/-! The record of a transfer. -/

theorem writesOf_start (p : PortId) (sl : Slot) (cm : Word) : writesOf (startEvents p sl cm) = startWrites p sl cm := rfl

theorem effectsOf_start (p : PortId) (sl : Slot) (cm : Word) : effectsOf (startEvents p sl cm) = [] := rfl

theorem writesOf_transfer (p : PortId) (sl : Slot) (cm : Word) (vs : List Word) :
    writesOf (transferEvents p sl cm vs) = startWrites p sl cm := by
  rw [transferEvents, writesOf_append, writesOf_append, writesOf_start, writesOf_busy]
  rfl

theorem effectsOf_transfer (p : PortId) (sl : Slot) (cm : Word) (vs : List Word) :
    effectsOf (transferEvents p sl cm vs) = List.replicate vs.length (.delay Config.busySpacingUs) := by
  rw [transferEvents, effectsOf_append, effectsOf_append, effectsOf_start, effectsOf_busy]
  exact List.append_nil _

theorem onlyWrites_transfer (p : PortId) (sl : Slot) (cm : Word) (vs : List Word) :
    OnlyWrites (transferEvents p sl cm vs) (startWrites p sl cm) := by
  refine ⟨writesOf_transfer p sl cm vs, fun e he => ?_⟩
  rw [effectsOf_transfer] at he
  exact List.eq_of_mem_replicate he

theorem writesOf_timeout (p : PortId) (sl : Slot) (cm : Word) (vs : List Word) :
    writesOf (timeoutEvents p sl cm vs) = startWrites p sl cm := by
  rw [timeoutEvents, writesOf_append, writesOf_append, writesOf_start, writesOf_busy]
  rfl

theorem effectsOf_timeout (p : PortId) (sl : Slot) (cm : Word) (vs : List Word) :
    effectsOf (timeoutEvents p sl cm vs) =
      List.replicate vs.length (.delay Config.busySpacingUs) ++ [.logTimeout p sl cm] := by
  rw [timeoutEvents, effectsOf_append, effectsOf_append, effectsOf_start, effectsOf_busy]
  rfl

/-! The operands: the slot index, and the groups of a command mask as its bits (rules R94, R95). -/

theorem slotWord_slotOf : ∀ x : BitVec 6, slotOk x = true → slotWord (slotOf x) = x.setWidth 16 := by decide

theorem slotOk_of_range {x : BitVec 6} (h1 : 1 ≤ x.toNat) (h32 : x.toNat ≤ 32) : slotOk x = true :=
  decide_eq_true ⟨h1, h32⟩

theorem xferRefusal_eq_none {x : BitVec 6} {m : BitVec 8} (hx : slotOk x = true) (hm : m &&& 0x88#8 = 0#8) :
    xferRefusal x m = none := by
  simp [xferRefusal, hx, maskOk, hm]

@[simp] theorem hasAny_cmDatab (w : Word) : hasAny w cmDatab = w.getLsbD 0 := hasAny_twoPow w (i := 0) (by decide)
@[simp] theorem hasAny_cmDataa (w : Word) : hasAny w cmDataa = w.getLsbD 1 := hasAny_twoPow w (i := 1) (by decide)
@[simp] theorem hasAny_cmTxrqst_eq (w : Word) : hasAny w cmTxrqst = w.getLsbD 2 := hasAny_twoPow w (i := 2) (by decide)
@[simp] theorem hasAny_cmControl (w : Word) : hasAny w cmControl = w.getLsbD 4 := hasAny_twoPow w (i := 4) (by decide)
@[simp] theorem hasAny_cmArb (w : Word) : hasAny w cmArb = w.getLsbD 5 := hasAny_twoPow w (i := 5) (by decide)
@[simp] theorem hasAny_cmMask (w : Word) : hasAny w cmMask = w.getLsbD 6 := hasAny_twoPow w (i := 6) (by decide)

/-- A transfer mask has no write flag of its own (rules R94, R119). -/
theorem hasAny_cmWr_of_mask : ∀ m : BitVec 8, m &&& 0x88#8 = 0#8 → hasAny (m.setWidth 16) cmWr = false := by decide

/-- A *get* asks for no transmission (rule R141). -/
theorem hasAny_cmTxrqst_of_get {m : BitVec 8} (ht : m.getLsbD 2 = false) : hasAny (m.setWidth 16) cmTxrqst = false := by
  rw [hasAny_cmTxrqst_eq]
  simpa using ht

/-- `GET` and `PUT` as the transfer they make (rules R141, R142). -/
theorem exec_get {p : PortId} {x : BitVec 6} {m : BitVec 8} {s : State} (hs : Ready s) (hx : slotOk x = true)
    (hm : m &&& 0x88#8 = 0#8) (ht : m.getLsbD 2 = false) :
    exec (.get p x m) s = .next (withResult (.xfer (xfer p (slotOf x) (m.setWidth 16) s).1)
      (xfer p (slotOf x) (m.setWidth 16) s).2) := by
  refine answer_eq_next_iff.2 ⟨hs, ?_, rfl⟩
  rw [xferRefusal_eq_none hx hm, Option.none_or, refuseIf_eq_none_iff, hasAny_cmTxrqst_of_get ht]

theorem exec_put {p : PortId} {x : BitVec 6} {m : BitVec 8} {s : State} (hs : Ready s) (hx : slotOk x = true)
    (hm : m &&& 0x88#8 = 0#8) :
    exec (.put p x m) s = .next (withResult (.xfer (xfer p (slotOf x) (m.setWidth 16 ||| cmWr) s).1)
      (xfer p (slotOf x) (m.setWidth 16 ||| cmWr) s).2) :=
  answer_eq_next_iff.2 ⟨hs, xferRefusal_eq_none hx hm, rfl⟩

/-! What a transfer leaves unchanged. -/

/-- A device changed in one port and one slot. -/
theorem frame_withSlot_withPort (d : Device) (p : PortId) (r : PortRegs) (sl : Slot) (o : MsgObj) :
    SameGlobals d (withSlot (withPort d p r) sl o) ∧ SameOtherPort p d (withSlot (withPort d p r) sl o) ∧
      SameOtherSlots sl d (withSlot (withPort d p r) sl o) := by
  refine ⟨by simp [SameGlobals], fun q hq => ?_, fun k hk => ?_⟩
  · rw [portOf_withSlot, portOf_withPort_ne d r hq]
  · rw [slotAt_withSlot_ne _ o hk, slotAt_withPort]

/-! A transfer that is done. -/

/-- Settles O19: the transfer is done, and what it leaves is `getRegs` of the slot in the port. -/
theorem getTransfer : Obligations.GetTransfer := by
  unfold Obligations.GetTransfer
  intro p x m s hs h hp h1 h32 hm ht o q
  have hx := slotOk_of_range h1 h32
  have get : hasAny (m.setWidth 16) cmWr = false := hasAny_cmWr_of_mask m hm
  obtain ⟨hd, vs, -, ⟨hh, hg, hu, -⟩, hdev, htr, -⟩ := xfer_moves h hp (slotOf x) (m.setWidth 16)
  rw [transferred_get get (hasAny_cmTxrqst_of_get ht), slotWord_slotOf x hx] at hdev
  have writes := onlyWrites_transfer p (slotOf x) (m.setWidth 16) vs
  rw [startWrites, slotWord_slotOf x hx] at writes
  refine ⟨slotOf_num x hx, _, _, exec_get hs hx hm ht, congrArg Result.xfer hd, htr, writes, ?_, ⟨hh, hg, hu⟩, ?_⟩
  · rw [withResult_dev, hdev, portOf_withPort]
    simp [getRegs, wholeChoice, dataWords, pairWord, Word32.lo, Word32.hi, o, q]
  · rw [withResult_dev, hdev]
    exact ⟨sameGlobals_withPort _ p _, fun _ => portOf_withPort_ne _ _, slotAt_withPort _ p _⟩

/-- Settles O20: the transfer is done, and what it leaves is `putSlot` of the port in the slot. -/
theorem putTransfer : Obligations.PutTransfer := by
  unfold Obligations.PutTransfer
  intro p x m s hs h hp h1 h32 hm o q c
  have hx := slotOk_of_range h1 h32
  obtain ⟨hd, vs, -, ⟨hh, hg, hu, -⟩, hdev, htr, -⟩ := xfer_moves h hp (slotOf x) (m.setWidth 16 ||| cmWr)
  rw [transferred_put, slotWord_slotOf x hx] at hdev
  have writes := onlyWrites_transfer p (slotOf x) (m.setWidth 16 ||| cmWr) vs
  rw [startWrites, slotWord_slotOf x hx] at writes
  refine ⟨_, _, exec_put hs hx hm, congrArg Result.xfer hd, htr, writes, ?_, ?_, ⟨hh, hg, hu⟩, ?_⟩
  · rw [withResult_dev, hdev, portOf_withSlot, portOf_withPort]
    rfl
  · rw [withResult_dev, hdev, slotAt_withSlot]
    simp [putSlot, wholeChoice, putControl, joinHalves, dataBytes, mcTxrqst, cmWr, o, q, c]
  · rw [withResult_dev, hdev]
    exact frame_withSlot_withPort _ _ _ _ _

/-! A transfer that times out: every target is old or new (rule R145). -/

/-- The registers of a port on which a transfer has timed out, over what the transfer has moved (rule R145, log 5). -/
def timedOutPort (sl : Slot) (cm : Word) (q : PortRegs) : PortRegs :=
  { q with comreq := slotWord sl ||| crBusy, commsk := cm, inflight := none, timedOut := some cm }

theorem shadowGet_timedOutPort (sl : Slot) (cm : Word) (q : PortRegs) {r : PortReg} (hr : ownedByTransfer r = true) :
    shadowGet (timedOutPort sl cm q) r = shadowGet q r := by
  cases r with
  | comreq | commsk => cases hr
  | _ => rfl

/-- A *get* that has been started and is abandoned: the port holds some of the targets of the *get*. -/
theorem abandon_get {cm : Word} (hw : hasAny cm cmWr = false) (ht : hasAny cm cmTxrqst = false) (seed : Nat) (p : PortId)
    (sl : Slot) (d : Device) :
    abandonTransfer seed p (started p sl cm d) =
      withPort d p (timedOutPort sl cm (getRegs (Config.freeWord seed) cm (slotAt d sl) (portOf d p))) := by
  simp [abandonTransfer, started, moveTransfer, targetAt, withTarget, hw, getSlot, ht, withSlot_withPort,
    timedOutPort, getRegs]

/-- A *put* that has been started and is abandoned: the slot holds some of the targets of the *put*. -/
theorem abandon_put {cm : Word} (hw : hasAny cm cmWr = true) (seed : Nat) (p : PortId) (sl : Slot) (d : Device) :
    abandonTransfer seed p (started p sl cm d) =
      withSlot (withPort d p (timedOutPort sl cm (portOf d p))) sl
        (putSlot (Config.freeWord seed) cm (portOf d p) (slotAt d sl)) := by
  simp [abandonTransfer, started, moveTransfer, targetAt, withTarget, hw, withSlot_withPort,
    timedOutPort, putSlot]

/-- A target in the group `g`, with `c` the choice for it: old, or what the whole transfer gives. -/
theorem ite_old_or_new {α : Type} (g c : Bool) (new old : α) :
    (if g && c then new else old) = old ∨ (if g && c then new else old) = if g && true then new else old := by
  cases c <;> simp

/-- Whatever the choice, a register after a *get* is old or as after the whole *get* (rule R145). -/
theorem getRegs_old_or_new (choice cm : Word) (o : MsgObj) (q : PortRegs) (r : PortReg) :
    shadowGet (getRegs choice cm o q) r = shadowGet q r ∨
      shadowGet (getRegs choice cm o q) r = shadowGet (getRegs wholeChoice cm o q) r := by
  cases r with
  | comreq | commsk => exact .inl rfl
  | _ => exact ite_old_or_new _ _ _ _

/-- Whatever the choice, each field and byte after a *put* is old or as after the whole *put* (rule R145). -/
theorem putSlot_old_or_new (choice cm : Word) (q : PortRegs) (o : MsgObj) :
    let n := putSlot wholeChoice cm q o
    let u := putSlot choice cm q o
    (u.mask = o.mask ∨ u.mask = n.mask) ∧ (u.arb = o.arb ∨ u.arb = n.arb) ∧ (u.mctrl = o.mctrl ∨ u.mctrl = n.mctrl) ∧
      ∀ j : Fin 8, u.data[j] = o.data[j] ∨ u.data[j] = n.data[j] := by
  refine ⟨ite_old_or_new _ _ _ _, ite_old_or_new _ _ _ _, (ite_eq_or_eq _ _ _).symm, fun ⟨j, hj⟩ => ?_⟩
  interval_cases j <;> exact ite_old_or_new _ _ _ _

/-- Settles O21: fewer than six busy polls end in the transfer, six or more in its being abandoned, where each target took
the new value or kept the old one by a free choice. -/
theorem pollsAndTimeout : Obligations.PollsAndTimeout := by
  unfold Obligations.PollsAndTimeout
  intro put p x m s k rest hs h hpolls hp h1 h32 hm hput i cm o q
  have hx := slotOk_of_range h1 h32
  have exec_i : exec i s =
      .next (withResult (.xfer (xfer p (slotOf x) cm s).1) (xfer p (slotOf x) cm s).2) := by
    cases put with
    | false => exact exec_get hs hx hm (hput rfl)
    | true => exact exec_put hs hx hm
  obtain ⟨hh, hg, hu, -⟩ := xfer_block p (slotOf x) cm s
  by_cases hk : k < Config.busyRetries
  · obtain ⟨hd, hrest, vs, rfl, hmoves⟩ := xfer_done h hp (slotOf x) cm hpolls hk
    refine ⟨_, _, exec_i, hmoves.trace, hrest, ⟨hh, hg, hu⟩, writesOf_transfer p _ cm vs, fun _ => ?_,
      fun h6 => absurd hk (not_lt.2 h6)⟩
    refine ⟨congrArg Result.xfer hd, effectsOf_transfer p _ cm vs, ?_⟩
    rw [withResult_dev, hmoves.dev, transferred_comreq, slotWord_slotOf x hx]
  · obtain ⟨hd, hrest, vs, seed, hl, hmoves⟩ := xfer_timeout h hp (slotOf x) cm hpolls (not_lt.1 hk)
    refine ⟨_, _, exec_i, hmoves.trace, hrest, ⟨hh, hg, hu⟩, writesOf_timeout p _ cm vs, fun h6 => absurd h6 hk,
      fun _ => ⟨congrArg Result.xfer hd, ?_, ?_⟩⟩
    · rw [effectsOf_timeout, hl]; rfl
    · rw [withResult_dev, hmoves.dev, ← slotWord_slotOf x hx]
      cases put with
      | false =>
        have get : hasAny cm cmWr = false := hasAny_cmWr_of_mask m hm
        have silent : hasAny cm cmTxrqst = false := hasAny_cmTxrqst_of_get (hput rfl)
        rw [abandon_get get silent, PortIdle, portOf_withPort]
        refine ⟨rfl, rfl, rfl, rfl, sameGlobals_withPort _ p _, fun _ => portOf_withPort_ne _ _,
          fun _ _ => slotAt_withPort _ p _ _, fun _ => ⟨slotAt_withPort _ p _, fun r hr => ?_⟩, nofun⟩
        rw [shadowGet_timedOutPort _ _ _ hr]
        exact getRegs_old_or_new _ cm o q r
      | true =>
        obtain ⟨globals, port, slots⟩ := frame_withSlot_withPort s.dev p (timedOutPort (slotOf x) cm q) (slotOf x)
          (putSlot (Config.freeWord seed) cm q o)
        have put : hasAny cm cmWr = true := put_wr _
        rw [abandon_put put, PortIdle, portOf_withSlot, portOf_withPort, slotAt_withSlot]
        exact ⟨rfl, rfl, rfl, rfl, globals, port, slots, nofun, fun _ =>
          ⟨fun r hr => shadowGet_timedOutPort _ _ _ hr, putSlot_old_or_new _ cm q o⟩⟩

end Sys2Proof.Machine
end

section
/-! PROOFS. The frame codec (42_frame_codec.md rules R150 to R153). The arbitration word of a frame is its three flags over
29 identifier bits, and the bytes of the data words are the payload's; so decoding reads the canonical form back. `DECODE`
of a port with nothing interleaved is the pure decoding of the registers, since a word it does not read has no byte of the
frame. -/

namespace Sys2Proof.Machine

/-! The canonical form (rules R97, R98, R109). -/

/-- Frames are equal by their fields. -/
theorem frame_eq {f g : Frame} (id : f.id = g.id) (ext : f.ext = g.ext) (rtr : f.rtr = g.rtr) (dlc : f.dlc = g.dlc)
    (data : f.data = g.data) : f = g := by
  cases f
  cases g
  exact Frame.mk.injEq .. ▸ ⟨id, ext, rtr, dlc, data⟩

@[simp] theorem toNat_capDlc (d : BitVec 4) : (capDlc d).toNat = min d.toNat 8 := by
  unfold capDlc
  split
  case isTrue h => exact (min_eq_right h.le).symm
  case isFalse h => exact (min_eq_left (not_lt.1 h)).symm

@[simp] theorem capDlc_capDlc (d : BitVec 4) : capDlc (capDlc d) = capDlc d :=
  BitVec.eq_of_toNat_eq (by simp)

/-- A length up to eight is not capped. -/
theorem capDlc_of_le {d : BitVec 4} (h : d.toNat ≤ 8) : capDlc d = d := if_neg (not_lt.2 h)

/-- The standard identifier is the low eleven bits (rule R108). -/
theorem stdId_eq_setWidth (id : BitVec 29) : stdId id = (id.setWidth 11).setWidth 29 := by
  refine BitVec.eq_of_getLsbD_eq fun j hj => ?_
  have mask : (0x7FF#29).getLsbD j = decide (j < 11) := by revert j; decide
  rw [stdId, BitVec.getLsbD_and, mask, BitVec.getLsbD_setWidth, BitVec.getLsbD_setWidth]
  simp only [hj, decide_true, Bool.true_and, Bool.and_comm]

theorem stdId_setWidth (v : BitVec 11) : stdId (v.setWidth 29) = v.setWidth 29 := by
  rw [stdId_eq_setWidth, BitVec.setWidth_setWidth_of_le v (by decide), BitVec.setWidth_eq]

/-- An identifier that fits a standard frame is its own standard identifier. -/
theorem stdId_of_lt {id : BitVec 29} (h : id.toNat < 2048) : stdId id = id := by
  rw [stdId_eq_setWidth]
  refine BitVec.eq_of_toNat_eq ?_
  simp only [BitVec.toNat_setWidth]
  omega

/-- The payload bytes that count are the first `min(dlc, 8)` of a data frame (rule R97). -/
theorem lt_frameLen_iff (f : Frame) (i : Nat) : i < frameLen f ↔ f.rtr = false ∧ i < (capDlc f.dlc).toNat := by
  cases h : f.rtr <;> simp [frameLen, h]

theorem getElem_canon_data (f : Frame) (i : Fin 8) :
    (canon f).data[i] = if i.val < frameLen f then f.data[i] else 0#8 := by
  simp [canon]

/-- The identifier of a frame is canonical if it fits the frame's format (rule R98). -/
theorem canon_id {f : Frame} (h : f.ext = false → stdId f.id = f.id) : (canon f).id = f.id := by
  change (if f.ext = true then f.id else stdId f.id) = f.id
  split
  case isTrue => rfl
  case isFalse std => exact h (Bool.eq_false_iff.2 std)

/-- A frame that is its own canonical form (rule R98). -/
theorem canon_eq_self {f : Frame} (hid : f.ext = false → stdId f.id = f.id) (hdlc : capDlc f.dlc = f.dlc)
    (hdata : ∀ i : Fin 8, ¬i.val < frameLen f → f.data[i] = 0#8) : canon f = f := by
  have data : (canon f).data = f.data := by
    refine Vector.ext fun i hi => (getElem_canon_data f ⟨i, hi⟩).trans ?_
    split
    case isTrue => rfl
    case isFalse h => exact (hdata ⟨i, hi⟩ h).symm
  exact frame_eq (canon_id hid) rfl rfl hdlc data

/-! The arbitration word of a frame (rules R90, R108, R150). -/

/-- The 29 identifier bits of the arbitration word: a standard identifier stands in the upper eleven. -/
def idBits (f : Frame) : BitVec 29 := if f.ext then f.id else stdId f.id <<< 18

theorem idField_eq_idBits (f : Frame) : idField f = (if f.ext then arbXtd else 0#32) ||| (idBits f).setWidth 32 := by
  unfold idField idBits
  cases f.ext with
  | true => rfl
  | false =>
    refine BitVec.eq_of_getLsbD_eq fun j hj => ?_
    simp only [Bool.false_eq_true, if_false, BitVec.zero_or, BitVec.getLsbD_shiftLeft, BitVec.getLsbD_setWidth,
      stdId_eq_setWidth, hj, decide_true, Bool.true_and]
    by_cases hid : j - 18 < 11
    · simp [hid, show j < 29 by omega, show j - 18 < 29 by omega, show j - 18 < 32 by omega]
    · simp [hid]

/-- The flags of the arbitration word, over the identifier bits. -/
theorem getLsbD_arbOf (f : Frame) {j : Nat} (hj : j < 32) :
    (arbOf f).getLsbD j =
      (decide (j = 31) || (f.ext && decide (j = 30)) || (idBits f).getLsbD j || (!f.rtr && decide (j = 29))) := by
  have val : arbMsgval.getLsbD j = decide (j = 31) := by revert j; decide
  have xtd : arbXtd.getLsbD j = decide (j = 30) := by revert j; decide
  have dir : arbDir.getLsbD j = decide (j = 29) := by revert j; decide
  simp only [arbOf, idField_eq_idBits, BitVec.getLsbD_or, BitVec.getLsbD_setWidth, val]
  cases f.ext <;> cases f.rtr <;> simp [-BitVec.getLsbD_eq_getElem, hj, xtd, dir, Bool.or_assoc]

theorem arbOf_xtd (f : Frame) : (arbOf f).getLsbD 30 = f.ext := by
  rw [getLsbD_arbOf f (by decide)]
  simp

theorem arbOf_dir (f : Frame) : (arbOf f).getLsbD 29 = !f.rtr := by
  rw [getLsbD_arbOf f (by decide)]
  simp

theorem extractLsb'_arbOf (f : Frame) {a n : Nat} (h : a + n ≤ 29) :
    (arbOf f).extractLsb' a n = (idBits f).extractLsb' a n := by
  refine BitVec.eq_of_getLsbD_eq fun j hj => ?_
  rw [BitVec.getLsbD_extractLsb', BitVec.getLsbD_extractLsb', getLsbD_arbOf f (by omega)]
  simp [-BitVec.getLsbD_eq_getElem, show a + j ≠ 31 by omega, show a + j ≠ 30 by omega, show a + j ≠ 29 by omega]

/-- The identifier of the arbitration word, read back in the format of the frame. -/
theorem arbOf_id (f : Frame) :
    (if f.ext then (arbOf f).extractLsb' 0 29 else ((arbOf f).extractLsb' 18 11).setWidth 29) =
      if f.ext then f.id else stdId f.id := by
  rw [extractLsb'_arbOf f (by decide), extractLsb'_arbOf f (by decide)]
  cases h : f.ext with
  | true =>
    have bits : idBits f = f.id := if_pos h
    rw [if_pos rfl, if_pos rfl, bits]
    exact BitVec.extractLsb'_eq_self
  | false =>
    have bits : idBits f = stdId f.id <<< 18 := by rw [idBits, h]; rfl
    rw [if_neg nofun, if_neg nofun, bits, stdId_eq_setWidth]
    refine congrArg (BitVec.setWidth 29) (BitVec.eq_of_getLsbD_eq fun j hj => ?_)
    simp [hj, show 18 + j < 29 by omega, show j < 29 by omega]

/-! The control word and the data words of a frame (rules R96, R109, R150). -/

theorem controlOf_eq (f : Frame) : controlOf f = 0x0980#16 ||| BitVec.ofNat 16 (min f.dlc.toNat 8) := by
  rw [← toNat_capDlc, BitVec.ofNat_toNat]
  rfl

theorem controlOf_dlc (f : Frame) : (controlOf f).extractLsb' 0 4 = capDlc f.dlc := by
  have flags : mcTx.extractLsb' 0 4 = 0#4 := by decide
  rw [controlOf, BitVec.extractLsb'_or, flags, BitVec.zero_or, BitVec.extractLsb'_setWidth_of_le (by decide)]
  exact BitVec.extractLsb'_eq_self

theorem getElem_dataWords (d : Vector Byte 8) (k : Fin 4) : (dataWords d)[k] = d[2 * k.val + 1] ++ d[2 * k.val] := by
  fin_cases k <;> rfl

theorem getElem_dataBytes (w : Vector Word 4) (i : Fin 8) :
    (dataBytes w)[i] = w[i.val / 2].extractLsb' (8 * (i.val % 2)) 8 := by
  fin_cases i <;> rfl

/-- `ENCODE` (rule R150). -/
theorem exec_encode (f : Frame) {s : State} (hs : Ready s) :
    exec (.encode f) s = .next (withResult (.encoded (encodeFrame f)) s) :=
  answer_eq_next_iff.2 ⟨hs, rfl, rfl⟩

/-- Settles O22: the words of `encodeFrame` are those of the statement, and `ENCODE` reports them. -/
theorem encodeWords : Obligations.EncodeWords := by
  unfold Obligations.EncodeWords
  intro f s hs idf arb
  exact ⟨encodeFrame f, exec_encode f hs, rfl, rfl, controlOf_eq f, getElem_dataWords f.data⟩

/-! Decoding, and the round trip (rules R151 to R153). -/

/-- A byte of a decoded frame (rule R151). -/
theorem decodeFrame_data (arb : Word32) (c : Word) (w : Vector Word 4) (i : Fin 8) :
    (decodeFrame arb c w).data[i] =
      if i.val < frameLen (decodeFrame arb c w) then w[i.val / 2].extractLsb' (8 * (i.val % 2)) 8 else 0#8 := by
  rw [← getElem_dataBytes]
  simp [decodeFrame, lt_frameLen_iff]

/-- Whatever the words, the frame decoded from them is canonical (rule R151). -/
theorem canon_decodeFrame (arb : Word32) (c : Word) (w : Vector Word 4) :
    canon (decodeFrame arb c w) = decodeFrame arb c w := by
  refine canon_eq_self (fun std => ?_) (capDlc_capDlc _) fun i hi => ?_
  · have id : (decodeFrame arb c w).id = (arb.extractLsb' 18 11).setWidth 29 := if_neg (Bool.eq_false_iff.1 std)
    rw [id, stdId_setWidth]
  · rw [decodeFrame_data, if_neg hi]

theorem decodeFrame_encodeFrame (f : Frame) :
    decodeFrame (arbOf f) (controlOf f) (dataWords f.data) = canon f := by
  simp only [decodeFrame, canon, hasAny_arbXtd, hasAny_arbDir, arbOf_xtd, arbOf_dir, arbOf_id, controlOf_dlc,
    dataBytes_dataWords, capDlc_capDlc, Bool.not_not, lt_frameLen_iff, Bool.and_eq_true, Bool.not_eq_true',
    decide_eq_true_eq]

/-- Settles O24: what `ENCODE` gives decodes as the canonical form, which for a frame in its ranges is the frame but for
the payload that does not count. -/
theorem codecRoundTrip : Obligations.CodecRoundTrip := by
  unfold Obligations.CodecRoundTrip
  intro f e g
  have hg : g = canon f := by
    rw [← decodeFrame_encodeFrame f, ← joinHalves_hi_lo (arbOf f)]
    rfl
  refine ⟨hg, fun hdlc hid => ?_⟩
  rw [hg]
  have len : frameLen f = if f.rtr then 0 else f.dlc.toNat := by rw [frameLen, min_eq_left hdlc]
  refine ⟨canon_id fun std => stdId_of_lt (hid std), rfl, rfl, capDlc_of_le hdlc, fun data i hi => ?_,
    fun remote i => ?_⟩
  · rw [getElem_canon_data, if_pos (by rwa [len, data])]
  · rw [getElem_canon_data, if_neg (by simp [len, remote])]

/-! The words `DECODE` reads (rule R151). -/

/-- A word is read exactly for the bytes it holds that count. -/
theorem dataWordsRead_eq (arb : Word32) (c : Word) (w : Vector Word 4) :
    dataWordsRead arb c = (frameLen (decodeFrame arb c w) + 1) / 2 := by
  unfold dataWordsRead
  cases dir : hasAny arb arbDir <;> simp [frameLen, decodeFrame, dir]

theorem dataWordsRead_le (arb : Word32) (c : Word) : dataWordsRead arb c ≤ 4 := by
  unfold dataWordsRead
  split
  · rw [toNat_capDlc]
    omega
  · omega

/-- A word that is not read has no byte of the frame. -/
theorem decodeFrame_congr {arb : Word32} {c : Word} {w w' : Vector Word 4}
    (h : ∀ k : Fin 4, k.val < dataWordsRead arb c → w[k] = w'[k]) : decodeFrame arb c w = decodeFrame arb c w' := by
  have data : (decodeFrame arb c w).data = (decodeFrame arb c w').data := by
    refine Vector.ext fun i hi => ?_
    have byte := decodeFrame_data arb c w ⟨i, hi⟩
    have byte' := decodeFrame_data arb c w' ⟨i, hi⟩
    refine byte.trans (Eq.trans ?_ byte'.symm)
    refine if_ctx_congr Iff.rfl (fun (hlen : i < _) => ?_) fun _ => rfl
    have read : i / 2 < dataWordsRead arb c := by
      rw [dataWordsRead_eq arb c w']
      omega
    exact congrArg (BitVec.extractLsb' _ 8) (h ⟨i / 2, by omega⟩ read)
  exact frame_eq rfl rfl rfl rfl data

/-- The event of a read of a shadow register that returns what it holds. -/
def readEvent (p : PortId) (q : PortRegs) (r : PortReg) : Event := .read (.port p r) (shadowGet q r)

/-- The event of a read that happens if the register is among the first `n`. -/
def readEventIf (p : PortId) (q : PortRegs) (r : PortReg) (k n : Nat) : List Event :=
  if k < n then [readEvent p q r] else []

/-- The record of the reads of the first `n` data registers of a port. -/
def dataReads (p : PortId) (q : PortRegs) (n : Nat) : List Event :=
  ([PortReg.data1, .data2, .data3, .data4].map (readEvent p q)).take n

/-- The reads one register after another. -/
theorem dataReads_eq (p : PortId) (q : PortRegs) {n : Nat} (hn : n ≤ 4) :
    dataReads p q n = readEventIf p q .data1 0 n ++ readEventIf p q .data2 1 n ++ readEventIf p q .data3 2 n ++
      readEventIf p q .data4 3 n := by
  interval_cases n <;> rfl

/-- The record of a `DECODE` with control word `c`. -/
def decodeReads (p : PortId) (c : Word) (q : PortRegs) : List Event :=
  [readEvent p q .arb1, readEvent p q .arb2] ++ dataReads p q (dataWordsRead (joinHalves q.arb2 q.arb1) c)

/-- The frame in the registers of a port, with control word `c`. -/
def frameIn (c : Word) (q : PortRegs) : Frame :=
  decodeFrame (joinHalves q.arb2 q.arb1) c #v[q.data1, q.data2, q.data3, q.data4]

/-- The state with events added to the record. -/
def logged (ev : List Event) (s : State) : State := { s with trace := s.trace ++ ev }

theorem logged_nil (s : State) : logged [] s = s := by simp [logged]

theorem logged_logged (ev ev' : List Event) (s : State) : logged ev' (logged ev s) = logged (ev ++ ev') s := by
  simp [logged]

section ClearPort

variable {s : State} {p : PortId} (h : Still s.env) (hb : BusyClear s.dev p)
include h hb

/-- With nothing interleaved a read of a shadow register of a port with BUSY clear returns what the register holds, and
leaves everything but the record. -/
theorem readReg_port_still (ev : List Event) (r : PortReg) :
    readReg (.port p r) (logged ev s) =
      (shadowGet (portOf s.dev p) r, logged (ev ++ [readEvent p (portOf s.dev p) r]) s) := by
  rw [← logged_logged]
  exact readReg_plain (s := logged ev s) h _ (sampleReg_port (s := logged ev s) hb r)

/-- A data register is read if it is among the first `n`. -/
theorem readDataWord_still (ev : List Event) (r : PortReg) (k n : Nat) :
    readDataWord p r k n (logged ev s) =
      (if k < n then shadowGet (portOf s.dev p) r else 0#16,
        logged (ev ++ readEventIf p (portOf s.dev p) r k n) s) := by
  unfold readDataWord readEventIf
  split
  · exact readReg_port_still h hb ev r
  · rw [List.append_nil]

/-- With nothing interleaved `DECODE` reports the frame in the port's registers and leaves everything but the record
(rule R151). -/
theorem decodePort_still (c : Word) :
    decodePort p c s = (frameIn c (portOf s.dev p), logged (decodeReads p c (portOf s.dev p)) s) := by
  suffices run : decodePort p c (logged [] s) = _ by rwa [logged_nil] at run
  simp only [decodePort, readReg_port_still h hb, readDataWord_still h hb, shadowGet]
  refine Prod.ext (decodeFrame_congr fun k read => ?_) ?_
  · fin_cases k <;> exact if_pos read
  · simp only [decodeReads, dataReads_eq p _ (dataWordsRead_le _ c), List.append_assoc]
    rfl

end ClearPort

/-- `DECODE` of a port (rule R151, log 12). -/
theorem exec_decode (p : PortId) {s : State} (hs : Ready s) :
    exec (.decode p) s =
      .next (withResult (.frame (decodePort p (portOf s.dev p).mctrl s).1) (decodePort p (portOf s.dev p).mctrl s).2) :=
  answer_eq_next_iff.2 ⟨hs, rfl, rfl⟩

/-- Settles O23: the frame is the one in the registers, and the state is the one before with the reads in its record.
(`decodePort` itself is the model's function.) -/
theorem decodePort_readsFrame : Obligations.DecodePort := by
  unfold Obligations.DecodePort
  intro p s hs h hb q arb w dlc words
  let f := frameIn q.mctrl q
  have run := exec_decode p hs
  rw [decodePort_still h hb] at run
  have hdlc : f.dlc.toNat = dlc := by simp [f, frameIn, decodeFrame, dlc]
  have len : frameLen f = if f.rtr then 0 else dlc := by rw [frameLen, hdlc, min_eq_left (min_le_right _ _)]
  refine ⟨_, f, run, rfl, canon_decodeFrame _ _ _, hdlc, hasAny_arbXtd _, congrArg (!·) (hasAny_arbDir _), rfl,
    fun i => ?_, ?_, ⟨rfl, rfl, rfl⟩, rfl, rfl⟩
  · refine (decodeFrame_data arb q.mctrl w i).trans ?_
    change (if i.val < frameLen f then _ else _) = _
    rw [len]
    cases f.rtr <;> simp
  · have count : dataWordsRead arb q.mctrl = if f.rtr then 0 else (dlc + 1) / 2 := by
      refine (dataWordsRead_eq arb q.mctrl w).trans ?_
      change (frameLen f + 1) / 2 = _
      rw [len]
      split <;> rfl
    rw [← count, List.map_take, List.append_assoc]
    rfl

end Sys2Proof.Machine
end

section
/-! PROOFS. The operations of the message-object pool that are shadow writes and one *put* (43_pool_manager.md rules R160 to
R170): the writes of each in the record, and what it leaves in its port and in its slot. -/

namespace Sys2Proof.Machine

/-! The device after one *put*, and the record of each operation. -/

/-- With no time-out and nothing interleaved an operation makes these writes, leaves this device, and leaves the block alone. -/
def MovesWriting (s t : State) (d : Device) (w : List (Reg × Word)) : Prop := ∃ ev, Moves s t d ev ∧ OnlyWrites ev w

section IdlePort

variable {s : State} {p : PortId} (h : Prompt s.env) (hp : PortIdle s.dev p) (sl : Slot)
include h hp

/-- Shadow writes and a *put*, with the command mask and the device it leaves given. -/
theorem writesThenPut_leaves {m cm : Word} {l : List (PortReg × Word)} {d : Device} (plain : ∀ y ∈ l, y.1 ≠ .comreq)
    (hcm : m ||| cmWr = cm) (hd : putFrom p sl m l s.dev = d) :
    MovesWriting s (writesThenPut p sl m l s) d
      ((l.map fun y => (Reg.port p y.1, y.2)) ++ startWrites p sl cm) := by
  subst hcm hd
  exact writesThenPut_exact h hp (sl, m, l) plain

/-- `INVAL` (rule R160). -/
theorem invalOp_moves :
    MovesWriting s (invalOp p sl s)
      (withSlot (withPort s.dev p { portOf s.dev p with
          arb1 := 0, arb2 := 0, mctrl := 0, commsk := 0x00B0#16, comreq := slotWord sl, timedOut := none }) sl
        { slotAt s.dev sl with arb := 0, mctrl := 0 })
      [(.port p .arb1, 0#16), (.port p .arb2, 0#16), (.port p .mctrl, 0#16), (.port p .commsk, 0x00B0#16),
        (.port p .comreq, slotWord sl)] := by
  rw [invalOp_eq]
  exact writesThenPut_leaves h hp sl (by simp) (by decide) (inval_putFrom p sl s.dev)

/-- `RXCFG` (rule R162). -/
theorem rxcfgOp_moves (mask idw : Word32) (mcont : Word) :
    MovesWriting s (rxcfgOp p sl mask idw mcont s)
      (withSlot (withPort s.dev p { portOf s.dev p with
          mask1 := mask.lo, mask2 := mask.hi, arb1 := idw.lo, arb2 := idw.hi ||| 0x8000#16, mctrl := mcont,
          commsk := 0x00F3#16, comreq := slotWord sl, timedOut := none }) sl
        ⟨mask, idw ||| arbMsgval, mcont, dataBytes #v[(portOf s.dev p).data1, (portOf s.dev p).data2,
          (portOf s.dev p).data3, (portOf s.dev p).data4]⟩)
      [(.port p .mask1, mask.lo), (.port p .mask2, mask.hi), (.port p .arb1, idw.lo),
        (.port p .arb2, idw.hi ||| 0x8000#16), (.port p .mctrl, mcont), (.port p .commsk, 0x00F3#16),
        (.port p .comreq, slotWord sl)] := by
  rw [rxcfgOp_eq]
  exact writesThenPut_leaves h hp sl (by simp) (by decide) (rxcfg_putFrom p sl mask idw mcont s.dev)

/-- The writes and the *put* of `TXSUBMIT` (rule R164). -/
theorem loadFrame_moves (f : Frame) :
    let e := encodeFrame f
    MovesWriting s (loadFrame p sl e s)
      (withSlot (withPort s.dev p { portOf s.dev p with
          arb1 := e.lo, arb2 := e.hi, mctrl := e.control, data1 := e.data[0], data2 := e.data[1],
          data3 := e.data[2], data4 := e.data[3], commsk := 0x00B7#16, comreq := slotWord sl, timedOut := none }) sl
        ⟨(slotAt s.dev sl).mask, arbOf f, e.control, f.data⟩)
      ([(.port p .arb1, e.lo), (.port p .arb2, e.hi), (.port p .mctrl, e.control), (.port p .data1, e.data[0]),
        (.port p .data2, e.data[1]), (.port p .data3, e.data[2]), (.port p .data4, e.data[3])] ++
        startWrites p sl 0x00B7#16) := by
  intro e
  rw [loadFrame_eq]
  exact writesThenPut_leaves h hp sl (by simp) (by decide) (load_putFrom p sl f s.dev)

/-- A control word written back to a slot (rules R167 to R170). -/
theorem rewriteControl_moves (c : Word) :
    MovesWriting s (rewriteControl p sl c s)
      (withSlot (withPort s.dev p { portOf s.dev p with
          mctrl := c, commsk := 0x0090#16, comreq := slotWord sl, timedOut := none }) sl
        { slotAt s.dev sl with mctrl := c })
      [(.port p .mctrl, c), (.port p .commsk, 0x0090#16), (.port p .comreq, slotWord sl)] := by
  rw [rewriteControl_eq]
  exact writesThenPut_leaves h hp sl (by simp) (by decide) (control_putFrom p sl c s.dev)

end IdlePort

/-! One control word written to several slots (rule R170). -/

theorem controlSteps_plain (c : Word) (l : List Slot) : Plain (controlSteps c l) := by
  intro x hx y hy
  obtain ⟨sl, -, rfl⟩ := List.mem_map.1 hx
  rw [List.mem_singleton.1 hy]
  nofun

/-- The port keeps what the last of the slots has left in it. -/
theorem controlSteps_port (p : PortId) (c : Word) (l : List Slot) (sl : Slot) (d : Device) :
    portOf (putAll p (controlSteps c (l ++ [sl])) d) p =
      { portOf d p with mctrl := c, commsk := 0x0090#16, comreq := slotWord sl, timedOut := none } := by
  induction l generalizing d with
  | nil =>
    change portOf (putFrom p sl cmCtl [(.mctrl, c)] d) p = _
    rw [control_putFrom, portOf_withSlot, portOf_withPort]
  | cons k l ih =>
    change portOf (putAll p (controlSteps c (l ++ [sl])) (putFrom p k cmCtl [(.mctrl, c)] d)) p = _
    rw [ih, control_putFrom, portOf_withSlot, portOf_withPort]

theorem mem_slotsFrom {lo hi : Nat} {k : Slot} : k ∈ slotsFrom lo hi ↔ lo ≤ k.num ∧ k.num ≤ hi := by
  simp [slotsFrom]

theorem slot_num_pos (k : Slot) : 1 ≤ k.num := Nat.le_add_left 1 k.val

/-- The slots up to the boundary slot, in order (rule R170). -/
theorem slotsFrom_low : slotsFrom Config.rxFirst Config.rxSplit = slotsFrom 1 8 ++ [slotOf 9] := by decide

/-- One control word written back to each of several slots (rule R170). -/
theorem rewriteControls_moves {s : State} {p : PortId} (h : Prompt s.env) (hp : PortIdle s.dev p) (c : Word)
    (l : List Slot) :
    MovesWriting s (rewriteControls p c l s) (putAll p (controlSteps c l) s.dev)
      ((controlSteps c l).flatMap (putWrites p)) := by
  obtain ⟨ev, hm, hw, -⟩ := runPuts_exact h hp _ (controlSteps_plain c l)
  rw [rewriteControls_eq]
  exact ⟨ev, hm, hw⟩

/-! The obligations. -/

/-- A bit of a bitmask composite is the flag of the slot it stands for (rule R25). -/
theorem bitmapWord_slot (b : Bitmap) (d : Device) (k : Slot) :
    (bitmapWord b d.ram).getLsbD k.val = bitmapFlag b (slotAt d k) :=
  bitmapWord_getLsbD b d.ram k

/-- Settles O25: the slot is left with its arbitration and control words 0, so with no flag. -/
theorem invalidateSlot : Obligations.InvalidateSlot := by
  unfold Obligations.InvalidateSlot
  intro p x s hs h hp h1 h32
  have hx := slotOk_of_range h1 h32
  have index : x.toNat - 1 = (slotOf x).val := by rw [← slotOf_num x hx]; rfl
  obtain ⟨ev, ⟨⟨hh, hg, hu, -⟩, hdev, htr, -⟩, hw⟩ := invalOp_moves h hp (slotOf x)
  rw [slotWord_slotOf x hx] at hdev hw
  refine ⟨_, ev, answer_eq_next_iff.2 ⟨hs, by simp [hx], rfl⟩, rfl, htr, hw, ?_⟩
  rw [withResult_dev, hdev, slotAt_withSlot, portOf_withSlot, portOf_withPort]
  refine ⟨rfl, fun b => ?_, rfl, ⟨hh, hg, hu⟩, frame_withSlot_withPort _ _ _ _ _⟩
  rw [index, bitmapWord_slot, slotAt_withSlot, bitmapFlag_eq]
  cases b <;> exact BitVec.getLsbD_zero

/-- Settles O26: the payload is that of the port's data registers, byte by byte. -/
theorem configureSlot : Obligations.ConfigureSlot := by
  unfold Obligations.ConfigureSlot
  intro p x mask idw mcont s hs h hp h1 h15 q
  have hx := slotOk_of_range h1 (h15.trans (by decide))
  have receive : slotIn Config.rxFirst Config.rxLast x = true := decide_eq_true ⟨h1, h15⟩
  obtain ⟨ev, ⟨⟨hh, hg, hu, -⟩, hdev, htr, -⟩, hw⟩ := rxcfgOp_moves h hp (slotOf x) mask idw mcont
  rw [slotWord_slotOf x hx] at hdev hw
  refine ⟨_, ev, answer_eq_next_iff.2 ⟨hs, by simp [receive], rfl⟩, rfl, htr, hw, ?_⟩
  rw [withResult_dev, hdev, slotAt_withSlot, portOf_withSlot, portOf_withPort]
  exact ⟨rfl, rfl, rfl, getElem_dataBytes _, rfl, ⟨hh, hg, hu⟩, frame_withSlot_withPort _ _ _ _ _⟩

theorem txSlot_num (c : Counter) : (txSlot c).num = c.toNat % 16 + 16 := by
  have bound : c.toNat % 16 + 16 - 1 < 32 := by omega
  have index : (txSlot c).val = c.toNat % 16 + 16 - 1 := Nat.mod_eq_of_lt bound
  rw [Slot.num, index]
  omega

/-- A frame's control word requests transmission (rule R150). -/
theorem controlOf_bit_txrqst (f : Frame) : (controlOf f).getLsbD 8 = true := by
  have request : mcTx.getLsbD 8 = true := by decide
  rw [controlOf, BitVec.getLsbD_or, request, Bool.true_or]

/-- Settles O27: the slot is that of the counter before its advance. -/
theorem submitFrame : Obligations.SubmitFrame := by
  unfold Obligations.SubmitFrame
  intro f s hs h hp held counter e k
  have unit : holdsUnit s = true := by simp [holdsUnit, held, Option.isSome_iff_ne_none, counter]
  obtain ⟨ev, ⟨⟨hh, hg, hu, -⟩, hdev, htr, -⟩, hw⟩ := loadFrame_moves h hp k f
  refine ⟨txSlot_num _, withResult .ok (txSubmitOp f s), ev, answer_eq_next_iff.2 ⟨hs, by simp [unit], rfl⟩, rfl, htr,
    hw, ?_⟩
  have dev : (withResult .ok (txSubmitOp f s)).dev = _ := hdev
  have handle : (withResult .ok (txSubmitOp f s)).h = { s.h with txNext := s.h.txNext + 1 } :=
    congrArg (fun u : Handle => { u with txNext := u.txNext + 1 }) hh
  have word : e.hi ++ e.lo = arbOf f := joinHalves_hi_lo _
  have bit : k.num - 1 = k.val := rfl
  rw [dev, slotAt_withSlot, portOf_withSlot, portOf_withPort, word]
  refine ⟨rfl, ?_, rfl, handle, hg, congrArg (· - 1) hu, frame_withSlot_withPort _ _ _ _ _⟩
  rw [bit, bitmapWord_slot, slotAt_withSlot, bitmapFlag_eq]
  exact controlOf_bit_txrqst f

theorem effectsBarDelays_append (a b : List Event) :
    effectsBarDelays (a ++ b) = effectsBarDelays a ++ effectsBarDelays b := by
  rw [effectsBarDelays, effectsOf_append, List.filter_append, effectsBarDelays, effectsBarDelays]

theorem OnlyWrites.effectsBarDelays {ev : List Event} {w : List (Reg × Word)} (h : OnlyWrites ev w) :
    effectsBarDelays ev = [] :=
  List.filter_eq_nil_iff.2 fun e he => by simp [h.2 e he]

theorem writesOf_effects (eff : List Effect) : writesOf (eff.map .effect) = [] := by
  induction eff with
  | nil => rfl
  | cons e eff ih => exact ih

/-- Settles O33: each of the three is a control rewrite, of its own word, and then what it delivers. -/
theorem controlRewrites : Obligations.ControlRewrites := by
  unfold Obligations.ControlRewrites
  intro i p x c n eff s hs h hp idle hi
  obtain ⟨hx, run, bar⟩ : slotOk x = true ∧
      exec i s = .next (withResult .unit (logged (eff.map .effect) (rewriteControl p (slotOf x) n s))) ∧
      effectsBarDelays (eff.map .effect) = eff := by
    obtain ⟨rfl, h1, h15, rfl, rfl⟩ | ⟨rfl, h1, h8, rfl, rfl⟩ | ⟨rfl, h10, h15, rfl, rfl⟩ := hi
    · have receive : slotIn Config.rxFirst Config.rxLast x = true := decide_eq_true ⟨h1, h15⟩
      have phase : (rewriteControl p (slotOf x) (clearBits c mcMsglst) s).h.phase ≠ .locked := by
        rw [(rewriteControl_block _ _ _ _).1, idle]; nofun
      refine ⟨slotOk_of_range h1 (by omega), answer_eq_next_iff.2 ⟨hs, by simp [receive], ?_⟩, rfl⟩
      rw [rxLostOp, deliver_outside phase]
      rfl
    · have low : slotIn Config.rxFirst Config.rxLowLast x = true := decide_eq_true ⟨h1, h8⟩
      rw [List.map_nil, logged_nil]
      exact ⟨slotOk_of_range h1 (by omega), answer_eq_next_iff.2 ⟨hs, by simp [low], rfl⟩, rfl⟩
    · have high : slotIn (Config.rxSplit + 1) Config.rxLast x = true := decide_eq_true ⟨h10, h15⟩
      rw [List.map_nil, logged_nil]
      exact ⟨slotOk_of_range (by omega) (by omega), answer_eq_next_iff.2 ⟨hs, by simp [high], rfl⟩, rfl⟩
  obtain ⟨ev, ⟨⟨hh, hg, hu, -⟩, hdev, htr, -⟩, hw⟩ := rewriteControl_moves h hp (slotOf x) n
  rw [slotWord_slotOf x hx] at hdev hw
  refine ⟨_, ev ++ eff.map .effect, run, rfl, ?_, ?_, ?_, ?_⟩
  · rw [← List.append_assoc, ← htr]
    rfl
  · rw [writesOf_append, hw.1, writesOf_effects, List.append_nil]
  · rw [effectsBarDelays_append, hw.effectsBarDelays, bar, List.nil_append]
  · have dev : (withResult .unit (logged (eff.map .effect) (rewriteControl p (slotOf x) n s))).dev = _ := hdev
    rw [dev, slotAt_withSlot, portOf_withSlot, portOf_withPort]
    exact ⟨rfl, rfl, ⟨hh, hg, hu⟩, frame_withSlot_withPort _ _ _ _ _⟩

/-- Settles O34: the freed word in the slots up to the boundary slot, one after another. -/
theorem boundaryRewrite : Obligations.BoundaryRewrite := by
  unfold Obligations.BoundaryRewrite
  intro p c s hs h hp
  obtain ⟨ev, ⟨⟨hh, hg, hu, -⟩, hdev, htr, -⟩, hw⟩ :=
    show MovesWriting s (rxActLowOp p c s) _ _ from rewriteControls_moves h hp (freedControl c) _
  have slots : slotsFrom Config.rxFirst Config.rxSplit = (List.range 9).map (Fin.ofNat 32) := by decide
  refine ⟨_, ev, answer_eq_next_iff.2 ⟨hs, rfl, rfl⟩, rfl, htr, ?_, fun l => ?_, ?_, ⟨hh, hg, hu⟩, ?_⟩
  · have mask : cmCtl ||| cmWr = 0x0090#16 := by decide
    rw [slots] at hw
    rw [← mask]
    exact hw
  · rw [withResult_dev, hdev, controlSteps_slot]
    exact if_congr (mem_slotsFrom.trans (and_iff_right (slot_num_pos l))) rfl rfl
  · rw [withResult_dev, hdev, slotsFrom_low, controlSteps_port]
    rfl
  · rw [withResult_dev, hdev]
    exact ⟨putAll_globals p _ _, putAll_otherPort p _ _⟩

end Sys2Proof.Machine
end

section
/-! PROOFS. The record of an operation (10_state.md rules R10, R11). In any environment accesses and transfers put accesses,
delays and log entries into it; and what a stretch of an operation emits, takes and frees, whatever it does to the block. -/

namespace Sys2Proof.Machine

/-! Accesses and transfers, in any environment. -/

/-- An access, the delay of a poll, or the log entry of a soft failure: what transfers put into the record. -/
def plainEvent : Event → Bool
  | .read _ _ | .write _ _ | .effect (.delay _) | .effect (.logTimeout _ _ _) => true
  | _ => false

/-- From one state to the next the record grows by plain events. -/
def Accesses (s t : State) : Prop := ∃ ev, t.trace = s.trace ++ ev ∧ ∀ e ∈ ev, plainEvent e = true

theorem Accesses.of_trace_eq {s t : State} (h : t.trace = s.trace) : Accesses s t :=
  ⟨[], by rw [h, List.append_nil], nofun⟩

theorem Accesses.of_event {s t : State} {e : Event} (h : t.trace = s.trace ++ [e]) (he : plainEvent e = true) :
    Accesses s t :=
  ⟨[e], h, fun _ hx => by rwa [List.mem_singleton.1 hx]⟩

theorem Accesses.trans {s t u : State} (a : Accesses s t) (b : Accesses t u) : Accesses s u := by
  obtain ⟨ev, htr, ha⟩ := a
  obtain ⟨ev', htr', hb⟩ := b
  refine ⟨ev ++ ev', by rw [htr', htr, List.append_assoc], fun e he => ?_⟩
  exact (List.mem_append.1 he).elim (ha e) (hb e)

theorem readReg_accesses (r : Reg) (s : State) : Accesses s (readReg r s).2 := .of_event (readReg_trace r s) rfl

theorem writeReg_accesses (r : Reg) (v : Word) (s : State) : Accesses s (writeReg r v s) :=
  .of_event (writeReg_trace r v s) rfl

theorem readComposite_accesses (b : Bitmap) (s : State) : Accesses s (readComposite b s).2 :=
  (readReg_accesses _ _).trans (readReg_accesses _ _)

theorem drawPolls_accesses (s : State) : Accesses s (drawPolls s).2 := by
  unfold drawPolls
  split
  · exact .of_trace_eq rfl
  · split <;> exact .of_trace_eq rfl

theorem pollBusy_accesses (p : PortId) (n k : Nat) (s : State) : Accesses s (pollBusy p n k s).2 := by
  induction n generalizing k s with
  | zero => exact .of_trace_eq rfl
  | succ n ih =>
    have finish : Accesses s (if k = 0 then deviceFinish p s else s) := by split <;> exact .of_trace_eq rfl
    have round := finish.trans (readReg_accesses (.port p .comreq) _)
    simp only [pollBusy]
    generalize readReg (.port p .comreq) (if k = 0 then deviceFinish p s else s) = x at round ⊢
    have wait : Accesses x.2 (emit (.delay Config.busySpacingUs) x.2) := .of_event rfl rfl
    split
    · exact (round.trans wait).trans (ih _ _)
    · exact round

/-- A transfer, done or not. -/
theorem xfer_accesses (p : PortId) (sl : Slot) (cm : Word) (s : State) : Accesses s (xfer p sl cm s).2 := by
  have start := ((writeReg_accesses (.port p .commsk) cm s).trans
    (writeReg_accesses (.port p .comreq) (slotWord sl) _)).trans (drawPolls_accesses _)
  simp only [xfer]
  generalize drawPolls (writeReg (.port p .comreq) (slotWord sl) (writeReg (.port p .commsk) cm s)) = k at start ⊢
  have polled := start.trans (pollBusy_accesses p Config.busyRetries k.1 k.2)
  have failure (t : State) : Accesses t (softFailure p sl cm t) := .of_event rfl rfl
  split
  · exact polled
  · exact polled.trans (failure _)

theorem writeShadows_accesses (p : PortId) (l : List (PortReg × Word)) (s : State) :
    Accesses s (writeShadows p l s) := by
  induction l generalizing s with
  | nil => exact .of_trace_eq rfl
  | cons x l ih => exact (writeReg_accesses _ _ _).trans (ih _)

theorem runPuts_accesses (p : PortId) (l : List PutStep) (s : State) : Accesses s (runPuts p l s) := by
  induction l generalizing s with
  | nil => exact .of_trace_eq rfl
  | cons x l ih => exact ((writeShadows_accesses p _ s).trans (xfer_accesses _ _ _ _)).trans (ih _)

theorem invalOp_accesses (p : PortId) (sl : Slot) (s : State) : Accesses s (invalOp p sl s) :=
  runPuts_accesses p [(sl, cmInval, [(.arb1, 0), (.arb2, 0), (.mctrl, 0)])] s

theorem rewriteControls_accesses (p : PortId) (c : Word) (l : List Slot) (s : State) :
    Accesses s (rewriteControls p c l s) := by
  rw [rewriteControls_eq]
  exact runPuts_accesses p _ s

theorem decodePort_accesses (p : PortId) (c : Word) (s : State) : Accesses s (decodePort p c s).2 := by
  have word (r : PortReg) (k n : Nat) (t : State) : Accesses t (readDataWord p r k n t).2 := by
    unfold readDataWord
    split
    · exact readReg_accesses _ _
    · exact .of_trace_eq rfl
  exact (((((readReg_accesses _ _).trans (readReg_accesses _ _)).trans (word _ _ _ _)).trans (word _ _ _ _)).trans
    (word _ _ _ _)).trans (word _ _ _ _)

/-! What a stretch of an operation emits, and the locks it takes and frees. -/

/-- The lock operations of a record, in order (rule R246). -/
def lockEvents (ev : List Event) : List Event :=
  ev.filter fun e => match e with
    | .acquire _ => true
    | .release _ => true
    | _ => false

theorem lockEvents_append (a b : List Event) : lockEvents (a ++ b) = lockEvents a ++ lockEvents b :=
  List.filter_append a b

/-- Plain events are no lock operations. -/
theorem Accesses.lockEvents_eq_nil {s t : State} {ev : List Event} (a : Accesses s t) (htr : t.trace = s.trace ++ ev) :
    lockEvents ev = [] := by
  obtain ⟨ev', htr', plain⟩ := a
  obtain rfl : ev = ev' := List.append_cancel_left (htr.symm.trans htr')
  refine List.filter_eq_nil_iff.2 fun e he => ?_
  cases e with
  | acquire | release => exact absurd (plain _ he) nofun
  | _ => nofun

/-- The device, the record and the environment of `Moves`, with no word about the block, which an operation that counts or
delivers does change. -/
structure Runs (s t : State) (d : Device) (ev : List Event) : Prop where
  dev : t.dev = d
  trace : t.trace = s.trace ++ ev
  env : EnvUsed s.env t.env

theorem Moves.runs {s t : State} {d : Device} {ev : List Event} (m : Moves s t d ev) : Runs s t d ev :=
  ⟨m.dev, m.trace, m.env⟩

theorem Runs.trans {s t u : State} {d e : Device} {x y : List Event} (a : Runs s t d x) (b : Runs t u e y) :
    Runs s u e (x ++ y) :=
  ⟨b.dev, by rw [b.trace, a.trace, List.append_assoc], a.env.trans b.env⟩

/-- The global locks after a lock operation (rules R33, R244). -/
def holdGlobal (g : Globals) : Event → Globals
  | .acquire .dispatch => { g with dispatch := .pass }
  | .acquire .socket => { g with socket := .pass }
  | .release .dispatch => { g with dispatch := .free }
  | .release .socket => { g with socket := .free }
  | _ => g

/-- A stretch of an operation leaves the device `d`, emits the effects `fx` besides the delays of polls, and makes the lock
operations `lk`. -/
structure Acts (s t : State) (d : Device) (fx : List Effect) (lk : List Event) : Prop where
  globals : t.g = lk.foldl holdGlobal s.g
  run : ∃ ev, Runs s t d ev ∧ effectsBarDelays ev = fx ∧ lockEvents ev = lk

theorem Acts.trans {s t u : State} {d e : Device} {fx gx : List Effect} {lk mk : List Event} (a : Acts s t d fx lk)
    (b : Acts t u e gx mk) : Acts s u e (fx ++ gx) (lk ++ mk) := by
  obtain ⟨ga, ev, ra, rfl, rfl⟩ := a
  obtain ⟨gb, ev', rb, rfl, rfl⟩ := b
  exact ⟨by rw [gb, ga, List.foldl_append], ev ++ ev', ra.trans rb, effectsBarDelays_append _ _, lockEvents_append _ _⟩

theorem Acts.refl (s : State) : Acts s s s.dev [] [] := ⟨rfl, [], (Moves.refl s).runs, rfl, rfl⟩

theorem Acts.dev {s t : State} {d : Device} {fx : List Effect} {lk : List Event} (a : Acts s t d fx lk) : t.dev = d := by
  obtain ⟨-, ev, r, -⟩ := a
  exact r.dev

theorem Acts.env {s t : State} {d : Device} {fx : List Effect} {lk : List Event} (a : Acts s t d fx lk) :
    EnvUsed s.env t.env := by
  obtain ⟨-, ev, r, -⟩ := a
  exact r.env

/-- Writes and transfers emit nothing but delays, and take no lock. -/
theorem MovesWriting.acts {s t : State} {d : Device} {w : List (Reg × Word)} (m : MovesWriting s t d w)
    (a : Accesses s t) : Acts s t d [] [] := by
  obtain ⟨ev, hm, hw⟩ := m
  exact ⟨hm.block.2.1, ev, hm.runs, hw.effectsBarDelays, a.lockEvents_eq_nil hm.trace⟩

/-- A record of reads alone. -/
def Reads (ev : List Event) : Prop := ∀ e ∈ ev, ∃ r v, e = .read r v

theorem Reads.append {a b : List Event} (ha : Reads a) (hb : Reads b) : Reads (a ++ b) := fun e he =>
  (List.mem_append.1 he).elim (ha e) (hb e)

theorem Reads.eq_nil {ev : List Event} (h : Reads ev) : writesOf ev = [] ∧ effectsOf ev = [] ∧ lockEvents ev = [] := by
  refine ⟨List.filterMap_eq_nil_iff.2 fun e he => ?_, List.filterMap_eq_nil_iff.2 fun e he => ?_,
    List.filter_eq_nil_iff.2 fun e he => ?_⟩ <;> obtain ⟨r, v, rfl⟩ := h e he
  · rfl
  · rfl
  · nofun

theorem Reads.acts {s t : State} {d : Device} {ev : List Event} (reads : Reads ev) (moves : Moves s t d ev) :
    Acts s t d [] [] := by
  obtain ⟨-, effects, locks⟩ := reads.eq_nil
  exact ⟨moves.block.2.1, ev, moves.runs, by rw [effectsBarDelays, effects]; rfl, locks⟩

/-- The look at a bitmask composite (rules R25, R133). -/
theorem readComposite_reads {s : State} (h : Still s.env) (b : Bitmap) (k : Slot) :
    (readComposite b s).1.getLsbD k.val = bitmapFlag b (slotAt s.dev k) ∧
      ∃ ev, Reads ev ∧ Moves s (readComposite b s).2 s.dev ev := by
  obtain ⟨value, moves⟩ := readComposite_moves h b
  refine ⟨by rw [value, bitmapWord_slot], _, fun e he => ?_, moves⟩
  obtain rfl | he := List.mem_cons.1 he
  · exact ⟨_, _, rfl⟩
  · exact ⟨_, _, List.mem_singleton.1 he⟩

theorem emit_acts {e : Effect} (he : e ≠ .delay Config.busySpacingUs) (s : State) : Acts s (emit e s) s.dev [e] [] :=
  ⟨rfl, [.effect e], ⟨rfl, rfl, .refl _⟩, List.filter_cons_of_pos (by simpa using he), rfl⟩

/-- The lock operations of a delivery: the two delivery locks, taken before the first one of a pass (rule R186). -/
def deliveryLocks (s : State) : List Event :=
  if s.h.phase == .locked && s.g.dispatch != .pass then [.acquire .dispatch, .acquire .socket] else []

theorem deliveryLocks_congr {s t : State} (k : KeepsBlock s t) : deliveryLocks t = deliveryLocks s := by
  obtain ⟨hh, hg, -⟩ := k
  rw [deliveryLocks, hh, hg, deliveryLocks]

theorem takeDeliveryLocks_acts (s : State) : Acts s (takeDeliveryLocks s) s.dev [] (deliveryLocks s) := by
  unfold takeDeliveryLocks deliveryLocks
  split
  · exact ⟨rfl, [.acquire .dispatch, .acquire .socket], ⟨rfl, List.append_assoc _ _ _, .refl _⟩, rfl, rfl⟩
  · exact .refl s

theorem deliver_acts (ev : BusEvent) (s : State) : Acts s (deliver ev s) s.dev [.deliver ev] (deliveryLocks s) := by
  have locks := takeDeliveryLocks_acts s
  have out := emit_acts (e := .deliver ev) nofun (takeDeliveryLocks s)
  rw [locks.dev] at out
  have both := locks.trans out
  rwa [List.nil_append, List.append_nil] at both

end Sys2Proof.Machine
end

section
/-! PROOFS. The transmit drain (43_pool_manager.md rules R166, R174). In any environment each round of its loop releases one
unit, a stalled one ends it, and only these releases and the bonus emit `tacRelease`; with nothing interleaved and no
time-out the rounds are the invalidations of the frames that were sent. -/

namespace Sys2Proof.Machine

/-! What a part of the drain releases, in any environment. -/

/-- From one state to the next the record grows, by events with `n` releases among them. -/
def Emits (n : Nat) (s t : State) : Prop := ∃ ev, t.trace = s.trace ++ ev ∧ releases ev = n

theorem releases_append (a b : List Event) : releases (a ++ b) = releases a + releases b := by
  rw [releases, effectsOf_append, List.count_append, releases, releases]

theorem Emits.trans {m n : Nat} {s t u : State} (a : Emits m s t) (b : Emits n t u) : Emits (m + n) s u := by
  obtain ⟨ev, htr, rfl⟩ := a
  obtain ⟨ev', htr', rfl⟩ := b
  exact ⟨ev ++ ev', by rw [htr', htr, List.append_assoc], releases_append ev ev'⟩

/-- Accesses and transfers release nothing, whether they are done or not. -/
theorem Accesses.emits {s t : State} (a : Accesses s t) : Emits 0 s t := by
  obtain ⟨ev, htr, plain⟩ := a
  refine ⟨ev, htr, List.count_eq_zero.2 fun he => ?_⟩
  obtain ⟨e, hm, hx⟩ := List.mem_filterMap.1 he
  cases e with
  | effect e => cases hx; exact absurd (plain _ hm) nofun
  | _ => cases hx

/-- `n` units go into the counter, one `tacRelease` for each; with no counter none does (rule R242). -/
structure Released (n : Nat) (s t : State) : Prop where
  counter : t.h.tac = s.h.tac.map (· + n)
  emits : Emits (if s.h.tac.isSome then n else 0) s t

theorem Released.trans {m n : Nat} {s t u : State} (a : Released m s t) (b : Released n t u) : Released (m + n) s u := by
  obtain ⟨ha, ea⟩ := a
  obtain ⟨hb, eb⟩ := b
  have both := ea.trans eb
  rw [ha, Option.isSome_map] at both
  refine ⟨?_, ?_⟩
  · rw [hb, ha]
    cases s.h.tac <;> simp [Nat.add_assoc]
  · cases h : s.h.tac <;> simpa [h] using both

/-- What keeps the counter and emits no release. -/
theorem Released.of_none {s t : State} (hc : t.h.tac = s.h.tac) (e : Emits 0 s t) : Released 0 s t :=
  ⟨by rw [hc]; exact Option.map_id'.symm, by rwa [ite_self]⟩

theorem tacRel_released (s : State) : Released 1 s (tacRel s) := by
  obtain ⟨handle, -, -, -, -, -, htr⟩ := tacRel_spec s
  refine ⟨by rw [handle], _, htr, ?_⟩
  cases s.h.tac <;> rfl

/-- The rounds of the drain: `k` frames drained, a unit for each, and one more if the loop stalled before the `n`-th (rule
R166, points A and B). -/
theorem txDrainLoop_released (p : PortId) (n : Nat) (s : State) :
    ∃ k ≤ n, (txDrainLoop p n s).h.txEcho = s.h.txEcho + BitVec.ofNat 32 k ∧
      Released (k + if k < n then 1 else 0) s (txDrainLoop p n s) := by
  induction n generalizing s with
  | zero => exact ⟨0, le_rfl, (BitVec.add_zero _).symm, .of_none rfl (Accesses.of_trace_eq rfl).emits⟩
  | succ n ih =>
    have look := (readComposite_accesses .txrqst s).emits
    have handle := readComposite_h .txrqst s
    simp only [txDrainLoop]
    generalize readComposite .txrqst s = v at look handle ⊢
    split
    case isTrue =>
      obtain ⟨rel, -⟩ := tacRel_spec v.2
      have stalled := (Released.of_none (by rw [handle]) look).trans (tacRel_released v.2)
      exact ⟨0, Nat.zero_le _, by rw [rel, handle]; exact (BitVec.add_zero _).symm, stalled⟩
    case isFalse =>
      have inval := (invalOp_accesses p (txSlot s.h.txEcho) v.2).emits
      have kept := (invalOp_block p (txSlot s.h.txEcho) v.2).1
      generalize invalOp p (txSlot s.h.txEcho) v.2 = t at inval kept ⊢
      have one : Released 1 s (tacRel (setTxEcho (t.h.txEcho + 1) t)) := by
        have drained : Released 0 s (setTxEcho (t.h.txEcho + 1) t) :=
          .of_none (show t.h.tac = s.h.tac by rw [kept, handle]) (look.trans inval)
        exact drained.trans (tacRel_released _)
      obtain ⟨k, hk, echo, released⟩ := ih (tacRel (setTxEcho (t.h.txEcho + 1) t))
      refine ⟨k + 1, Nat.succ_le_succ hk, ?_, ?_⟩
      · rw [echo, (tacRel_spec _).1, ← handle, ← kept]
        change t.h.txEcho + 1#32 + BitVec.ofNat 32 k = _
        rw [BitVec.add_assoc, BitVec.ofNat_add, BitVec.add_comm (BitVec.ofNat 32 k)]
      · have count : k + 1 + (if k + 1 < n + 1 then 1 else 0) = 1 + (k + if k < n then 1 else 0) := by
          simp only [Nat.add_lt_add_iff_right]
          omega
        rw [count]
        exact one.trans released

/-- The bonus release, point C (rule R166). -/
theorem txBonus_released (s : State) :
    Released (if s.h.txNext.toNat % 16 = 0 ∨ s.h.txEcho.toNat % 16 = 0 then 1 else 0) s (txBonus s) := by
  have aligned : (slotAligned s.h.txNext || slotAligned s.h.txEcho) = true ↔
      s.h.txNext.toNat % 16 = 0 ∨ s.h.txEcho.toNat % 16 = 0 := by
    rw [Bool.or_eq_true, slotAligned, slotAligned, beq_iff_eq, beq_iff_eq]
    rfl
  unfold txBonus
  by_cases h : (slotAligned s.h.txNext || slotAligned s.h.txEcho) = true
  · rw [if_pos h, if_pos (aligned.1 h)]
    exact tacRel_released s
  · rw [if_neg h, if_neg (mt aligned.2 h)]
    exact .of_none rfl (Accesses.of_trace_eq rfl).emits

theorem txBonus_echo (s : State) : (txBonus s).h.txEcho = s.h.txEcho := by
  unfold txBonus
  split
  · rw [(tacRel_spec s).1]
  · rfl

/-- How far a counter has moved, while it moved less than once around (rule R13). -/
theorem toNat_add_ofNat_sub (c : Counter) {k : Nat} (hk : k < 2 ^ 32) : (c + BitVec.ofNat 32 k - c).toNat = k := by
  rw [add_sub_cancel_left, BitVec.toNat_ofNat, Nat.mod_eq_of_lt hk]

/-- A counter that advances towards another has reached it exactly when no distance is left (rule R13). -/
theorem ne_add_ofNat_iff (a c : Counter) {k : Nat} (hk : k ≤ (a - c).toNat) :
    a ≠ c + BitVec.ofNat 32 k ↔ k < (a - c).toNat := by
  have wide : k < 2 ^ 32 := hk.trans_lt (a - c).isLt
  rw [lt_iff_le_and_ne, and_iff_right hk, not_iff_not, ← sub_eq_iff_eq_add', ← BitVec.toNat_inj, BitVec.toNat_ofNat,
    Nat.mod_eq_of_lt wide, eq_comm]

theorem exec_txdrain {s : State} (hs : Ready s) : exec .txdrain s = .next (withResult .unit (txDrainOp s)) :=
  answer_eq_next_iff.2 ⟨hs, rfl, rfl⟩

/-- Settles O28: the rounds of the loop and the bonus, each with what it releases. -/
theorem drainReleaseAccounting : Obligations.DrainReleaseAccounting := by
  unfold Obligations.DrainReleaseAccounting
  intro s hs
  obtain ⟨k, hk, echo, rounds⟩ := txDrainLoop_released Config.defaultPort (s.h.txNext - s.h.txEcho).toNat s
  have next : (txDrainLoop Config.defaultPort (s.h.txNext - s.h.txEcho).toNat s).h.txNext = s.h.txNext := by
    rw [(txDrainLoop_tx _ _ _).handle]
  have all := rounds.trans (txBonus_released _)
  rw [next, echo] at all
  obtain ⟨counter, ev, htr, hev⟩ := all
  have keeps := txDrainOp_tx s
  have reached : (txDrainOp s).h.txEcho = s.h.txEcho + BitVec.ofNat 32 k := (txBonus_echo _).trans echo
  have moved := toNat_add_ofNat_sub s.h.txEcho (hk.trans_lt (BitVec.isLt _))
  have kept : (txDrainOp s).h.txNext = s.h.txNext := by rw [keeps.handle]
  refine ⟨_, ev, exec_txdrain hs, rfl, htr, keeps.globals, keeps.held, keeps.handle, ?_⟩
  simp only [withResult_h, reached, moved, kept, ne_add_ofNat_iff _ _ hk]
  refine ⟨hk, counter.trans ?_, fun none => ?_, fun some => ?_⟩
  · cases h : s.h.tac with
    | none => rfl
    | some m => rw [hev, h]; rfl
  · rw [hev, none]; rfl
  · rw [hev, if_pos (Option.isSome_iff_ne_none.2 some)]

/-! The drain with nothing interleaved and no time-out. -/

/-- A part of the transmit drain leaves the device `d` and emits nothing but releases. -/
def Drains (s t : State) (d : Device) : Prop := ∃ n, Acts s t d (List.replicate n .tacRelease) []

theorem Acts.drains {s t : State} {d : Device} (a : Acts s t d [] []) : Drains s t d := ⟨0, a⟩

theorem Drains.trans {s t u : State} {d e : Device} (a : Drains s t d) (b : Drains t u e) : Drains s u e := by
  obtain ⟨m, ra⟩ := a
  obtain ⟨n, rb⟩ := b
  refine ⟨m + n, ?_⟩
  rw [List.replicate_add]
  exact ra.trans rb

theorem Drains.refl (s : State) : Drains s s s.dev := (Acts.refl s).drains

theorem Drains.dev {s t : State} {d : Device} (a : Drains s t d) : t.dev = d := by
  obtain ⟨n, r⟩ := a
  exact r.dev

theorem Drains.prompt {s t : State} {d : Device} (a : Drains s t d) (h : Prompt s.env) : Prompt t.env := by
  obtain ⟨n, r⟩ := a
  exact r.env.prompt h

theorem tacRel_drains (s : State) : Drains s (tacRel s) s.dev := by
  cases h : s.h.tac with
  | none =>
    have same : tacRel s = s := by simp only [tacRel, h]
    rw [same]
    exact .refl s
  | some n =>
    have released : tacRel s = emit .tacRelease (withHandle { s.h with tac := some (n + 1) } s) := by
      simp only [tacRel, h]
    obtain ⟨globals, ev, ⟨hdev, htr, henv⟩, out⟩ :=
      emit_acts (e := .tacRelease) nofun (withHandle { s.h with tac := some (n + 1) } s)
    rw [released]
    exact ⟨1, globals, ev, ⟨hdev, htr, henv⟩, out⟩

theorem setTxEcho_drains (v : Counter) (s : State) : Drains s (setTxEcho v s) s.dev :=
  ⟨0, rfl, [], ⟨rfl, (List.append_nil _).symm, .refl _⟩, rfl, rfl⟩

/-- The slots of the `j` frames from a counter value on (rule R13). -/
def ringSlots : Counter → Nat → List Slot
  | _, 0 => []
  | c, j + 1 => txSlot c :: ringSlots (c + 1) j

theorem counter_succ (c : Counter) (i : Nat) : c + 1 + BitVec.ofNat 32 i = c + BitVec.ofNat 32 (i + 1) := by
  rw [BitVec.add_assoc, BitVec.ofNat_add, BitVec.add_comm (BitVec.ofNat 32 i)]
  rfl

theorem counter_zero (c : Counter) : c + BitVec.ofNat 32 0 = c := BitVec.add_zero c

theorem mem_ringSlots {k : Slot} {c : Counter} {j : Nat} :
    k ∈ ringSlots c j ↔ ∃ i, i < j ∧ k = txSlot (c + BitVec.ofNat 32 i) := by
  induction j generalizing c with
  | zero => simp [ringSlots]
  | succ j ih =>
    rw [ringSlots, List.mem_cons, ih]
    simp only [counter_succ]
    refine ⟨?_, ?_⟩
    · rintro (rfl | ⟨i, hi, rfl⟩)
      · exact ⟨0, Nat.succ_pos j, by rw [counter_zero]⟩
      · exact ⟨i + 1, Nat.succ_lt_succ hi, rfl⟩
    · rintro ⟨_ | i, hi, rfl⟩
      · exact .inl (by rw [counter_zero])
      · exact .inr ⟨i, Nat.lt_of_succ_lt_succ hi, rfl⟩

/-- Sixteen frames in a row have sixteen slots (rule R13). -/
theorem txSlot_ne {c : Counter} {i : Nat} (h0 : 0 < i) (h16 : i < 16) : txSlot (c + BitVec.ofNat 32 i) ≠ txSlot c := by
  intro e
  have nums := congrArg Slot.num e
  simp only [txSlot_num, BitVec.toNat_add, BitVec.toNat_ofNat, Config.wCnt, Nat.reducePow] at nums
  omega

/-- The look at TXRQST before each round (rule R166). -/
theorem readComposite_txrqst {s : State} (h : Still s.env) (k : Slot) :
    (readComposite .txrqst s).1.getLsbD k.val = (slotAt s.dev k).mctrl.getLsbD 8 ∧
      Drains s (readComposite .txrqst s).2 s.dev := by
  obtain ⟨bit, ev, reads, moves⟩ := readComposite_reads h .txrqst k
  exact ⟨bit.trans (bitmapFlag_eq _ _), (reads.acts moves).drains⟩

theorem invalSteps_cons (p : PortId) (k : Slot) (l : List Slot) (d : Device) :
    putAll p (invalSteps (k :: l)) d = putAll p (invalSteps l) (putAll p (invalSteps [k]) d) := rfl

theorem invalOp_drains {s : State} {p : PortId} (h : Prompt s.env) (hp : PortIdle s.dev p) (k : Slot) :
    Drains s (invalOp p k s) (putAll p (invalSteps [k]) s.dev) := by
  have moves := invalOp_moves h hp k
  rw [← inval_putFrom] at moves
  exact (moves.acts (invalOp_accesses p k s)).drains

/-- A round on a frame that was sent invalidates its slot (rule R166, point B). -/
theorem txDrainLoop_round {p : PortId} (n : Nat) {s : State} (h : Prompt s.env) (hp : PortIdle s.dev p)
    (sent : (slotAt s.dev (txSlot s.h.txEcho)).mctrl.getLsbD 8 = false) :
    ∃ t, txDrainLoop p (n + 1) s = txDrainLoop p n t ∧ t.h.txEcho = s.h.txEcho + 1 ∧
      Drains s t (putAll p (invalSteps [txSlot s.h.txEcho]) s.dev) := by
  obtain ⟨bit, look⟩ := readComposite_txrqst h.1 (txSlot s.h.txEcho)
  have inval := invalOp_drains (look.prompt h) (by rwa [look.dev]) (txSlot s.h.txEcho)
  rw [look.dev] at inval
  have handle : (invalOp p (txSlot s.h.txEcho) (readComposite .txrqst s).2).h = s.h :=
    (invalOp_block p _ _).1.trans (readComposite_h _ s)
  simp only [txDrainLoop, bit, sent, Bool.false_eq_true, if_false]
  generalize invalOp p (txSlot s.h.txEcho) (readComposite .txrqst s).2 = t at inval handle
  have release := (setTxEcho_drains (t.h.txEcho + 1) t).trans (tacRel_drains _)
  rw [show (setTxEcho (t.h.txEcho + 1) t).dev = _ from inval.dev] at release
  refine ⟨_, rfl, ?_, (look.trans inval).trans release⟩
  rw [(tacRel_spec _).1, ← handle]
  rfl

/-- The first `j` of at most 16 frames in flight sent and the next one, if any, still requesting: the loop invalidates those
`j` slots and stops (rule R166). -/
theorem txDrainLoop_sent {p : PortId} (n j : Nat) {s : State} (h : Prompt s.env) (hp : PortIdle s.dev p) (h16 : n ≤ 16)
    (hj : j ≤ n)
    (sent : ∀ i, i < j → (slotAt s.dev (txSlot (s.h.txEcho + BitVec.ofNat 32 i))).mctrl.getLsbD 8 = false)
    (stall : j < n → (slotAt s.dev (txSlot (s.h.txEcho + BitVec.ofNat 32 j))).mctrl.getLsbD 8 = true) :
    (txDrainLoop p n s).h.txEcho = s.h.txEcho + BitVec.ofNat 32 j ∧
      Drains s (txDrainLoop p n s) (putAll p (invalSteps (ringSlots s.h.txEcho j)) s.dev) := by
  induction j generalizing n s with
  | zero =>
    rw [counter_zero] at stall ⊢
    cases n with
    | zero => exact ⟨rfl, .refl s⟩
    | succ n =>
      obtain ⟨bit, look⟩ := readComposite_txrqst h.1 (txSlot s.h.txEcho)
      have release := tacRel_drains (readComposite .txrqst s).2
      rw [look.dev] at release
      simp only [txDrainLoop, bit, stall n.succ_pos, if_true]
      exact ⟨by rw [(tacRel_spec _).1, readComposite_h], look.trans release⟩
  | succ j ih =>
    obtain ⟨n, rfl⟩ := Nat.exists_eq_add_of_le' (Nat.one_le_of_lt hj)
    have first := sent 0 j.succ_pos
    rw [counter_zero] at first
    obtain ⟨t, round, echo, drained⟩ := txDrainLoop_round n h hp first
    have slots (k : Slot) : slotAt t.dev k =
        if k ∈ [txSlot s.h.txEcho] then { slotAt s.dev k with arb := 0, mctrl := 0 } else slotAt s.dev k := by
      rw [drained.dev, invalSteps_slot]
    have idle : PortIdle t.dev p := by rw [drained.dev]; exact putFrom_idle hp _ _ _
    have rest := ih n (drained.prompt h) idle (by omega) (by omega) (fun i hi => ?_) fun hlt => ?_
    · rw [echo, counter_succ, drained.dev] at rest
      rw [round, ringSlots, invalSteps_cons]
      exact ⟨rest.1, drained.trans rest.2⟩
    · rw [echo, counter_succ, slots]
      split
      · exact BitVec.getLsbD_zero
      · exact sent (i + 1) (Nat.succ_lt_succ hi)
    · have other := txSlot_ne (c := s.h.txEcho) j.succ_pos (by omega)
      rw [echo, counter_succ, slots, if_neg (by rwa [List.mem_singleton])]
      exact stall (Nat.succ_lt_succ hlt)

theorem txBonus_drains (s : State) : Drains s (txBonus s) s.dev := by
  unfold txBonus
  split
  · exact tacRel_drains s
  · exact .refl s

/-- `TXDRAIN` with the first `j` of at most 16 frames in flight sent and the next one, if any, still requesting (rule
R166). -/
theorem txDrainOp_sent {j : Nat} {s : State} (h : Prompt s.env) (hp : PortIdle s.dev .if0)
    (h16 : (s.h.txNext - s.h.txEcho).toNat ≤ 16) (hj : j ≤ (s.h.txNext - s.h.txEcho).toNat)
    (sent : ∀ i, i < j → (slotAt s.dev (txSlot (s.h.txEcho + BitVec.ofNat 32 i))).mctrl.getLsbD 8 = false)
    (stall : j < (s.h.txNext - s.h.txEcho).toNat →
      (slotAt s.dev (txSlot (s.h.txEcho + BitVec.ofNat 32 j))).mctrl.getLsbD 8 = true) :
    (txDrainOp s).h = { s.h with txEcho := s.h.txEcho + BitVec.ofNat 32 j, tac := (txDrainOp s).h.tac } ∧
      Drains s (txDrainOp s) (putAll .if0 (invalSteps (ringSlots s.h.txEcho j)) s.dev) := by
  obtain ⟨echo, loop⟩ := txDrainLoop_sent (p := Config.defaultPort) _ j h hp h16 hj sent stall
  have bonus := txBonus_drains (txDrainLoop Config.defaultPort (s.h.txNext - s.h.txEcho).toNat s)
  rw [loop.dev] at bonus
  refine ⟨?_, loop.trans bonus⟩
  rw [← echo, ← txBonus_echo]
  exact (txDrainOp_tx s).handle

/-- The slots after the frames from a counter value on have been drained (rule R166). -/
theorem ringSlots_slot (p : PortId) (c : Counter) (j : Nat) (d : Device) (k : Slot)
    [Decidable (∃ i, i < j ∧ k = txSlot (c + BitVec.ofNat 32 i))] :
    slotAt (putAll p (invalSteps (ringSlots c j)) d) k =
      if ∃ i, i < j ∧ k = txSlot (c + BitVec.ofNat 32 i) then { slotAt d k with arb := 0, mctrl := 0 }
      else slotAt d k := by
  rw [invalSteps_slot]
  exact if_congr mem_ringSlots rfl rfl

/-- Settles O29: the loop drains the frames sent, and the bonus leaves the device. -/
theorem drainSentFrames : Obligations.DrainSentFrames := by
  unfold Obligations.DrainSentFrames
  intro s j hs h hp h16 hj sent stall
  obtain ⟨handle, drained⟩ := txDrainOp_sent h hp h16 hj sent stall
  have keeps := txDrainOp_tx s
  refine ⟨_, exec_txdrain hs, rfl, handle, fun k => ?_, keeps.globals, keeps.held, ?_⟩
  · rw [withResult_dev, drained.dev, ringSlots_slot]
  · rw [withResult_dev, drained.dev]
    exact ⟨putAll_globals _ _ _, putAll_otherPort _ _ _⟩

end Sys2Proof.Machine
end

section
/-! PROOFS. The receive drain (43_pool_manager.md rules R167 to R173), with nothing interleaved and no time-out. A slot that is
not pending costs the scan two reads; a pending one is fetched into the port, and then ends the scan or is served: its
control words are written back, and what it holds is delivered. -/

namespace Sys2Proof.Machine

/-! Pending slots, and the slots before and after one (rules R92, R171). -/

/-- INTPND of a slot. -/
def isPending (d : Device) (k : Slot) : Bool := (slotAt d k).mctrl.getLsbD 13

/-- EOB of a slot. -/
def isLast (d : Device) (k : Slot) : Bool := (slotAt d k).mctrl.getLsbD 7

@[simp] theorem hasAny_mcMsglst (v : Word) : hasAny v mcMsglst = v.getLsbD 14 := hasAny_twoPow v (i := 14) (by decide)

/-- The receive slots in order, split at one of them. -/
theorem slotsFrom_split : ∀ k : Slot, k.num ≤ 15 →
    slotsFrom Config.rxFirst Config.rxLast = slotsFrom 1 (k.num - 1) ++ k :: slotsFrom (k.num + 1) 15 := by
  decide

/-! A slot that is not pending. -/

/-- The look at INTPND before each slot (rule R171). -/
theorem readComposite_intpnd {s : State} (h : Still s.env) (k : Slot) :
    (readComposite .intpnd s).1.getLsbD k.val = isPending s.dev k ∧
      ∃ ev, Reads ev ∧ Moves s (readComposite .intpnd s).2 s.dev ev := by
  obtain ⟨bit, look⟩ := readComposite_reads h .intpnd k
  exact ⟨bit.trans (bitmapFlag_eq _ _), look⟩

/-- The scan passes over slots that are not pending (rule R171). -/
theorem rxScan_idle (p : PortId) (l : List Slot) {s : State} (h : Still s.env) (hl : ∀ k ∈ l, isPending s.dev k = false) :
    ∃ t ev, Reads ev ∧ Moves s t s.dev ev ∧ ∀ rest, rxScan p (l ++ rest) s = rxScan p rest t := by
  induction l generalizing s with
  | nil => exact ⟨s, [], nofun, .refl s, fun _ => rfl⟩
  | cons k l ih =>
    obtain ⟨bit, ev, reads, look⟩ := readComposite_intpnd h k
    obtain ⟨t, ev', reads', moves, scan⟩ := ih (look.env.still h) fun i hi => by
      rw [look.dev]; exact hl i (List.mem_cons_of_mem _ hi)
    rw [look.dev] at moves
    refine ⟨t, ev ++ ev', reads.append reads', look.trans moves, fun rest => ?_⟩
    rw [← scan, List.cons_append, rxScan]
    simp only [bit, hl k List.mem_cons_self, Bool.not_false, if_true]

/-! A pending slot is fetched into the port. -/

/-- A port into which a slot has been fetched (rules R141, R171). -/
def fetchedPort (k : Slot) (o : MsgObj) (q : PortRegs) : PortRegs :=
  { q with
    mask1 := o.mask.lo, mask2 := o.mask.hi, arb1 := o.arb.lo, arb2 := o.arb.hi, mctrl := o.mctrl
    data1 := (dataWords o.data)[0], data2 := (dataWords o.data)[1], data3 := (dataWords o.data)[2]
    data4 := (dataWords o.data)[3], commsk := 0x0073#16, comreq := slotWord k, timedOut := none }

/-- The device after a slot has been fetched into a port. -/
def fetched (p : PortId) (k : Slot) (d : Device) : Device := withPort d p (fetchedPort k (slotAt d k) (portOf d p))

theorem transferred_cmRx (p : PortId) (k : Slot) (d : Device) : transferred p k cmRx d = fetched p k d := by
  rw [transferred_get (by decide) (by decide)]
  simp [fetched, fetchedPort, getRegs, wholeChoice, show cmRx = 0x0073#16 by decide]

theorem fetched_slot (p : PortId) (k : Slot) (d : Device) (l : Slot) : slotAt (fetched p k d) l = slotAt d l :=
  slotAt_withPort _ _ _ _

theorem fetched_idle {p : PortId} {d : Device} (hp : PortIdle d p) (k : Slot) : PortIdle (fetched p k d) p := by
  rw [PortIdle, fetched, portOf_withPort]
  exact hp

theorem fetched_busyClear (p : PortId) (k : Slot) (d : Device) : BusyClear (fetched p k d) p := by
  rw [busyClear_iff, fetched, portOf_withPort]
  exact slotWord_not_busy k

/-- The frame in the port is the one in the slot (rules R151, R171). -/
theorem frameIn_fetched (p : PortId) (k : Slot) (d : Device) (c : Word) :
    frameIn c (portOf (fetched p k d) p) = decodeFrame (slotAt d k).arb c (dataWords (slotAt d k).data) := by
  rw [fetched, portOf_withPort, frameIn]
  exact congrArg₂ (decodeFrame · c) (joinHalves_hi_lo _) rfl

/-- The state after the *get* of a slot and the read of its control word (rule R171). -/
def fetchSlot (p : PortId) (k : Slot) (s : State) : Word × State := readReg (.port p .mctrl) (getXfer p k cmRx s).2

theorem fetchSlot_moves {s : State} {p : PortId} (h : Prompt s.env) (hp : PortIdle s.dev p) (k : Slot) :
    (fetchSlot p k s).1 = (slotAt s.dev k).mctrl ∧
      MovesWriting s (fetchSlot p k s).2 (fetched p k s.dev) (startWrites p k 0x0073#16) := by
  obtain ⟨-, vs, -, get⟩ := getXfer_moves h hp k cmRx
  rw [transferred_cmRx] at get
  obtain ⟨value, read⟩ := readReg_moves (get.env.still h.1)
    (sampleReg_port (by rw [get.dev]; exact fetched_busyClear p k s.dev) .mctrl)
  rw [get.dev] at value read
  have control : regValue (fetched p k s.dev) (.port p .mctrl) = (slotAt s.dev k).mctrl := by
    simp only [regValue, fetched, portOf_withPort]
    rfl
  have mask : cmRx = 0x0073#16 := by decide
  refine ⟨value.trans control, _, get.trans read, ?_⟩
  rw [← List.append_nil (startWrites _ _ _), ← mask]
  exact (onlyWrites_transfer p k cmRx vs).append ⟨rfl, nofun⟩

/-! What is done with a fetched slot. -/

/-- A slot not marked end-of-block, by MSGLST and NEWDAT of its control word (rule R171). -/
def serveSlot (p : PortId) (k : Slot) (c : Word) (s : State) : State :=
  if c.getLsbD 14 then rxLostOp p k c s else if !c.getLsbD 15 then s else deliverSlot p k c s

/-- The scan at a pending slot: end-of-block ends it, any other slot is served (rules R171, R173). -/
theorem rxScan_pending {p : PortId} {k : Slot} {s : State} (h : Prompt s.env) (hp : PortIdle s.dev p)
    (pend : isPending s.dev k = true) :
    ∃ t, MovesWriting s t (fetched p k s.dev) (startWrites p k 0x0073#16) ∧ Accesses s t ∧
      ∀ rest, rxScan p (k :: rest) s =
        if isLast s.dev k then t else rxScan p rest (serveSlot p k (slotAt s.dev k).mctrl t) := by
  obtain ⟨bit, ev, reads, look⟩ := readComposite_intpnd h.1 k
  have look_acc := readComposite_accesses .intpnd s
  obtain ⟨value, ev', fetch, writes⟩ := fetchSlot_moves (look.prompt h) (by rw [look.dev]; exact hp) k
  rw [look.dev] at value fetch
  refine ⟨_, ⟨_, look.trans fetch, ?_⟩, look_acc.trans ((xfer_accesses _ _ _ _).trans (readReg_accesses _ _)), fun rest => ?_⟩
  · rw [← List.nil_append (startWrites _ _ _)]
    obtain ⟨w, e, -⟩ := reads.eq_nil
    exact OnlyWrites.append ⟨w, by rw [e]; nofun⟩ writes
  · rw [rxScan]
    simp only [bit, pend, Bool.not_true, Bool.false_eq_true, if_false, ← fetchSlot.eq_1, value, hasAny_mcEob,
      hasAny_mcMsglst, hasAny_mcNewdat, isLast, serveSlot, apply_ite (rxScan p rest)]

/-- The slots whose control words are written back: the slot itself, or with it every slot below the boundary slot (rules
R167 to R171). -/
def servedSlots (k : Slot) (c : Word) : List Slot :=
  if c.getLsbD 14 then [k] else if !c.getLsbD 15 then []
  else if k.num = Config.rxSplit then slotsFrom Config.rxFirst Config.rxSplit else [k]

/-- The control word that is written back. -/
def servedWord (k : Slot) (c : Word) : Word :=
  if c.getLsbD 14 then clearBits c mcMsglst
  else if k.num < Config.rxSplit then clearBits c (mcIntpnd ||| mcMsglst) else freedControl c

theorem served_of_lost (k : Slot) {c : Word} (lost : c.getLsbD 14 = true) :
    servedSlots k c = [k] ∧ servedWord k c = clearBits c mcMsglst := by
  rw [servedSlots, servedWord, if_pos lost, if_pos lost]
  exact ⟨rfl, rfl⟩

theorem servedSlots_of_neither (k : Slot) {c : Word} (lost : c.getLsbD 14 = false) (fresh : c.getLsbD 15 = false) :
    servedSlots k c = [] := by
  rw [servedSlots, lost, fresh]
  rfl

theorem served_of_fresh (k : Slot) {c : Word} (lost : c.getLsbD 14 = false) (fresh : c.getLsbD 15 = true) :
    servedSlots k c = (if k.num = Config.rxSplit then slotsFrom Config.rxFirst Config.rxSplit else [k]) ∧
      servedWord k c =
        if k.num < Config.rxSplit then clearBits c (mcIntpnd ||| mcMsglst) else freedControl c := by
  rw [servedSlots, servedWord, lost, fresh]
  exact ⟨rfl, rfl⟩

/-- What is delivered of a slot whose frame is `f`. -/
def servedEffects (c : Word) (f : Frame) : List Effect :=
  if c.getLsbD 14 then [.deliver .rxOverflow] else if !c.getLsbD 15 then [] else [.deliver (.data f)]

/-- The device after a slot has been served. -/
def served (p : PortId) (k : Slot) (c : Word) (d : Device) : Device :=
  putAll p (controlSteps (servedWord k c) (servedSlots k c)) d

theorem rewriteControls_acts {s : State} {p : PortId} (h : Prompt s.env) (hp : PortIdle s.dev p) (c : Word)
    (l : List Slot) : Acts s (rewriteControls p c l s) (putAll p (controlSteps c l) s.dev) [] [] :=
  (rewriteControls_moves h hp c l).acts (rewriteControls_accesses p c l s)

/-- A delivered slot is reactivated by its place against the boundary slot (rule R171). -/
theorem reactivate_eq (p : PortId) (k : Slot) {c : Word} (lost : c.getLsbD 14 = false) (fresh : c.getLsbD 15 = true)
    (s : State) : reactivate p k c s = rewriteControls p (servedWord k c) (servedSlots k c) s := by
  obtain ⟨slots, word⟩ := served_of_fresh k lost fresh
  rw [reactivate, slots, word]
  by_cases below : k.num < Config.rxSplit
  · rw [if_pos below, if_pos below, if_neg below.ne]
    rfl
  · rw [if_neg below, if_neg below]
    by_cases boundary : k.num = Config.rxSplit
    · rw [if_pos boundary, if_pos boundary]
      rfl
    · rw [if_neg boundary, if_neg boundary]
      rfl

theorem rxLostOp_acts {s : State} {p : PortId} (h : Prompt s.env) (hp : PortIdle s.dev p) (k : Slot) (c : Word) :
    Acts s (rxLostOp p k c s) (putAll p (controlSteps (clearBits c mcMsglst) [k]) s.dev) [.deliver .rxOverflow]
      (deliveryLocks s) := by
  have rewritten := rewriteControls_acts h hp (clearBits c mcMsglst) [k]
  have out := deliver_acts .rxOverflow (rewriteControls p (clearBits c mcMsglst) [k] s)
  rw [rewritten.dev, deliveryLocks_congr (rewriteControls_block _ _ _ _)] at out
  exact rewritten.trans out

theorem decodePort_acts {s : State} {p : PortId} (h : Still s.env) (hb : BusyClear s.dev p) (c : Word) :
    (decodePort p c s).1 = frameIn c (portOf s.dev p) ∧ Acts s (decodePort p c s).2 s.dev [] [] := by
  have reads : Reads (decodeReads p c (portOf s.dev p)) := fun e he => by
    obtain he | he := List.mem_append.1 he
    · obtain rfl | he := List.mem_cons.1 he
      · exact ⟨_, _, rfl⟩
      · exact ⟨_, _, List.mem_singleton.1 he⟩
    · obtain ⟨r, -, rfl⟩ := List.mem_map.1 (List.mem_of_mem_take he)
      exact ⟨_, _, rfl⟩
  rw [decodePort_still h hb]
  exact ⟨rfl, reads.acts ⟨.refl s, rfl, rfl, .refl _⟩⟩

theorem deliverSlot_acts {s : State} {p : PortId} (h : Prompt s.env) (hp : PortIdle s.dev p) (hb : BusyClear s.dev p)
    (k : Slot) {c : Word} (lost : c.getLsbD 14 = false) (fresh : c.getLsbD 15 = true) :
    Acts s (deliverSlot p k c s) (served p k c s.dev) [.deliver (.data (frameIn c (portOf s.dev p)))]
      (deliveryLocks s) := by
  obtain ⟨frame, decoded⟩ := decodePort_acts h.1 hb c
  have out := deliver_acts (.data (decodePort p c s).1) (decodePort p c s).2
  rw [decoded.dev, deliveryLocks_congr (decodePort_block p c s), frame] at out
  have delivered := decoded.trans out
  have back := rewriteControls_acts (delivered.env.prompt h) (by rw [delivered.dev]; exact hp) (servedWord k c)
    (servedSlots k c)
  rw [delivered.dev] at back
  rw [deliverSlot, reactivate_eq p k lost fresh, frame]
  have all := delivered.trans back
  rwa [List.nil_append, List.append_nil, List.nil_append, List.append_nil] at all

/-- What serving a slot comes to. -/
theorem serveSlot_acts {s : State} {p : PortId} (h : Prompt s.env) (hp : PortIdle s.dev p) (hb : BusyClear s.dev p)
    (k : Slot) (c : Word) :
    Acts s (serveSlot p k c s) (served p k c s.dev) (servedEffects c (frameIn c (portOf s.dev p)))
      (if c.getLsbD 14 || c.getLsbD 15 then deliveryLocks s else []) := by
  cases lost : c.getLsbD 14 with
  | true =>
    obtain ⟨slots, word⟩ := served_of_lost k lost
    rw [serveSlot, servedEffects, served, slots, word, if_pos lost, if_pos lost]
    exact rxLostOp_acts h hp k c
  | false =>
    cases fresh : c.getLsbD 15 with
    | true =>
      rw [serveSlot, servedEffects, lost, fresh]
      exact deliverSlot_acts h hp hb k lost fresh
    | false =>
      rw [serveSlot, servedEffects, served, servedSlots_of_neither k lost fresh, lost, fresh]
      exact Acts.refl s

/-! The slots after one has been served. -/

/-- The global registers, the other port and the idleness of this one are kept. -/
def Within (p : PortId) (d e : Device) : Prop := SameGlobals d e ∧ SameOtherPort p d e ∧ (PortIdle d p → PortIdle e p)

theorem SameGlobals.trans {d e f : Device} (a : SameGlobals d e) (b : SameGlobals e f) : SameGlobals d f := by
  obtain ⟨a1, a2, a3, a4, a5, a6, a7⟩ := a
  obtain ⟨b1, b2, b3, b4, b5, b6, b7⟩ := b
  exact ⟨b1.trans a1, b2.trans a2, b3.trans a3, b4.trans a4, b5.trans a5, b6.trans a6, b7.trans a7⟩

theorem Within.refl (p : PortId) (d : Device) : Within p d d := ⟨⟨rfl, rfl, rfl, rfl, rfl, rfl, rfl⟩, fun _ _ => rfl, id⟩

theorem Within.trans {p : PortId} {d e f : Device} (a : Within p d e) (b : Within p e f) : Within p d f := by
  obtain ⟨ga, pa, ia⟩ := a
  obtain ⟨gb, pb, ib⟩ := b
  exact ⟨ga.trans gb, fun q hq => (pb q hq).trans (pa q hq), ib ∘ ia⟩

theorem fetched_within (p : PortId) (k : Slot) (d : Device) : Within p d (fetched p k d) :=
  ⟨sameGlobals_withPort _ _ _, fun _ => portOf_withPort_ne _ _, fun hp => fetched_idle hp k⟩

theorem putAll_idle {p : PortId} (l : List PutStep) {d : Device} (hp : PortIdle d p) : PortIdle (putAll p l d) p := by
  induction l generalizing d with
  | nil => exact hp
  | cons x l ih => exact ih (putFrom_idle hp _ _ _)

theorem served_within (p : PortId) (k : Slot) (c : Word) (d : Device) : Within p d (served p k c d) :=
  ⟨putAll_globals _ _ _, putAll_otherPort _ _ _, putAll_idle _⟩

theorem served_slot (p : PortId) (k : Slot) (c : Word) (d : Device) (l : Slot) :
    slotAt (served p k c d) l =
      if l ∈ servedSlots k c then { slotAt d l with mctrl := servedWord k c } else slotAt d l :=
  controlSteps_slot p _ _ d l

theorem getLsbD_clearBits {n i : Nat} (v m : BitVec n) (hi : i < n) :
    (clearBits v m).getLsbD i = (v.getLsbD i && !m.getLsbD i) := by
  rw [clearBits, BitVec.getLsbD_and, BitVec.getLsbD_not, decide_eq_true hi, Bool.true_and]

/-- A freed word has neither new data nor an interrupt pending (rules R169, R170). -/
theorem freedControl_bits (c : Word) : (freedControl c).getLsbD 15 = false ∧ (freedControl c).getLsbD 13 = false := by
  have masks : (mcIntpnd ||| mcMsglst ||| mcNewdat).getLsbD 15 = true ∧
      (mcIntpnd ||| mcMsglst ||| mcNewdat).getLsbD 13 = true := by decide
  rw [freedControl, getLsbD_clearBits _ _ (by decide), getLsbD_clearBits _ _ (by decide), masks.1, masks.2]
  exact ⟨Bool.and_false _, Bool.and_false _⟩

/-- Serving a slot writes another one only with the boundary slot's freed word (rules R170, R171). -/
theorem mem_servedSlots_of_ne {k l : Slot} {c : Word} (h : l ∈ servedSlots k c) (hl : l ≠ k) :
    k.num = Config.rxSplit ∧ l.num ≤ 9 ∧ servedWord k c = freedControl c := by
  have not_alone (alone : servedSlots k c = [k]) : False := hl (List.mem_singleton.1 (alone ▸ h))
  cases lost : c.getLsbD 14 with
  | true => exact (not_alone (served_of_lost k lost).1).elim
  | false =>
    cases fresh : c.getLsbD 15 with
    | false => exact absurd (servedSlots_of_neither k lost fresh ▸ h) List.not_mem_nil
    | true =>
      obtain ⟨slots, word⟩ := served_of_fresh k lost fresh
      by_cases boundary : k.num = Config.rxSplit
      · rw [slots, if_pos boundary] at h
        rw [word, if_neg boundary.not_lt]
        exact ⟨boundary, (mem_slotsFrom.1 h).2, rfl⟩
      · exact (not_alone (slots.trans (if_neg boundary))).elim

/-- Serving a slot makes no other slot pending. -/
theorem served_not_pending (p : PortId) {k l : Slot} (c : Word) {d : Device} (hl : l ≠ k)
    (h : isPending d l = false) : isPending (served p k c d) l = false := by
  rw [isPending, served_slot]
  split
  case isTrue written =>
    obtain ⟨-, -, word⟩ := mem_servedSlots_of_ne written hl
    rw [word]
    exact (freedControl_bits c).2
  case isFalse => exact h

/-- The device after a fetched slot has been served. -/
def afterServing (p : PortId) (k : Slot) (d : Device) : Device := served p k (slotAt d k).mctrl (fetched p k d)

theorem afterServing_within (p : PortId) (k : Slot) (d : Device) : Within p d (afterServing p k d) :=
  (fetched_within p k d).trans (served_within p k _ _)

theorem afterServing_slot (p : PortId) (k : Slot) (d : Device) (l : Slot) :
    slotAt (afterServing p k d) l =
      if l ∈ servedSlots k (slotAt d k).mctrl then { slotAt d l with mctrl := servedWord k (slotAt d k).mctrl }
      else slotAt d l := by
  rw [afterServing, served_slot, fetched_slot]

/-- A device in which slot `k` alone may be written, slot by slot. -/
theorem ite_mem_singleton (d : Device) (k l : Slot) (w : Word) :
    (if l ∈ [k] then { slotAt d l with mctrl := w } else slotAt d l) =
      if l = k then { slotAt d k with mctrl := w } else slotAt d l := by
  by_cases e : l = k
  · rw [if_pos (List.mem_singleton.2 e), if_pos e, e]
  · rw [if_neg (mt List.mem_singleton.1 e), if_neg e]

/-- The slots after a fetched slot has been served, by what it held and by its place (rules R167 to R171). -/
theorem afterServing_slot_cases (p : PortId) (k : Slot) (d : Device) (l : Slot) :
    let o := slotAt d k
    slotAt (afterServing p k d) l =
      if o.mctrl.getLsbD 14 then (if l = k then { o with mctrl := o.mctrl &&& 0xBFFF#16 } else slotAt d l)
      else if o.mctrl.getLsbD 15 = false then slotAt d l
      else if k.num < 9 then (if l = k then { o with mctrl := o.mctrl &&& 0x9FFF#16 } else slotAt d l)
      else if k.num = 9 then (if l.num ≤ 9 then { slotAt d l with mctrl := o.mctrl &&& 0x1FFF#16 } else slotAt d l)
      else (if l = k then { o with mctrl := o.mctrl &&& 0x1FFF#16 } else slotAt d l) := by
  intro o
  rw [afterServing_slot]
  change (if l ∈ servedSlots k o.mctrl then { slotAt d l with mctrl := servedWord k o.mctrl } else _) = _
  cases lost : o.mctrl.getLsbD 14 with
  | true =>
    obtain ⟨slots, word⟩ := served_of_lost k lost
    rw [slots, word, ite_mem_singleton]
    rfl
  | false =>
    rw [if_neg Bool.false_ne_true]
    cases fresh : o.mctrl.getLsbD 15 with
    | false =>
      rw [servedSlots_of_neither k lost fresh]
      rfl
    | true =>
      obtain ⟨slots, word⟩ := served_of_fresh k lost fresh
      rw [show Config.rxSplit = 9 from rfl] at slots word
      rw [slots, word, if_neg (Ne.symm Bool.false_ne_true)]
      by_cases below : k.num < 9
      · rw [if_pos below, if_pos below, if_neg below.ne, ite_mem_singleton]
        rfl
      · rw [if_neg below, if_neg below]
        by_cases boundary : k.num = 9
        · rw [if_pos boundary, if_pos boundary]
          exact if_congr (mem_slotsFrom.trans (and_iff_right (slot_num_pos l))) rfl rfl
        · rw [if_neg boundary, if_neg boundary, ite_mem_singleton]
          rfl

/-- The frame in a slot. -/
def frameAt (d : Device) (k : Slot) : Frame :=
  decodeFrame (slotAt d k).arb (slotAt d k).mctrl (dataWords (slotAt d k).data)

/-- The scan at a pending slot that is not end-of-block. -/
theorem rxScan_served {p : PortId} {k : Slot} {s : State} (h : Prompt s.env) (hp : PortIdle s.dev p)
    (pend : isPending s.dev k = true) (last : isLast s.dev k = false) :
    ∃ t, (∀ rest, rxScan p (k :: rest) s = rxScan p rest t) ∧
      Acts s t (afterServing p k s.dev) (servedEffects (slotAt s.dev k).mctrl (frameAt s.dev k))
        (if (slotAt s.dev k).mctrl.getLsbD 14 || (slotAt s.dev k).mctrl.getLsbD 15 then deliveryLocks s else []) := by
  obtain ⟨t, fetch, accesses, scan⟩ := rxScan_pending h hp pend
  have block : KeepsBlock s t := by
    obtain ⟨ev, moves, -⟩ := fetch
    exact moves.block
  have get := fetch.acts accesses
  have idle : PortIdle t.dev p := by rw [get.dev]; exact fetched_idle hp k
  have clear : BusyClear t.dev p := by rw [get.dev]; exact fetched_busyClear p k s.dev
  have serve := serveSlot_acts (get.env.prompt h) idle clear k (slotAt s.dev k).mctrl
  rw [get.dev, frameIn_fetched, deliveryLocks_congr block] at serve
  refine ⟨_, fun rest => ?_, get.trans serve⟩
  rw [scan, last]
  rfl

/-- `RXDRAIN` with one receive slot pending, not marked end-of-block (rule R171). -/
theorem rxDrainOp_lone {k : Slot} {s : State} (h : Prompt s.env) (hp : PortIdle s.dev .if0) (h15 : k.num ≤ 15)
    (lone : ∀ l : Slot, l.num ≤ 15 → (isPending s.dev l = true ↔ l = k)) (last : isLast s.dev k = false) :
    Acts s (rxDrainOp s) (afterServing .if0 k s.dev) (servedEffects (slotAt s.dev k).mctrl (frameAt s.dev k))
      (if (slotAt s.dev k).mctrl.getLsbD 14 || (slotAt s.dev k).mctrl.getLsbD 15 then deliveryLocks s else []) := by
  have others (l : Slot) (hl : l.num ≤ 15) (hne : l.num ≠ k.num) : isPending s.dev l = false :=
    Bool.eq_false_iff.2 fun pend => hne (congrArg Slot.num ((lone l hl).1 pend))
  have pos := slot_num_pos k
  obtain ⟨t, ev, reads, pass, scan⟩ := rxScan_idle Config.defaultPort (slotsFrom 1 (k.num - 1)) h.1 fun l hl => by
    have := (mem_slotsFrom.1 hl).2
    exact others l (by omega) (by omega)
  obtain ⟨u, scan', serve⟩ := rxScan_served (p := Config.defaultPort) (k := k) (pass.prompt h)
    (by rw [pass.dev]; exact hp) (by rw [pass.dev]; exact (lone k h15).2 rfl) (by rw [pass.dev]; exact last)
  rw [pass.dev, deliveryLocks_congr pass.block] at serve
  obtain ⟨v, ev', reads', pass', scan''⟩ := rxScan_idle Config.defaultPort (slotsFrom (k.num + 1) 15)
    ((serve.env.prompt (pass.prompt h)).1) fun l hl => by
      have := (mem_slotsFrom.1 hl).1
      have ne : l.num ≠ k.num := by omega
      rw [serve.dev]
      refine served_not_pending _ _ (fun e => ne (congrArg Slot.num e)) ?_
      rw [isPending, fetched_slot]
      exact others l (mem_slotsFrom.1 hl).2 ne
  have run : rxDrainOp s = v := by
    rw [rxDrainOp, slotsFrom_split k h15, scan, scan', ← List.append_nil (slotsFrom _ _), scan'']
    rfl
  have rest := reads'.acts pass'
  rw [serve.dev] at rest
  have all := ((reads.acts pass).trans serve).trans rest
  rwa [List.nil_append, List.nil_append, List.append_nil, List.append_nil, ← run] at all

/-! A scan over several slots, none of them the boundary slot. -/

/-- Of the slots of a list only pending ones may have been written, and no others at all. -/
structure Spares (p : PortId) (l : List Slot) (s t : State) : Prop where
  env : EnvUsed s.env t.env
  within : Within p s.dev t.dev
  slots : ∀ k, (k ∈ l → isPending s.dev k = false) → slotAt t.dev k = slotAt s.dev k

theorem Spares.cons {p : PortId} {k : Slot} {l : List Slot} {s t u : State} (a : Spares p [k] s t) (b : Spares p l t u) :
    Spares p (k :: l) s u := by
  refine ⟨a.env.trans b.env, a.within.trans b.within, fun i hi => ?_⟩
  have first := a.slots i fun hk => hi (List.mem_cons.2 (.inl (List.mem_singleton.1 hk)))
  refine (b.slots i fun hl => ?_).trans first
  rw [isPending, first]
  exact hi (List.mem_cons_of_mem k hl)

/-- The scan goes past one slot, or ends at it. -/
theorem rxScan_step {p : PortId} {k : Slot} {s : State} (h : Prompt s.env) (hp : PortIdle s.dev p)
    (hk : k.num ≠ Config.rxSplit) :
    ∃ t, Spares p [k] s t ∧ ((∀ rest, rxScan p (k :: rest) s = rxScan p rest t) ∨
      isPending s.dev k = true ∧ isLast s.dev k = true ∧ ∀ rest, rxScan p (k :: rest) s = t) := by
  cases pend : isPending s.dev k with
  | false =>
    obtain ⟨t, ev, -, moves, scan⟩ := rxScan_idle p [k] h.1 fun i hi => by rwa [List.mem_singleton.1 hi]
    exact ⟨t, ⟨moves.env, by rw [moves.dev]; exact .refl p _, fun i _ => by rw [moves.dev]⟩, .inl scan⟩
  | true =>
    cases last : isLast s.dev k with
    | true =>
      obtain ⟨t, ⟨ev, moves, -⟩, -, scan⟩ := rxScan_pending h hp pend
      refine ⟨t, ⟨moves.env, ?_, fun i _ => ?_⟩, .inr ⟨rfl, rfl, fun rest => (scan rest).trans (if_pos last)⟩⟩
      · rw [moves.dev]
        exact fetched_within p k _
      · rw [moves.dev, fetched_slot]
    | false =>
      obtain ⟨t, scan, serve⟩ := rxScan_served h hp pend last
      refine ⟨t, ⟨serve.env, ?_, fun i hi => ?_⟩, .inl scan⟩
      · rw [serve.dev]
        exact afterServing_within p k _
      · rw [serve.dev, afterServing_slot, if_neg fun written => ?_]
        by_cases e : i = k
        · exact absurd (hi (List.mem_singleton.2 e)) (by rw [e, pend]; nofun)
        · exact hk (mem_servedSlots_of_ne written e).1

theorem rxScan_spares {p : PortId} (l : List Slot) {s : State} (h : Prompt s.env) (hp : PortIdle s.dev p)
    (hl : ∀ k ∈ l, k.num ≠ Config.rxSplit) : Spares p l s (rxScan p l s) := by
  induction l generalizing s with
  | nil => exact ⟨.refl _, .refl p _, fun _ _ => rfl⟩
  | cons k l ih =>
    obtain ⟨t, first, on | ⟨-, -, ends⟩⟩ := rxScan_step h hp (hl k List.mem_cons_self)
    · rw [on]
      exact first.cons (ih (first.env.prompt h) (first.within.2.2 hp) fun i hi => hl i (List.mem_cons_of_mem k hi))
    · rw [ends]
      refine ⟨first.env, first.within, fun i hi => first.slots i fun hk => ?_⟩
      exact hi (List.mem_cons.2 (.inl (List.mem_singleton.1 hk)))

/-- With no pending slot of the list marked end-of-block the scan goes past all of them. -/
theorem rxScan_through {p : PortId} (l : List Slot) {s : State} (h : Prompt s.env) (hp : PortIdle s.dev p)
    (hl : ∀ k ∈ l, k.num ≠ Config.rxSplit) (once : l.Nodup)
    (unmarked : ∀ k ∈ l, isPending s.dev k = true → isLast s.dev k = false) :
    ∃ t, Spares p l s t ∧ ∀ rest, rxScan p (l ++ rest) s = rxScan p rest t := by
  induction l generalizing s with
  | nil => exact ⟨s, ⟨.refl _, .refl p _, fun _ _ => rfl⟩, fun _ => rfl⟩
  | cons k l ih =>
    obtain ⟨absent, once⟩ := List.nodup_cons.1 once
    obtain ⟨t, first, on | ⟨pend, last, -⟩⟩ := rxScan_step h hp (hl k List.mem_cons_self)
    · obtain ⟨u, rest, scan⟩ := ih (first.env.prompt h) (first.within.2.2 hp)
        (fun i hi => hl i (List.mem_cons_of_mem k hi)) once fun i hi pend => by
          have same := first.slots i fun hk => absurd (List.mem_singleton.1 hk ▸ hi) absent
          rw [isPending, same] at pend
          rw [isLast, same]
          exact unmarked i (List.mem_cons_of_mem k hi) pend
      exact ⟨u, first.cons rest, fun more => (on (l ++ more)).trans (scan more)⟩
    · exact absurd (unmarked k List.mem_cons_self pend) (by rw [last]; nofun)

theorem slotsFrom_nodup (lo hi : Nat) : (slotsFrom lo hi).Nodup := (List.nodup_finRange _).filter _

/-! The obligations. -/

theorem exec_rxdrain {s : State} (hs : Ready s) : exec .rxdrain s = .next (withResult .unit (rxDrainOp s)) :=
  answer_eq_next_iff.2 ⟨hs, rfl, rfl⟩

/-- Settles O30: the scan passes over what is not pending, and the *get* of the end-of-block slot is all it does besides. -/
theorem receiveDrainStops : Obligations.ReceiveDrainStops := by
  unfold Obligations.ReceiveDrainStops
  intro s hs h hp
  refine ⟨fun none => ?_, fun k h15 before pend last => ?_⟩
  · obtain ⟨t, ev, reads, ⟨⟨hh, hg, hu, -⟩, hdev, htr, -⟩, scan⟩ :=
      rxScan_idle Config.defaultPort (slotsFrom Config.rxFirst Config.rxLast) h.1 fun k hk =>
        none k (mem_slotsFrom.1 hk).2
    have run : rxDrainOp s = t := by rw [rxDrainOp, ← List.append_nil (slotsFrom _ _), scan]; rfl
    obtain ⟨writes, effects, -⟩ := reads.eq_nil
    exact ⟨_, ev, exec_rxdrain hs, rfl, run ▸ htr, run ▸ ⟨hh, hg, hu⟩, run ▸ hdev, writes, effects⟩
  · obtain ⟨t, ev, reads, pass, scan⟩ := rxScan_idle Config.defaultPort (slotsFrom 1 (k.num - 1)) h.1 fun l hl => by
      have := slot_num_pos k
      have := (mem_slotsFrom.1 hl).2
      exact before l (by omega)
    obtain ⟨u, ⟨ev', fetch, writes⟩, -, stop⟩ := rxScan_pending (p := Config.defaultPort) (k := k) (pass.prompt h)
      (by rw [pass.dev]; exact hp) (by rw [pass.dev]; exact pend)
    rw [pass.dev] at fetch stop
    have run : rxDrainOp s = u := by
      rw [rxDrainOp, slotsFrom_split k h15, scan, stop, if_pos (show isLast s.dev k = true from last)]
    obtain ⟨⟨hh, hg, hu, -⟩, hdev, htr, -⟩ := pass.trans fetch
    obtain ⟨w, e, -⟩ := reads.eq_nil
    refine ⟨_, ev ++ ev', exec_rxdrain hs, rfl, run ▸ htr, run ▸ ⟨hh, hg, hu⟩,
      OnlyWrites.append (v := []) ⟨w, by rw [e]; nofun⟩ writes, ?_⟩
    rw [withResult_dev, run, hdev]
    obtain ⟨globals, port, -⟩ := fetched_within .if0 k s.dev
    exact ⟨fetched_slot _ k s.dev, globals, port⟩

/-- Settles O31: the lone pending slot is served. -/
theorem receiveDrainDelivers : Obligations.ReceiveDrainDelivers := by
  unfold Obligations.ReceiveDrainDelivers
  intro s k hs h hp idle h15 lone last o lost fresh
  have acts := rxDrainOp_lone h hp h15 lone last
  obtain ⟨-, ev, run, effects, -⟩ := acts
  have keeps := rxDrainOp_rx s
  refine ⟨_, ev, exec_rxdrain hs, rfl, run.trace, ⟨keeps.handle, keeps.locks.1 (by rw [idle]; nofun), keeps.held⟩, ?_,
    fun l => ?_, ?_⟩
  · rw [effects, servedEffects]
    refine ite_congr rfl (fun _ => rfl) fun _ => ?_
    change (if (!fresh) = true then _ else _) = _
    cases fresh <;> rfl
  · rw [withResult_dev, run.dev]
    exact afterServing_slot_cases .if0 k s.dev l
  · rw [withResult_dev, run.dev]
    obtain ⟨globals, port, -⟩ := afterServing_within .if0 k s.dev
    exact ⟨globals, port⟩

/-- Settles O32: the scan reaches the boundary slot with nothing above it touched, frees the slots up to it, and goes on above
it. -/
theorem boundaryReactivation : Obligations.BoundaryReactivation := by
  unfold Obligations.BoundaryReactivation
  intro s hs h hp unmarked boundary
  have at9 : (slotOf 9).num = Config.rxSplit := by decide
  obtain ⟨pend, lost, fresh⟩ := boundary (slotOf 9) at9
  obtain ⟨t, below, scan⟩ := rxScan_through (p := Config.defaultPort) (slotsFrom 1 8) h hp
    (fun k hk => ((mem_slotsFrom.1 hk).2.trans_lt (by decide)).ne) (slotsFrom_nodup 1 8)
    fun k hk => unmarked k ((mem_slotsFrom.1 hk).2.trans (by decide))
  have same9 : slotAt t.dev (slotOf 9) = slotAt s.dev (slotOf 9) :=
    below.slots _ fun hk => absurd (mem_slotsFrom.1 hk).2 (by decide)
  obtain ⟨u, scan', serve⟩ := rxScan_served (k := slotOf 9) (below.env.prompt h) (below.within.2.2 hp)
    (by rw [isPending, same9]; exact pend) (by rw [isLast, same9]; exact unmarked _ at9.le pend)
  have within : Within .if0 s.dev u.dev := by
    rw [serve.dev]
    exact below.within.trans (afterServing_within _ _ _)
  have above := rxScan_spares (p := Config.defaultPort) (slotsFrom 10 15) (serve.env.prompt (below.env.prompt h))
    (within.2.2 hp) fun k hk => ((show 9 < 10 by decide).trans_le (mem_slotsFrom.1 hk).1).ne'
  have run : rxDrainOp s = rxScan Config.defaultPort (slotsFrom 10 15) u := by
    rw [← scan', ← scan, rxDrainOp]
    exact congrArg (rxScan _ · s) (slotsFrom_split (slotOf 9) (by decide))
  have reactivated (l : Slot) : slotAt u.dev l =
      if l.num ≤ 9 then { slotAt t.dev l with mctrl := freedControl (slotAt s.dev (slotOf 9)).mctrl }
      else slotAt t.dev l := by
    obtain ⟨slots, word⟩ := served_of_fresh (slotOf 9) lost fresh
    rw [serve.dev, afterServing_slot, same9, slots, word, if_pos at9, if_neg at9.not_lt]
    exact if_congr (mem_slotsFrom.trans (and_iff_right (slot_num_pos l))) rfl rfl
  have freed (l : Slot) (hl : l.num ≤ 9) : (slotAt (rxDrainOp s).dev l).mctrl =
      freedControl (slotAt s.dev (slotOf 9)).mctrl := by
    have low : l ∉ slotsFrom 10 15 := fun hk => by
      have := (mem_slotsFrom.1 hk).1
      omega
    rw [run, above.slots l fun hk => absurd hk low, reactivated, if_pos hl]
  have kept (l : Slot) (hl : 10 ≤ l.num) (idle : l.num ≤ 15 → isPending s.dev l = false) :
      slotAt (rxDrainOp s).dev l = slotAt s.dev l := by
    have high : l ∉ slotsFrom 1 8 := fun hk => by
      have := (mem_slotsFrom.1 hk).2
      omega
    have before : slotAt u.dev l = slotAt s.dev l := by
      rw [reactivated, if_neg (by omega), below.slots l fun hk => absurd hk high]
    rw [run, above.slots l fun hk => ?_, before]
    rw [isPending, before]
    exact idle (mem_slotsFrom.1 hk).2
  have keeps := rxDrainOp_rx s
  obtain ⟨globals, port, -⟩ := within.trans above.within
  rw [← run] at globals port
  refine ⟨_, exec_rxdrain hs, rfl, fun l hl => ?_, fun l h10 h15 idle => kept l h10 fun _ => idle,
    fun l h16 => kept l (by omega) fun h15 => by omega, keeps.handle, keeps.held, globals, port⟩
  rw [withResult_dev, freed l hl]
  exact freedControl_bits _

end Sys2Proof.Machine
end

section
/-! PROOFS. `CHIPCFG` (47_mode_controller.md rules R213, R214; 43_pool_manager.md rule R163): its writes are those of the mode,
of the 47 transfers of the pool and of the bit timing, and the pool leaves the receive slots configured and the others
invalidated. -/

namespace Sys2Proof.Machine

/-! The writes of the pool. -/

/-- A register of a port. -/
def isPortReg : Reg → Bool
  | .port _ _ => true
  | _ => false

theorem putWrites_isPortReg (p : PortId) (l : List PutStep) : ∀ x ∈ l.flatMap (putWrites p), isPortReg x.1 = true := by
  intro x hx
  obtain ⟨y, -, hx⟩ := List.mem_flatMap.1 hx
  obtain hx | hx := List.mem_append.1 hx
  · obtain ⟨z, -, rfl⟩ := List.mem_map.1 hx
    rfl
  · obtain rfl | hx := List.mem_cons.1 hx
    · rfl
    · rw [List.mem_singleton.1 hx]
      rfl

/-- Each *put* writes the command-request register once (rule R140). -/
theorem putWrites_requests (p : PortId) {l : List PutStep} (plain : Plain l) :
    ((l.flatMap (putWrites p)).filter fun x => x.1 == .port p .comreq).length = l.length := by
  induction l with
  | nil => rfl
  | cons x l ih =>
    have shadow : (x.2.2.map fun y => (Reg.port p y.1, y.2)).filter (fun x => x.1 == .port p .comreq) = [] := by
      refine List.filter_eq_nil_iff.2 fun z hz => ?_
      obtain ⟨y, hy, rfl⟩ := List.mem_map.1 hz
      simpa using plain x List.mem_cons_self y hy
    have one : ((putWrites p x).filter fun x => x.1 == .port p .comreq) = [(.port p .comreq, slotWord x.1)] := by
      rw [putWrites, List.filter_append, shadow]
      simp
    rw [List.flatMap_cons, List.filter_append, one, List.length_append, ih fun y hy => plain y (List.mem_cons_of_mem x hy)]
    exact Nat.add_comm _ _

theorem poolSteps_length : poolSteps.length = 47 := by decide

/-! The slots the pool leaves (rules R160, R163). -/

/-- A slot that `rxcfgSteps` configures, and one that it leaves. -/
theorem rxcfgSteps_slot_mem (p : PortId) (mcont : Word) {l : List Slot} (d : Device) {k : Slot} (hk : k ∈ l) :
    let o := slotAt (putAll p (rxcfgSteps mcont l) d) k
    o.mask = 0 ∧ o.arb = arbMsgval ∧ o.mctrl = mcont := by
  have slot := rxcfgSteps_slot p mcont l d k
  simp only [hk, if_true] at slot
  exact slot

theorem rxcfgSteps_slot_not_mem (p : PortId) (mcont : Word) {l : List Slot} (d : Device) {k : Slot} (hk : k ∉ l) :
    slotAt (putAll p (rxcfgSteps mcont l) d) k = slotAt d k := by
  have slot := rxcfgSteps_slot p mcont l d k
  simp only [hk, if_false] at slot
  exact slot

/-- The pool in its three parts (rules R163, R213). -/
theorem putAll_poolSteps (p : PortId) (d : Device) :
    putAll p poolSteps d = putAll p (rxcfgSteps mcRxLast (slotsFrom 15 15)) (putAll p (rxcfgSteps mcRx (slotsFrom 1 14))
      (putAll p (invalSteps (slotsFrom 1 32)) d)) := by
  rw [poolSteps, putAll_append, putAll_append]
  rfl

/-- The receive slots after the configuration of the pool. -/
theorem poolSteps_slot_rx (p : PortId) (d : Device) {k : Slot} (hk : k.num ≤ 15) :
    let o := slotAt (putAll p poolSteps d) k
    o.arb = arbMsgval ∧ o.mask = 0 ∧ o.mctrl = if k.num = 15 then mcRxLast else mcRx := by
  intro o
  have pos := slot_num_pos k
  have split := congrArg (slotAt · k) (putAll_poolSteps p d)
  by_cases h15 : k.num = 15
  · obtain ⟨mask, arb, mctrl⟩ := rxcfgSteps_slot_mem p mcRxLast (putAll p (rxcfgSteps mcRx (slotsFrom 1 14))
      (putAll p (invalSteps (slotsFrom 1 32)) d)) (mem_slotsFrom.2 ⟨h15.ge, h15.le⟩)
    rw [show o = _ from split, if_pos h15]
    exact ⟨arb, mask, mctrl⟩
  · obtain ⟨mask, arb, mctrl⟩ := rxcfgSteps_slot_mem p mcRx (putAll p (invalSteps (slotsFrom 1 32)) d)
      (mem_slotsFrom.2 ⟨pos, show k.num ≤ 14 by omega⟩)
    have later : k ∉ slotsFrom 15 15 := fun hm => h15 ((mem_slotsFrom.1 hm).2.antisymm (mem_slotsFrom.1 hm).1)
    rw [show o = _ from split.trans (rxcfgSteps_slot_not_mem _ _ _ later), if_neg h15]
    exact ⟨arb, mask, mctrl⟩

/-- The transmit slots and slot 32 are left invalidated. -/
theorem poolSteps_slot_tx (p : PortId) (d : Device) {k : Slot} (hk : 16 ≤ k.num) :
    slotAt (putAll p poolSteps d) k = { slotAt d k with arb := 0, mctrl := 0 } := by
  have low (lo hi : Nat) (h : hi ≤ 15) : k ∉ slotsFrom lo hi := fun hm => by
    have := (mem_slotsFrom.1 hm).2
    omega
  have all : k ∈ slotsFrom 1 32 := mem_slotsFrom.2 ⟨slot_num_pos k, k.isLt⟩
  rw [putAll_poolSteps, rxcfgSteps_slot_not_mem _ _ _ (low _ _ le_rfl),
    rxcfgSteps_slot_not_mem _ _ _ (low _ _ (by decide)), invalSteps_slot, if_pos all]

/-- The writes of `CHIPCFG` but for those of the transfers (rules R213, R214). -/
theorem chipCfgWrites_globals (m : TestMode) (b : BitTiming) :
    (chipCfgWrites m b).filter (fun x => !isPortReg x.1) =
      (if m = .none then [(.ctrl, 0x0001#16)] else [(.ctrl, 0x0081#16), (.test, testBits m)]) ++
        [(.sts, 0x0007#16), (.ctrl, 0x0041#16 ||| testFlag m), (.btr, btrOf b), (.brpext, brpextOf b),
          (.ctrl, 0x0001#16 ||| testFlag m), (.ctrl, testFlag m)] := by
  have pool : (poolSteps.flatMap (putWrites Config.defaultPort)).filter (fun x => !isPortReg x.1) = [] :=
    List.filter_eq_nil_iff.2 fun x hx => by simp [putWrites_isPortReg _ _ x hx]
  rw [chipCfgWrites, List.filter_append, List.filter_append, pool, List.append_nil]
  cases m <;> rfl

/-- The 47 transfers of `CHIPCFG` (rule R213). -/
theorem chipCfgWrites_requests (m : TestMode) (b : BitTiming) :
    ((chipCfgWrites m b).filter fun x => x.1 == .port .if0 .comreq).length = 47 := by
  have pool : ((poolSteps.flatMap (putWrites Config.defaultPort)).filter fun x => x.1 == .port .if0 .comreq).length = 47 :=
    (putWrites_requests Config.defaultPort poolSteps_plain).trans poolSteps_length
  rw [chipCfgWrites, List.filter_append, List.filter_append, List.length_append, List.length_append, pool]
  cases m <;> rfl

/-- Taking the bit timing changes at most the count of free values. -/
theorem timingToApply_keeps (s : State) :
    (timingToApply s).2.h = s.h ∧ (timingToApply s).2.dev = s.dev ∧ (timingToApply s).2.trace = s.trace ∧
      (Prompt s.env → Prompt (timingToApply s).2.env) := by
  obtain h | h := (timingToApply_spec s).2 <;> rw [h]
  · exact ⟨rfl, rfl, rfl, id⟩
  · exact ⟨rfl, rfl, rfl, id⟩

/-- Settles O55: the writes and the device of `chipCfgOp_exact`, with the writes of the pool told apart. -/
theorem chipConfiguration : Obligations.ChipConfiguration := by
  unfold Obligations.ChipConfiguration
  intro s hs h hp tm bits
  have mode : tm = testFlag s.h.testMode ∧ bits = testBits s.h.testMode := by
    refine ⟨rfl, ?_⟩
    simp only [bits]
    cases s.h.testMode <;> rfl
  obtain ⟨handle, dev, trace, prompt⟩ := timingToApply_keeps s
  obtain ⟨ev, moves, writes, -⟩ := chipCfgOp_exact (prompt h) (by rwa [dev]) (timingToApply s).1
  obtain ⟨hh, hg, hu, -⟩ := (timingToApply_block s).trans moves.block
  obtain ⟨-, hdev, htr, -⟩ := moves
  rw [handle, dev] at hdev
  rw [handle] at writes
  rw [trace] at htr
  obtain ⟨-, -, errcnt, -, -, -, cause⟩ := putAll_globals .if0 poolSteps s.dev
  refine ⟨(timingToApply s).1, fun c hc => by rw [(timingToApply_spec s).1 c hc], _, ev,
    answer_eq_next_iff.2 ⟨hs, rfl, rfl⟩, rfl, htr, ⟨hh, hg, hu⟩, ?_, ?_, writes.2, ?_⟩
  · rw [writes.1, mode.1, mode.2, ← chipCfgWrites_globals]
    exact List.filter_congr fun x _ => by
      obtain ⟨r, v⟩ := x
      cases r <;> rfl
  · rw [writes.1, chipCfgWrites_requests]
  · rw [withResult_dev, hdev, mode.1, mode.2]
    exact ⟨rfl, rfl, rfl, rfl, rfl, errcnt, cause, fun k hk => poolSteps_slot_rx .if0 s.dev hk,
      fun k hk => poolSteps_slot_tx .if0 s.dev hk, putAll_otherPort .if0 poolSteps s.dev .if1 nofun⟩

end Sys2Proof.Machine
end

section
/-! PROOFS. A pass that serves the pool (44_interrupt_pipeline.md rules R180 to R187), with nothing interleaved: its entry, its
branch and its exit one after another, and the branches on a transmit and on a receive value. -/

namespace Sys2Proof.Machine

/-! The entry and the exit of a pass. -/

/-- `Acts` with no word about the global locks and about which inputs of the environment are used up. -/
structure ActsStill (s t : State) (d : Device) (fx : List Effect) (lk : List Event) : Prop where
  still : Still t.env
  dev : t.dev = d
  run : ∃ ev, t.trace = s.trace ++ ev ∧ effectsBarDelays ev = fx ∧ lockEvents ev = lk

theorem Acts.still {s t : State} {d : Device} {fx : List Effect} {lk : List Event} (a : Acts s t d fx lk)
    (h : Still s.env) : ActsStill s t d fx lk := by
  obtain ⟨-, ev, r, out⟩ := a
  exact ⟨r.env.still h, r.dev, ev, r.trace, out⟩

theorem ActsStill.trans {s t u : State} {d e : Device} {fx gx : List Effect} {lk mk : List Event}
    (a : ActsStill s t d fx lk) (b : ActsStill t u e gx mk) : ActsStill s u e (fx ++ gx) (lk ++ mk) := by
  obtain ⟨-, -, ev, ta, rfl, rfl⟩ := a
  obtain ⟨still, dev, ev', tb, rfl, rfl⟩ := b
  refine ⟨still, dev, ev ++ ev', ?_, effectsBarDelays_append _ _, lockEvents_append _ _⟩
  rw [tb, ta, List.append_assoc]

/-- The entry of a pass clears the enables and takes the controller lock (rules R180, R226). -/
theorem enterPass_acts {s : State} (h : Still s.env) :
    Acts s (enterPass s) { s.dev with ctrl := s.dev.ctrl &&& 0xFFF1#16 } [] [.acquire .controller] := by
  obtain ⟨block, dev, trace, env⟩ := ieAll_moves h false
  refine ⟨congrArg (holdGlobal · (.acquire .controller)) block.2.1,
    [.read .ctrl s.dev.ctrl, .write .ctrl (clearBits s.dev.ctrl ctAllie), .acquire .controller], ⟨dev, ?_, env⟩, rfl, rfl⟩
  exact (congrArg (· ++ [Event.acquire .controller]) trace).trans (List.append_assoc _ _ _)

/-- The lock operations of the exit: what the pass has taken, in reverse (rule R180). -/
def exitLocks (g : Globals) : List Event :=
  (if g.dispatch = .pass then [.release .socket, .release .dispatch] else []) ++ [.release .controller]

/-- The enables after the exit (rule R185). -/
def exitCtrl (st : OpState) (c : Word) : Word := if st = .busOff then c else c ||| 0x000E#16

theorem exitPass_acts {s : State} (h : Still s.env) :
    ActsStill s (exitPass s) { s.dev with ctrl := exitCtrl s.h.state s.dev.ctrl } [] (exitLocks s.g) := by
  let t := release .controller (releaseDeliveryLocks (setPhase .exiting s))
  have freed : t.trace = s.trace ++ exitLocks s.g ∧ t.env = s.env ∧ t.dev = s.dev ∧ t.h.state = s.h.state := by
    simp only [t, releaseDeliveryLocks, exitLocks, setPhase_g, beq_iff_eq]
    split
    · exact ⟨by simp [release, withLock], rfl, rfl, rfl⟩
    · exact ⟨by simp [release, withLock], rfl, rfl, rfl⟩
  obtain ⟨trace, env, dev, state⟩ := freed
  have free : ActsStill s t s.dev [] (exitLocks s.g) := by
    refine ⟨env ▸ h, dev, _, trace, ?_, ?_⟩ <;> unfold exitLocks <;> split <;> rfl
  have exit : exitPass s = setPhase .idle (if t.h.state == .busOff then t else ieAll true t) := rfl
  have enable : ActsStill t (exitPass s) { s.dev with ctrl := exitCtrl s.h.state s.dev.ctrl } [] [] := by
    rw [exit, state, exitCtrl]
    by_cases off : s.h.state = .busOff
    · rw [if_pos off, off]
      exact ⟨free.still, dev, [], (List.append_nil _).symm, rfl, rfl⟩
    · rw [if_neg off, if_neg (by simpa using off), ← dev]
      obtain ⟨-, edev, etrace, eenv⟩ := ieAll_moves free.still true
      exact ⟨eenv.still free.still, edev, _, etrace, rfl, rfl⟩
  have all := free.trans enable
  rwa [List.append_nil, List.append_nil] at all

/-! A pass of a given value. -/

/-- The state in which the pass of the value `v` makes its branch (rules R121, R180). -/
def passStart (v : Word) (s : State) : State := branchStart (namingInt (some v) s)

theorem passWith_eq_exit {v : Word} {s : State} (h : Still s.env) (hv : v ≠ 0#16) :
    passWith v s = withResult .handled (exitPass (passBranch v (passStart v s))) := by
  simp only [passWith_eq, passOp, readReg_int_named h, passStart, branchStart, beq_iff_eq, if_neg hv]

/-- What holds where the branch begins. -/
theorem passStart_spec {s : State} (h : Still s.env) (v : Word) :
    EnvUsed (namingInt none s).env (passStart v s).env ∧
      ActsStill s (passStart v s) { s.dev with ctrl := s.dev.ctrl &&& 0xFFF1#16 } [] [.acquire .controller] ∧
      (passStart v s).h = { s.h with phase := .locked, lock := .pass } ∧ (passStart v s).g = s.g ∧
      (passStart v s).held = s.held := by
  obtain ⟨hh, hg, hu, -⟩ := enterPass_spec (logEvent (.read .int v) (namingInt none s))
  obtain ⟨-, ev, ⟨dev, trace, env⟩, effects, locks⟩ :=
    enterPass_acts (s := logEvent (.read .int v) (namingInt none s)) h
  rw [passStart, branchStart, readReg_int_named h]
  refine ⟨env, ⟨env.still h, dev, .read .int v :: ev, ?_, effects, locks⟩, hh, hg, hu⟩
  rw [trace, logEvent_trace, List.append_assoc]
  rfl

section
variable {v : Word} {s t : State} (h : Still s.env) (hv : v ≠ 0#16) (branched : passBranch v (passStart v s) = t)
include h hv branched

/-- A pass: its entry, its branch, its exit. -/
theorem passWith_acts {d : Device} {fx : List Effect} {lk : List Event} (branch : ActsStill (passStart v s) t d fx lk) :
    ActsStill s (passWith v s) { d with ctrl := exitCtrl t.h.state d.ctrl } fx
      (.acquire .controller :: lk ++ exitLocks t.g) := by
  obtain ⟨-, entry, -⟩ := passStart_spec h v
  have exit := exitPass_acts branch.still
  rw [branch.dev] at exit
  have all := (entry.trans branch).trans exit
  rw [List.nil_append, List.append_nil] at all
  rw [passWith_eq_exit h hv, branched]
  exact ⟨all.still, all.dev, all.run⟩

/-- What a pass leaves of the block: the handle and the holdings its branch leaves, the phase and the lock as they were
(rule R180). -/
theorem passWith_block (between : BetweenPasses s) :
    (passWith v s).result = .handled ∧ BetweenPasses (passWith v s) ∧
      (passWith v s).h = { t.h with phase := s.h.phase, lock := s.h.lock } ∧ (passWith v s).held = t.held := by
  obtain ⟨handle, -, held, -⟩ := exitPass_spec t
  refine ⟨?_, passOp_betweenPasses between, ?_⟩
  · rw [passWith_result, if_neg hv]
  · obtain ⟨phase, lock, -⟩ := between
    rw [passWith_eq_exit h hv, branched, phase, lock]
    exact ⟨handle, held⟩

end

/-- The enables set or left clear at the exit, after the entry cleared them (rules R180, R185). -/
theorem exitCtrl_masked (st : OpState) (c : Word) :
    exitCtrl st (c &&& 0xFFF1#16) = if st = .busOff then c &&& 0xFFF1#16 else c ||| 0x000E#16 := by
  have set : (c &&& 0xFFF1#16) ||| 0x000E#16 = c ||| 0x000E#16 := by
    have mask : (0xFFF1#16 : Word) = ~~~0x000E#16 := by decide
    have absorb : ∀ a b : Bool, (a && !b || b) = (a || b) := by decide
    ext i
    simp only [mask, BitVec.getElem_or, BitVec.getElem_and, BitVec.getElem_not]
    exact absorb _ _
  rw [exitCtrl, set]

/-- Where the branch keeps the global registers, a pass changes the enables alone of them (rules R180, R185). -/
theorem exitCtrl_globals {d e : Device} (st : OpState) (kept : SameGlobals { d with ctrl := d.ctrl &&& 0xFFF1#16 } e) :
    SameGlobals { d with ctrl := if st = .busOff then d.ctrl &&& 0xFFF1#16 else d.ctrl ||| 0x000E#16 }
      { e with ctrl := exitCtrl st e.ctrl } := by
  obtain ⟨ctrl, rest⟩ := kept
  exact ⟨by rw [ctrl, exitCtrl_masked], rest⟩

/-- The class of the value that names a slot. -/
theorem intIn_setWidth {lo hi : Nat} {x : BitVec 6} (low : lo ≤ x.toNat) (high : x.toNat ≤ hi) :
    intIn lo hi (x.setWidth 16) = true :=
  decide_eq_true (by rw [BitVec.toNat_setWidth_of_le (by decide)]; exact ⟨low, high⟩)

/-! A pass on a transmit value. -/

theorem exec_intTxobj {x : BitVec 6} {s : State} (hs : Ready s) (hp : PassReady s)
    (hx : intIn Config.txFirst Config.txLast (x.setWidth 16) = true) :
    exec (.intTxobj x) s = .next (passWith (x.setWidth 16) s) :=
  answer_eq_next_iff.2 ⟨hs, by simp [hx, refuseIf, (passRefusal_eq_none_iff s).2 hp], rfl⟩

theorem drawLoopback_still {s : State} (h : Still s.env) :
    (drawLoopback s).1 = s.env.loopback.headD false ∧ Still (drawLoopback s).2.env ∧ (drawLoopback s).2.dev = s.dev ∧
      (drawLoopback s).2.trace = s.trace := by
  cases samples : s.env.loopback with
  | nil =>
    rw [drawLoopback, samples, h.1]
    exact ⟨rfl, h, rfl, rfl⟩
  | cons b rest =>
    rw [drawLoopback, samples]
    exact ⟨rfl, h, rfl, rfl⟩

/-- The loopback condition: one `LoopbackDeliver` exactly if it is pending (rule R183, log 2). -/
theorem loopbackOp_acts {s : State} (h : Still s.env) :
    ∃ lk, ActsStill s (loopbackOp s) s.dev (if s.env.loopback.headD false then [.loopbackDeliver] else []) lk := by
  obtain ⟨sample, still, dev, trace⟩ := drawLoopback_still h
  have draw : ActsStill s (drawLoopback s).2 s.dev [] [] :=
    ⟨still, dev, [], by rw [trace, List.append_nil], rfl, rfl⟩
  rw [← sample]
  simp only [loopbackOp]
  split
  · have locks := takeDeliveryLocks_acts (drawLoopback s).2
    have out := emit_acts (e := .loopbackDeliver) nofun (takeDeliveryLocks (drawLoopback s).2)
    rw [locks.dev, dev] at out
    exact ⟨_, draw.trans ((locks.trans out).still still)⟩
  · exact ⟨_, draw⟩

/-- Poll delays apart, the effects of a record count a loopback delivery as often. -/
theorem count_loopbackDeliver (ev : List Event) :
    (effectsOf ev).count .loopbackDeliver = (effectsBarDelays ev).count .loopbackDeliver :=
  (List.count_filter (by decide)).symm

theorem count_releases_loopback (n : Nat) (b : Bool) :
    (List.replicate n Effect.tacRelease ++ if b then [Effect.loopbackDeliver] else []).count Effect.loopbackDeliver =
      if b then 1 else 0 := by
  have none : (List.replicate n Effect.tacRelease).count Effect.loopbackDeliver = 0 :=
    List.count_eq_zero.2 fun h => absurd (List.eq_of_mem_replicate h) nofun
  rw [List.count_append, none, Nat.zero_add]
  cases b <;> rfl

/-- The branch of a pass on a transmit value, with the first `j` of at most 16 frames in flight sent and the next one, if
any, still requesting (rules R166, R183). -/
theorem txBranch_sent {j : Nat} {s : State} (h : Prompt s.env) (hp : PortIdle s.dev .if0)
    (h16 : (s.h.txNext - s.h.txEcho).toNat ≤ 16) (hj : j ≤ (s.h.txNext - s.h.txEcho).toNat)
    (sent : ∀ i, i < j → (slotAt s.dev (txSlot (s.h.txEcho + BitVec.ofNat 32 i))).mctrl.getLsbD 8 = false)
    (stall : j < (s.h.txNext - s.h.txEcho).toNat →
      (slotAt s.dev (txSlot (s.h.txEcho + BitVec.ofNat 32 j))).mctrl.getLsbD 8 = true) :
    (loopbackOp (txDrainOp s)).h =
        { s.h with txEcho := s.h.txEcho + BitVec.ofNat 32 j, tac := (loopbackOp (txDrainOp s)).h.tac } ∧
      (loopbackOp (txDrainOp s)).held = s.held ∧
      ∃ n lk, ActsStill s (loopbackOp (txDrainOp s)) (putAll .if0 (invalSteps (ringSlots s.h.txEcho j)) s.dev)
        (List.replicate n .tacRelease ++ if s.env.loopback.headD false then [.loopbackDeliver] else []) lk := by
  obtain ⟨echo, n, drained⟩ := txDrainOp_sent h hp h16 hj sent stall
  have loop := loopbackOp_rx (txDrainOp s)
  obtain ⟨-, -, -, samples, -⟩ := drained.env
  obtain ⟨lk, delivered⟩ := loopbackOp_acts (drained.env.still h.1)
  rw [drained.dev, samples] at delivered
  exact ⟨by rw [loop.handle]; exact echo, loop.held.trans (txDrainOp_tx s).held, n, _,
    (drained.still h.1).trans delivered⟩

/-- Settles O40: the branch drains from the head of the ring and samples the loopback condition, between the entry and the
exit of the pass. -/
theorem passOnTransmit : Obligations.PassOnTransmit := by
  unfold Obligations.PassOnTransmit
  intro x s j hs hr hb h hp low high h16 hj sent stall
  have named : intIn Config.txFirst Config.txLast (x.setWidth 16) = true := intIn_setWidth low high
  have value : (x.setWidth 16 : Word) ≠ 0#16 := intIn_ne named (by decide)
  obtain ⟨used, entry, handle, -, held⟩ := passStart_spec h.1 (x.setWidth 16)
  have served := passBranch_tx named (passStart (x.setWidth 16) s)
  obtain ⟨result, between, after, kept⟩ := passWith_block h.1 value served hb
  have next : (passStart (x.setWidth 16) s).h.txNext = s.h.txNext := by rw [handle]
  have echo : (passStart (x.setWidth 16) s).h.txEcho = s.h.txEcho := by rw [handle]
  have samples : (passStart (x.setWidth 16) s).env.loopback = s.env.loopback := by
    obtain ⟨-, -, -, samples, -⟩ := used
    exact samples
  have branch := txBranch_sent (j := j) (used.prompt h) (by rw [entry.dev]; exact hp)
    (by rwa [next, echo]) (by rwa [next, echo]) (by rwa [echo, entry.dev]) (by rwa [next, echo, entry.dev])
  rw [echo, entry.dev, samples] at branch
  obtain ⟨drained, same, n, lk, branch⟩ := branch
  obtain ⟨-, dev, ev, trace, effects, -⟩ := passWith_acts h.1 value served branch
  have state : (loopbackOp (txDrainOp (passStart (x.setWidth 16) s))).h.state = s.h.state := by rw [drained, handle]
  rw [state] at dev
  refine ⟨_, ev, exec_intTxobj hs hr named, result, between, trace, ?_, fun k => ?_, ?_,
    kept.trans (same.trans held), ?_⟩
  · rw [after, drained, handle]
  · rw [dev]
    exact ringSlots_slot .if0 s.h.txEcho j _ k
  · rw [count_loopbackDeliver, effects, count_releases_loopback]
  · rw [dev]
    exact ⟨putAll_otherPort .if0 _ _, exitCtrl_globals _ (putAll_globals .if0 _ _)⟩

/-! A pass on a receive value. -/

theorem exec_intRxobj {x : BitVec 6} {s : State} (hs : Ready s) (hp : PassReady s)
    (hx : intIn Config.rxFirst Config.rxLast (x.setWidth 16) = true) :
    exec (.intRxobj x) s = .next (passWith (x.setWidth 16) s) :=
  answer_eq_next_iff.2 ⟨hs, by simp [hx, refuseIf, (passRefusal_eq_none_iff s).2 hp], rfl⟩

/-- Serving a frame in a slot other than the boundary slot rewrites that slot's control word (rules R168, R169, R171). -/
theorem afterServing_slot_frame (p : PortId) {k : Slot} (h9 : k.num ≠ 9) (d : Device)
    (lost : (slotAt d k).mctrl.getLsbD 14 = false) (fresh : (slotAt d k).mctrl.getLsbD 15 = true) (l : Slot) :
    slotAt (afterServing p k d) l =
      if l = k then
        { slotAt d k with mctrl := (slotAt d k).mctrl &&& if k.num < 9 then 0x9FFF#16 else 0x1FFF#16 }
      else slotAt d l := by
  refine (afterServing_slot_cases p k d l).trans ?_
  rw [lost, fresh, if_neg Bool.false_ne_true, if_neg (Ne.symm Bool.false_ne_true), if_neg h9]
  split <;> rfl

/-- Settles O41: the branch serves the lone pending slot, and its delivery takes the two delivery locks, between the entry and
the exit of the pass. -/
theorem passOnReceive : Obligations.PassOnReceive := by
  unfold Obligations.PassOnReceive
  intro x s k hs hr hb h hp low high h15 h9 lone last lost fresh o
  have named : intIn Config.rxFirst Config.rxLast (x.setWidth 16) = true := intIn_setWidth low high
  have value : (x.setWidth 16 : Word) ≠ 0#16 := intIn_ne named (by decide)
  obtain ⟨used, entry, handle, globals, held⟩ := passStart_spec h.1 (x.setWidth 16)
  have served := passBranch_rx named (passStart (x.setWidth 16) s)
  obtain ⟨result, between, after, kept⟩ := passWith_block h.1 value served hb
  have locks : deliveryLocks (passStart (x.setWidth 16) s) = [.acquire .dispatch, .acquire .socket] := by
    rw [deliveryLocks, handle, globals]
    exact if_pos (by simpa using hb.2.2.1)
  have branch := rxDrainOp_lone (used.prompt h) (by rw [entry.dev]; exact hp) h15 (by rw [entry.dev]; exact lone)
    (by rw [entry.dev]; exact last)
  have effects : servedEffects o.mctrl (frameAt s.dev k) = [.deliver (.data (frameAt s.dev k))] := by
    rw [servedEffects, lost, fresh]
    rfl
  rw [entry.dev, locks] at branch
  change Acts _ _ _ (servedEffects o.mctrl (frameAt s.dev k))
    (if o.mctrl.getLsbD 14 || o.mctrl.getLsbD 15 then _ else _) at branch
  rw [effects, if_pos (by rw [fresh, Bool.or_true])] at branch
  have taken : (rxDrainOp (passStart (x.setWidth 16) s)).g.dispatch = .pass := by
    rw [branch.globals]
    rfl
  have same := rxDrainOp_rx (passStart (x.setWidth 16) s)
  have state : (rxDrainOp (passStart (x.setWidth 16) s)).h.state = s.h.state := by rw [same.handle, handle]
  obtain ⟨-, dev, ev, trace, delivered, order⟩ := passWith_acts h.1 value served (branch.still (used.still h.1))
  rw [state] at dev
  rw [exitLocks, if_pos taken] at order
  have slots (l : Slot) : slotAt (passWith (x.setWidth 16) s).dev l =
      if l = k then { o with mctrl := o.mctrl &&& if k.num < 9 then 0x9FFF#16 else 0x1FFF#16 } else slotAt s.dev l := by
    rw [dev]
    exact afterServing_slot_frame .if0 h9 { s.dev with ctrl := s.dev.ctrl &&& 0xFFF1#16 } lost fresh l
  obtain ⟨registers, port, -⟩ := afterServing_within .if0 k { s.dev with ctrl := s.dev.ctrl &&& 0xFFF1#16 }
  refine ⟨_, ev, exec_intRxobj hs hr named, result, between, trace, ?_, kept.trans (same.held.trans held), delivered,
    order, ?_, fun l hl => ?_, ?_⟩
  · rw [after, same.handle, handle]
  · rw [slots, if_pos rfl]
  · rw [slots, if_neg hl]
  · rw [dev]
    exact ⟨port, exitCtrl_globals _ registers⟩

end Sys2Proof.Machine
end

section
/-! PROOFS. The passes that serve no slot (44_interrupt_pipeline.md rules R180 to R185, 45_bus_state_machine.md rules R190 to
R197): one that is not ours, one whose value has no branch, and one on a status change, with nothing interleaved. -/

namespace Sys2Proof.Machine

/-! A pass that is not ours (rule R181). -/

/-- A pass that reads 0 ends with that read. -/
theorem passOp_of_zero {s : State} (zero : (readReg .int s).1 = 0#16) :
    passOp s = withResult .notHandled (readReg .int s).2 := by
  simp only [passOp, zero, beq_self_eq_true, if_true]

/-- Settles O35: the pass is its read of `INT`, which in a still environment leaves the device. -/
theorem passNotOurs : Obligations.PassNotOurs := by
  unfold Obligations.PassNotOurs
  intro s hs hp
  refine ⟨fun h next shown => ?_, passWith 0#16 s, answer_pass hs hp _, passWith_result 0#16 s, ?_⟩
  · have read := readReg_int_shown h next
    rw [shown] at read
    have pass := passOp_of_zero (congrArg Prod.fst read)
    rw [read] at pass
    exact (answer_pass hs hp _).trans (congrArg Host.Outcome.next pass)
  · have zero : (readReg .int (namingInt (some 0#16) s)).1 = 0#16 := readReg_int_given rfl
    have pass := passOp_of_zero zero
    rw [← passWith_eq] at pass
    rw [pass, withResult_trace, readReg_trace, zero]
    refine ⟨rfl, ⟨readReg_h _ _, readReg_g _ _, readReg_held _ _⟩, fun h => ?_⟩
    rw [readReg_int_named h]
    rfl

/-! A pass of no branch (rule R184). -/

/-- The record of the entry of a pass (rules R180, R226). -/
theorem enterPass_runs {s : State} (h : Still s.env) :
    Runs s (enterPass s) { s.dev with ctrl := s.dev.ctrl &&& 0xFFF1#16 }
      [.read .ctrl s.dev.ctrl, .write .ctrl (s.dev.ctrl &&& 0xFFF1#16), .acquire .controller] := by
  obtain ⟨-, dev, trace, env⟩ := ieAll_moves h false
  exact ⟨dev, (congrArg (· ++ [Event.acquire .controller]) trace).trans (List.append_assoc _ _ _), env⟩

/-- The state in which the exit comes to the enables: past the release of every lock the pass has taken (rule R180). -/
def lockFreed (s : State) : State := release .controller (releaseDeliveryLocks (setPhase .exiting s))

/-- Releasing the locks leaves the operating state and the device. -/
theorem lockFreed_spec (s : State) : (lockFreed s).h.state = s.h.state ∧ (lockFreed s).dev = s.dev := by
  simp only [lockFreed, releaseDeliveryLocks]
  split <;> exact ⟨rfl, rfl⟩

/-- A pass that has taken no delivery lock frees the controller lock alone. -/
theorem lockFreed_of_free {s : State} (free : s.g.dispatch ≠ .pass) :
    lockFreed s = release .controller (setPhase .exiting s) := by
  simp only [lockFreed, releaseDeliveryLocks, setPhase_g, beq_iff_eq, if_neg free]

/-- The exit of a pass by the state it leaves (rule R185). -/
theorem exitPass_eq (s : State) :
    exitPass s = setPhase .idle (if s.h.state = .busOff then lockFreed s else ieAll true (lockFreed s)) := by
  simp only [← (lockFreed_spec s).1, ← beq_iff_eq (b := OpState.busOff)]
  rfl

/-- The record of the exit of a pass that has taken no delivery lock (rules R180, R185). -/
theorem exitPass_runs {s : State} (h : Still s.env) (free : s.g.dispatch ≠ .pass) :
    Runs s (exitPass s) { s.dev with ctrl := exitCtrl s.h.state s.dev.ctrl }
      (.release .controller ::
        if s.h.state = .busOff then [] else [.read .ctrl s.dev.ctrl, .write .ctrl (s.dev.ctrl ||| 0x000E#16)]) := by
  rw [exitPass_eq, lockFreed_of_free free, exitCtrl]
  split
  · exact ⟨rfl, rfl, .refl _⟩
  · obtain ⟨-, dev, trace, env⟩ := ieAll_moves (s := release .controller (setPhase .exiting s)) h true
    exact ⟨dev, trace.trans (List.append_assoc _ _ _), env⟩

/-- A value that is neither a slot index of a branch, nor 0, nor the sentinel (rule R105). -/
theorem intOtherOk_of_ge {v : Word} (high : 32 ≤ v.toNat) (value : v.toNat ≠ 0x8000) : intOtherOk v = true := by
  have zero : v ≠ 0#16 := by rintro rfl; exact absurd high (by decide)
  have sentinel : v ≠ Config.statusSentinel := by rintro rfl; exact value rfl
  have rx : ¬v.toNat ≤ 15 := by omega
  have tx : ¬v.toNat ≤ 31 := by omega
  simp [intOtherOk, intIn, zero, sentinel, rx, tx, Config.rxLast, Config.txLast, Config.txFirst, Config.txNum]

/-- Settles O38: with no branch a pass is its read of `INT`, its entry and its exit. -/
theorem passOfNoBranch : Obligations.PassOfNoBranch := by
  unfold Obligations.PassOfNoBranch
  intro v s hs hp between h high value off
  have other := intOtherOk_of_ge high value
  have nonzero : v ≠ 0#16 := by rintro rfl; exact absurd high (by decide)
  have branched := passBranch_other other (passStart v s)
  obtain ⟨result, -, after, held⟩ := passWith_block h nonzero branched between
  obtain ⟨-, start, handle, globals, kept⟩ := passStart_spec h v
  have free : (passStart v s).g.dispatch ≠ .pass := by
    obtain ⟨-, -, dispatch, -⟩ := between
    rwa [globals]
  have entry := enterPass_runs (s := logEvent (.read .int v) (namingInt none s)) h
  have exit := exitPass_runs start.still free
  have pass := passWith_eq_exit h nonzero
  rw [branched] at pass
  have begun : passStart v s = enterPass (logEvent (.read .int v) (namingInt none s)) := by
    rw [passStart, branchStart, readReg_int_named h]
  obtain ⟨-, globals', -⟩ := exitPass_spec (passStart v s)
  rw [if_neg free] at globals'
  refine ⟨passWith v s, ?_, result, ⟨?_, ?_, held.trans kept⟩, ?_, ?_⟩
  · rw [← decodeInt_other other, exec_decodeInt, answer_pass hs hp]
  · rw [after, handle]
  · rw [pass, withResult_g, globals', globals]
  · rw [pass, withResult_trace, exit.trace, start.dev, handle, begun, entry.trace]
    simp only [logEvent_trace, List.append_assoc]
    rfl
  · rw [pass, withResult_dev, exit.dev, start.dev, handle]
    rfl

/-! `STCHG` in any phase. In a pass it takes the delivery locks besides, which changes nothing for the device. -/

/-- With nothing interleaved the device that a part of an operation leaves is given by the device alone, whatever the phase
and the locks. -/
def ByDevice (f : State → State) : Prop :=
  ∃ e : Device → Device, ∀ s, Still s.env → Still (f s).env ∧ (f s).dev = e s.dev ∧ ∃ ev, (f s).trace = s.trace ++ ev

theorem ByDevice.comp {f g : State → State} (b : ByDevice g) (a : ByDevice f) : ByDevice (g ∘ f) := by
  obtain ⟨e, a⟩ := a
  obtain ⟨k, b⟩ := b
  refine ⟨k ∘ e, fun s h => ?_⟩
  obtain ⟨ht, dev, ev, trace⟩ := a s h
  obtain ⟨hu, dev', ev', trace'⟩ := b (f s) ht
  exact ⟨hu, dev'.trans (congrArg k dev), ev ++ ev', by rw [Function.comp, trace', trace, List.append_assoc]⟩

/-- A part that leaves the device and the environment. -/
theorem ByDevice.of_kept {f : State → State}
    (kept : ∀ s, Still s.env → (f s).env = s.env ∧ (f s).dev = s.dev ∧ ∃ ev, (f s).trace = s.trace ++ ev) : ByDevice f := by
  refine ⟨id, fun s h => ?_⟩
  obtain ⟨env, rest⟩ := kept s h
  exact ⟨env ▸ h, rest⟩

theorem ByDevice.of_moves {f : State → State} {e : Device → Device}
    (moves : ∀ s, Still s.env → ∃ ev, Moves s (f s) (e s.dev) ev) : ByDevice f := by
  refine ⟨e, fun s h => ?_⟩
  obtain ⟨ev, m⟩ := moves s h
  exact ⟨m.env.still h, m.dev, ev, m.trace⟩

theorem ByDevice.runIf {f : State → State} (a : ByDevice f) (b : Bool) : ByDevice (runIf b f) := by
  cases b
  · exact .of_kept fun _ _ => ⟨rfl, rfl, [], (List.append_nil _).symm⟩
  · exact a

theorem setOpState_byDevice (st : OpState) : ByDevice (setOpState st) :=
  .of_kept fun _ _ => ⟨rfl, rfl, [], (List.append_nil _).symm⟩

theorem setLastStatus_byDevice (v : Word) : ByDevice (setLastStatus v) :=
  .of_kept fun _ _ => ⟨rfl, rfl, [], (List.append_nil _).symm⟩

theorem tacAbandon_byDevice : ByDevice tacAbandon := .of_kept fun _ _ => ⟨rfl, rfl, _, rfl⟩

/-- A delivery extends the record, in a pass by its lock operations too (rule R186). -/
theorem deliver_trace (ev : BusEvent) (s : State) : ∃ out, (deliver ev s).trace = s.trace ++ out := by
  obtain ⟨-, out, run, -⟩ := deliver_acts ev s
  exact ⟨out, run.trace⟩

theorem deliver_byDevice (ev : BusEvent) : ByDevice (deliver ev) :=
  .of_kept fun s _ => ⟨deliver_env ev s, deliver_dev ev s, deliver_trace ev s⟩

theorem writeSts_byDevice (v : Word) : ByDevice (writeReg .sts v) :=
  .of_moves (e := writeEffect 0 .sts v) fun _ h => ⟨_, writeReg_moves h .sts v⟩

theorem ieAll_byDevice (b : Bool) : ByDevice (ieAll b) :=
  .of_moves (e := fun d => { d with ctrl := if b then d.ctrl ||| ctAllie else clearBits d.ctrl ctAllie })
    fun _ h => ⟨_, ieAll_moves h b⟩

theorem readSts_byDevice : ByDevice fun s => (readReg .sts s).2 := by
  refine ⟨fun d => { d with statusCause := false }, fun s h => ?_⟩
  simp only [readReg_sts_still h]
  exact ⟨h, rfl, _, rfl⟩

/-- Entering the warning or the passive state: a read of `ERRCNT` and a delivery (rule R192). -/
theorem errcnt_byDevice (ev : Word → BusEvent) (st : OpState) :
    ByDevice fun s => deliver (ev (readReg .errcnt s).1) (setOpState st (readReg .errcnt s).2) := by
  refine .of_kept fun s h => ?_
  obtain ⟨out, trace⟩ := deliver_trace (ev (readReg .errcnt s).1) (setOpState st (readReg .errcnt s).2)
  rw [setOpState_trace, readReg_trace, List.append_assoc] at trace
  refine ⟨?_, ?_, _, trace⟩ <;> simp [readReg_plain h .errcnt rfl]

theorem stEnterOp_byDevice (x : ErrState) : ByDevice (stEnterOp x) := by
  cases x with
  | warning => exact errcnt_byDevice (stateEvent false) .errorWarning
  | passive => exact errcnt_byDevice (stateEvent true) .errorPassive
  | busOff =>
    exact tacAbandon_byDevice.comp <| (ieAll_byDevice false).comp <|
      (deliver_byDevice .busOff).comp (setOpState_byDevice .busOff)

theorem statusEdges_byDevice (cur old : Word) : ByDevice (statusEdges cur old) := by
  have rises (x : ErrState) (m : Word) := (stEnterOp_byDevice x).runIf (rising cur old m)
  have falls (m : Word) := (setOpState_byDevice .errorActive).runIf (falling cur old m)
  exact (falls stEpass).comp <| (falls stBoff).comp <| (rises .busOff stBoff).comp <|
    (rises .passive stEpass).comp (rises .warning stEwarn)

theorem lecDecOp_byDevice (lec : BitVec 3) : ByDevice (lecDecOp lec) := by
  cases kind : lecKind lec with
  | none =>
    rw [lecDecOp_none kind]
    exact .of_kept fun _ _ => ⟨rfl, rfl, [], (List.append_nil _).symm⟩
  | some k =>
    rw [lecDecOp_some kind]
    exact (writeSts_byDevice 0x0007#16).comp (deliver_byDevice (.busError k))

theorem clearOkFlags_byDevice (cur : Word) : ByDevice (clearOkFlags cur) := (writeSts_byDevice _).runIf _

/-- `STCHG` in any phase leaves the device that it leaves outside a pass: its parts do not look at the phase, but for the
delivery locks. -/
theorem stChgOp_still_anyPhase {s : State} (h : Still s.env) :
    Still (stChgOp s).env ∧ (stChgOp s).dev = statusDevice s.h.lastStatus s.dev ∧
      ∃ ev, (stChgOp s).trace = s.trace ++ ev := by
  obtain ⟨e, parts⟩ := (lecDecOp_byDevice (s.dev.sts.extractLsb' 0 3)).comp <| (setLastStatus_byDevice s.dev.sts).comp <|
    (statusEdges_byDevice s.dev.sts s.h.lastStatus).comp <| (clearOkFlags_byDevice s.dev.sts).comp readSts_byDevice
  have outside := stChgOp_still (s := setPhase .idle s) (stillOutside_of_idle h rfl)
  obtain ⟨-, dev, -⟩ := parts (setPhase .idle s) h
  have same : e s.dev = statusDevice s.h.lastStatus s.dev :=
    dev.symm.trans ((congrArg State.dev (stChgOp_eq_parts (s := setPhase .idle s) h)).symm.trans outside.1)
  rw [stChgOp_eq_parts h, ← same]
  exact parts s h

/-! A pass on a status change. -/

theorem exec_intStatus {s : State} (hs : Ready s) (hp : PassReady s) :
    exec .intStatus s = .next (passWith Config.statusSentinel s) := answer_pass hs hp _

/-- The enables are clear where the branch begins, so that a rising bus-off clears none (rules R180, R192). -/
theorem statusDevice_masked (old : Word) (d : Device) :
    (statusDevice old { d with ctrl := d.ctrl &&& 0xFFF1#16 }).ctrl = d.ctrl &&& 0xFFF1#16 := by
  simp only [statusDevice, BitVec.and_assoc, BitVec.and_self, ite_self]

/-- Settles O39: the branch is `STCHG`, between the entry and the exit of the pass. -/
theorem passOnStatusChange : Obligations.PassOnStatusChange := by
  unfold Obligations.PassOnStatusChange
  intro s hs hp hb h cur old lec rises falls st
  have value : Config.statusSentinel ≠ 0#16 := by decide
  obtain ⟨-, entry, handle, -, held⟩ := passStart_spec h Config.statusSentinel
  have branched := passBranch_status (passStart Config.statusSentinel s)
  obtain ⟨result, between, after, kept⟩ := passWith_block h value branched hb
  obtain ⟨still, left, ev, trace⟩ := stChgOp_still_anyPhase entry.still
  obtain ⟨-, dev, -⟩ := passWith_acts h value branched ⟨still, left, ev, trace, rfl, rfl⟩
  obtain ⟨hh, hu⟩ := stChgOp_handle (passStart Config.statusSentinel s)
  have read : (readReg .sts (passStart Config.statusSentinel s)).1 = cur := by
    rw [readReg_sts_still entry.still, entry.dev]
  rw [read, handle, rising_stBoff] at hh hu
  have state : edgeState cur old s.h.state = st := by
    simp only [edgeState, rising_stEwarn, rising_stEpass, rising_stBoff, falling_stBoff, falling_stEpass]
    rfl
  rw [state] at hh
  rw [hh, entry.dev, handle] at dev
  refine ⟨_, exec_intStatus hs hp, result, between, ?_, ?_, ?_, ?_, ?_, ?_, ?_⟩
  · rw [after, hh]
  · rw [kept, hu, held]
  · rw [dev]
    simp only [statusDevice, lecKind_sts_isSome_iff]
    rfl
  · rw [dev]
    refine ⟨?_, rfl, rfl, rfl, rfl, rfl, rfl⟩
    simp only [statusDevice_masked, exitCtrl_masked]
  · rw [dev]
    exact fun _ => rfl
  · rw [dev]
    rfl
  · rw [dev]
    rfl

end Sys2Proof.Machine
end

section
/-! PROOFS. The enables across a pass, in any environment (60_exceptions.md rules R185, R224): the entry clears them, neither
the device nor a branch sets one, and the exit sets all three unless the block is in `BusOff`. -/

namespace Sys2Proof.Machine

/-- The three enables are clear (rule R100). -/
def EnablesClear (d : Device) : Prop := d.ctrl &&& 0x000E#16 = 0#16

/-- From one state to the next no enable is set where none was. -/
structure KeepsClear (s t : State) : Prop where
  clear : EnablesClear s.dev → EnablesClear t.dev

theorem KeepsClear.trans {s t u : State} (a : KeepsClear s t) (b : KeepsClear t u) : KeepsClear s u := ⟨b.clear ∘ a.clear⟩

theorem KeepsClear.of_ctrl_eq {s t : State} (h : t.dev.ctrl = s.dev.ctrl) : KeepsClear s t :=
  ⟨fun clear => by rwa [EnablesClear, h]⟩

theorem KeepsClear.of_dev_eq {s t : State} (h : t.dev = s.dev) : KeepsClear s t := .of_ctrl_eq (congrArg Device.ctrl h)

theorem KeepsClear.refl (s : State) : KeepsClear s s := ⟨id⟩

/-! The device (rules R66, R75 to R80). -/

theorem withTarget_ctrl (d : Device) (x : Option Slot) (o : MsgObj) : (withTarget d x o).ctrl = d.ctrl := by
  cases x <;> rfl

theorem moveTransfer_ctrl (seed : Nat) (choice : Word) (x : Xfer) (p : PortId) (d : Device) :
    (moveTransfer seed choice x p d).ctrl = d.ctrl := by
  unfold moveTransfer
  split <;> simp only [withTarget_ctrl, withPort_ctrl]

theorem finishTransfer_ctrl (seed : Nat) (p : PortId) (d : Device) : (finishTransfer seed p d).ctrl = d.ctrl := by
  unfold finishTransfer clearBusy
  rw [withPort_ctrl]
  split
  · rfl
  · rw [clearInflight, withPort_ctrl, moveTransfer_ctrl]

theorem abandonTransfer_ctrl (seed : Nat) (p : PortId) (d : Device) : (abandonTransfer seed p d).ctrl = d.ctrl := by
  unfold abandonTransfer
  split
  · rfl
  · rw [withPort_ctrl, moveTransfer_ctrl]

/-- Only a write of `CTRL` writes `CTRL` (rule R66). -/
theorem writeEffect_ctrl {r : Reg} (hr : r ≠ .ctrl) (seed : Nat) (v : Word) (d : Device) :
    (writeEffect seed r v d).ctrl = d.ctrl := by
  cases r with
  | ctrl => exact absurd rfl hr
  | port p q =>
    cases q with
    | comreq => exact (withPort_ctrl _ p _).trans (abandonTransfer_ctrl seed p d)
    | _ => exact withPort_ctrl d p _
  | _ => rfl

/-- A step of the device leaves `CTRL` or sets INIT in it (rule R75). -/
theorem deviceStep_ctrl (seed : Nat) (a : DevStep) (d : Device) :
    (deviceStep seed a d).ctrl = d.ctrl ∨ (deviceStep seed a d).ctrl = d.ctrl ||| ctInit := by
  cases a with
  | setInit =>
    simp only [deviceStep]
    split
    · exact .inr rfl
    · exact .inl rfl
  | setLec | receive | transmitted =>
    refine .inl ?_
    simp only [deviceStep]
    split <;> rfl
  | finish p => exact .inl (finishTransfer_ctrl seed p d)
  | _ => exact .inl rfl

theorem deviceStep_enablesClear (seed : Nat) (a : DevStep) {d : Device} (clear : EnablesClear d) :
    EnablesClear (deviceStep seed a d) := by
  obtain same | init := deviceStep_ctrl seed a d
  · rwa [EnablesClear, same]
  · rw [EnablesClear, init, BitVec.and_comm, BitVec.and_or_distrib_left, BitVec.and_comm, clear]
    rfl

/-! Accesses and transfers. -/

theorem takeDevSteps_keepsClear (l : List DevStep) (s : State) : KeepsClear s (takeDevSteps l s) := by
  induction l generalizing s with
  | nil => exact .refl s
  | cons a l ih =>
    have first : KeepsClear s (takeDevStep a s) := ⟨deviceStep_enablesClear _ a⟩
    exact first.trans (ih _)

theorem interleave_keepsClear (s : State) : KeepsClear s (interleave s) := by
  have used (e : Env) : KeepsClear s { s with env := e } := .of_dev_eq rfl
  have steps (l : List DevStep) (e : Env) : KeepsClear s (takeDevSteps l { s with env := e }) :=
    (used e).trans (takeDevSteps_keepsClear l _)
  unfold interleave
  split
  · exact steps _ _
  · split
    · exact steps _ _
    · exact .refl s

/-- A read leaves `CTRL` to the device. -/
theorem sampleReg_ctrl_eq (r : Reg) (s : State) : (sampleReg r s).2.dev.ctrl = s.dev.ctrl := by
  cases r with
  | int =>
    change (sampleInt s).2.dev.ctrl = _
    unfold sampleInt
    split
    · rfl
    · split <;> rfl
  | port p q =>
    change (sampleShadow p q s).2.dev.ctrl = _
    unfold sampleShadow
    split <;> rfl
  | _ => rfl

theorem readReg_keepsClear (r : Reg) (s : State) : KeepsClear s (readReg r s).2 :=
  (interleave_keepsClear s).trans (.of_ctrl_eq (sampleReg_ctrl_eq r _))

theorem writeReg_keepsClear {r : Reg} (hr : r ≠ .ctrl) (v : Word) (s : State) : KeepsClear s (writeReg r v s) :=
  (interleave_keepsClear s).trans (.of_ctrl_eq (writeEffect_ctrl hr _ v _))

theorem readComposite_keepsClear (b : Bitmap) (s : State) : KeepsClear s (readComposite b s).2 :=
  (readReg_keepsClear _ _).trans (readReg_keepsClear _ _)

theorem emit_keepsClear (e : Effect) (s : State) : KeepsClear s (emit e s) := .of_dev_eq rfl

theorem drawPolls_dev (s : State) : (drawPolls s).2.dev = s.dev := by
  unfold drawPolls
  split
  · rfl
  · split <;> rfl

theorem pollBusy_keepsClear (p : PortId) (n k : Nat) (s : State) : KeepsClear s (pollBusy p n k s).2 := by
  induction n generalizing k s with
  | zero => exact .refl s
  | succ n ih =>
    have finish : KeepsClear s (if k = 0 then deviceFinish p s else s) := by
      split
      · exact .of_ctrl_eq (finishTransfer_ctrl _ p _)
      · exact .refl s
    have round := finish.trans (readReg_keepsClear (.port p .comreq) _)
    simp only [pollBusy]
    generalize readReg (.port p .comreq) (if k = 0 then deviceFinish p s else s) = x at round ⊢
    split
    · exact (round.trans (emit_keepsClear _ _)).trans (ih _ _)
    · exact round

/-- A transfer, done or not. -/
theorem xfer_keepsClear (p : PortId) (sl : Slot) (cm : Word) (s : State) : KeepsClear s (xfer p sl cm s).2 := by
  have start := (writeReg_keepsClear (r := .port p .commsk) Reg.noConfusion cm s).trans
    (writeReg_keepsClear (r := .port p .comreq) Reg.noConfusion (slotWord sl) _)
  have drawn := start.trans (.of_dev_eq (drawPolls_dev _))
  simp only [xfer]
  generalize drawPolls (writeReg (.port p .comreq) (slotWord sl) (writeReg (.port p .commsk) cm s)) = k at drawn ⊢
  have polled := drawn.trans (pollBusy_keepsClear p Config.busyRetries k.1 k.2)
  split
  · exact polled
  · exact polled.trans (.of_ctrl_eq (abandonTransfer_ctrl _ p _))

theorem getXfer_keepsClear (p : PortId) (sl : Slot) (m : Word) (s : State) : KeepsClear s (getXfer p sl m s).2 :=
  xfer_keepsClear p sl m s

theorem writeShadows_keepsClear (p : PortId) (l : List (PortReg × Word)) (s : State) :
    KeepsClear s (writeShadows p l s) := by
  induction l generalizing s with
  | nil => exact .refl s
  | cons x l ih => exact (writeReg_keepsClear (r := .port p x.1) Reg.noConfusion _ _).trans (ih _)

theorem runPuts_keepsClear (p : PortId) (l : List PutStep) (s : State) : KeepsClear s (runPuts p l s) := by
  induction l generalizing s with
  | nil => exact .refl s
  | cons x l ih => exact ((writeShadows_keepsClear p _ s).trans (xfer_keepsClear _ _ _ _)).trans (ih _)

theorem invalOp_keepsClear (p : PortId) (sl : Slot) (s : State) : KeepsClear s (invalOp p sl s) :=
  runPuts_keepsClear p [(sl, cmInval, [(.arb1, 0), (.arb2, 0), (.mctrl, 0)])] s

theorem rewriteControl_keepsClear (p : PortId) (sl : Slot) (c : Word) (s : State) :
    KeepsClear s (rewriteControl p sl c s) :=
  runPuts_keepsClear p [(sl, cmCtl, [(.mctrl, c)])] s

theorem rewriteControls_keepsClear (p : PortId) (c : Word) (l : List Slot) (s : State) :
    KeepsClear s (rewriteControls p c l s) := by
  rw [rewriteControls_eq]
  exact runPuts_keepsClear p _ s

theorem decodePort_keepsClear (p : PortId) (c : Word) (s : State) : KeepsClear s (decodePort p c s).2 := by
  have word (r : PortReg) (k n : Nat) (t : State) : KeepsClear t (readDataWord p r k n t).2 := by
    unfold readDataWord
    split
    · exact readReg_keepsClear _ _
    · exact .refl t
  exact (((((readReg_keepsClear _ _).trans (readReg_keepsClear _ _)).trans (word _ _ _ _)).trans (word _ _ _ _)).trans
    (word _ _ _ _)).trans (word _ _ _ _)

/-! The drains (rules R166, R171, R183). -/

theorem deliver_keepsClear (ev : BusEvent) (s : State) : KeepsClear s (deliver ev s) :=
  .of_dev_eq (deliver_dev ev s)

theorem reactivate_keepsClear (p : PortId) (sl : Slot) (c : Word) (s : State) : KeepsClear s (reactivate p sl c s) := by
  unfold reactivate
  split
  · exact rewriteControl_keepsClear _ _ _ _
  · split
    · exact rewriteControls_keepsClear _ _ _ _
    · exact rewriteControl_keepsClear _ _ _ _

theorem rxScan_keepsClear (p : PortId) (l : List Slot) (s : State) : KeepsClear s (rxScan p l s) := by
  induction l generalizing s with
  | nil => exact .refl s
  | cons sl l ih =>
    have look := readComposite_keepsClear .intpnd s
    have fetch := (look.trans (getXfer_keepsClear p sl cmRx _)).trans (readReg_keepsClear (.port p .mctrl) _)
    simp only [rxScan]
    generalize readReg (.port p .mctrl) (getXfer p sl cmRx (readComposite .intpnd s).2).2 = c at fetch ⊢
    have lost : KeepsClear c.2 (rxLostOp p sl c.1 c.2) :=
      (rewriteControl_keepsClear _ _ _ _).trans (deliver_keepsClear _ _)
    have served : KeepsClear c.2 (deliverSlot p sl c.1 c.2) :=
      ((decodePort_keepsClear _ _ _).trans (deliver_keepsClear _ _)).trans (reactivate_keepsClear _ _ _ _)
    split
    · exact look.trans (ih _)
    · split
      · exact fetch
      · split
        · exact (fetch.trans lost).trans (ih _)
        · split
          · exact fetch.trans (ih _)
          · exact (fetch.trans served).trans (ih _)

theorem tacRel_keepsClear (s : State) : KeepsClear s (tacRel s) := by
  obtain ⟨-, -, dev, -⟩ := tacRel_spec s
  exact .of_dev_eq dev

theorem setTxEcho_keepsClear (v : Counter) (s : State) : KeepsClear s (setTxEcho v s) := .of_dev_eq rfl

theorem txDrainLoop_keepsClear (p : PortId) (n : Nat) (s : State) : KeepsClear s (txDrainLoop p n s) := by
  induction n generalizing s with
  | zero => exact .refl s
  | succ n ih =>
    have look := readComposite_keepsClear .txrqst s
    simp only [txDrainLoop]
    split
    · exact look.trans (tacRel_keepsClear _)
    · have freed := look.trans (invalOp_keepsClear p (txSlot s.h.txEcho) _)
      exact ((freed.trans (setTxEcho_keepsClear _ _)).trans (tacRel_keepsClear _)).trans (ih _)

theorem txDrainOp_keepsClear (s : State) : KeepsClear s (txDrainOp s) := by
  have drained := txDrainLoop_keepsClear Config.defaultPort (s.h.txNext - s.h.txEcho).toNat s
  unfold txDrainOp txBonus
  split
  · exact drained.trans (tacRel_keepsClear _)
  · exact drained

theorem loopbackOp_dev (s : State) : (loopbackOp s).dev = s.dev := by
  have sample : (drawLoopback s).2.dev = s.dev := by
    unfold drawLoopback
    split
    · rfl
    · split <;> rfl
  obtain ⟨-, -, locks, -⟩ := takeDeliveryLocks_spec (drawLoopback s).2
  simp only [loopbackOp]
  split
  · exact locks.trans sample
  · exact sample

/-! The enables themselves (rule R224). -/

/-- `IEALL` ends with its write of `CTRL`: whatever the device does before it, the enables are as written. -/
theorem ieAll_ctrl (e : Bool) (s : State) :
    (ieAll e s).dev.ctrl =
      if e then (readReg .ctrl s).1 ||| 0x000E#16 else (readReg .ctrl s).1 &&& 0xFFF1#16 := rfl

theorem ieAll_false_clear (s : State) : EnablesClear (ieAll false s).dev := by
  rw [EnablesClear, ieAll_ctrl, if_neg Bool.false_ne_true, BitVec.and_assoc]
  exact BitVec.and_zero

theorem ieAll_true_set (s : State) : (ieAll true s).dev.ctrl &&& 0x000E#16 = 0x000E#16 := by
  have absorb : ∀ a b : Bool, ((a || b) && b) = b := by decide
  rw [ieAll_ctrl, if_pos rfl]
  ext i
  rw [BitVec.getElem_and, BitVec.getElem_or, absorb]

/-! The status branch (rules R190 to R197). -/

theorem setOpState_keepsClear (st : OpState) (s : State) : KeepsClear s (setOpState st s) := .of_dev_eq rfl

theorem setLastStatus_keepsClear (v : Word) (s : State) : KeepsClear s (setLastStatus v s) := .of_dev_eq rfl

theorem stEnterOp_keepsClear (x : ErrState) (s : State) : KeepsClear s (stEnterOp x s) := by
  cases x with
  | warning | passive =>
    exact ((readReg_keepsClear .errcnt s).trans (setOpState_keepsClear _ _)).trans (deliver_keepsClear _ _)
  | busOff => exact ⟨fun _ => ieAll_false_clear _⟩

theorem runIf_keepsClear (b : Bool) {f : State → State} (h : ∀ s, KeepsClear s (f s)) (s : State) :
    KeepsClear s (runIf b f s) := by
  cases b
  · exact .refl s
  · exact h s

theorem statusEdges_keepsClear (cur old : Word) (s : State) : KeepsClear s (statusEdges cur old s) := by
  have rises (x : ErrState) (m : Word) := runIf_keepsClear (rising cur old m) (stEnterOp_keepsClear x)
  have falls (m : Word) := runIf_keepsClear (falling cur old m) (setOpState_keepsClear .errorActive)
  exact ((((rises .warning stEwarn s).trans (rises .passive stEpass _)).trans (rises .busOff stBoff _)).trans
    (falls stBoff _)).trans (falls stEpass _)

theorem lecDecOp_keepsClear (lec : BitVec 3) (s : State) : KeepsClear s (lecDecOp lec s) := by
  unfold lecDecOp
  split
  · exact (deliver_keepsClear _ _).trans (writeReg_keepsClear Reg.noConfusion _ _)
  · exact .refl s

theorem clearOkFlags_keepsClear (cur : Word) (s : State) : KeepsClear s (clearOkFlags cur s) :=
  runIf_keepsClear _ (writeReg_keepsClear Reg.noConfusion _) s

theorem stChgOp_keepsClear (s : State) : KeepsClear s (stChgOp s) :=
  ((((readReg_keepsClear .sts s).trans (clearOkFlags_keepsClear _ _)).trans (statusEdges_keepsClear _ _ _)).trans
    (setLastStatus_keepsClear _ _)).trans (lecDecOp_keepsClear _ _)

/-! A pass (rules R180, R185). -/

theorem passBranch_keepsClear (v : Word) (s : State) : KeepsClear s (passBranch v s) := by
  unfold passBranch
  split
  · exact stChgOp_keepsClear s
  · split
    · exact rxScan_keepsClear _ _ s
    · split
      · exact (txDrainOp_keepsClear s).trans (.of_dev_eq (loopbackOp_dev _))
      · exact .refl s

/-- The entry clears the enables (rule R180). -/
theorem enterPass_clear (s : State) : EnablesClear (enterPass s).dev := ieAll_false_clear s

/-- The exit sets the enables, or in `BusOff` leaves them clear (rule R185). -/
theorem exitPass_enables {s : State} (clear : EnablesClear s.dev) :
    ((exitPass s).h.state = .busOff → EnablesClear (exitPass s).dev) ∧
      ((exitPass s).h.state ≠ .busOff → (exitPass s).dev.ctrl &&& 0x000E#16 = 0x000E#16) := by
  obtain ⟨handle, -⟩ := exitPass_spec s
  obtain ⟨-, dev⟩ := lockFreed_spec s
  rw [handle, exitPass_eq, setPhase_dev]
  split
  · rename_i off
    rw [dev]
    exact ⟨fun _ => clear, fun on => absurd off on⟩
  · rename_i on
    exact ⟨fun off => absurd off on, fun _ => ieAll_true_set _⟩

/-- A handled pass leaves the enables as its state wants them, whatever the device does in between (rule R185). -/
theorem passOp_enables {s : State} (handled : (passOp s).result = .handled) :
    ((passOp s).h.state = .busOff → EnablesClear (passOp s).dev) ∧
      ((passOp s).h.state ≠ .busOff → (passOp s).dev.ctrl &&& 0x000E#16 = 0x000E#16) := by
  have nonzero : (readReg .int s).1 ≠ 0#16 := by
    intro zero
    rw [passOp_result, if_pos zero] at handled
    exact absurd handled nofun
  have pass : passOp s = withResult .handled (exitPass (passBranch (readReg .int s).1 (branchStart s))) := by
    simp only [passOp, beq_iff_eq, if_neg nonzero, branchStart]
  have clear : EnablesClear (passBranch (readReg .int s).1 (branchStart s)).dev :=
    (passBranch_keepsClear _ _).clear (enterPass_clear _)
  rw [pass, withResult_h, withResult_dev]
  exact exitPass_enables clear

/-- An `IRQ` or an interrupt-status value that answers is a pass (rules R105, R121). -/
theorem isPass_of_exec {i : Instr} {s t : State} (pass : i = .irq ∨ ∃ v, encode i = .int v) (h : exec i s = .next t) :
    IsPass s t := by
  obtain rfl | ⟨v, code⟩ := pass
  · obtain ⟨-, -, rfl⟩ := answer_eq_next_iff.1 h
    exact isPass_irq s
  · obtain ⟨-, formed, -⟩ := exec_next h
    rw [← decodeInt_of_encode code formed, exec_decodeInt] at h
    obtain ⟨-, -, rfl⟩ := answer_eq_next_iff.1 h
    exact isPass_with v s

/-- Settles O37: the entry clears the enables, the branch sets none, and the exit sets them all unless in `BusOff`. -/
theorem passLeavesEnables : Obligations.PassLeavesEnables := by
  unfold Obligations.PassLeavesEnables
  intro i s t pass h handled
  obtain ⟨v, rfl⟩ := isPass_of_exec pass h
  exact passOp_enables handled

end Sys2Proof.Machine
end

section
/-! PROOFS. Entering an error state outside a pass, and what a rising bus-off leaves in any environment
(45_bus_state_machine.md rules R192, R195). -/

namespace Sys2Proof.Machine

/-! The record of entering an error state (rule R192). -/

/-- What entering an error state puts into the record: its accesses and its effects, in order. -/
def entryRecord (x : ErrState) (d : Device) : List Event :=
  match x with
  | .warning => [.read .errcnt d.errcnt, .effect (.deliver (stateEvent false d.errcnt))]
  | .passive => [.read .errcnt d.errcnt, .effect (.deliver (stateEvent true d.errcnt))]
  | .busOff => [.effect (.deliver .busOff), .read .ctrl d.ctrl, .write .ctrl (d.ctrl &&& 0xFFF1#16),
      .effect .tacAbandonAll]

/-- Outside a pass a read of `ERRCNT` and the delivery of its event follow one another in the record. -/
theorem errcnt_trace {s : State} (hs : StillOutside s) (ev : Word → BusEvent) (st : OpState) :
    (deliver (ev (readReg .errcnt s).1) (setOpState st (readReg .errcnt s).2)).trace =
      s.trace ++ [.read .errcnt s.dev.errcnt, .effect (.deliver (ev s.dev.errcnt))] := by
  simp only [readReg_plain hs.1 .errcnt rfl]
  rw [deliver_outside (s := setOpState st (logEvent _ s)) hs.2]
  exact List.append_assoc _ _ _

theorem stEnterOp_trace {s : State} (hs : StillOutside s) (x : ErrState) :
    (stEnterOp x s).trace = s.trace ++ entryRecord x s.dev := by
  cases x with
  | warning => exact errcnt_trace hs (stateEvent false) .errorWarning
  | passive => exact errcnt_trace hs (stateEvent true) .errorPassive
  | busOff =>
    have off := (ieAll_moves (s := emit (.deliver .busOff) (setOpState .busOff s)) hs.1 false).trace
    rw [stEnterOp, deliver_outside (s := setOpState .busOff s) hs.2, tacAbandon, emit_trace]
    refine (congrArg (· ++ [Event.effect .tacAbandonAll]) off).trans ?_
    simp only [emit_trace, List.append_assoc]
    rfl

theorem exec_stenter {x : BitVec 2} {s : State} (hs : Ready s) (hx : x ≠ 3#2) :
    exec (.stenter x) s = .next (withResult .unit (stEnterOp (targetOf x) s)) :=
  answer_eq_next_iff.2 ⟨hs, (refuseIf_eq_none_iff _ _).2 (beq_eq_false_iff_ne.2 hx), rfl⟩

/-- Settles O44: the handle and the count of each target in any environment, and with nothing interleaved the device and
the record. -/
theorem enterErrorState : Obligations.EnterErrorState := by
  unfold Obligations.EnterErrorState
  intro x s hs hstill hp hx e tec rec' side off
  have outside := stillOutside_of_idle hstill hp
  obtain ⟨handle, held, -, locks⟩ := stEnterOp_spec (targetOf x) s
  obtain ⟨-, dev, -⟩ := stEnterOp_stillStep (targetOf x) s outside
  have record := stEnterOp_trace outside (targetOf x)
  refine ⟨_, exec_stenter hs hx, rfl, locks.1 outside.2, ?warning, ?passive, ?busOff⟩
  case warning | passive | busOff =>
    rintro rfl
    exact ⟨handle, held, dev, record⟩

/-! A rising bus-off, in any environment (rule R195). -/

/-- No edge after a rising bus-off writes a register or emits, so the edges leave the device and the record as an entry to
`BusOff` does. -/
theorem statusEdges_of_rising_boff {cur old : Word} (rises : rising cur old stBoff = true) (s : State) :
    ∃ u, (statusEdges cur old s).dev = (stEnterOp .busOff u).dev ∧
      (statusEdges cur old s).trace = (stEnterOp .busOff u).trace := by
  have recover (b : Bool) (t : State) : (runIf b (setOpState .errorActive) t).dev = t.dev ∧
      (runIf b (setOpState .errorActive) t).trace = t.trace := by cases b <;> exact ⟨rfl, rfl⟩
  simp only [statusEdges, rises, recover]
  exact ⟨_, rfl, rfl⟩

/-- The record of the entry to `BusOff` holds its two effects, whatever the device does and whatever the phase (rule
R192). -/
theorem stEnterOp_busOff_record (s : State) :
    Event.effect .tacAbandonAll ∈ (stEnterOp .busOff s).trace ∧
      Event.effect (.deliver .busOff) ∈ (stEnterOp .busOff s).trace := by
  simp [stEnterOp, tacAbandon, ieAll, deliver]

/-- What is on record before `LECDEC` is on record after it. -/
theorem lecDecOp_record (lec : BitVec 3) (s : State) : s.trace ⊆ (lecDecOp lec s).trace := by
  cases kind : lecKind lec with
  | none =>
    rw [lecDecOp_none kind]
    exact List.Subset.refl _
  | some k =>
    obtain ⟨out, trace⟩ := deliver_trace (.busError k) s
    rw [lecDecOp_some kind, Function.comp, writeReg_trace, trace, List.append_assoc]
    exact List.subset_append_left _ _

/-- The record and the enables after an `STCHG` that saw BOFF rise. -/
theorem stChgOp_of_rising_boff {s : State} (rises : rising (readReg .sts s).1 s.h.lastStatus stBoff = true) :
    Event.effect .tacAbandonAll ∈ (stChgOp s).trace ∧ Event.effect (.deliver .busOff) ∈ (stChgOp s).trace ∧
      EnablesClear (stChgOp s).dev := by
  obtain ⟨hh, -⟩ := (readReg_block .sts s).trans (clearOkFlags_block (readReg .sts s).1 (readReg .sts s).2)
  obtain ⟨u, dev, trace⟩ := statusEdges_of_rising_boff rises (clearOkFlags (readReg .sts s).1 (readReg .sts s).2)
  obtain ⟨abandoned, delivered⟩ := stEnterOp_busOff_record u
  have clear : EnablesClear (stEnterOp .busOff u).dev := ieAll_false_clear _
  simp only [stChgOp, hh]
  refine ⟨lecDecOp_record _ _ ?_, lecDecOp_record _ _ ?_, (lecDecOp_keepsClear _ _).clear ?_⟩
  · exact trace ▸ abandoned
  · exact trace ▸ delivered
  · exact dev ▸ clear

/-- `START` answers in a ready state with a cached timing (rule R212). -/
theorem exec_start_next {s : State} (hs : Ready s) (cached : s.h.btCache ≠ none) : ∃ t, exec .start s = .next t :=
  exec_next_iff.2 ⟨hs, (reasonOf_eq_none_iff s .start).2 ⟨rfl, fun excluded => cached excluded.2⟩⟩

/-- Settles O46: the handle of `STCHG` in any environment, its record and enables after the entry to `BusOff`, and the
state and the cache that `START` looks at. -/
theorem busOffTearsDown : Obligations.BusOffTearsDown := by
  unfold Obligations.BusOffTearsDown
  intro s t hs h rises
  obtain rfl : withResult .unit (stChgOp s) = t := Host.Outcome.next.inj ((exec_stchg hs).symm.trans h)
  obtain ⟨handle, held⟩ := stChgOp_handle s
  have seen : rising (readReg .sts s).1 s.h.lastStatus stBoff = true := by
    rwa [withResult_h, handle] at rises
  rw [if_pos seen] at handle held
  obtain ⟨abandoned, delivered, clear⟩ := stChgOp_of_rising_boff seen
  refine ⟨?_, held, abandoned, delivered, clear, fun off cached => exec_start_next ⟨?_, ?_⟩ ?_⟩
  · rw [withResult_h, handle]
  · rw [off]
    nofun
  · rw [withResult_h, handle]
    exact hs.2
  · rwa [withResult_h, handle]

end Sys2Proof.Machine
end

section
/-! PROOFS. The bit-timing configurator (46_bit_timing.md rules R200 to R204). What the two conversions of a parameter
record give is said in arithmetic, and by that the second undoes the first; `BTAPPLY` is its five accesses. -/

namespace Sys2Proof.Machine

/-! A parameter and its field, which holds it less 1 (rule R109). -/

/-- A parameter that is not 0 does not borrow. -/
theorem toNat_sub_one {n : Nat} {v : BitVec n} (hv : 1 ≤ v.toNat) : (v - 1#n).toNat = v.toNat - 1 := by
  have one : (1#n).toNat = 1 := by
    have := v.isLt
    rw [BitVec.toNat_ofNat, Nat.mod_eq_of_lt (by omega)]
  rw [BitVec.toNat_sub_of_le (by rwa [BitVec.le_def, one]), one]

theorem toNat_setWidth_sub_one {m n : Nat} {v : BitVec n} (hn : n ≤ m) (hv : 1 ≤ v.toNat) :
    ((v - 1#n).setWidth m).toNat = v.toNat - 1 := by
  rw [BitVec.toNat_setWidth_of_le hn, toNat_sub_one hv]

/-- A parameter is wider than its field, so it does not wrap. -/
theorem toNat_setWidth_add_one {m n : Nat} (v : BitVec n) (hn : n < m) : (v.setWidth m + 1#m).toNat = v.toNat + 1 := by
  have room : 2 ^ n < 2 ^ m := Nat.pow_lt_pow_right (by decide) hn
  have := v.isLt
  have := Nat.one_lt_two_pow (n := m) (by omega)
  rw [BitVec.toNat_add, BitVec.toNat_setWidth_of_le hn.le, BitVec.toNat_ofNat, Nat.mod_eq_of_lt (a := 1) (by omega),
    Nat.mod_eq_of_lt (by omega)]

/-- A field placed above a value that ends below it adds up with it. -/
theorem toNat_or_shiftLeft {w k m n : Nat} {x y : BitVec w} (hx : x.toNat = m) (hy : y.toNat = n) (below : m < 2 ^ k)
    (fits : 2 ^ k * n < 2 ^ w) : (x ||| y <<< k).toNat = m + 2 ^ k * n := by
  rw [BitVec.toNat_or, BitVec.toNat_shiftLeft, hx, hy, Nat.shiftLeft_eq, Nat.mul_comm n, Nat.mod_eq_of_lt fits,
    Nat.or_comm, ← Nat.two_pow_add_eq_or_of_lt below, Nat.add_comm]

/-! The two conversions in arithmetic (rules R200, R201). -/

theorem inRange_iff (b : BitTiming) : b.inRange = true ↔
    1 ≤ b.sjw.toNat ∧ b.sjw.toNat ≤ 4 ∧ 2 ≤ b.ts1.toNat ∧ b.ts1.toNat ≤ 16 ∧
      1 ≤ b.ps2.toNat ∧ b.ps2.toNat ≤ 8 ∧ 1 ≤ b.brp.toNat ∧ b.brp.toNat ≤ 1024 :=
  decide_eq_true_iff

/-- In the ranges no field of `BTR` reaches into the next, so `BTR` is their sum. -/
theorem toNat_btrOf {b : BitTiming} (hb : b.inRange = true) :
    (btrOf b).toNat = (b.brp.toNat - 1) % 64 + 64 * (b.sjw.toNat - 1) + 256 * (b.ts1.toNat - 1) +
      4096 * (b.ps2.toNat - 1) := by
  rw [inRange_iff] at hb
  have brp : ((b.brp - 1#11).setWidth 16 &&& 0x3F#16).toNat = (b.brp.toNat - 1) % 64 := by
    rw [BitVec.toNat_and, toNat_setWidth_sub_one (by decide) (by omega)]
    exact Nat.and_two_pow_sub_one_eq_mod _ 6
  have sjw := toNat_setWidth_sub_one (m := 16) (v := b.sjw) (by decide) (by omega)
  have ts1 := toNat_setWidth_sub_one (m := 16) (v := b.ts1) (by decide) (by omega)
  have ps2 := toNat_setWidth_sub_one (m := 16) (v := b.ps2) (by decide) (by omega)
  have low := toNat_or_shiftLeft (k := 6) brp sjw (by omega) (by omega)
  have mid := toNat_or_shiftLeft (k := 8) low ts1 (by omega) (by omega)
  exact toNat_or_shiftLeft (w := 16) (k := 12) mid ps2 (by omega) (by omega)

theorem toNat_brpextOf {b : BitTiming} (hb : b.inRange = true) : (brpextOf b).toNat = (b.brp.toNat - 1) / 64 := by
  obtain ⟨-, -, -, -, -, -, brp, -⟩ := (inRange_iff b).1 hb
  rw [brpextOf, BitVec.toNat_setWidth_of_le (by decide), BitVec.toNat_ushiftRight, toNat_sub_one brp]
  exact Nat.shiftRight_eq_div_pow _ 6

/-- The prescaler is spread over the two registers, the other parameters are fields of `BTR`. -/
theorem toNat_timingOf (btr brpext : Word) :
    (timingOf btr brpext).brp.toNat = (brpext.toNat % 16) * 64 + btr.toNat % 64 + 1 ∧
      (timingOf btr brpext).sjw.toNat = btr.toNat / 64 % 4 + 1 ∧
      (timingOf btr brpext).ts1.toNat = btr.toNat / 256 % 16 + 1 ∧
      (timingOf btr brpext).ps2.toNat = btr.toNat / 4096 % 8 + 1 := by
  have field (lsb : Nat) {m n : Nat} (hn : n < m) :
      ((btr.extractLsb' lsb n).setWidth m + 1#m).toNat = btr.toNat / 2 ^ lsb % 2 ^ n + 1 := by
    rw [toNat_setWidth_add_one _ hn, BitVec.extractLsb'_toNat, Nat.shiftRight_eq_div_pow]
  refine ⟨?_, field 6 (by decide), field 8 (by decide), field 12 (by decide)⟩
  rw [timingOf, toNat_setWidth_add_one _ (by decide)]
  refine congrArg (· + 1) ((BitVec.toNat_append _ _).trans ?_)
  rw [← Nat.shiftLeft_add_eq_or_of_lt (BitVec.isLt _), Nat.shiftLeft_eq]
  rfl

theorem timing_eq_of_toNat_eq {a b : BitTiming} (brp : a.brp.toNat = b.brp.toNat) (sjw : a.sjw.toNat = b.sjw.toNat)
    (ts1 : a.ts1.toNat = b.ts1.toNat) (ps2 : a.ps2.toNat = b.ps2.toNat) : a = b := by
  cases a
  cases b
  simp_all only [BitVec.toNat_inj]

/-- Settles O48: each field of the sum is a quotient and a remainder of it, and the prescaler that of its two parts. -/
theorem timingRoundTrip : Obligations.TimingRoundTrip := by
  unfold Obligations.TimingRoundTrip
  intro b hb
  obtain ⟨brp, sjw, ts1, ps2⟩ := toNat_timingOf (btrOf b) (brpextOf b)
  rw [toNat_btrOf hb] at brp sjw ts1 ps2
  rw [toNat_brpextOf hb] at brp
  rw [inRange_iff] at hb
  apply timing_eq_of_toNat_eq <;> omega

/-! The operations (rules R200 to R203). -/

/-- An operation on a record in the ranges answers in a ready state. -/
theorem answer_inRange {b : BitTiming} {s : State} (hs : Ready s) (hb : b.inRange = true) (t : State) :
    answer s (refuseIf (!b.inRange) .operandRange) t = .next t :=
  answer_eq_next_iff.2 ⟨hs, (refuseIf_eq_none_iff _ _).2 (by rw [hb]; rfl), rfl⟩

/-- Settles O47: the call is refused by its range alone, and what it answers with is `toNat_btrOf` and
`toNat_brpextOf`. -/
theorem timingWords : Obligations.TimingWords := by
  unfold Obligations.TimingWords
  intro b s hs
  refine ⟨inRange_iff b, fun hb => exec_of_reason hs (reasonOf_illFormed s hb), fun hb => ?_⟩
  have btr := toNat_btrOf hb
  have brpext := toNat_brpextOf hb
  have ranges := (inRange_iff b).1 hb
  exact ⟨btrOf b, brpextOf b, answer_inRange hs hb _, btr, brpext, by omega, Nat.testBit_lt_two_pow (by omega)⟩

/-- Settles O49. -/
theorem timingParameters : Obligations.TimingParameters := by
  unfold Obligations.TimingParameters
  intro btr brpext s hs
  exact ⟨timingOf btr brpext, answer_eq_next_iff.2 ⟨hs, rfl, rfl⟩, toNat_timingOf btr brpext⟩

/-- Settles O51: that no other operation changes the cache is a clause of O13. -/
theorem cacheTiming : Obligations.CacheTiming := by
  unfold Obligations.CacheTiming
  intro b s hs
  refine ⟨fun hb => answer_inRange hs hb _, fun hb => exec_of_reason hs (reasonOf_illFormed s hb), fun i t h => ?_⟩
  obtain ⟨-, -, -, -, cache, -⟩ := handleFieldWriters i s t h
  exact or_iff_not_imp_left.2 cache

/-- A write of a timing register that is not open leaves it old or new (93_implementation_defined.md U6). -/
theorem timingWrite_old_or_new (seed : Nat) (d : Device) (old v : Word) :
    timingWrite seed d old v = old ∨ timingWrite seed d old v = v := by
  unfold timingWrite
  split
  · exact .inr rfl
  · exact (ite_eq_or_eq _ v old).symm

/-- `BTAPPLY` in any mode: its accesses in order, and each timing register written as far as it is open with CCE set
(rule R202). -/
theorem btApplyOp_moves_anyMode {s : State} (h : Still s.env) (b : BitTiming) :
    ∃ m n, Moves s (btApplyOp b s)
      { s.dev with
        btr := timingWrite m { s.dev with ctrl := s.dev.ctrl ||| ctCce } s.dev.btr (btrOf b)
        brpext := timingWrite n { s.dev with ctrl := s.dev.ctrl ||| ctCce } s.dev.brpext (brpextOf b) }
      [.read .ctrl s.dev.ctrl, .write .ctrl (s.dev.ctrl ||| ctCce), .write .btr (btrOf b),
        .write .brpext (brpextOf b), .write .ctrl s.dev.ctrl] := by
  obtain ⟨value, read⟩ := readReg_moves h (r := .ctrl) rfl
  have opened := read.trans (writeReg_moves (read.env.still h) .ctrl ((readReg .ctrl s).1 ||| ctCce))
  have first := opened.trans (writeReg_moves (opened.env.still h) .btr (btrOf b))
  have second := first.trans (writeReg_moves (first.env.still h) .brpext (brpextOf b))
  have all : Moves s (btApplyOp b s) _ _ :=
    second.trans (writeReg_moves (second.env.still h) .ctrl (readReg .ctrl s).1)
  rw [second.dev, first.dev, opened.dev, read.dev, value] at all
  exact ⟨_, _, all⟩

/-- Settles O50: the accesses in any mode; with INIT set the timing registers are open once CCE is. -/
theorem applyTiming : Obligations.ApplyTiming := by
  unfold Obligations.ApplyTiming
  intro b s hs still hb c
  obtain ⟨m, n, ⟨handle, globals, held, -⟩, dev, trace, -⟩ := btApplyOp_moves_anyMode still b
  refine ⟨_, answer_inRange hs hb _, rfl, ⟨handle, globals, held⟩, trace, fun init => ?_, fun _ => ?_⟩
  · exact (btApplyOp_moves still ((hasAny_twoPow _ (i := 0) (by decide)).trans init) b).dev
  · rw [withResult_dev, dev]
    exact ⟨timingWrite_old_or_new _ _ _ _, timingWrite_old_or_new _ _ _ _, rfl⟩

end Sys2Proof.Machine
end

section
/-! PROOFS. The mode controller (47_mode_controller.md rules R210 to R215, R261), the admission counter (60_exceptions.md
rules R240 to R243) and `IEALL` (rule R224). -/

namespace Sys2Proof.Machine

/-! `STOP` and `IEALL`. -/

theorem exec_ieall (e : Bool) {s : State} (hs : Ready s) : exec (.ieall e) s = .next (withResult .unit (ieAll e s)) :=
  answer_eq_next_iff.2 ⟨hs, rfl, rfl⟩

theorem exec_stop {s : State} (hs : Ready s) : exec .stop s = .next (withResult .unit (stopOp s)) :=
  answer_eq_next_iff.2 ⟨hs, rfl, rfl⟩

/-- Settles O54: the enables are those of `IEALL 0`, and what follows it touches the block and the record alone. -/
theorem stopEndsOperation : Obligations.StopEndsOperation := by
  unfold Obligations.StopEndsOperation
  intro s hs still active off
  obtain ⟨handle, globals, held, dev, trace⟩ := stopOp_operating active
  have masked := ieAll_moves still false
  refine ⟨_, exec_stop hs, rfl, handle, held, globals, dev.trans masked.dev, ?_⟩
  rw [withResult_trace, trace, masked.trace, List.append_assoc]
  rfl

/-- Settles O42: the two accesses of `IEALL` are those of `ieAll_moves`. -/
theorem interruptEnables : Obligations.InterruptEnables := by
  unfold Obligations.InterruptEnables
  intro e s hs still c
  obtain ⟨⟨handle, globals, held, -⟩, dev, trace, -⟩ := ieAll_moves still e
  exact ⟨_, exec_ieall e hs, rfl, trace, dev, handle, globals, held⟩

/-! The registration of the handler (rules R211, R212). -/

/-- A registration that fails is on record and leaves the handler absent, in any environment. -/
theorem registerHandler_refused {s : State} (absent : s.h.irqRegistered = false)
    (reply : s.env.replies.head? = some false) :
    (registerHandler s).1 = false ∧ (registerHandler s).2.trace = s.trace ++ [.effect (.irqRegister s.h.irqLine)] := by
  obtain ⟨rest, replies⟩ := List.head?_eq_some_iff.1 reply
  simp [registerHandler, absent, drawReply, replies]

/-- A registration that is not refused succeeds, and a reply that is not given counts as success (log 2). -/
theorem registerHandler_accepted {s : State} (h : Prompt s.env)
    (reply : s.h.irqRegistered = false → s.env.replies.headD true = true) :
    (registerHandler s).1 = true ∧ Prompt (registerHandler s).2.env := by
  cases present : s.h.irqRegistered with
  | true => simpa [registerHandler, present] using h
  | false =>
    have accepted := reply present
    cases replies : s.env.replies with
    | nil => simpa [registerHandler, present, drawReply, replies, h.1.1] using h
    | cons b rest =>
      obtain rfl : b = true := by simpa [replies] using accepted
      simp only [registerHandler, present, drawReply, emit_env, replies]
      exact ⟨rfl, h⟩

theorem exec_start {s : State} (hs : Ready s) (may : ¬Excluded s .start) : exec .start s = .next (startOp s) :=
  answer_eq_next_iff.2 ⟨hs, (exclusion_eq_none_iff s .start).2 may, rfl⟩

/-- `START` in a state it has something to do in (rule R211). -/
theorem exec_start_stopped {s : State} {b : BitTiming} (hs : Ready s) (stopped : operating s.h = false)
    (cached : s.h.btCache = some b) : exec .start s = .next (startWith b s) := by
  rw [exec_start hs fun excluded => absurd (cached.symm.trans excluded.2) nofun]
  simp [startOp, stopped, cached]

/-- Settles O53: the block's guards, and a registration that fails in any environment. -/
theorem modeCallsWithoutEffect : Obligations.ModeCallsWithoutEffect := by
  unfold Obligations.ModeCallsWithoutEffect
  refine fun s hs => ⟨fun active => ?_, fun stopped cached absent reply => ?_, fun stopped => ?_⟩
  · rw [exec_start hs fun excluded => absurd (active.symm.trans excluded.1) nofun, startOp, if_pos active]
    rfl
  · obtain ⟨b, hb⟩ := Option.ne_none_iff_exists'.1 cached
    obtain ⟨refused, record⟩ := registerHandler_refused absent reply
    obtain ⟨handle, globals, held, dev, result⟩ := startWith_unavailable b refused
    refine ⟨_, exec_start_stopped hs stopped hb, result, ⟨handle, globals, held⟩, dev, ?_⟩
    simpa [startWith, refused] using record
  · rw [exec_stop hs, stopOp, stopped]
    rfl

/-! The admission counter (rules R241 to R243). -/

/-- Settles O56: the three cases of the counter. -/
theorem acquireUnit : Obligations.AcquireUnit := by
  unfold Obligations.AcquireUnit
  intro s hs
  have run : exec .tacacq s = .next (tacAcqOp s) := answer_eq_next_iff.2 ⟨hs, rfl, rfl⟩
  refine ⟨fun absent => ?_, fun empty => ?_, fun n left => ?_⟩
  · rw [run, tacAcqOp, absent]
    rfl
  · rw [run, tacAcqOp, empty]
    rfl
  · rw [run, tacAcqOp, left]
    rfl

/-- Settles O57: the two cases of the counter. -/
theorem releaseUnit : Obligations.ReleaseUnit := by
  unfold Obligations.ReleaseUnit
  intro s hs
  have run : exec .tacrel s = .next (withResult .unit (tacRel s)) := answer_eq_next_iff.2 ⟨hs, rfl, rfl⟩
  refine ⟨fun absent => ?_, fun n units => ?_⟩
  · rw [run, tacRel, absent]
    rfl
  · rw [run, tacRel, units]
    rfl

/-- Settles O58: the abandonment leaves no counter, and O56 says what a `TACACQ` then answers. -/
theorem abandonUnits : Obligations.AbandonUnits := by
  unfold Obligations.AbandonUnits
  intro s hs t
  exact ⟨answer_eq_next_iff.2 ⟨hs, rfl, rfl⟩, (acquireUnit t hs).1 rfl⟩

/-! The pool a `START` leaves: its flags, and the port that configured it (rules R163, R261). -/

/-- A bitmask composite is the word whose bits are the flags of the slots (rule R25). -/
theorem bitmapWord_eq {b : Bitmap} {d : Device} {v : Word32}
    (flags : ∀ k : Slot, bitmapFlag b (slotAt d k) = v.getLsbD k.val) : bitmapWord b d.ram = v :=
  BitVec.eq_of_getLsbD_eq fun i hi => (bitmapWord_slot b d ⟨i, hi⟩).trans (flags ⟨i, hi⟩)

/-- A slot configured for reception is valid and has no other flag; an invalidated one has none (rules R92, R163). -/
theorem bitmapFlag_configured (b : Bitmap) {o : MsgObj} (arb : o.arb = arbMsgval)
    (mctrl : o.mctrl = mcRxLast ∨ o.mctrl = mcRx) : bitmapFlag b o = decide (b = .msgval) := by
  rw [bitmapFlag_eq, arb]
  obtain word | word := mctrl
  · rw [word]
    cases b <;> decide
  · rw [word]
    cases b <;> decide

theorem bitmapFlag_invalidated (b : Bitmap) {o : MsgObj} (arb : o.arb = 0) (mctrl : o.mctrl = 0) :
    bitmapFlag b o = false := by
  rw [bitmapFlag_eq, arb, mctrl]
  cases b <;> rfl

/-- The receive slots are valid, and no slot has any other flag. -/
theorem poolSteps_flag (b : Bitmap) (p : PortId) (d : Device) (k : Slot) :
    bitmapFlag b (slotAt (putAll p poolSteps d) k) = decide (b = .msgval ∧ k.num ≤ 15) := by
  by_cases rx : k.num ≤ 15
  · obtain ⟨arb, -, mctrl⟩ := poolSteps_slot_rx p d rx
    rw [bitmapFlag_configured b arb (mctrl ▸ ite_eq_or_eq _ _ _)]
    simp [rx]
  · have slot := poolSteps_slot_tx p d (k := k) (by omega)
    rw [bitmapFlag_invalidated b (congrArg MsgObj.arb slot) (congrArg MsgObj.mctrl slot)]
    simp [rx]

theorem poolSteps_bitmap (b : Bitmap) (p : PortId) (d : Device) :
    bitmapWord b (putAll p poolSteps d).ram = if b = .msgval then 0x00007FFF#32 else 0#32 := by
  refine bitmapWord_eq fun k => (poolSteps_flag b p d k).trans ?_
  revert k
  cases b <;> decide

/-- The port as the configuration of slot 15, the last of the pool, leaves it: its data registers and what is in flight are
the only fields not written. -/
def configuredPort (q : PortRegs) : PortRegs :=
  { q with
    commsk := 0x00F3#16, comreq := 0x000F#16, mask1 := 0, mask2 := 0, arb1 := 0, arb2 := 0x8000#16,
    mctrl := 0x1480#16, timedOut := none }

/-- No step of a sequence writes a data register. -/
def NoData (l : List PutStep) : Prop := ∀ x ∈ l, ∀ y ∈ x.2.2, y.1 ∉ [PortReg.data1, .data2, .data3, .data4]

theorem configuredPort_shadowSets {l : List (PortReg × Word)}
    (plain : ∀ y ∈ l, y.1 ∉ [PortReg.data1, .data2, .data3, .data4]) (q : PortRegs) :
    configuredPort (shadowSets q l) = configuredPort q := by
  induction l generalizing q with
  | nil => rfl
  | cons y l ih =>
    obtain ⟨r, v⟩ := y
    have kept : configuredPort (shadowSet q r v) = configuredPort q := by
      have head := plain (r, v) List.mem_cons_self
      cases r with
      | data1 | data2 | data3 | data4 => simp at head
      | _ => rfl
    exact (ih (fun z hz => plain z (List.mem_cons_of_mem _ hz)) _).trans kept

theorem putAll_configuredPort {p : PortId} {l : List PutStep} (plain : NoData l) (d : Device) :
    configuredPort (portOf (putAll p l d) p) = configuredPort (portOf d p) := by
  induction l generalizing d with
  | nil => rfl
  | cons x l ih =>
    rw [putAll, ih fun y hy => plain y (List.mem_cons_of_mem _ hy), putFrom, portOf_withSlot, portOf_withPort]
    exact configuredPort_shadowSets (plain x List.mem_cons_self) _

theorem invalSteps_noData (l : List Slot) : NoData (invalSteps l) := by
  intro x hx
  obtain ⟨sl, -, rfl⟩ := List.mem_map.1 hx
  simp

theorem rxcfgSteps_noData (mcont : Word) (l : List Slot) : NoData (rxcfgSteps mcont l) := by
  intro x hx
  obtain ⟨sl, -, rfl⟩ := List.mem_map.1 hx
  simp

/-- The port keeps what the configuration of slot 15 has left in it. -/
theorem poolSteps_port (p : PortId) (d : Device) : portOf (putAll p poolSteps d) p = configuredPort (portOf d p) := by
  have last (e : Device) :
      portOf (putAll p (rxcfgSteps mcRxLast (slotsFrom 15 15)) e) p = configuredPort (portOf e p) := by
    rw [show slotsFrom 15 15 = [slotOf 15] by decide]
    change portOf (putFrom p (slotOf 15) cmRx _ e) p = _
    rw [rxcfg_putFrom, portOf_withSlot, portOf_withPort]
    rfl
  rw [putAll_poolSteps, last, putAll_configuredPort (rxcfgSteps_noData _ _), putAll_configuredPort (invalSteps_noData _)]

/-! `START` (rules R211, R261). -/

/-- `RamInit` leaves the registers and gives the memory some contents (rule R238). -/
theorem ramInit_dev (s : State) : ∃ ram, (ramInit s).dev = { s.dev with ram := ram } := ⟨_, rfl⟩

theorem ramInit_prompt {s : State} (h : Prompt s.env) : Prompt (ramInit s).env := ⟨⟨h.1.1, h.1.2⟩, h.2⟩

/-- What a successful `START` leaves in the device: the pool in a memory that `RamInit` has left with any contents, and the
registers of `CHIPCFG` with the enables set. -/
theorem startWith_dev {s : State} (h : Prompt s.env) (hp : PortIdle s.dev .if0) (b : BitTiming)
    (reply : s.h.irqRegistered = false → s.env.replies.headD true = true) :
    ∃ ram, (startWith b s).dev =
      { putAll .if0 poolSteps { s.dev with ram := ram } with
        ctrl := testFlag s.h.testMode ||| ctAllie
        test := if s.h.testMode = .none then s.dev.test else testBits s.h.testMode
        sts := clearBits s.dev.sts stWritable ||| 7#16
        btr := btrOf b
        brpext := brpextOf b } := by
  obtain ⟨accepted, registered⟩ := registerHandler_accepted h reply
  have prompt := ramInit_prompt registered
  obtain ⟨handle, -, -, -, dev⟩ := registerHandler_spec s
  obtain ⟨ram, cleared⟩ := ramInit_dev (registerHandler s).2
  rw [dev] at cleared
  obtain ⟨ev, chip, -⟩ := chipCfgOp_exact (s := ramInit (registerHandler s).2) prompt (by rw [cleared]; exact hp) b
  have mode : (ramInit (registerHandler s).2).h.testMode = s.h.testMode := by
    rw [(ramInit_block _).1, handle]
  simp only [startWith, accepted, if_true, withResult_dev]
  have still := (chip.prompt prompt).1
  have configured := chip.dev
  rw [mode, cleared] at configured
  generalize chipCfgOp b (ramInit (registerHandler s).2) = t at still configured ⊢
  refine ⟨ram, (ieAll_moves (s := { withHandle (startHandle t.h) t with held := 0 }) still true).dev.trans ?_⟩
  simp only [withHandle_dev, configured, if_true]

/-- Settles O52: the handle of `startWith_registered`, and row by row the device of `startWith_dev`. -/
theorem startEstablishes : Obligations.StartEstablishes := by
  unfold Obligations.StartEstablishes
  intro s b hs h hp between stopped cached reply tm
  have run := exec_start_stopped hs stopped cached
  obtain ⟨handle, globals, held, result⟩ := startWith_registered b (registerHandler_accepted h reply).1
  obtain ⟨ram, dev⟩ := startWith_dev h hp b reply
  obtain ⟨-, -, errcnt, -, -, -, cause⟩ := putAll_globals .if0 poolSteps { s.dev with ram := ram }
  have test : (startWith b s).dev.test = if s.h.testMode = .none then s.dev.test else testBits s.h.testMode :=
    congrArg Device.test dev
  have bits := poolSteps_bitmap (p := .if0) (d := { s.dev with ram := ram })
  refine ⟨_, run, result, handle, exec_betweenPasses run between, held, globals, ?_, ?_, ?_⟩
  · rw [dev]
    exact BitVec.or_comm _ _
  · rw [test]
    cases s.h.testMode <;> rfl
  rw [dev]
  refine ⟨rfl, rfl, rfl, errcnt, cause, fun k hk => ?_, fun k hk => ?_, fun k hk => ?_, bits .txrqst, bits .newdat,
    bits .intpnd, bits .msgval, poolSteps_port .if0 { s.dev with ram := ram },
    putAll_otherPort .if0 poolSteps { s.dev with ram := ram } .if1 nofun⟩
  · obtain ⟨arb, mask, mctrl⟩ := poolSteps_slot_rx .if0 { s.dev with ram := ram } (k := k) (by omega)
    exact ⟨arb, mctrl.trans (if_neg (by omega)), mask⟩
  · obtain ⟨arb, mask, mctrl⟩ := poolSteps_slot_rx .if0 { s.dev with ram := ram } hk.le
    exact ⟨arb, mctrl.trans (if_pos hk), mask⟩
  · have slot := poolSteps_slot_tx .if0 { s.dev with ram := ram } hk
    exact ⟨congrArg MsgObj.arb slot, congrArg MsgObj.mctrl slot⟩

end Sys2Proof.Machine
end
